-- ==== Sys2Proof/Word.lean ====
section
/-! DEFINITION. The words of the Spatrel 410: what the manual treats as bits.
Arithmetic on them stands in Machine/Ops.lean. -/

namespace Sys2Proof

/-- One byte of a frame, of an image block or of a command's payload (R194). -/
abbrev Byte := BitVec 8

/-- One sample of a load channel: a signed 16-bit value in two's complement (R1). -/
abbrev Sample := BitVec 16

/-- A site time: an unsigned 48-bit count of microseconds (Conventions, "Site time"; R78). -/
abbrev SiteTime := BitVec 48

/-- A 16-bit counter. -/
abbrev Count16 := BitVec 16

/-- A 32-bit counter. -/
abbrev Count32 := BitVec 32

end Sys2Proof
end

