-- ==== Sys2Proof/Syntax.lean ====
section
/-! DEFINITION. The commands of the block: one constructor of `Instr` for each row of spec/opcode_table.json,
with the operands its rule needs (the table itself lists no fields; the operands are the model's reading, log 7, 12, 13). -/

namespace Sys2Proof

/-- The four load channels (00_scope.md "The lane and its sensors"). -/
inductive Channel where
  | ll | lr | tl | tr
  deriving DecidableEq, Repr

/-- One value per load channel. -/
structure PerChannel (α : Type) where
  ll : α
  lr : α
  tl : α
  tr : α
  deriving DecidableEq, Repr

/-- The two pavement probes. -/
inductive Probe where
  | p0 | p1
  deriving DecidableEq, Repr

/-- The three trigger outputs. -/
inductive Output where
  | trg0 | trg1 | trg2
  deriving DecidableEq, Repr

/-- A level of a pin. -/
inductive PinLevel where
  | low | high
  deriving DecidableEq, Repr

/-- The commands, in the table's order. Each constructor's docstring names its row's rule and its operands. -/
inductive Instr where
  /-- POWER_ON (R179): power is applied or RST_N is released. -/
  | powerOn
  /-- RESET_ASSERT (R179): RST_N is driven low. -/
  | resetAssert
  /-- CONFIG_BLOCK_READ (R177): the read of one image block completes; `bytes` are the bytes of the configuration
  memory from the block's first byte on (a byte not given reads 0xFF, as absent memory does). -/
  | configBlockRead (bytes : List Byte)
  /-- HOLD_N_LEVEL_TAKEN (R182): HOLD_N has held `level` for 20 ms. -/
  | holdNLevelTaken (level : PinLevel)
  /-- SAMPLE_INSTANT (R1): the sampling tick; the samples of LL, LR, TL, TR. -/
  | sampleInstant (ll lr tl tr : Sample)
  /-- HIT_END_BY_TAIL (R7): a sampling tick whose sample of `ch` brings its tail count to Ntail. -/
  | hitEndByTail (ch : Channel) (x : PerChannel Sample)
  /-- HIT_END_BY_COUNT_EXPIRY (R8): a sampling tick whose sample of `ch` brings its length count to Lmax. -/
  | hitEndByCountExpiry (ch : Channel) (x : PerChannel Sample)
  /-- STUCK_QUIET_RETURN (R9): a sampling tick whose sample of `ch` brings its quiet count to Ntail in STUCK. -/
  | stuckQuietReturn (ch : Channel) (x : PerChannel Sample)
  /-- FORCED_REBASELINE (R9): a sampling tick whose sample of `ch` takes its stuck count past the stuck limit. -/
  | forcedRebaseline (ch : Channel) (x : PerChannel Sample)
  /-- DRIFT_MARK (R15): a sampling tick whose sample of `ch` brings its drift count to 8,000. -/
  | driftMark (ch : Channel) (x : PerChannel Sample)
  /-- LEADING_ENTRY_EXPIRY (R23): at a sampling instant, leading FIFO entries are older than E. -/
  | leadingEntryExpiry
  /-- COINCIDENCE_CHECK (R33): at a sampling instant, check times are reached. -/
  | coincidenceCheck
  /-- MEASUREMENT_INTERVAL_START (R43). -/
  | measurementIntervalStart
  /-- SETTLE_END (R43): 20 ms of settling are over. -/
  | settleEnd
  /-- CONVERSION_COMPLETE (R44): an 80 ms conversion completes with the result `code`. -/
  | conversionComplete (code : BitVec 16)
  /-- TEMP_TIMER_EXPIRY (R52): the TEMP timer of `probe` reaches 10 s. -/
  | tempTimerExpiry (probe : Probe)
  /-- PEER_TEMP_ENTRY_REMOVAL (R51). -/
  | peerTempEntryRemoval
  /-- HELD_VALUE_EXPIRY (R55). -/
  | heldValueExpiry
  /-- WOULD_BE_START (R65). -/
  | wouldBeStart
  /-- CONTENTION_LOSS (R61): in the priority field the sender reads dominant where it drove recessive. -/
  | contentionLoss
  /-- PAYLOAD_MISMATCH (R62): a read-back differs after the priority field. -/
  | payloadMismatch
  /-- FRAME_COMPLETE (R67): the end element of the frame being sent has gone out. -/
  | frameComplete
  /-- FRAME_RECEIVED (R69): the frame being followed ends, or ends early; `bytes` are the bytes received:
  priority field, length byte, payload, CRC low, CRC high (fewer when the line went quiet before the end). -/
  | frameReceived (bytes : List Byte)
  /-- BLIND_INTERVAL_REMOVAL (R74). -/
  | blindIntervalRemoval
  /-- DISPATCHER_PORT_GRANT (R92). -/
  | dispatcherPortGrant
  /-- PEER_WHEEL_AGED (R93). -/
  | peerWheelAged
  /-- DECISION_TIME_REACHED (R95). -/
  | decisionTimeReached
  /-- AXLE_FORMER_HOLD (R95). -/
  | axleFormerHold
  /-- CLOSE_TIME_REACHED (R119). -/
  | closeTimeReached
  /-- STEP_LOG_ENTRY_REMOVAL (R86). -/
  | stepLogEntryRemoval
  /-- TIME_DUE_POINT (R84). -/
  | timeDuePoint
  /-- JOIN_WINDOW_END (R85). -/
  | joinWindowEnd
  /-- CLASS_WALK_START (R131). -/
  | classWalkStart
  /-- CLASS_WALK_END (R143). -/
  | classWalkEnd
  /-- FIRING_DUE (R171): firings of output `out` have reached their due time. -/
  | firingDue (out : Output)
  /-- PULSE_END (R172): the pulse of output `out` ends. -/
  | pulseEnd (out : Output)
  /-- HOLD (R188): the command, as the dispatcher hands it over; `args` are the payload bytes after the command code. -/
  | hold (args : List Byte)
  /-- RELEASE (R188). -/
  | release (args : List Byte)
  /-- RESTART (R188). -/
  | restart (args : List Byte)
  /-- REQUEST_STATUS (R188). -/
  | requestStatus (args : List Byte)
  /-- REQUEST_TOTALS (R159, R188). -/
  | requestTotals (args : List Byte)
  /-- CLEAR_MARKS (R188): well formed, `args` are the change-mark mask and the fault-mark mask. -/
  | clearMarks (args : List Byte)
  /-- REBASELINE (R13, R188): well formed, `args` is the channel mask. -/
  | rebaseline (args : List Byte)
  /-- UNKNOWN_COMMAND (R186): a command whose kind code names none of the seven. -/
  | unknownCommand (code : Byte) (args : List Byte)
  /-- STATUS_PERIODIC_TIMER (R191). -/
  | statusPeriodicTimer
  /-- STATUS_DEFERRED_REQUEST (R191). -/
  | statusDeferredRequest
  /-- START_MARK_RECEIVED (R60): another station's start mark appears on the line. -/
  | startMarkReceived
  /-- LENGTH_BYTE_OVER_120 (R69): the length byte of the frame being followed exceeds 120. -/
  | lengthByteOver120
  deriving DecidableEq, Repr

end Sys2Proof
end

