-- ==== Sys2Proof/Decode.lean ====
section
/-! DEFINITION. The command a word of table bits spells. No row of spec/opcode_table.json gives bits
("n_rows_with_fixed": 0 in spec/98_reader.md), so no word spells a command. -/

namespace Sys2Proof

/-- The rows of the table give no bits: no word spells a command. -/
def decodeTableWord (_nbits _w : Nat) : Option Instr := none

end Sys2Proof
end

