-- ==== Sys2Proof/Config.lean ====
section
/-! DEFINITION. What the configuration image fixes: the contents of its blocks as values (section 11.1, 12.5).
The manual leaves no result of a command open, so no free value stands here. The defaults of the optional blocks
and all constants of the rules stand in Machine/Ops.lean. -/

namespace Sys2Proof

/-- One value per side of the lane. -/
structure PerSide (α : Type) where
  left : α
  right : α
  deriving DecidableEq, Repr

/-- One value per pavement probe. -/
structure PerProbe (α : Type) where
  p0 : α
  p1 : α
  deriving DecidableEq, Repr

/-- One value per trigger output. -/
structure PerOutput (α : Type) where
  trg0 : α
  trg1 : α
  trg2 : α
  deriving DecidableEq, Repr

/-- A set of change marks (section 11.5): the marks themselves, and the attention mask. -/
structure MarkSet where
  state : Bool
  channels : Bool
  probes : Bool
  time : Bool
  bus : Bool
  deriving DecidableEq, Repr

/-- No change mark in the set. -/
def MarkSet.clear : MarkSet := { state := false, channels := false, probes := false, time := false, bus := false }

/-- The bit rates of R59. -/
inductive BitRate where
  | k125 | k250 | k500
  deriving DecidableEq, Repr

/-- The STATION block (section 11.1, 12.5). -/
structure StationBlock where
  number : Nat
  leftNeighbour : Option Nat
  rightNeighbour : Option Nat
  group : Nat
  bitRate : BitRate
  lineDelay : Nat
  keepMarks : Bool
  attentionMask : MarkSet
  deriving DecidableEq, Repr

/-- The STRIPS block: section 1.1 "Channel parameters" and section 2.1. `spacing` is S; `cal` holds C per channel. -/
structure StripsBlock where
  spacing : Nat
  thOn : Nat
  thOff : Nat
  ntail : Nat
  lmax : Nat
  stuckLimit : Nat
  bwin : Nat
  deadCount : Nat
  cal : PerChannel Nat
  deriving DecidableEq, Repr

/-- The ASSEMBLY block: sections 6.1, 7.1 and 8.1. -/
structure AssemblyBlock where
  dc : Nat
  lp : Nat
  smax : Nat
  tmax : Nat
  gmax : Nat
  singleLimit : Option Nat
  tandemLimit : Option Nat
  tridemLimit : Option Nat
  quadLimit : Option Nat
  deriving DecidableEq, Repr

/-- The parameters of one probe (section 3.1). -/
structure ProbeParams where
  enable : Bool
  gain : Nat
  offset : Int
  deriving DecidableEq, Repr

/-- The PROBES block (section 3.1). -/
structure ProbesBlock where
  probe : PerProbe ProbeParams
  interval : Nat
  reference : Int
  deriving DecidableEq, Repr

/-- One point of a factor table (R35). -/
structure FactorPoint where
  key : Int
  factor : Nat
  deriving DecidableEq, Repr

/-- The FACTORS block (R35, R197); an absent table is the empty list. -/
structure FactorsBlock where
  temperature : List FactorPoint
  speed : List FactorPoint
  deriving DecidableEq, Repr

/-- One rule of the class table (R136). -/
structure ClassRule where
  code : Fin 32
  axleMin : Nat
  axleMax : Nat
  singleWheelOnly : Bool
  pattern : Option (List Nat)
  gaps : Option (List (Nat × Nat))
  grossRange : Option (Nat × Nat)
  grossLimit : Option Nat
  deriving DecidableEq, Repr

/-- The source of a trigger output (chapter 10). -/
inductive TriggerSource where
  | front | heavy | classed
  deriving DecidableEq, Repr

/-- The configuration of one trigger output (section 10.1). -/
structure TriggerParams where
  enable : Bool
  source : TriggerSource
  threshold : Nat
  classSet : BitVec 32
  polarityLow : Bool
  distance : Nat
  width : Nat
  deriving DecidableEq, Repr

/-- An accepted image, less the STATION block, with the defaults of the blocks it lacked filled in (R178). -/
structure Image where
  strips : StripsBlock
  assembly : AssemblyBlock
  probes : ProbesBlock
  factors : FactorsBlock
  rules : List ClassRule
  triggers : PerOutput TriggerParams
  deriving DecidableEq, Repr

end Sys2Proof
end

