-- ==== Sys2Proof/Machine/State.lean ====
section
/-! DEFINITION. The state of the Spatrel 410 as plain data: everything the manual gives the part, block by block,
and the queue of commands. INVENTORY.md lists each item with its rule and its reset value. -/

namespace Sys2Proof.Machine

/-! ## LCU: load channels (chapter 1) -/

/-- Channel state (section 1.3). -/
inductive ChannelState where
  | idle | pulse | tail | stuck
  deriving DecidableEq, Repr

/-- The cause held by a channel's fault mark (R14). -/
inductive ChannelMark where
  | dead | drift | stuckLong
  deriving DecidableEq, Repr

/-- The hit flags of R10. -/
structure HitFlags where
  stretched : Bool
  clipped : Bool
  areaSat : Bool
  deriving DecidableEq, Repr

/-- The channel record of section 1.1. `baseline` is B, in 1/64 counts. -/
structure ChannelRecord where
  state : ChannelState
  baseline : Int
  seedPending : Bool
  startTime : SiteTime
  tailTime : SiteTime
  area : Nat
  peak : Nat
  flags : HitFlags
  lengthCount : Nat
  tailCount : Nat
  stuckCount : Nat
  quietCount : Nat
  driftCount : Nat
  missCounter : Nat
  mark : Option ChannelMark
  deriving DecidableEq, Repr

/-- A completed hit (R11). -/
structure Hit where
  channel : Channel
  startTime : SiteTime
  endTime : SiteTime
  area : Nat
  peak : Nat
  flags : HitFlags
  deriving DecidableEq, Repr

/-- The sample time as it was read at one sampling instant: the instant on the own clock, and the site time read there (R1; log 7). -/
structure SampleStamp where
  instant : Nat
  time : SiteTime
  deriving DecidableEq, Repr

/-- The load channel unit. `lastSample` is the own-clock instant of the last sampling instant, absent until the first one
after the station leaves LOADING (R1; log 41). `stamp` is the sample time last read, absent until a
first one is (R1; log 7, 41). `inputs` holds the levels last given at the four analog inputs (log 41). -/
structure Lcu where
  channels : PerChannel ChannelRecord
  lastSample : Option Nat
  stamp : Option SampleStamp
  inputs : PerChannel Sample
  deriving DecidableEq, Repr

/-! ## PSE: pairing and speed engine (chapter 2) -/

/-- A side of the lane. -/
inductive Side where
  | left | right
  deriving DecidableEq, Repr

/-- The source of an effective temperature (R54). -/
inductive TempSource where
  | ownSurface | ownDepth | peerSurface | peerDepth | held | reference
  deriving DecidableEq, Repr

/-- The wheel flags of R28. -/
structure WheelFlags where
  orphanLead : Bool
  orphanTrail : Bool
  single : Bool
  clipped : Bool
  stretched : Bool
  areaSat : Bool
  qSat : Bool
  loadSat : Bool
  lowSpeed : Bool
  timeStep : Bool
  deriving DecidableEq, Repr

/-- A wheel record (R27). -/
structure Wheel where
  number : Count16
  side : Side
  leadStart : Option SiteTime
  trailStart : Option SiteTime
  speed : Option Nat
  qLead : Option Nat
  qTrail : Option Nat
  temperature : Int
  source : TempSource
  runStart : Option SiteTime
  load : Option Nat
  flags : WheelFlags
  deriving DecidableEq, Repr

/-- A record of the local wheel store (R31): open until the VAU closes it. -/
structure StoreRecord where
  wheel : Wheel
  isOpen : Bool
  deriving DecidableEq, Repr

/-- A coincidence check waiting for its check time (R32). -/
structure Check where
  side : Side
  leadStart : SiteTime
  trailStart : SiteTime
  window : Nat
  checkTime : SiteTime
  deriving DecidableEq, Repr

/-- The pairing and speed engine (section 2.1). -/
structure Pse where
  fifo : PerSide (List Hit)
  history : PerChannel (List SiteTime)
  checks : List Check
  store : List StoreRecord
  wheelCounter : Count16
  deriving DecidableEq, Repr

/-! ## PTU: pavement temperature unit (chapter 3) -/

/-- Converter state with the selected probe and the own-clock instant at which the phase began (R43). -/
inductive Converter where
  | idle
  | settle (probe : Probe) (since : Nat)
  | convert (probe : Probe) (since : Nat)
  deriving DecidableEq, Repr

/-- Probe quality (section 3.4). -/
inductive Quality where
  | none | good | stale | faultOpen | faultShort | faultRange
  deriving DecidableEq, Repr

/-- The cause held by a probe's fault mark (R45). -/
inductive ProbeMark where
  | openCircuit | shortCircuit | range
  deriving DecidableEq, Repr

/-- The own temperature table entry of a probe (section 3.5, R49); its station and group are the STATION block's. The receive
time is mandatory as in every entry of the table; it holds no meaning before the first update (log 9). -/
structure OwnEntry where
  value : Option Int
  quality : Quality
  receiveTime : SiteTime
  deriving DecidableEq, Repr

/-- The state of one probe (section 3.1). `tempTimer` is the own-clock instant from which its TEMP timer counts,
absent while it does not run. -/
structure ProbeState where
  seeded : Bool
  filtered : Int
  reject : Nat
  stale : Nat
  quality : Quality
  mark : Option ProbeMark
  jumps : Count16
  tempTimer : Option Nat
  own : OwnEntry
  deriving DecidableEq, Repr

/-- A peer entry of the temperature table (section 3.5). -/
structure PeerTemp where
  station : Nat
  probe : Probe
  value : Option Int
  quality : Quality
  group : Nat
  receiveTime : SiteTime
  deriving DecidableEq, Repr

/-- The held value (R55). -/
structure HeldValue where
  value : Int
  obtained : SiteTime
  deriving DecidableEq, Repr

/-- The pavement temperature unit. `intervalStart` is the own-clock instant at which the running measurement
interval began, absent while the PTU is stopped. `codes` holds the result code last taken for each probe (log 43). -/
structure Ptu where
  converter : Converter
  intervalStart : Option Nat
  codes : PerProbe (BitVec 16)
  probes : PerProbe ProbeState
  peers : List PeerTemp
  held : Option HeldValue
  deriving DecidableEq, Repr

/-! ## VCL totals, needed by the SBC's snapshot (R157) -/

/-- The site totals (R157). -/
structure Totals where
  perClass : Vector Count16 32
  vehiclesCompleted : Count32
  grossSum : Count32
  lost : Count16
  ceded : Count16
  staleWheelDrops : Count16
  crcErrors : Count16
  overruns : Count16
  markedHits : Count32
  holdHits : Count32
  deriving DecidableEq, Repr

/-! ## SBC: site bus controller (chapter 4) -/

/-- The seven frame kinds (section 12.4). -/
inductive FrameKind where
  | wheel | time | command | vehicle | temp | status | totals
  deriving DecidableEq, Repr

/-- The content of a TEMP frame beside its probe (R53). -/
structure TempContent where
  quality : Quality
  group : Nat
  value : Option Int
  deriving DecidableEq, Repr

/-- A start-mark capture (R60, R80): site time and step total at one start mark. -/
structure Capture where
  siteTime : SiteTime
  stepTotal : SiteTime
  deriving DecidableEq, Repr

/-- What a transmit list entry carries (section 4.3); a VEHICLE entry names its record by sequence number. -/
inductive TxContent where
  | wheel (w : Wheel)
  | time
  | vehicle (seq : Count16)
  | temp (probe : Probe) (content : TempContent)
  | status
  | totals
  deriving DecidableEq, Repr

/-- An entry of the transmit list (section 4.3). `repeatAsked` is the repeat of STATUS and TOTALS,
`repeatTemp` that of TEMP with its content. `leaving` marks a WHEEL frame in transmission at an entry into HOLD, which is
removed if it loses or aborts (R68; log 36). -/
structure TxEntry where
  content : TxContent
  queueTime : SiteTime
  inTransmission : Bool
  snapshot : Option Totals
  repeatAsked : Bool
  repeatTemp : Option TempContent
  leaving : Bool
  deriving DecidableEq, Repr

/-- A received frame that has passed its checks (R69 to R71, R196). -/
inductive RxFrame where
  | wheel (sender : Nat) (w : Wheel)
  | time (sender : Nat) (senderTime : SiteTime)
  | temp (sender : Nat) (probe : Probe) (content : TempContent)
  | command (code : Byte) (args : List Byte)
  deriving DecidableEq, Repr

/-- An entry of the receive buffer (R72). -/
structure RxEntry where
  frame : RxFrame
  capture : Capture
  arrival : SiteTime
  deriving DecidableEq, Repr

/-- A blind interval (R74); the close time is absent while it is open. -/
structure BlindInterval where
  start : SiteTime
  close : Option SiteTime
  deriving DecidableEq, Repr

/-- The line as the SBC takes it while it neither sends nor follows a frame: quiet from an own-clock instant on, the last at which it
took the line as in use (R59, R60, R65; log 16); `ignored` after a length byte above 120, until the quiet interval has passed
(R69). -/
inductive LineState where
  | quiet (since : Nat)
  | ignored (since : Nat)
  deriving DecidableEq, Repr

/-- The site bus controller. `onLine` holds the bytes of the frame being sent, `txCapture` its own start-mark capture,
`following` the capture of the frame the receiver follows. `lastMismatch` is an own-clock instant. -/
structure Sbc where
  list : List TxEntry
  onLine : Option (List Byte)
  txCapture : Option Capture
  following : Option Capture
  line : LineState
  rx : List RxEntry
  deaf : Bool
  blind : List BlindInterval
  drops : Count16
  mismatches : Count16
  formatErrors : Count16
  deafDiscards : Count16
  lastMismatch : Option Nat
  deriving DecidableEq, Repr

/-! ## STU: site time unit (chapter 5) -/

/-- An entry of the step log (R86). -/
structure StepSpan where
  first : SiteTime
  last : SiteTime
  deriving DecidableEq, Repr

/-- The site time unit. `split` holds the counter of station n at index n − 1. `joinWindow` is the own-clock instant at
which the JOIN window opened. `lastDue` is the model's own: the due point at which site time stands, once it has been acted on (log 25). -/
structure Stu where
  siteTime : SiteTime
  stepTotal : SiteTime
  split : Vector (Fin 3) 14
  splitSteps : Count16
  log : List StepSpan
  joinWindow : Option Nat
  lastDue : Option SiteTime
  deriving DecidableEq, Repr

/-! ## VAU: vehicle assembly unit (chapters 6 and 7) -/

/-- A wheel in the intake (R94, R97). -/
structure IntakeWheel where
  wheel : Wheel
  completion : SiteTime
  forced : Bool
  deriving DecidableEq, Repr

/-- A wheel in the pending wheel list (R96, R97). -/
structure PendingWheel where
  wheel : Wheel
  decisionTime : SiteTime
  forced : Bool
  deriving DecidableEq, Repr

/-- An entry of the peer wheel list (R92, R93). -/
structure PeerWheel where
  sender : Nat
  wheel : Wheel
  aged : Bool
  deriving DecidableEq, Repr

/-- The requesters of the record memory port (R90). -/
inductive Requester where
  | dispatcher | axleFormer | classWalk
  deriving DecidableEq, Repr

/-- The record memory port: its holder (or one to whom a grant has been given and not yet taken), and the waiting
set (R90, R91). `freshAt` is the model's own: the own-clock instant at which the holder asked for the free port, while its work has
not begun; requests of that instant are still judged together (log 20). -/
structure Port where
  holder : Option Requester
  waitDispatcher : Bool
  waitAxleFormer : Bool
  waitClassWalk : Bool
  freshAt : Option Nat
  deriving DecidableEq, Repr

/-- Axle kind (R102). -/
inductive AxleKind where
  | inLane | straddleLeft | straddleRight | singleWheel
  deriving DecidableEq, Repr

/-- A wheel copy carried by an axle, with its borrowed speed (R38) and whether it is a local wheel. -/
structure AxleWheel where
  wheel : Wheel
  borrowed : Option Nat
  isLocal : Bool
  deriving DecidableEq, Repr

/-- The spacing of an axle to the one before it (R113, R114): absent for the first, pending, or known in mm. -/
inductive Spacing where
  | absent
  | pending
  | known (mm : Nat)
  deriving DecidableEq, Repr

/-- An axle record (R113). The index is the place in the list; left and right load, axle load and PARTIAL are computed
from the wheel copies. -/
structure Axle where
  kind : AxleKind
  leadTime : SiteTime
  trailTime : Option SiteTime
  speed : Option Nat
  left : Option AxleWheel
  right : Option AxleWheel
  spacing : Spacing
  blind : Bool
  deriving DecidableEq, Repr

/-- The cause of a close (R120). -/
inductive CloseCause where
  | timer | breakTest | axleLimit | cede | hold
  deriving DecidableEq, Repr

/-- The vehicle flags of section 9.3. -/
structure VehicleFlags where
  partialLoad : Bool
  noSpeed : Bool
  accel : Bool
  laneChange : Bool
  peerBlind : Bool
  timeStep : Bool
  axleLimit : Bool
  continuation : Bool
  holdCut : Bool
  grossOver : Bool
  trigLate : Bool
  trigMerged : Bool
  trigMissed : Bool
  deriving DecidableEq, Repr

/-- The open vehicle (section 7.1). -/
structure Vehicle where
  axles : List Axle
  closeTime : SiteTime
  closeMark : Option CloseCause
  tag : Count16
  flags : VehicleFlags
  runningGross : Nat
  deriving DecidableEq, Repr

/-- The vehicle assembly unit. -/
structure Vau where
  intake : List IntakeWheel
  waiting : List PendingWheel
  peers : List PeerWheel
  lastPeer : PerSide (Option Count16)
  runStart : Option SiteTime
  port : Port
  peerOverflows : Count16
  droppedWheels : Count16
  forcedDecisions : Count16
  vehicle : Option Vehicle
  tagCounter : Count16
  headwayRef : Option SiteTime
  deriving DecidableEq, Repr

/-! ## VCL: vehicle classing unit (chapters 8 and 9) -/

/-- The state of a completed record (R148). -/
inductive RecordState where
  | awaitingClass | ready | sending
  deriving DecidableEq, Repr

/-- One axle of a vehicle record (R125). PARTIAL is: a load is absent. -/
structure RecordAxle where
  left : Option Nat
  right : Option Nat
  kind : AxleKind
  spacing : Option Nat
  deriving DecidableEq, Repr

/-- A record of the completed vehicle list with its slot (R125, R148, section 8.1). `cls` is absent until the class walk
has written it. `slotFlags` holds the TRIG flags reported for the tag (R127); its other flags stay clear. -/
structure VehicleRecord where
  seq : Count16
  owner : Nat
  firstLead : SiteTime
  speed : Option Nat
  headway : Option Nat
  axles : List RecordAxle
  gross : Nat
  temperature : Int
  source : TempSource
  flags : VehicleFlags
  tag : Count16
  state : RecordState
  lostCount : Count16
  cededCount : Count16
  slotFlags : VehicleFlags
  firstTrail : Option SiteTime
  firstSpeed : Option Nat
  cls : Option (Fin 32)
  ruleIndex : Option Nat
  groupOver : BitVec 12
  deriving DecidableEq, Repr

/-- Walk state (R130). -/
inductive WalkState where
  | idle | waiting | walking
  deriving DecidableEq, Repr

/-- An axle group (R133). -/
structure AxleGroup where
  position : Nat
  firstAxle : Nat
  axleCount : Nat
  load : Option Nat
  deriving DecidableEq, Repr

/-- The class walk (section 8.1): the walk record by its sequence number, and the own-clock instant of the grant. -/
structure Walk where
  state : WalkState
  record : Option Count16
  groups : List AxleGroup
  rulePosition : Nat
  grantedAt : Nat
  deriving DecidableEq, Repr

/-- The vehicle classing unit. -/
structure Vcl where
  records : List VehicleRecord
  seqCounter : Count16
  lostCarry : Count16
  cededCarry : Count16
  totals : Totals
  walk : Walk
  deriving DecidableEq, Repr

/-! ## TOU: trigger output unit (chapter 10) -/

/-- The level of an output (R165). -/
inductive OutputLevel where
  | active | inactive | low
  deriving DecidableEq, Repr

/-- A scheduled firing (section 10.1). -/
structure Firing where
  tag : Count16
  due : SiteTime
  deriving DecidableEq, Repr

/-- The state of one output (section 10.1); `pulseEnd` is an own-clock instant. -/
structure OutputState where
  level : OutputLevel
  pulseEnd : Option Nat
  schedule : List Firing
  armed : Option Count16
  deriving DecidableEq, Repr

/-- The trigger output unit. -/
structure Tou where
  outputs : PerOutput OutputState
  deriving DecidableEq, Repr

/-! ## CSU: control and start-up unit (chapter 11) -/

/-- The seven station states (section 11.2). -/
inductive StationState where
  | loading | mute | unconfigured | join | run | hold | silent
  deriving DecidableEq, Repr

/-- The codes of a load fault (R177). -/
inductive FaultCode where
  | sum | sequence | range | order | duplicate | missing | size | read
  deriving DecidableEq, Repr

/-- The load fault reason (R177). -/
structure LoadFault where
  index : Nat
  code : FaultCode
  offset : Option Nat
  deriving DecidableEq, Repr

/-- The result of a judged command (R186). -/
inductive CommandResult where
  | taken | refusedState | badArgument | unknown
  deriving DecidableEq, Repr

/-- The last command result (R186). -/
structure LastResult where
  code : Byte
  result : CommandResult
  count : BitVec 8
  deriving DecidableEq, Repr

/-- The CLASS blocks met so far in a read (R177): none yet, a run open, or a run or ONLY block complete. -/
inductive ClassRun where
  | none | running | complete
  deriving DecidableEq, Repr

/-- A read of the image in progress (R176): where it stands and the blocks held aside. -/
structure Load where
  offset : Nat
  index : Nat
  station : Option StationBlock
  strips : Option StripsBlock
  assembly : Option AssemblyBlock
  probes : Option ProbesBlock
  factors : Option FactorsBlock
  triggers : Option (PerOutput TriggerParams)
  rules : List ClassRule
  classRun : ClassRun
  deriving DecidableEq, Repr

/-- The control and start-up unit. `periodicSince` and `lastMarkRequest` are own-clock instants (R191). -/
structure Csu where
  station : StationState
  block : Option StationBlock
  image : Option Image
  loadFault : Option LoadFault
  pinActive : Bool
  commandHold : Bool
  marks : MarkSet
  lastResult : Option LastResult
  commandCount : BitVec 8
  periodicSince : Option Nat
  lastMarkRequest : Option Nat
  deferred : Bool
  load : Option Load
  deriving DecidableEq, Repr

/-! ## The part, the state, the outcomes -/

/-- The part: its nine blocks, its own clock in microseconds since power-on, and whether RST_N is low. -/
structure Part where
  rstLow : Bool
  clock : Nat
  lcu : Lcu
  pse : Pse
  ptu : Ptu
  sbc : Sbc
  stu : Stu
  vau : Vau
  vcl : Vcl
  tou : Tou
  csu : Csu
  deriving DecidableEq, Repr

/-- The state: the part, and the queue of commands waiting for it, first in, first out. -/
structure State where
  part : Part
  pending : List Instr
  deriving DecidableEq, Repr

/-- No command of the block ends in a fault: the manual names no condition that stops the part. -/
inductive Fault where
  deriving DecidableEq, Repr

/-- Why a command has no meaning. -/
inductive Refusal where
  /-- Raised by an arm of `exec` whose command has no meaning yet; safe. No arm raises it. -/
  | notModelled (mnemonic : String)
  deriving DecidableEq, Repr

/-! ## Reset -/

/-- A channel at power-on (R18); its times hold no meaning before a hit (log 9). -/
def ChannelRecord.powerOn : ChannelRecord :=
  { state := .idle, baseline := 0, seedPending := true, startTime := 0, tailTime := 0, area := 0, peak := 0,
    flags := { stretched := false, clipped := false, areaSat := false }, lengthCount := 0, tailCount := 0,
    stuckCount := 0, quietCount := 0, driftCount := 0, missCounter := 0, mark := none }

/-- The LCU at power-on (R18); no instant taken or read yet, and the inputs' levels, are the model's (log 41). -/
def Lcu.powerOn : Lcu :=
  { channels := { ll := .powerOn, lr := .powerOn, tl := .powerOn, tr := .powerOn }, lastSample := none, stamp := none,
    inputs := { ll := 0, lr := 0, tl := 0, tr := 0 } }

/-- The PSE at power-on (R41). -/
def Pse.powerOn : Pse :=
  { fifo := { left := [], right := [] }, history := { ll := [], lr := [], tl := [], tr := [] }, checks := [],
    store := [], wheelCounter := 0 }

/-- A probe at power-on (R57); the filtered value has no meaning before it is seeded, nor the own entry's receive time before its
first update (log 9). -/
def ProbeState.powerOn : ProbeState :=
  { seeded := false, filtered := 0, reject := 0, stale := 0, quality := .none, mark := none, jumps := 0,
    tempTimer := none, own := { value := none, quality := .none, receiveTime := 0 } }

/-- The PTU at power-on (R57). -/
def Ptu.powerOn : Ptu :=
  { converter := .idle, intervalStart := none, codes := { p0 := 0, p1 := 0 },
    probes := { p0 := .powerOn, p1 := .powerOn }, peers := [], held := none }

/-- All site totals 0 (R163). -/
def Totals.zero : Totals :=
  { perClass := Vector.replicate 32 0, vehiclesCompleted := 0, grossSum := 0, lost := 0, ceded := 0,
    staleWheelDrops := 0, crcErrors := 0, overruns := 0, markedHits := 0, holdHits := 0 }

/-- The SBC at power-on (R77); the line is released, and what is held of it is not read before the SBC starts work (log 16). -/
def Sbc.powerOn : Sbc :=
  { list := [], onLine := none, txCapture := none, following := none, line := .quiet 0, rx := [], deaf := false,
    blind := [], drops := 0, mismatches := 0, formatErrors := 0, deafDiscards := 0, lastMismatch := none }

/-- The STU at power-on (R87). -/
def Stu.powerOn : Stu :=
  { siteTime := 0, stepTotal := 0, split := Vector.replicate 14 0, splitSteps := 0, log := [], joinWindow := none,
    lastDue := none }

/-- The VAU at power-on (R110, R128). -/
def Vau.powerOn : Vau :=
  { intake := [], waiting := [], peers := [], lastPeer := { left := none, right := none }, runStart := none,
    port := { holder := none, waitDispatcher := false, waitAxleFormer := false, waitClassWalk := false, freshAt := none },
    peerOverflows := 0, droppedWheels := 0, forcedDecisions := 0, vehicle := none, tagCounter := 0, headwayRef := none }

/-- The VCL at power-on (R147, R163). -/
def Vcl.powerOn : Vcl :=
  { records := [], seqCounter := 0, lostCarry := 0, cededCarry := 0, totals := .zero,
    walk := { state := .idle, record := none, groups := [], rulePosition := 0, grantedAt := 0 } }

/-- An output at power-on (R175). -/
def OutputState.powerOn : OutputState := { level := .low, pulseEnd := none, schedule := [], armed := none }

/-- The TOU at power-on (R175). -/
def Tou.powerOn : Tou := { outputs := { trg0 := .powerOn, trg1 := .powerOn, trg2 := .powerOn } }

/-- A read of the image at byte 0 (R176). -/
def Load.start : Load :=
  { offset := 0, index := 0, station := none, strips := none, assembly := none, probes := none, factors := none,
    triggers := none, rules := [], classRun := .none }

/-- The CSU at power-on, the read of the image started (R179). -/
def Csu.powerOn : Csu :=
  { station := .loading, block := none, image := none, loadFault := none, pinActive := false, commandHold := false,
    marks := .clear, lastResult := none, commandCount := 0, periodicSince := none, lastMarkRequest := none,
    deferred := false, load := some .start }

/-- The part right after a power-on (R179): every block in its power-on state, RST_N released. -/
def Part.powerOn : Part :=
  { rstLow := false, clock := 0, lcu := .powerOn, pse := .powerOn, ptu := .powerOn, sbc := .powerOn, stu := .powerOn,
    vau := .powerOn, vcl := .powerOn, tou := .powerOn, csu := .powerOn }

/-- The machine right after reset: the part after a power-on, and no command waiting. -/
def State.reset : State := { part := .powerOn, pending := [] }

end Sys2Proof.Machine
end

