-- ==== Sys2Proof/Machine/Ops.lean ====
section
/-! DEFINITION. The operations every block uses: one value per channel, side, probe or output; saturating counters;
site time comparison; lists in a stated order; the parameters of the image; what a station state allows; named
updates of the part; the factor tables and the load formula. -/

namespace Sys2Proof

open Machine

/-! ## One value per channel, side, probe, output -/

/-- The value of a channel. -/
def PerChannel.get {α : Type} (q : PerChannel α) : Channel → α
  | .ll => q.ll
  | .lr => q.lr
  | .tl => q.tl
  | .tr => q.tr

/-- Replace the value of a channel. -/
def PerChannel.set {α : Type} (q : PerChannel α) (c : Channel) (a : α) : PerChannel α :=
  match c with
  | .ll => { q with ll := a }
  | .lr => { q with lr := a }
  | .tl => { q with tl := a }
  | .tr => { q with tr := a }

/-- Change every channel's value. -/
def PerChannel.map {α β : Type} (f : α → β) (q : PerChannel α) : PerChannel β :=
  { ll := f q.ll, lr := f q.lr, tl := f q.tl, tr := f q.tr }

/-- The value of a side. -/
def PerSide.get {α : Type} (q : PerSide α) : Side → α
  | .left => q.left
  | .right => q.right

/-- Replace the value of a side. -/
def PerSide.set {α : Type} (q : PerSide α) (c : Side) (a : α) : PerSide α :=
  match c with
  | .left => { q with left := a }
  | .right => { q with right := a }

/-- The value of a probe. -/
def PerProbe.get {α : Type} (q : PerProbe α) : Probe → α
  | .p0 => q.p0
  | .p1 => q.p1

/-- Replace the value of a probe. -/
def PerProbe.set {α : Type} (q : PerProbe α) (c : Probe) (a : α) : PerProbe α :=
  match c with
  | .p0 => { q with p0 := a }
  | .p1 => { q with p1 := a }

/-- The value of an output. -/
def PerOutput.get {α : Type} (q : PerOutput α) : Output → α
  | .trg0 => q.trg0
  | .trg1 => q.trg1
  | .trg2 => q.trg2

/-- Replace the value of an output. -/
def PerOutput.set {α : Type} (q : PerOutput α) (c : Output) (a : α) : PerOutput α :=
  match c with
  | .trg0 => { q with trg0 := a }
  | .trg1 => { q with trg1 := a }
  | .trg2 => { q with trg2 := a }

/-- Change every output's value. -/
def PerOutput.map {α β : Type} (f : α → β) (q : PerOutput α) : PerOutput β :=
  { trg0 := f q.trg0, trg1 := f q.trg1, trg2 := f q.trg2 }

namespace Machine

/-- The side of a channel (00_scope.md, table of channels). -/
def channelSide : Channel → Side
  | .ll => .left
  | .lr => .right
  | .tl => .left
  | .tr => .right

/-- Whether a channel belongs to the leading row. -/
def isLeading : Channel → Bool
  | .ll => true
  | .lr => true
  | .tl => false
  | .tr => false

/-- The leading channel of a side. -/
def leadingChannel : Side → Channel
  | .left => .ll
  | .right => .lr

/-- The trailing channel of a side. -/
def trailingChannel : Side → Channel
  | .left => .tl
  | .right => .tr

/-- The other side of the lane. -/
def otherSide : Side → Side
  | .left => .right
  | .right => .left

/-! ## Counters and times -/

/-- Add 1 to a counter that saturates at its greatest value. -/
def satInc {w : Nat} (x : BitVec w) : BitVec w := if x = BitVec.allOnes w then x else x + 1

/-- Add `n` to a counter that saturates at its greatest value. -/
def satAdd {w : Nat} (x : BitVec w) (n : Nat) : BitVec w := BitVec.ofNat w (min (x.toNat + n) (2 ^ w - 1))

/-- The signed difference `a − b` of two site times in µs (Conventions, "Site time"). -/
def siteDiff (a b : SiteTime) : Int := (a - b).toInt

/-- The site time `n` µs after `t`, modulo 2^48. -/
def later (t : SiteTime) (n : Nat) : SiteTime := t + BitVec.ofNat 48 n

/-- The site time `n` µs before `t`, modulo 2^48. -/
def earlier (t : SiteTime) (n : Nat) : SiteTime := t - BitVec.ofNat 48 n

/-- Whether `d` µs of own clock have passed from `since` to `now`. -/
def elapsed (now since d : Nat) : Bool := since + d ≤ now

/-! ## Lists in a stated order -/

/-- Insert `x` before the first element that must stand behind it, else at the end. -/
def insertBefore {α : Type} (behind : α → Bool) (x : α) : List α → List α
  | [] => [x]
  | y :: ys => if behind y then x :: y :: ys else y :: insertBefore behind x ys

/-- Remove the first element that satisfies `f`. -/
def dropFirst {α : Type} (f : α → Bool) : List α → List α
  | [] => []
  | y :: ys => if f y then ys else y :: dropFirst f ys

/-- Remove the last element that satisfies `f`. -/
def dropNewest {α : Type} (f : α → Bool) (l : List α) : List α := (dropFirst f l.reverse).reverse

/-- Change the first element that satisfies `f`. -/
def changeFirst {α : Type} (f : α → Bool) (g : α → α) : List α → List α
  | [] => []
  | y :: ys => if f y then g y :: ys else y :: changeFirst f g ys

/-- Append to a list that keeps its newest `n` elements. -/
def appendCapped {α : Type} (n : Nat) (l : List α) (x : α) : List α :=
  let l' := l ++ [x]
  l'.drop (l'.length - n)

/-! ## Constants of the rules -/

/-- The speed window in mm/s (Conventions, "Units and ranges"; R22). -/
def vMin : Nat := 1389
/-- The upper end of the speed window (R22). -/
def vMax : Nat := 69444
/-- 10.0 km/h in mm/s, below which a load carries LOW_SPEED (R28). -/
def lowSpeedLimit : Nat := 2778
/-- Samples per second (R1). -/
def samplesPerSecond : Nat := 8000
/-- The sampling period in µs (R1). -/
def samplePeriod : Nat := 125
/-- 1.0 as a factor (Conventions; R35). -/
def factorOne : Nat := 32768

/-! ## Parameters of the image -/

/-- The trigger configuration an image without a TRIGGERS block gives (section 10.1, defaults). -/
def standardTrigger : TriggerParams :=
  { enable := false, source := .front, threshold := 40000, classSet := 0, polarityLow := false, distance := 0, width := 50 }

/-- The defaults of the TRIGGERS block. -/
def standardTriggers : PerOutput TriggerParams :=
  { trg0 := standardTrigger, trg1 := standardTrigger, trg2 := standardTrigger }

/-- The defaults of the PROBES block (section 3.1). -/
def standardProbes : ProbesBlock :=
  { probe := { p0 := { enable := false, gain := 1200, offset := -400 }, p1 := { enable := false, gain := 1200, offset := -400 } },
    interval := 5, reference := 200 }

/-- The defaults of the FACTORS block: both tables absent (section 2.1). -/
def standardFactors : FactorsBlock := { temperature := [], speed := [] }

/-- Stands where there is no accepted image: no rule reads it, since the blocks that use an image do not work then
(R178). Values with a default have it, S has none and is 0. -/
def absentImage : Image :=
  { strips := { spacing := 0, thOn := 400, thOff := 200, ntail := 8, lmax := 2400, stuckLimit := 60, bwin := 4000,
                deadCount := 4, cal := { ll := 0, lr := 0, tl := 0, tr := 0 } },
    assembly := { dc := 400, lp := 40, smax := 10000, tmax := 2000, gmax := 2000, singleLimit := none, tandemLimit := none,
                  tridemLimit := none, quadLimit := none },
    probes := standardProbes, factors := standardFactors, rules := [], triggers := standardTriggers }

/-- Stands where no STATION block is in use (R178): number 0 is no station's number and group 0 no group. -/
def absentBlock : StationBlock :=
  { number := 0, leftNeighbour := none, rightNeighbour := none, group := 0, bitRate := .k125, lineDelay := 0,
    keepMarks := false, attentionMask := .clear }

/-- The image in use. -/
def Part.image (p : Part) : Image := p.csu.image.getD absentImage

/-- The STATION block in use. -/
def Part.block (p : Part) : StationBlock := p.csu.block.getD absentBlock

/-- The neighbour beyond a side of the lane. -/
def Part.neighbour (p : Part) : Side → Option Nat
  | .left => p.block.leftNeighbour
  | .right => p.block.rightNeighbour

/-- The peer allowance Lp in µs. -/
def Part.lpMicros (p : Part) : Nat := p.image.assembly.lp * 1000

/-- (Tmax + Lp) in µs. -/
def Part.peerAge (p : Part) : Nat := (p.image.assembly.tmax + p.image.assembly.lp) * 1000

/-- The site time now. -/
def Part.now (p : Part) : SiteTime := p.stu.siteTime

/-! ## What a station state allows -/

/-- JOIN, RUN and HOLD, and a SILENT entered from one of them (it has an accepted image): the states in which the LCU
samples, the PTU works and the STU follows (R2, R42, R80). -/
def Part.working (p : Part) : Bool :=
  match p.csu.station with
  | .join => true
  | .run => true
  | .hold => true
  | .silent => p.csu.image.isSome
  | .loading => false
  | .mute => false
  | .unconfigured => false

/-- RUN. -/
def Part.inRun (p : Part) : Bool := p.csu.station = .run

/-- RUN or HOLD. -/
def Part.inRunOrHold (p : Part) : Bool := p.csu.station = .run || p.csu.station = .hold

/-- JOIN, RUN or HOLD. -/
def Part.onDuty (p : Part) : Bool := p.csu.station = .join || p.csu.station = .run || p.csu.station = .hold

/-- The receiver is on (R59). -/
def Part.receiverOn (p : Part) : Bool :=
  match p.csu.station with
  | .loading => false
  | .mute => false
  | .unconfigured => true
  | .join => true
  | .run => true
  | .hold => true
  | .silent => true

/-- UNCONFIGURED, JOIN, RUN and HOLD: the states in which the line is used (R59), STATUS requests are made (R191) and
a suspected duplicate leads to SILENT (R190). -/
def Part.usesLine (p : Part) : Bool := p.csu.station = .unconfigured || p.onDuty

/-! ## Named updates -/

/-- Change the LCU. -/
def Part.modLcu (f : Lcu → Lcu) (p : Part) : Part := { p with lcu := f p.lcu }
/-- Change the PSE. -/
def Part.modPse (f : Pse → Pse) (p : Part) : Part := { p with pse := f p.pse }
/-- Change the PTU. -/
def Part.modPtu (f : Ptu → Ptu) (p : Part) : Part := { p with ptu := f p.ptu }
/-- Change the SBC. -/
def Part.modSbc (f : Sbc → Sbc) (p : Part) : Part := { p with sbc := f p.sbc }
/-- Change the STU. -/
def Part.modStu (f : Stu → Stu) (p : Part) : Part := { p with stu := f p.stu }
/-- Change the VAU. -/
def Part.modVau (f : Vau → Vau) (p : Part) : Part := { p with vau := f p.vau }
/-- Change the VCL. -/
def Part.modVcl (f : Vcl → Vcl) (p : Part) : Part := { p with vcl := f p.vcl }
/-- Change the TOU. -/
def Part.modTou (f : Tou → Tou) (p : Part) : Part := { p with tou := f p.tou }
/-- Change the CSU. -/
def Part.modCsu (f : Csu → Csu) (p : Part) : Part := { p with csu := f p.csu }

/-- Change the site totals. -/
def Part.modTotals (f : Totals → Totals) (p : Part) : Part := p.modVcl fun v => { v with totals := f v.totals }

/-- Change one channel's record. -/
def Part.modChannel (c : Channel) (f : ChannelRecord → ChannelRecord) (p : Part) : Part :=
  p.modLcu fun l => { l with channels := l.channels.set c (f (l.channels.get c)) }

/-- Change one probe's state. -/
def Part.modProbe (pr : Probe) (f : ProbeState → ProbeState) (p : Part) : Part :=
  p.modPtu fun u => { u with probes := u.probes.set pr (f (u.probes.get pr)) }

/-- Change one output's state. -/
def Part.modOutput (o : Output) (f : OutputState → OutputState) (p : Part) : Part :=
  p.modTou fun u => { u with outputs := u.outputs.set o (f (u.outputs.get o)) }

/-- A command acts on the part alone: never on the queue, and not at all while RST_N is low, except the two commands
of the reset pin (R179; log 6). -/
def act (f : Part → Part) (s : State) : Host.Outcome State Fault Refusal :=
  .next (if s.part.rstLow then s else { s with part := f s.part })

/-! ## Factors and loads (section 2.6) -/

/-- The factor of a table at a key not below the point `a` (R35). -/
def factorFrom (a : FactorPoint) (x : Int) : List FactorPoint → Nat
  | [] => a.factor
  | b :: rest =>
    if x < b.key then
      ((a.factor : Int) + (((b.factor : Int) - a.factor) * (x - a.key)).tdiv (b.key - a.key)).toNat
    else factorFrom b x rest

/-- The factor of a table at a key (R35); an absent table gives 32,768. -/
def tableFactor (x : Int) : List FactorPoint → Nat
  | [] => factorOne
  | a :: rest => if x < a.key then a.factor else factorFrom a x rest

/-- A load stage's clamp: the value held at `cap`, and whether it was clamped. -/
def clampTo (cap x : Nat) : Nat × Bool := if cap < x then (cap, true) else (x, false)

/-- The greatest value of p and q (R34). -/
def qCap : Nat := 4294967295

/-- The greatest strip load (R36). -/
def loadCap : Nat := 65535

/-- Stages 1 and 2: q of a strip of area `area` and constant `c` at factor `f`, and whether Q_SAT is taken (R34). -/
def stripQ (area c f : Nat) : Nat × Bool :=
  let p := clampTo qCap (area * c / 65536)
  let q := clampTo qCap (p.1 * f / factorOne)
  (q.1, p.2 || q.2)

/-- Stages 3 and 4: the load of a strip of coefficient `q` at speed `v` and speed factor `g`, and whether LOAD_SAT is
taken (R36). -/
def stripLoad (q v g : Nat) : Nat × Bool :=
  clampTo loadCap ((q * v / 65536 * g + 16384) / factorOne)

/-- Finish a wheel with speed `v` (R36, R37). A wheel whose load is present, or a speed outside the window, is left. -/
def finishWheel (speedTable : List FactorPoint) (v : Nat) (w : Wheel) : Wheel :=
  if w.load.isSome || v < vMin || vMax < v then w
  else
    let g := tableFactor v speedTable
    let low := w.flags.lowSpeed || decide (v < lowSpeedLimit)
    match w.qLead, w.qTrail with
    | some a, some b =>
      let wa := stripLoad a v g
      let wb := stripLoad b v g
      { w with load := some ((wa.1 + wb.1 + 1) / 2)
               flags := { w.flags with loadSat := w.flags.loadSat || wa.2 || wb.2, lowSpeed := low } }
    | some a, none =>
      let wa := stripLoad a v g
      { w with load := some wa.1
               flags := { w.flags with single := true, loadSat := w.flags.loadSat || wa.2, lowSpeed := low } }
    | none, some b =>
      let wb := stripLoad b v g
      { w with load := some wb.1
               flags := { w.flags with single := true, loadSat := w.flags.loadSat || wb.2, lowSpeed := low } }
    | none, none => w

/-- The reference time of a wheel: its lead start time, otherwise its trail start time (section 6.1). -/
def Wheel.refTime (w : Wheel) : SiteTime :=
  match w.leadStart with
  | some t => t
  | none => w.trailStart.getD 0

/-! ## The record memory port (R90, R91) -/

/-- The next holder at a release: the dispatcher first, then the axle former, then the class walk (R90). -/
def Port.grantNext (q : Port) : Port :=
  let r := { q with freshAt := none }
  if q.waitDispatcher then { r with holder := some .dispatcher, waitDispatcher := false }
  else if q.waitAxleFormer then { r with holder := some .axleFormer, waitAxleFormer := false }
  else if q.waitClassWalk then { r with holder := some .classWalk, waitClassWalk := false }
  else { r with holder := none }

/-- Whether a requester holds the port or waits for it. -/
def Port.standing (q : Port) : Requester → Bool
  | .dispatcher => q.holder = some .dispatcher || q.waitDispatcher
  | .axleFormer => q.holder = some .axleFormer || q.waitAxleFormer
  | .classWalk => q.holder = some .classWalk || q.waitClassWalk

/-- A requester's place in the grant order, the first lowest (R90). -/
def Requester.rank : Requester → Nat
  | .dispatcher => 0
  | .axleFormer => 1
  | .classWalk => 2

/-- A requester joins the waiting set. -/
def Port.waitFor (r : Requester) (q : Port) : Port :=
  match r with
  | .dispatcher => { q with waitDispatcher := true }
  | .axleFormer => { q with waitAxleFormer := true }
  | .classWalk => { q with waitClassWalk := true }

/-- A request at the own-clock instant `now`: granted at once while the port is free, else it joins the waiting set. Of requests
made at one instant while the port is free the grant order picks: a holder that asked at this instant and has not begun its work
waits for a requester before it in the order (R90; log 20). The holder may wait again: its release and its next request are one
event (R91, R132). -/
def Port.request (now : Nat) (r : Requester) (q : Port) : Port :=
  match q.holder with
  | none => { q with holder := some r, freshAt := some now }
  | some h => if q.freshAt = some now && r.rank < h.rank then { q.waitFor h with holder := some r } else q.waitFor r

/-- The holder's work begins: no later request takes the port from it (R90). -/
def Port.started (q : Port) : Port := { q with freshAt := none }

/-- Withdraw a request, or return a grant not yet used (R77, R91). -/
def Port.withdraw (r : Requester) (q : Port) : Port :=
  let q' : Port := match r with
    | .dispatcher => { q with waitDispatcher := false }
    | .axleFormer => { q with waitAxleFormer := false }
    | .classWalk => { q with waitClassWalk := false }
  if q'.holder = some r then q'.grantNext else q'

/-- The port free with no request standing (R91, R110). -/
def Port.free : Port :=
  { holder := none, waitDispatcher := false, waitAxleFormer := false, waitClassWalk := false, freshAt := none }

/-- Request the port for a requester that has no request standing. -/
def Part.requestPort (r : Requester) (p : Part) : Part :=
  if p.vau.port.standing r then p else p.modVau fun v => { v with port := v.port.request p.clock r }

/-- Release the port. -/
def Part.releasePort (p : Part) : Part := p.modVau fun v => { v with port := v.port.grantNext }

end Machine

end Sys2Proof
end

