-- ==== Sys2Proof/Machine/Operands.lean ====
section
/-! DEFINITION. Frames and fields as bytes (chapter 12): byte order, codes, presence masks, the CRC-16, the payloads
that need no other block, and the checks a received frame meets (R69, R194 to R196). -/

namespace Sys2Proof.Machine

/-! ## Bytes (R194) -/

/-- `n` bytes of a value, least significant first (R194). -/
def leBytes : Nat → Nat → List Byte
  | 0, _ => []
  | n + 1, x => BitVec.ofNat 8 x :: leBytes n (x / 256)

/-- The value of bytes that stand least significant first (R194). -/
def leValue : List Byte → Nat
  | [] => 0
  | b :: bs => b.toNat + 256 * leValue bs

/-- A signed 16-bit field (R194: two's complement). -/
def signedBytes (x : Int) : List Byte := leBytes 2 (BitVec.ofInt 16 x).toNat

/-- The value of a signed 16-bit field. -/
def signedValue (bs : List Byte) : Int := (BitVec.ofNat 16 (leValue bs)).toInt

/-- The field of `n` bytes at an offset of a payload. -/
def fieldAt (payload : List Byte) (offset n : Nat) : Nat := leValue ((payload.drop offset).take n)

/-- The signed 16-bit field at an offset of a payload. -/
def signedAt (payload : List Byte) (offset : Nat) : Int := signedValue ((payload.drop offset).take 2)

/-- The byte at an offset. -/
def byteAt (payload : List Byte) (offset : Nat) : Nat := (payload.getD offset 0).toNat

/-- A flag set as a number: bit n stands for the (n+1)-th member (R194). -/
def maskOf : List Bool → Nat
  | [] => 0
  | b :: bs => (if b then 1 else 0) + 2 * maskOf bs

/-- The optional fields of a payload: the presence mask byte, and the present fields' bytes in order (R194). -/
def optionalFields (fields : List (Option (List Byte))) : List Byte :=
  BitVec.ofNat 8 (maskOf (fields.map Option.isSome)) :: (fields.map fun f => f.getD []).flatten

/-- The bytes of an optional unsigned field of `n` bytes. -/
def optionalBytes (n : Nat) (x : Option Nat) : Option (List Byte) := x.map (leBytes n)

/-- The bytes of an optional site time. -/
def optionalTime (t : Option SiteTime) : Option (List Byte) := t.map fun x => leBytes 6 x.toNat

/-- Read an optional field: present, it takes `n` bytes. -/
def readOptional (present : Bool) (n : Nat) (bytes : List Byte) : Option Nat × List Byte :=
  if present then (some (leValue (bytes.take n)), bytes.drop n) else (none, bytes)

/-! ## Codes (section 12.4) -/

/-- Frame kind codes. -/
def FrameKind.code : FrameKind → Nat
  | .wheel => 1
  | .time => 2
  | .command => 3
  | .vehicle => 4
  | .temp => 5
  | .status => 6
  | .totals => 7

/-- The frame kind of a code; 0 and 8 to 15 name none (R69). -/
def frameKindOf : Nat → Option FrameKind
  | 1 => some .wheel
  | 2 => some .time
  | 3 => some .command
  | 4 => some .vehicle
  | 5 => some .temp
  | 6 => some .status
  | 7 => some .totals
  | _ => none

/-- Side codes. -/
def sideCode : Side → Nat
  | .left => 0
  | .right => 1

/-- The side of a code. -/
def sideOf : Nat → Option Side
  | 0 => some .left
  | 1 => some .right
  | _ => none

/-- Probe codes. -/
def probeCode : Probe → Nat
  | .p0 => 0
  | .p1 => 1

/-- The probe of a code. -/
def probeOf : Nat → Option Probe
  | 0 => some .p0
  | 1 => some .p1
  | _ => none

/-- Temperature source codes. -/
def sourceCode : TempSource → Nat
  | .ownSurface => 0
  | .ownDepth => 1
  | .peerSurface => 2
  | .peerDepth => 3
  | .held => 4
  | .reference => 5

/-- The temperature source of a code. -/
def sourceOf : Nat → Option TempSource
  | 0 => some .ownSurface
  | 1 => some .ownDepth
  | 2 => some .peerSurface
  | 3 => some .peerDepth
  | 4 => some .held
  | 5 => some .reference
  | _ => none

/-- Quality codes. -/
def qualityCode : Quality → Nat
  | .none => 0
  | .good => 1
  | .stale => 2
  | .faultOpen => 3
  | .faultShort => 4
  | .faultRange => 5

/-- The quality of a code. -/
def qualityOf : Nat → Option Quality
  | 0 => some .none
  | 1 => some .good
  | 2 => some .stale
  | 3 => some .faultOpen
  | 4 => some .faultShort
  | 5 => some .faultRange
  | _ => none

/-- Channel mark codes. -/
def channelMarkCode : Option ChannelMark → Nat
  | none => 0
  | some .dead => 1
  | some .drift => 2
  | some .stuckLong => 3

/-- Probe mark codes. -/
def probeMarkCode : Option ProbeMark → Nat
  | none => 0
  | some .openCircuit => 1
  | some .shortCircuit => 2
  | some .range => 3

/-- Axle kind codes. -/
def axleKindCode : AxleKind → Nat
  | .inLane => 0
  | .straddleLeft => 1
  | .straddleRight => 2
  | .singleWheel => 3

/-- Station state codes. -/
def stationCode : StationState → Nat
  | .loading => 0
  | .mute => 1
  | .unconfigured => 2
  | .join => 3
  | .run => 4
  | .hold => 5
  | .silent => 6

/-- Command result codes. -/
def resultCode : CommandResult → Nat
  | .taken => 0
  | .refusedState => 1
  | .badArgument => 2
  | .unknown => 3

/-- Load fault codes. -/
def faultCode : FaultCode → Nat
  | .sum => 1
  | .sequence => 2
  | .range => 3
  | .order => 4
  | .duplicate => 5
  | .missing => 6
  | .size => 7
  | .read => 8

/-- The change marks in their order STATE, CHANNELS, PROBES, TIME, BUS. -/
def markMask (m : MarkSet) : Nat := maskOf [m.state, m.channels, m.probes, m.time, m.bus]

/-- The change marks of a mask. -/
def markSetOf (x : Nat) : MarkSet :=
  { state := x.testBit 0, channels := x.testBit 1, probes := x.testBit 2, time := x.testBit 3, bus := x.testBit 4 }

/-- The wheel flags in the order of the WHEEL payload (section 12.2). -/
def WheelFlags.mask (f : WheelFlags) : Nat :=
  maskOf [f.orphanLead, f.orphanTrail, f.single, f.clipped, f.stretched, f.areaSat, f.qSat, f.loadSat, f.lowSpeed, f.timeStep]

/-- The wheel flags of a mask. -/
def wheelFlagsOf (x : Nat) : WheelFlags :=
  { orphanLead := x.testBit 0, orphanTrail := x.testBit 1, single := x.testBit 2, clipped := x.testBit 3,
    stretched := x.testBit 4, areaSat := x.testBit 5, qSat := x.testBit 6, loadSat := x.testBit 7,
    lowSpeed := x.testBit 8, timeStep := x.testBit 9 }

/-- The vehicle flags in the order of the VEHICLE payload (section 12.2). -/
def VehicleFlags.mask (f : VehicleFlags) : Nat :=
  maskOf [f.partialLoad, f.noSpeed, f.accel, f.laneChange, f.peerBlind, f.timeStep, f.axleLimit, f.continuation, f.holdCut,
    f.grossOver, f.trigLate, f.trigMerged, f.trigMissed]

/-! ## CRC-16 and the line (R195) -/

/-- Shift one bit through the CRC register: generator x^16 + x^12 + x^5 + 1 (R195). -/
def crcShift (c : BitVec 16) : BitVec 16 := if c.msb then (c <<< 1) ^^^ 0x1021 else c <<< 1

/-- Take `n` bits through the CRC register. -/
def crcShifts : Nat → BitVec 16 → BitVec 16
  | 0, c => c
  | n + 1, c => crcShifts n (crcShift c)

/-- Take one byte into the CRC register, most significant bit first (R195). -/
def crcByte (c : BitVec 16) (b : Byte) : BitVec 16 := crcShifts 8 (c ^^^ (b.zeroExtend 16 <<< 8))

/-- The CRC-16 of bytes in line order; the register starts at 0xFFFF (R195). -/
def crc16 (bytes : List Byte) : BitVec 16 := bytes.foldl crcByte 0xFFFF

/-- The priority field: kind code in bits 7 to 4, sender in bits 3 to 0 (R195). -/
def priorityField (kind : FrameKind) (sender : Nat) : Byte := BitVec.ofNat 8 (kind.code * 16 + sender % 16)

/-- The bytes of a frame on the line: priority field, length byte, payload, CRC low, CRC high (R60, R195). -/
def frameBytes (kind : FrameKind) (sender : Nat) (payload : List Byte) : List Byte :=
  let body := priorityField kind sender :: BitVec.ofNat 8 payload.length :: payload
  body ++ leBytes 2 (crc16 body).toNat

/-- A line element of one bit time (R59). -/
inductive LineLevel where
  | dominant | recessive
  deriving DecidableEq, Repr

/-- A 0 bit is dominant (R61). -/
def bitLevel (b : Bool) : LineLevel := if b then .recessive else .dominant

/-- A character: dominant start bit, 8 data bits most significant first, recessive stop bit (R195). -/
def characterLevels (b : Byte) : List LineLevel :=
  .dominant :: ([7, 6, 5, 4, 3, 2, 1, 0].map fun i => bitLevel (b.getLsbD i)) ++ [.recessive]

/-- A whole frame on the line: start mark, characters, and the end element of 2 recessive bit times (R195). -/
def frameLevels (bytes : List Byte) : List LineLevel :=
  .dominant :: (bytes.map characterLevels).flatten ++ [.recessive, .recessive]

/-- The bit time in µs (R59). -/
def bitTime : BitRate → Nat
  | .k125 => 8
  | .k250 => 4
  | .k500 => 2

/-- The quiet interval, 11 bit times, in µs (R59). -/
def quietInterval (r : BitRate) : Nat := 11 * bitTime r

/-! ## Payloads (section 12.2) -/

/-- The WHEEL payload. -/
def wheelPayload (w : Wheel) : List Byte :=
  leBytes 2 w.number.toNat ++ leBytes 1 (sideCode w.side) ++ leBytes 2 w.flags.mask ++ signedBytes w.temperature ++
    leBytes 1 (sourceCode w.source) ++
    optionalFields [optionalTime w.leadStart, optionalTime w.trailStart, optionalBytes 3 w.speed, optionalBytes 4 w.qLead,
      optionalBytes 4 w.qTrail, optionalTime w.runStart, optionalBytes 2 w.load]

/-- The TIME payload: the sender's site time at the start mark. -/
def timePayload (t : SiteTime) : List Byte := leBytes 6 t.toNat

/-- The TEMP payload. -/
def tempPayload (probe : Probe) (c : TempContent) : List Byte :=
  leBytes 1 (probeCode probe) ++ leBytes 1 (qualityCode c.quality) ++ leBytes 1 c.group ++
    optionalFields [c.value.map signedBytes]

/-- The TOTALS payload. -/
def totalsPayload (t : Totals) : List Byte :=
  (t.perClass.toList.map fun c => leBytes 2 c.toNat).flatten ++ leBytes 4 t.vehiclesCompleted.toNat ++
    leBytes 4 t.grossSum.toNat ++ leBytes 2 t.lost.toNat ++ leBytes 2 t.ceded.toNat ++ leBytes 2 t.staleWheelDrops.toNat ++
    leBytes 2 t.crcErrors.toNat ++ leBytes 2 t.overruns.toNat ++ leBytes 4 t.markedHits.toNat ++ leBytes 4 t.holdHits.toNat

/-- The half byte of an axle in the VEHICLE payload: kind, left load present, right load present. -/
def axleDescriptor (a : RecordAxle) : Nat :=
  axleKindCode a.kind + (if a.left.isSome then 4 else 0) + (if a.right.isSome then 8 else 0)

/-- The axle descriptors, two to a byte, the first in the low half; an unused high half is 0. -/
def axleDescriptors : List RecordAxle → List Byte
  | [] => []
  | [a] => [BitVec.ofNat 8 (axleDescriptor a)]
  | a :: b :: rest => BitVec.ofNat 8 (axleDescriptor a + 16 * axleDescriptor b) :: axleDescriptors rest

/-- The loads and the spacing of one axle, where present. -/
def axleLoads (a : RecordAxle) : List Byte :=
  ((optionalBytes 2 a.left).getD []) ++ ((optionalBytes 2 a.right).getD []) ++ ((optionalBytes 3 a.spacing).getD [])

/-- Two flag sets joined. -/
def joinFlags (a b : VehicleFlags) : VehicleFlags :=
  { partialLoad := a.partialLoad || b.partialLoad, noSpeed := a.noSpeed || b.noSpeed, accel := a.accel || b.accel,
    laneChange := a.laneChange || b.laneChange, peerBlind := a.peerBlind || b.peerBlind, timeStep := a.timeStep || b.timeStep,
    axleLimit := a.axleLimit || b.axleLimit, continuation := a.continuation || b.continuation,
    holdCut := a.holdCut || b.holdCut, grossOver := a.grossOver || b.grossOver, trigLate := a.trigLate || b.trigLate,
    trigMerged := a.trigMerged || b.trigMerged, trigMissed := a.trigMissed || b.trigMissed }

/-- The VEHICLE payload (R154): the record's flags are joined with the TRIG flags of its slot. -/
def vehiclePayload (r : VehicleRecord) : List Byte :=
  leBytes 2 r.seq.toNat ++ leBytes 1 r.owner ++ leBytes 6 r.firstLead.toNat ++ leBytes 1 r.axles.length ++
    leBytes 4 r.gross ++ leBytes 1 ((r.cls.getD 0).val) ++ leBytes 2 r.groupOver.toNat ++ signedBytes r.temperature ++
    leBytes 1 (sourceCode r.source) ++ leBytes 2 r.lostCount.toNat ++ leBytes 2 r.cededCount.toNat ++
    leBytes 2 (joinFlags r.flags r.slotFlags).mask ++
    optionalFields [optionalBytes 3 r.speed, optionalBytes 2 r.headway, optionalBytes 1 r.ruleIndex] ++
    axleDescriptors r.axles ++ (r.axles.map axleLoads).flatten

/-! ## Received frames (R69, R196) -/

/-- What the checks of R69 find in the bytes received. -/
inductive FrameVerdict where
  | endedEarly
  | tooLong
  | badCrc
  | badKind
  | good (kind : FrameKind) (sender : Nat) (payload : List Byte)
  deriving DecidableEq, Repr

/-- The checks of R69 in the order in which they are found: a length above 120 at the length byte, an early end, then
at the end the CRC and the kind code. Bytes beyond the CRC are not part of the frame (log 15). -/
def judgeBytes : List Byte → FrameVerdict
  | prio :: len :: rest =>
    let n := len.toNat
    if 120 < n then .tooLong
    else if rest.length < n + 2 then .endedEarly
    else
      let payload := rest.take n
      if leValue ((rest.drop n).take 2) ≠ (crc16 (prio :: len :: payload)).toNat then .badCrc
      else
        match frameKindOf (prio.toNat / 16) with
        | none => .badKind
        | some kind => .good kind (prio.toNat % 16) payload
  | _ => .endedEarly

/-- The sizes of the optional fields of a WHEEL payload, in order (section 12.2). -/
def wheelOptionalSizes : List Nat := [6, 6, 3, 4, 4, 6, 2]

/-- The bytes that the fields named by a mask occupy. -/
def maskedSize (mask : Nat) : Nat → List Nat → Nat
  | _, [] => 0
  | i, n :: rest => (if mask.testBit i then n else 0) + maskedSize mask (i + 1) rest

/-- The WHEEL content check of R196, and the wheel it carries. -/
def parseWheel (payload : List Byte) : Option Wheel :=
  let flags := fieldAt payload 3 2
  let mask := byteAt payload 8
  if payload.length < 9 || payload.length ≠ 9 + maskedSize mask 0 wheelOptionalSizes || 1024 ≤ flags || 128 ≤ mask then none
  else
    let lead := readOptional (mask.testBit 0) 6 (payload.drop 9)
    let trail := readOptional (mask.testBit 1) 6 lead.2
    let speed := readOptional (mask.testBit 2) 3 trail.2
    let qLead := readOptional (mask.testBit 3) 4 speed.2
    let qTrail := readOptional (mask.testBit 4) 4 qLead.2
    let run := readOptional (mask.testBit 5) 6 qTrail.2
    let load := readOptional (mask.testBit 6) 2 run.2
    let temperature := signedAt payload 5
    if (lead.1.isNone && trail.1.isNone) || temperature < -400 || 800 < temperature
        || (match speed.1 with | some v => v < vMin || vMax < v | none => false) then none
    else
      match sideOf (byteAt payload 2), sourceOf (byteAt payload 7) with
      | some side, some source =>
        some { number := BitVec.ofNat 16 (fieldAt payload 0 2), side := side,
               leadStart := lead.1.map (BitVec.ofNat 48), trailStart := trail.1.map (BitVec.ofNat 48), speed := speed.1,
               qLead := qLead.1, qTrail := qTrail.1, temperature := temperature, source := source,
               runStart := run.1.map (BitVec.ofNat 48), load := load.1, flags := wheelFlagsOf flags }
      | _, _ => none

/-- The TEMP content check of R196, and the content it carries. -/
def parseTemp (payload : List Byte) : Option (Probe × TempContent) :=
  let mask := byteAt payload 3
  if payload.length < 4 || 2 ≤ mask || payload.length ≠ (if mask = 1 then 6 else 4) then none
  else
    let group := byteAt payload 2
    match probeOf (byteAt payload 0), qualityOf (byteAt payload 1) with
    | some probe, some quality =>
      if 1 ≤ group && group ≤ 3 then
        some (probe, { quality := quality, group := group, value := if mask = 1 then some (signedAt payload 4) else none })
      else none
    | _, _ => none

/-- The content check of R196 for a frame the filter has accepted: the frame, or none when it fails. -/
def parseContent (kind : FrameKind) (sender : Nat) (payload : List Byte) : Option RxFrame :=
  match kind with
  | .wheel => (parseWheel payload).map (RxFrame.wheel sender)
  | .time => if payload.length = 6 then some (.time sender (BitVec.ofNat 48 (leValue payload))) else none
  | .temp => (parseTemp payload).map fun x => .temp sender x.1 x.2
  | .command =>
    match payload with
    | _ :: code :: args => some (.command code args)
    | _ => none
  | .vehicle => none
  | .status => none
  | .totals => none

end Sys2Proof.Machine
end

