-- ==== Sys2Proof/Machine/TransmitList.lean ====
section
/-! DEFINITION. The transmit list of the SBC (R63 to R65, R67, R68) and the VCL's offer of VEHICLE frames to it
(R153, R155). -/

namespace Sys2Proof.Machine

/-- The kind of a transmit list entry. -/
def TxContent.kind : TxContent → FrameKind
  | .wheel _ => .wheel
  | .time => .time
  | .vehicle _ => .vehicle
  | .temp _ _ => .temp
  | .status => .status
  | .totals => .totals

/-- The kind code of an entry: the smaller, the more urgent (R61). -/
def TxEntry.code (e : TxEntry) : Nat := e.content.kind.code

/-- A new entry of the list, entering at site time `t`. -/
def newEntry (content : TxContent) (t : SiteTime) : TxEntry :=
  { content := content, queueTime := t, inTransmission := false, snapshot := none, repeatAsked := false, repeatTemp := none,
    leaving := false }

/-- Whether the transmit list takes a frame of a kind in the present station state (R59). -/
def Part.listTakes (p : Part) (k : FrameKind) : Bool :=
  p.onDuty || (p.csu.station = .unconfigured && k = .status)

/-- Add 1 to the drop count (R75). -/
def Part.countDrop (p : Part) : Part := p.modSbc fun b => { b with drops := satInc b.drops }

/-- Add 1 to the stale WHEEL drops of the site totals (R157). -/
def Part.countStaleWheel (p : Part) : Part := p.modTotals fun t => { t with staleWheelDrops := satInc t.staleWheelDrops }

/-- A record whose VEHICLE frame left the transmit list unsent is handed back: READY again, in its place (R155). -/
def Part.handBack (seq : Count16) (p : Part) : Part :=
  p.modVcl fun v =>
    { v with records := v.records.map fun r => if r.seq = seq && r.state = .sending then { r with state := .ready } else r }

/-- What follows when an entry leaves the list unsent: a VEHICLE record is handed back (R64, R155). -/
def Part.leftUnsent (e : TxEntry) (p : Part) : Part :=
  match e.content with
  | .vehicle seq => p.handBack seq
  | .wheel _ => p
  | .time => p
  | .temp _ _ => p
  | .status => p
  | .totals => p

/-- The greatest kind code among the entries not in transmission, 0 when there is none. -/
def leastUrgent : List TxEntry → Nat
  | [] => 0
  | e :: es => if e.inTransmission then leastUrgent es else max e.code (leastUrgent es)

/-- Whether `e` is a waiting entry of kind code `k`. -/
def waitingOfKind (k : Nat) (e : TxEntry) : Bool := !e.inTransmission && e.code = k

/-- The newest entry of the least urgent waiting kind: the last one of it in the list (R64). -/
def displaced (list : List TxEntry) : Option TxEntry := list.reverse.find? (waitingOfKind (leastUrgent list))

/-- Insert an entry after the kinds as urgent or more, before those less urgent (R63). -/
def insertByKind (e : TxEntry) (list : List TxEntry) : List TxEntry := insertBefore (fun x => decide (e.code < x.code)) e list

/-- Put an entry in the list by its place; a full list displaces a less urgent frame or drops the new one (R63, R64). -/
def Part.placeEntry (e : TxEntry) (p : Part) : Part :=
  if p.sbc.list.length < 8 then p.modSbc fun b => { b with list := insertByKind e b.list }
  else if e.code < leastUrgent p.sbc.list then
    let p1 := match displaced p.sbc.list with
      | some x => p.leftUnsent x
      | none => p
    (p1.modSbc fun b =>
      { b with list := insertByKind e (dropNewest (waitingOfKind (leastUrgent b.list)) b.list) }).countDrop
  else
    let p1 := (p.leftUnsent e).countDrop
    if e.content.kind = .wheel then p1.countStaleWheel else p1

/-- Whether an entry is a TEMP frame of a probe. -/
def isTempOf (probe : Probe) (e : TxEntry) : Bool :=
  match e.content with
  | .temp q _ => q = probe
  | .wheel _ => false
  | .time => false
  | .vehicle _ => false
  | .status => false
  | .totals => false

/-- A request that finds a frame of its kind: it merges into a waiting frame, or sets the repeat of one in
transmission (R63). -/
def mergeRequest (e : TxEntry) : TxEntry := if e.inTransmission then { e with repeatAsked := true } else e

/-- A TEMP request that finds a frame for its probe: it replaces a waiting frame's content, or sets the repeat of one in
transmission with the request's content (R53, R63). -/
def mergeTemp (content : TxContent) (c : TempContent) (e : TxEntry) : TxEntry :=
  if e.inTransmission then { e with repeatTemp := some c } else { e with content := content }

/-- A frame or request handed to the SBC enters under the per-kind limits of R63, then R64. A request in a state in
which the list takes no frame of the kind is refused without effect (R59). -/
def Part.enterList (content : TxContent) (p : Part) (queued : SiteTime) : Part :=
  if !p.listTakes content.kind then p
  else
    match content with
    | .wheel _ => p.placeEntry (newEntry content queued)
    | .vehicle _ => p.placeEntry (newEntry content queued)
    | .time =>
      if p.sbc.list.any (fun e => e.content.kind = .time) then p.countDrop else p.placeEntry (newEntry content queued)
    | .status =>
      if p.sbc.list.any (fun e => e.content.kind = .status) then
        p.modSbc fun b => { b with list := changeFirst (fun e => e.content.kind = .status) mergeRequest b.list }
      else p.placeEntry (newEntry content queued)
    | .totals =>
      if p.sbc.list.any (fun e => e.content.kind = .totals) then
        p.modSbc fun b => { b with list := changeFirst (fun e => e.content.kind = .totals) mergeRequest b.list }
      else p.placeEntry (newEntry content queued)
    | .temp probe c =>
      if p.sbc.list.any (isTempOf probe) then
        p.modSbc fun b => { b with list := changeFirst (isTempOf probe) (mergeTemp content c) b.list }
      else p.placeEntry (newEntry content queued)

/-- The SBC's invitation for a VEHICLE frame stands (R63, R153). -/
def Part.invitation (p : Part) : Bool :=
  p.listTakes .vehicle && !p.sbc.list.any (fun e => e.content.kind = .vehicle) &&
    (p.sbc.list.length < 8 || p.sbc.list.any (fun e => !e.inTransmission && FrameKind.vehicle.code < e.code))

/-- While the invitation stands, the VCL offers the oldest READY record, which becomes SENDING (R153). -/
def Part.offerVehicle (p : Part) : Part :=
  if !p.invitation then p
  else
    match p.vcl.records.find? (fun r => r.state = .ready) with
    | none => p
    | some r =>
      (p.modVcl fun v =>
        { v with records := changeFirst (fun x => x.state = .ready) (fun x => { x with state := .sending }) v.records }).enterList
        (.vehicle r.seq) p.now

/-- A block hands the SBC a frame or request (R63); an offer that becomes possible is made at once (R153). -/
def Part.handFrame (content : TxContent) (p : Part) : Part := (p.enterList content p.now).offerVehicle

/-- The entry in transmission. -/
def Part.sending (p : Part) : Option TxEntry := p.sbc.list.find? TxEntry.inTransmission

/-- An entry that is no longer in transmission: its snapshot is discarded, and a repeat is satisfied by the retry
(R61, R62, R66, R67). -/
def stopEntry (e : TxEntry) : TxEntry :=
  let content := match e.content, e.repeatTemp with
    | .temp probe _, some c => TxContent.temp probe c
    | other, _ => other
  { e with content := content, inTransmission := false, snapshot := none, repeatAsked := false, repeatTemp := none,
           leaving := false }

/-- The list after the frame in transmission has stopped: the frame stays where it stood (R67), but a WHEEL frame that was in
transmission at an entry into HOLD is removed (R68; log 36). -/
def stopList : List TxEntry → List TxEntry
  | [] => []
  | e :: es => if e.inTransmission then (if e.leaving then es else stopEntry e :: es) else e :: stopList es

/-- The frame being sent stops (R67, R68). -/
def Part.stopSending (p : Part) : Part :=
  p.modSbc fun b => { b with list := stopList b.list, onLine := none, txCapture := none }

/-- Cut a frame in transmission and empty the list with every repeat (R68): a VEHICLE record is handed back, no total is
reduced, nothing is counted. -/
def Part.flushList (p : Part) : Part :=
  let p1 := p.sbc.list.foldl (fun q e => q.leftUnsent e) p
  p1.modSbc fun b => { b with list := [], onLine := none, txCapture := none }

/-- The list at an entry into HOLD: every WHEEL frame not in transmission is removed, and one in transmission will be if it
loses or aborts (R68; log 36). -/
def holdList (l : List TxEntry) : List TxEntry :=
  (l.filter fun e => e.inTransmission || e.content.kind ≠ .wheel).map fun e =>
    { e with leaving := e.leaving || decide (e.content.kind = .wheel) }

/-- The transmit list at an entry into HOLD; nothing is counted (R68). -/
def Part.dropWaitingWheels (p : Part) : Part := (p.modSbc fun b => { b with list := holdList b.list }).offerVehicle

end Sys2Proof.Machine
end

