-- ==== Sys2Proof/Machine/Flags.lean ====
section
/-! DEFINITION. Marks and flags: the change marks with the STATUS requests they make (R181, R191), ATTN (R193), the
fault marks of the channels (R14), the flags a wheel takes from its hits (R28) and the TRIG flags (R127). -/

namespace Sys2Proof.Machine

/-! ## Change marks (section 11.5) -/

/-- The five change marks. -/
inductive ChangeMark where
  | state | channels | probes | time | bus
  deriving DecidableEq, Repr

/-- Whether a mark is in a set. -/
def hasMark (m : MarkSet) : ChangeMark → Bool
  | .state => m.state
  | .channels => m.channels
  | .probes => m.probes
  | .time => m.time
  | .bus => m.bus

/-- Add a mark to a set. -/
def addMark (m : MarkSet) : ChangeMark → MarkSet
  | .state => { m with state := true }
  | .channels => { m with channels := true }
  | .probes => { m with probes := true }
  | .time => { m with time := true }
  | .bus => { m with bus := true }

/-- The marks of `m` that `cleared` does not name. -/
def removeMarks (m cleared : MarkSet) : MarkSet :=
  { state := m.state && !cleared.state, channels := m.channels && !cleared.channels, probes := m.probes && !cleared.probes,
    time := m.time && !cleared.time, bus := m.bus && !cleared.bus }

/-- The least time between two requests for newly set marks, in µs (R191). -/
def markSpacing : Nat := 100000

/-- The period of the periodic STATUS request, in µs (R191). -/
def statusPeriod : Nat := 10000000

/-- A STATUS request to the SBC (R191). -/
def Part.requestStatus (p : Part) : Part := p.handFrame .status

/-- The request made for newly set marks: it starts the spacing anew (R191). -/
def Part.requestForMarks (p : Part) : Part :=
  (p.modCsu fun c => { c with lastMarkRequest := some p.clock, deferred := false }).requestStatus

/-- What a newly set mark asks for: in UNCONFIGURED, JOIN, RUN and HOLD a request at once, or a deferred one when the last
is younger than 100 ms; in the other states nothing (R191). -/
def Part.markNewlySet (p : Part) : Part :=
  if !p.usesLine then p
  else
    match p.csu.lastMarkRequest with
    | none => p.requestForMarks
    | some t =>
      if elapsed p.clock t markSpacing then p.requestForMarks else p.modCsu fun c => { c with deferred := true }

/-- Set a change mark; a mark already set is not newly set (R181). -/
def Part.setMark (m : ChangeMark) (p : Part) : Part :=
  if hasMark p.csu.marks m then p
  else (p.modCsu fun c => { c with marks := addMark c.marks m }).markNewlySet

/-- ATTN is asserted (R193): always in MUTE, never in LOADING, otherwise while a mark is set that the attention mask does
not name. While RST_N is low no pin but the outputs is driven (R179). -/
def Part.attn (p : Part) : Bool :=
  if p.rstLow then false
  else
    match p.csu.station with
    | .mute => true
    | .loading => false
    | .unconfigured | .join | .run | .hold | .silent =>
      removeMarks p.csu.marks p.block.attentionMask ≠ .clear

/-! ## Fault marks of channels (R14) -/

/-- A condition calls for a fault mark: an absent mark takes the cause and CHANNELS is set, a present one keeps its
first cause (R14). -/
def Part.faultMark (ch : Channel) (cause : ChannelMark) (p : Part) : Part :=
  match (p.lcu.channels.get ch).mark with
  | some _ => p
  | none => (p.modChannel ch fun c => { c with mark := some cause }).setMark .channels

/-! ## Wheel and hit flags (R10, R28) -/

/-- No hit flag. -/
def noHitFlags : HitFlags := { stretched := false, clipped := false, areaSat := false }

/-- No wheel flag. -/
def noWheelFlags : WheelFlags :=
  { orphanLead := false, orphanTrail := false, single := false, clipped := false, stretched := false, areaSat := false,
    qSat := false, loadSat := false, lowSpeed := false, timeStep := false }

/-- No vehicle flag. -/
def noVehicleFlags : VehicleFlags :=
  { partialLoad := false, noSpeed := false, accel := false, laneChange := false, peerBlind := false, timeStep := false,
    axleLimit := false, continuation := false, holdCut := false, grossOver := false, trigLate := false, trigMerged := false,
    trigMissed := false }

/-- The hit flags of an optional hit. -/
def hitFlags (h : Option Hit) : HitFlags :=
  match h with
  | some x => x.flags
  | none => noHitFlags

/-- A hit bars its strip from weighing when it carries any hit flag (R34). -/
def HitFlags.any (f : HitFlags) : Bool := f.stretched || f.clipped || f.areaSat

/-! ## TRIG flags (R127, R173) -/

/-- The three flags the TOU reports. -/
inductive TrigFlag where
  | late | merged | missed
  deriving DecidableEq, Repr

/-- Add a TRIG flag. -/
def addTrig (f : VehicleFlags) : TrigFlag → VehicleFlags
  | .late => { f with trigLate := true }
  | .merged => { f with trigMerged := true }
  | .missed => { f with trigMissed := true }

/-- Change the newest record that holds a tag. -/
def changeNewest (tag : Count16) (g : VehicleRecord → VehicleRecord) (l : List VehicleRecord) : List VehicleRecord :=
  (changeFirst (fun r => r.tag = tag) g l.reverse).reverse

/-- A TRIG report by tag: taken by the open vehicle when the tag is its own, otherwise by the newest record in the list that
holds the tag, otherwise discarded (R127). -/
def Part.reportTrig (flag : TrigFlag) (tag : Count16) (p : Part) : Part :=
  let toRecord := p.modVcl fun v =>
    { v with records := changeNewest tag (fun r => { r with slotFlags := addTrig r.slotFlags flag }) v.records }
  match p.vau.vehicle with
  | some veh =>
    if veh.tag = tag then p.modVau fun v => { v with vehicle := some { veh with flags := addTrig veh.flags flag } }
    else toRecord
  | none => toRecord

end Sys2Proof.Machine
end

