-- ==== Sys2Proof/Machine/LoadChannels.lean ====
section
/-! DEFINITION. The load channel unit: what one sample does to one channel (R3 to R11, R15), the miss notices (R16),
REBASELINE (R13), CLEAR_MARKS (R17) and the warm restart (R19) of the channel records. -/

namespace Sys2Proof.Machine

/-- The baseline value b = floor(B/64) (R3). -/
def ChannelRecord.b (c : ChannelRecord) : Int := c.baseline.fdiv 64

/-- How a hit ended (R7, R8). -/
inductive HitEnd where
  | byTail | byCountExpiry
  deriving DecidableEq, Repr

/-- What one sample did to a channel: the record after it, the hit it completed and how, and the two ends of STUCK. -/
structure SampleResult where
  record : ChannelRecord
  hit : Option (HitEnd × Hit)
  quietReturn : Bool
  rebased : Bool
  deriving DecidableEq, Repr

/-- A sample that completes nothing. -/
def plainResult (c : ChannelRecord) : SampleResult := { record := c, hit := none, quietReturn := false, rebased := false }

/-- A clipped sample (R10). -/
def clippedSample (x : Int) : Bool := x = 32767 || x = -32768

/-- The greatest area (R10). -/
def areaCap : Nat := 4294967295

/-- The sample that starts a hit (R5). -/
def startHit (c : ChannelRecord) (now : SiteTime) (x d : Int) : ChannelRecord :=
  { c with state := .pulse, startTime := now, area := d.toNat, peak := d.toNat, lengthCount := 1, tailCount := 0,
           flags := { stretched := false, clipped := clippedSample x, areaSat := false } }

/-- A sample of a hit in progress: length, area, peak and hit flags (R6, R7, R10). -/
def accumulate (c : ChannelRecord) (x d : Int) : ChannelRecord :=
  let sum := clampTo areaCap (c.area + d.toNat)
  { c with lengthCount := c.lengthCount + 1, area := sum.1, peak := if (c.peak : Int) < d then d.toNat else c.peak,
           flags := { c.flags with clipped := c.flags.clipped || clippedSample x, areaSat := c.flags.areaSat || sum.2 } }

/-- The completed hit of a channel (R11). -/
def hitOf (ch : Channel) (c : ChannelRecord) (endTime : SiteTime) : Hit :=
  { channel := ch, startTime := c.startTime, endTime := endTime, area := c.area, peak := c.peak, flags := c.flags }

/-- The hit ends by tail: its end time is the tail time, and the channel enters IDLE (R7). -/
def endByTail (ch : Channel) (c : ChannelRecord) : SampleResult :=
  { plainResult { c with state := .idle } with hit := some (.byTail, hitOf ch c c.tailTime) }

/-- The hit ends by count expiry: STRETCHED, its end time this sample's, and the channel enters STUCK (R8). -/
def endByCount (ch : Channel) (c : ChannelRecord) (now : SiteTime) : SampleResult :=
  let c1 := { c with flags := { c.flags with stretched := true } }
  { plainResult { c1 with state := .stuck, stuckCount := 0, quietCount := 0 } with
    hit := some (.byCountExpiry, hitOf ch c1 now) }

/-- A sample of a hit in progress, in PULSE or TAIL, after it has been accumulated (R6, R7). -/
def hitSample (st : StripsBlock) (ch : Channel) (now : SiteTime) (d : Int) (c : ChannelRecord) : SampleResult :=
  if d < st.thOff then
    let c1 := if c.state = .tail then { c with tailCount := c.tailCount + 1 } else { c with tailTime := now, tailCount := 1 }
    if st.ntail ≤ c1.tailCount then endByTail ch c1
    else if st.lmax ≤ c1.lengthCount then endByCount ch c1 now
    else plainResult { c1 with state := .tail }
  else
    let c1 := if c.state = .tail then { c with tailCount := 0 } else c
    if st.lmax ≤ c1.lengthCount then endByCount ch c1 now else plainResult { c1 with state := .pulse }

/-- A sample in STUCK (R9). Back in IDLE the stuck count and the quiet count stay as they stand (log 10). -/
def stuckSample (st : StripsBlock) (x d : Int) (c : ChannelRecord) : SampleResult :=
  let c1 := { c with stuckCount := c.stuckCount + 1, quietCount := if d < st.thOff then c.quietCount + 1 else 0 }
  if st.ntail ≤ c1.quietCount then { plainResult { c1 with state := .idle } with quietReturn := true }
  else if st.stuckLimit * samplesPerSecond < c1.stuckCount then
    { plainResult { c1 with state := .idle, baseline := 64 * x } with rebased := true }
  else plainResult c1

/-- A sample of a channel without a pending seed, in the channel's state (R3, R5 to R9). -/
def stateSample (st : StripsBlock) (ch : Channel) (now : SiteTime) (x : Int) (c : ChannelRecord) : SampleResult :=
  let d := x - c.b
  match c.state with
  | .idle => plainResult (if d < st.thOn then { c with baseline := c.baseline + x - c.b } else startHit c now x d)
  | .pulse => hitSample st ch now d (accumulate c x d)
  | .tail => hitSample st ch now d (accumulate c x d)
  | .stuck => stuckSample st x d c

/-- The drift count at which a channel takes DRIFT (R15). -/
def driftLimit : Nat := 8000

/-- The drift condition after an evaluated sample (R15). -/
def driftSample (st : StripsBlock) (c : ChannelRecord) : ChannelRecord :=
  if st.bwin < c.b.natAbs then { c with driftCount := min (c.driftCount + 1) driftLimit } else { c with driftCount := 0 }

/-- Whether an evaluated sample brought the drift count to its limit (R15). -/
def driftReached (before after : ChannelRecord) : Bool := before.driftCount < driftLimit && after.driftCount = driftLimit

/-- One sample of one channel, the drift condition included; a seed sample is not otherwise evaluated (R4). -/
def evalSample (st : StripsBlock) (ch : Channel) (now : SiteTime) (x : Int) (c : ChannelRecord) : SampleResult :=
  if c.seedPending then plainResult { c with baseline := 64 * x, seedPending := false }
  else
    let r := stateSample st ch now x c
    { r with record := driftSample st r.record }

/-! ## Miss notices (R16) -/

/-- A seen notice returns the miss counter to 0 (R16). -/
def Part.seenNotice (ch : Channel) (p : Part) : Part := p.modChannel ch fun c => { c with missCounter := 0 }

/-- A missed notice raises the miss counter up to the dead count, and reaching it calls for DEAD (R16). -/
def Part.missedNotice (ch : Channel) (p : Part) : Part :=
  let dead := p.image.strips.deadCount
  let n := (p.lcu.channels.get ch).missCounter
  if n < dead then
    let p1 := p.modChannel ch fun c => { c with missCounter := n + 1 }
    if n + 1 = dead then p1.faultMark ch .dead else p1
  else p

/-! ## Commands and restarts on the channel records -/

/-- The pulse of a channel is abandoned: the accumulators are emptied (R13). -/
def ChannelRecord.abandonPulse (c : ChannelRecord) : ChannelRecord :=
  { c with state := .idle, area := 0, peak := 0, lengthCount := 0, tailCount := 0, flags := noHitFlags }

/-- The channel brought to IDLE as R13 and R19 describe. -/
def ChannelRecord.toIdle (c : ChannelRecord) : ChannelRecord :=
  match c.state with
  | .idle => c
  | .pulse => c.abandonPulse
  | .tail => c.abandonPulse
  | .stuck => { c with state := .idle, stuckCount := 0, quietCount := 0 }

/-- REBASELINE on a selected channel (R13). -/
def ChannelRecord.rebaseline (c : ChannelRecord) : ChannelRecord := { c.toIdle with seedPending := true }

/-- CLEAR_MARKS on a named channel: mark absent, miss and drift counts 0 (R17). -/
def ChannelRecord.clearMark (c : ChannelRecord) : ChannelRecord := { c with mark := none, missCounter := 0, driftCount := 0 }

/-- A warm restart on a channel; `keep` is the keep-marks option (R19). -/
def ChannelRecord.warmRestart (keep : Bool) (c : ChannelRecord) : ChannelRecord :=
  if keep then c.toIdle else c.toIdle.clearMark

/-- Change the channels a mask names, bit 0 LL, 1 LR, 2 TL, 3 TR (section 12.2). -/
def changeMasked (mask : Nat) (f : ChannelRecord → ChannelRecord) (q : PerChannel ChannelRecord) : PerChannel ChannelRecord :=
  { ll := if mask.testBit 0 then f q.ll else q.ll, lr := if mask.testBit 1 then f q.lr else q.lr,
    tl := if mask.testBit 2 then f q.tl else q.tl, tr := if mask.testBit 3 then f q.tr else q.tr }

end Sys2Proof.Machine
end

