-- ==== Sys2Proof/Machine/Temperature.lean ====
section
/-! DEFINITION. The pavement temperature unit (chapter 3): the measurement cycle, the filter, quality, the temperature table,
TEMP requests and the effective temperature, with the meanings of its commands. -/

namespace Sys2Proof.Machine

/-- Settling time in µs (R43). -/
def settleTime : Nat := 20000
/-- Conversion time in µs (R43). -/
def convertTime : Nat := 80000
/-- The TEMP timer's limit in µs (R52). -/
def tempTimerLimit : Nat := 10000000
/-- The age beyond which a peer entry is removed, in µs (R51). -/
def peerTempAge : Int := 120000000
/-- The age beyond which the held value is absent, in µs (R55). -/
def heldAge : Int := 1800000000
/-- The valid temperatures, tenths of °C (Conventions). -/
def validTemp (t : Int) : Bool := -400 ≤ t && t ≤ 800

/-- The parameters of a probe. -/
def Part.probeParams (p : Part) (pr : Probe) : ProbeParams := p.image.probes.probe.get pr

/-! ## The converter (R43) -/

/-- The converter serves the first enabled probe of a list, or is IDLE (R43). -/
def serveNext (params : PerProbe ProbeParams) (clock : Nat) : List Probe → Converter
  | [] => .idle
  | pr :: rest => if (params.get pr).enable then .settle pr clock else serveNext params clock rest

/-- The probes still to be served after one. -/
def probesAfter : Probe → List Probe
  | .p0 => [.p1]
  | .p1 => []

/-- PEXC is on exactly while the converter settles or converts (R43). -/
def Part.pexc (p : Part) : Bool := p.ptu.converter ≠ .idle

/-- An interval begins: the converter serves the enabled probes, P0 first (R43). -/
def Part.startInterval (start : Nat) (p : Part) : Part :=
  p.modPtu fun u =>
    { u with intervalStart := some start, converter := serveNext p.image.probes.probe p.clock [.p0, .p1] }

/-- The PTU begins work: an interval begins at once, and the TEMP timer of each enabled probe starts from 0
(R42, R43, R52, R58). -/
def Part.beginTemperature (p : Part) : Part :=
  let timer (pr : Probe) : Option Nat := if (p.probeParams pr).enable then some p.clock else none
  ((p.modProbe .p0 fun s => { s with tempTimer := timer .p0 }).modProbe .p1 fun s => { s with tempTimer := timer .p1 }).startInterval
    p.clock

/-! ## Readings (R44 to R48) -/

/-- The outcome of a result code (R44). -/
inductive Reading where
  | valid (t : Int)
  | fault (kind : ProbeMark)
  deriving DecidableEq, Repr

/-- A result code as a temperature or a fault (R44). -/
def readCode (params : ProbeParams) (code : Nat) : Reading :=
  if code = 0 then .fault .shortCircuit
  else if code = 65535 then .fault .openCircuit
  else
    let t : Int := (code * params.gain / 65536 : Nat) + params.offset
    if validTemp t then .valid t else .fault .range

/-- The quality a fault gives (R48). -/
def faultQuality : ProbeMark → Quality
  | .openCircuit => .faultOpen
  | .shortCircuit => .faultShort
  | .range => .faultRange

/-- A fault result: the mark if absent, the reject count, the stale count and the quality (R45, R47, R48). -/
def faultReading (kind : ProbeMark) (s : ProbeState) : ProbeState :=
  { s with mark := some (s.mark.getD kind), reject := 0, stale := min (s.stale + 1) 10, quality := faultQuality kind }

/-- An accepted reading gives the filtered value `v` (R46, R47, R48). -/
def acceptReading (v : Int) (s : ProbeState) : ProbeState :=
  { s with seeded := true, filtered := v, reject := 0, stale := 0, quality := .good }

/-- A rejected reading that does not reseed (R47, R48). -/
def rejectReading (s : ProbeState) : ProbeState :=
  { s with jumps := satInc s.jumps, reject := s.reject + 1, stale := min (s.stale + 1) 10,
           quality := if 10 ≤ s.stale + 1 then .stale else s.quality }

/-- A completed conversion on its probe: the new state, and whether the reading was accepted (R44 to R48). -/
def takeReading (r : Reading) (s : ProbeState) : ProbeState × Bool :=
  match r with
  | .fault kind => (faultReading kind s, false)
  | .valid t =>
    if !s.seeded then (acceptReading t s, true)
    else
      let diff := t - s.filtered
      if diff.natAbs ≤ 50 then (acceptReading (s.filtered + diff.tdiv 4) s, true)
      else if 2 ≤ s.reject then (acceptReading t { s with jumps := satInc s.jumps }, true)
      else (rejectReading s, false)

/-- The own entry brought up to date (R49). -/
def updateOwn (now : SiteTime) (s : ProbeState) : ProbeState :=
  { s with own := { value := if s.seeded then some s.filtered else none, quality := s.quality, receiveTime := now } }

/-- A TEMP request: the probe's own entry goes to the SBC, and the TEMP timer returns to 0; none is made in SILENT
(R52, R53). -/
def Part.requestTemp (pr : Probe) (p : Part) : Part :=
  if p.csu.station = .silent then p
  else
    let s := p.ptu.probes.get pr
    (p.modProbe pr fun s => { s with tempTimer := some p.clock }).handFrame
      (.temp pr { quality := s.own.quality, group := p.block.group, value := s.own.value })

/-- A completed conversion of a probe, handled whole (R43 to R49, R52). -/
def Part.finishConversion (pr : Probe) (code : Nat) (p : Part) : Part :=
  let before := p.ptu.probes.get pr
  let r := takeReading (readCode (p.probeParams pr) code) before
  let p1 := p.modProbe pr fun _ => updateOwn p.now r.1
  let changed := r.1.quality ≠ before.quality
  let p2 := if changed then p1.setMark .probes else p1
  let p3 := if r.2 || changed then p2.requestTemp pr else p2
  p3.modPtu fun u => { u with converter := serveNext p.image.probes.probe p.clock (probesAfter pr) }

/-- The result code of a probe's conversion is taken (R43; log 43). -/
def Part.noteCode (pr : Probe) (code : BitVec 16) (p : Part) : Part :=
  p.modPtu fun u => { u with codes := u.codes.set pr code }

/-! ## Peer entries and the held value (R50, R51, R55) -/

/-- A peer entry is old enough to be removed (R51). -/
def peerTempOld (now : SiteTime) (e : PeerTemp) : Bool := peerTempAge < siteDiff now e.receiveTime

/-- The held value is old enough to be absent (R55). -/
def heldOld (now : SiteTime) (h : HeldValue) : Bool := heldAge < siteDiff now h.obtained

/-- A TEMP frame dispatched to the PTU (R42, R50). -/
def Part.takeTempFrame (sender : Nat) (probe : Probe) (c : TempContent) (p : Part) : Part :=
  let badGood := c.quality = .good && (match c.value with | some t => !validTemp t | none => true)
  if !p.working || sender < 1 || 14 < sender || sender = p.block.number || badGood then p
  else
    let e : PeerTemp := { station := sender, probe := probe, value := c.value, quality := c.quality, group := c.group,
                          receiveTime := p.now }
    let isIt (x : PeerTemp) : Bool := x.station = sender && x.probe = probe
    p.modPtu fun u =>
      { u with peers := if u.peers.any isIt then changeFirst isIt (fun _ => e) u.peers else u.peers ++ [e] }

/-! ## The effective temperature (R54, R55) -/

/-- The values of the GOOD peer entries of a probe in the station's own group that are not aged (R51, R54). -/
def Part.peerValues (p : Part) (pr : Probe) : List Int :=
  (p.ptu.peers.filter fun e =>
    e.probe = pr && e.quality = .good && e.group = p.block.group && !peerTempOld p.now e).filterMap PeerTemp.value

/-- The mean, truncated toward zero (R54). -/
def meanOf (l : List Int) : Int := l.sum.tdiv l.length

/-- The first usable source and its value (R54). -/
def Part.effective (p : Part) : Int × TempSource :=
  let own (pr : Probe) : Option Int :=
    let e := (p.ptu.probes.get pr).own
    if e.quality = .good then e.value else none
  match own .p0 with
  | some t => (t, .ownSurface)
  | none =>
    match own .p1 with
    | some t => (t, .ownDepth)
    | none =>
      match p.peerValues .p0 with
      | x :: xs => (meanOf (x :: xs), .peerSurface)
      | [] =>
        match p.peerValues .p1 with
        | x :: xs => (meanOf (x :: xs), .peerDepth)
        | [] =>
          match p.ptu.held with
          | some h => if heldOld p.now h then (p.image.probes.reference, .reference) else (h.value, .held)
          | none => (p.image.probes.reference, .reference)

/-- An answer from sources 1 to 4 becomes the held value (R55). -/
def Part.keepEffective (answer : Int × TempSource) (p : Part) : Part :=
  match answer.2 with
  | .held => p
  | .reference => p
  | .ownSurface | .ownDepth | .peerSurface | .peerDepth =>
    p.modPtu fun u => { u with held := some { value := answer.1, obtained := p.now } }

/-! ## Commands and restarts -/

/-- CLEAR_MARKS on the probes a fault-mark mask names, bit 4 P0, bit 5 P1 (R56, section 12.2). -/
def Part.clearProbeMarks (mask : Nat) (p : Part) : Part :=
  let clear (on : Bool) (s : ProbeState) : ProbeState := if on then { s with mark := none } else s
  (p.modProbe .p0 (clear (mask.testBit 4))).modProbe .p1 (clear (mask.testBit 5))

/-- MEASUREMENT_INTERVAL_START (R43): the running interval is over, and the next begins one interval length after it began. -/
def Part.intervalTick (p : Part) : Part :=
  match p.ptu.intervalStart with
  | none => p
  | some t =>
    let length := p.image.probes.interval * 1000000
    if p.working && p.ptu.converter = .idle && elapsed p.clock t length then p.startInterval (t + length) else p

/-- SETTLE_END (R43). -/
def Part.settleDone (p : Part) : Part :=
  match p.ptu.converter with
  | .settle pr t =>
    if p.working && elapsed p.clock t settleTime then p.modPtu fun u => { u with converter := .convert pr p.clock } else p
  | .idle => p
  | .convert _ _ => p

/-- CONVERSION_COMPLETE (R43, R44). -/
def Part.conversionDone (code : BitVec 16) (p : Part) : Part :=
  match p.ptu.converter with
  | .convert pr t =>
    if p.working && elapsed p.clock t convertTime then (p.noteCode pr code).finishConversion pr code.toNat else p
  | .idle => p
  | .settle _ _ => p

/-- The TEMP timer of a probe has reached 10 s in a state in which TEMP requests are made (R52). -/
def Part.tempTimerDue (p : Part) (pr : Probe) : Bool :=
  p.onDuty && (p.probeParams pr).enable &&
    (match (p.ptu.probes.get pr).tempTimer with | some t => elapsed p.clock t tempTimerLimit | none => false)

/-- Meaning of MEASUREMENT_INTERVAL_START (R43). -/
def execMeasurementIntervalStart (s : State) : Host.Outcome State Fault Refusal := act Part.intervalTick s

/-- Meaning of SETTLE_END (R43). -/
def execSettleEnd (s : State) : Host.Outcome State Fault Refusal := act Part.settleDone s

/-- Meaning of CONVERSION_COMPLETE (R44). -/
def execConversionComplete (code : BitVec 16) (s : State) : Host.Outcome State Fault Refusal :=
  act (Part.conversionDone code) s

/-- Meaning of TEMP_TIMER_EXPIRY (R52). -/
def execTempTimerExpiry (probe : Probe) (s : State) : Host.Outcome State Fault Refusal :=
  act (fun p => if p.tempTimerDue probe then p.requestTemp probe else p) s

/-- Meaning of PEER_TEMP_ENTRY_REMOVAL (R51). -/
def execPeerTempEntryRemoval (s : State) : Host.Outcome State Fault Refusal :=
  act (fun p => p.modPtu fun u => { u with peers := u.peers.filter fun e => !peerTempOld p.now e }) s

/-- Meaning of HELD_VALUE_EXPIRY (R55). -/
def execHeldValueExpiry (s : State) : Host.Outcome State Fault Refusal :=
  act (fun p => p.modPtu fun u => { u with held := u.held.filter fun h => !heldOld p.now h }) s

end Sys2Proof.Machine
end

