-- ==== Sys2Proof/Machine/TimeUnit.lean ====
section
/-! DEFINITION. The site time unit (chapter 5): steps, the difference of a TIME frame, split counters, due points and the
step log, with the meanings of STEP_LOG_ENTRY_REMOVAL and TIME_DUE_POINT. The JOIN window's end is in Control.lean. -/

namespace Sys2Proof.Machine

/-- The largest small step, in µs (R82). -/
def smallStep : Int := 1000
/-- The age beyond which a step log entry is removed, in µs (R86). -/
def stepLogAge : Int := 8000000
/-- The JOIN window in µs (R85). -/
def joinLength : Nat := 1000000
/-- The spacing of due points in µs (R84). -/
def duePeriod : Nat := 250000

/-! ## Due points (R84) -/

/-- The due points' offset of a station: 16,000 times its number (R84). -/
def dueOffset (number : Nat) : Nat := 16000 * number

/-- A site time is a due point of a station (R84). -/
def isDuePoint (number : Nat) (t : SiteTime) : Bool := t.toNat % duePeriod = dueOffset number

/-- Some due point lies in the counts `lo + 1` to `hi`, not wrapping (R84). -/
def dueBetween (number : Nat) (lo hi : Int) : Bool :=
  (lo - dueOffset number).fdiv duePeriod < (hi - dueOffset number).fdiv duePeriod

/-- A step of size `d` from `t` carries site time over one or more due points, the wrap included (R79, R84). -/
def stepPassesDue (number : Nat) (t : SiteTime) (d : Nat) : Bool :=
  let hi := t.toNat + d
  if hi < 2 ^ 48 then dueBetween number t.toNat hi
  else dueBetween number t.toNat (2 ^ 48 - 1) || dueBetween number (-1) (hi - 2 ^ 48 : Nat)

/-- A TIME frame is handed to the SBC (R63, R84). -/
def Part.handTime (p : Part) : Part := p.handFrame .time

/-- Site time stands at a due point that has not been acted on, in RUN or HOLD (R84). -/
def Part.atDuePoint (p : Part) : Bool :=
  p.inRunOrHold && isDuePoint p.block.number p.now && p.stu.lastDue ≠ some p.now

/-- A due point is acted on: one TIME frame is handed over (R84). -/
def Part.actOnDue (p : Part) : Part := (p.modStu fun u => { u with lastDue := some u.siteTime }).handTime

/-! ## Steps (R79, R86) -/

/-- Merge a step into the newest entry of the log: its first to time is kept (R86). -/
def mergeNewest (t : SiteTime) : List StepSpan → List StepSpan
  | [] => []
  | [x] => [{ x with last := t }]
  | x :: y :: rest => x :: mergeNewest t (y :: rest)

/-- A step log entry is old enough to be removed (R86). -/
def stepOld (now : SiteTime) (e : StepSpan) : Bool := stepLogAge < siteDiff now e.last

/-- Record a step from site time `now` to `t`: the entries that are old before the step have left the log (R86; log 22). -/
def logStep (now t : SiteTime) (l : List StepSpan) : List StepSpan :=
  let kept := l.filter fun e => !stepOld now e
  if kept.length < 8 then kept ++ [{ first := t, last := t }] else mergeNewest t kept

/-- Site time and step total gain `d`, and the log records the step (R79). -/
def Stu.step (d : Nat) (u : Stu) : Stu :=
  let t := later u.siteTime d
  { u with siteTime := t, stepTotal := later u.stepTotal d, log := logStep u.siteTime t u.log }

/-- The open vehicle, if there is one, takes TIME_STEP (R79). -/
def Part.noticeStep (p : Part) : Part :=
  p.modVau fun v => { v with vehicle := v.vehicle.map fun x => { x with flags := { x.flags with timeStep := true } } }

/-- A due point that site time stands at is acted on before a step leaves it (R84; log 21). -/
def Part.catchDue (p : Part) : Part := if p.atDuePoint then p.actOnDue else p

/-- A step of size `d` (R79): the log, the open vehicle's TIME_STEP, and in RUN and HOLD one TIME frame for the due points
passed (R84). The due point that site time stands at after it, if any, has been acted on (log 25). -/
def Part.takeStep (d : Nat) (p : Part) : Part :=
  let n := p.block.number
  let passed := p.inRunOrHold && stepPassesDue n p.now d
  let p1 := (p.catchDue.modStu (Stu.step d)).noticeStep
  let p2 := p1.modStu fun u => { u with lastDue := if isDuePoint n u.siteTime then some u.siteTime else none }
  if passed then p2.handTime else p2

/-! ## TIME frames (R80 to R83) -/

/-- Set a sender's split counter; a change of value sets TIME (R83). -/
def Part.setSplit (i : Fin 14) (x : Fin 3) (p : Part) : Part :=
  if p.stu.split[i] = x then p
  else (p.modStu fun u => { u with split := u.split.set i x }).setMark .time

/-- The difference of a TIME frame: what the own site time falls short of the sender's now (R80). -/
def timeDifference (senderTime : SiteTime) (delay : Nat) (c : Capture) (stepTotal : SiteTime) : Int :=
  (senderTime + BitVec.ofNat 48 delay - c.siteTime - (stepTotal - c.stepTotal)).toInt

/-- JOIN follows any lead at once (R81). -/
def Part.followInJoin (i : Fin 14) (d : Int) (p : Part) : Part :=
  if 1 ≤ d then (p.takeStep d.toNat).setSplit i 0 else p

/-- RUN, HOLD and SILENT follow a small lead at once and a large one at the third frame (R82). -/
def Part.followInRun (i : Fin 14) (d : Int) (p : Part) : Part :=
  if d ≤ 0 then p
  else if d ≤ smallStep then (p.takeStep d.toNat).setSplit i 0
  else
    let n := p.stu.split[i]
    if n = 2 then
      ((p.takeStep d.toNat).modStu fun u => { u with splitSteps := satInc u.splitSteps }).setSplit i 0
    else p.setSplit i (n + 1)

/-- A TIME frame handed to the STU with its capture (R80 to R82). -/
def Part.takeTimeFrame (sender : Nat) (senderTime : SiteTime) (c : Capture) (p : Part) : Part :=
  if !p.working then p
  else if h : 1 ≤ sender ∧ sender ≤ 14 then
    let i : Fin 14 := ⟨sender - 1, by omega⟩
    let d := timeDifference senderTime p.block.lineDelay c p.stu.stepTotal
    if p.csu.station = .join then p.followInJoin i d else p.followInRun i d
  else p

/-! ## The step log's reader (R86) -/

/-- A step lies between the two starts of a paired wheel (R86). -/
def Part.stepBetween (p : Part) (lead trail : SiteTime) : Bool :=
  p.stu.log.any fun e => !stepOld p.now e && siteDiff e.first trail ≤ 0 && 0 < siteDiff e.last lead

/-! ## Commands -/

/-- Meaning of STEP_LOG_ENTRY_REMOVAL (R86). -/
def execStepLogEntryRemoval (s : State) : Host.Outcome State Fault Refusal :=
  act (fun p => p.modStu fun u => { u with log := u.log.filter fun e => !stepOld u.siteTime e }) s

/-- Meaning of TIME_DUE_POINT (R84). -/
def execTimeDuePoint (s : State) : Host.Outcome State Fault Refusal :=
  act Part.catchDue s

end Sys2Proof.Machine
end

