-- ==== Sys2Proof/Machine/Pairing.lean ====
section
/-! DEFINITION. The pairing and speed engine (chapter 2): standings, expiry, pairing, the completion of wheel records and
their hand-over, coincidence checks; and the sampling instant with the commands that are part of it (chapter 1). -/

namespace Sys2Proof.Machine

/-! ## Pair speed (R22, R23) -/

/-- The standing of a leading hit against a trailing hit (R22). -/
inductive Standing where
  | tooRecent
  | inWindow (v : Nat)
  | tooOld
  deriving DecidableEq, Repr

/-- The standing and candidate speed for rows `spacing` mm apart (R22). -/
def standing (spacing : Nat) (lead trail : SiteTime) : Standing :=
  let d := siteDiff trail lead
  if d ≤ 0 then .tooRecent
  else
    let v := spacing * 1000000 / d.toNat
    if vMax < v then .tooRecent else if v < vMin then .tooOld else .inWindow v

/-- The expiry limit E in µs (R23). -/
def expiryLimit (spacing : Nat) : Nat := spacing * 1000000 / vMin

/-- A leading entry has expired at `now` (R23). -/
def hitExpired (spacing : Nat) (now : SiteTime) (h : Hit) : Bool := (expiryLimit spacing : Int) < siteDiff now h.startTime

/-! ## The local wheel store and the wheel intake (R31, R94, R97) -/

/-- Close the store record of a wheel (R31). -/
def closeStored (number : Count16) (l : List StoreRecord) : List StoreRecord :=
  l.map fun r => if r.wheel.number = number then { r with isOpen := false } else r

/-- The store record of a wheel is closed by the VAU (R94, R96, R97, R109). -/
def Part.closeRecord (number : Count16) (p : Part) : Part :=
  p.modPse fun u => { u with store := closeStored number u.store }

/-- The store asks for a forced decision on its oldest open record (R31, R97): the record is closed at once, the wheel is
marked in the pending wheel list or in the intake, and the forced decisions counter increases. -/
def Part.forceDecision (number : Count16) (p : Part) : Part :=
  ((p.closeRecord number).modVau fun v =>
    { v with waiting := v.waiting.map fun w => if w.wheel.number = number then { w with forced := true } else w
             intake := v.intake.map fun w => if w.wheel.number = number then { w with forced := true } else w
             forcedDecisions := satInc v.forcedDecisions }).requestPort .axleFormer

/-- A completed record enters the local wheel store (R31). -/
def Part.enterStore (w : Wheel) (p : Part) : Part :=
  let p1 : Part :=
    if p.pse.store.length < 32 then p
    else
      match p.pse.store with
      | [] => p
      | oldest :: _ =>
        (if oldest.isOpen then p.forceDecision oldest.wheel.number else p).modPse fun u => { u with store := u.store.drop 1 }
  p1.modPse fun u => { u with store := u.store ++ [{ wheel := w, isOpen := true }] }

/-- The PSE hands a wheel to the VAU: it joins the intake, whose oldest entry is dropped when it holds 32, and the axle
former requests the port (R94). -/
def Part.enterIntake (w : Wheel) (completion : SiteTime) (p : Part) : Part :=
  let p1 : Part :=
    if p.vau.intake.length < 32 then p
    else
      match p.vau.intake with
      | [] => p
      | oldest :: rest =>
        (p.closeRecord oldest.wheel.number).modVau fun v => { v with intake := rest, droppedWheels := satInc v.droppedWheels }
  (p1.modVau fun v => { v with intake := v.intake ++ [{ wheel := w, completion := completion, forced := false }] }).requestPort
    .axleFormer

/-! ## Coincidence checks (R32, R33) -/

/-- A start history holds a start time within `w` of `t` (R33). -/
def seenIn (history : List SiteTime) (t : SiteTime) (w : Nat) : Bool := history.any fun x => (siteDiff x t).natAbs ≤ w

/-- A coincidence check is performed: the notices for the other side's channels, the leading one's first (R33). -/
def Part.performCheck (c : Check) (p : Part) : Part :=
  let y := otherSide c.side
  let leadSeen := seenIn (p.pse.history.get (leadingChannel y)) c.leadStart c.window
  let trailSeen := seenIn (p.pse.history.get (trailingChannel y)) c.trailStart c.window
  match leadSeen, trailSeen with
  | true, true => (p.seenNotice (leadingChannel y)).seenNotice (trailingChannel y)
  | true, false => (p.seenNotice (leadingChannel y)).missedNotice (trailingChannel y)
  | false, true => (p.missedNotice (leadingChannel y)).seenNotice (trailingChannel y)
  | false, false => p

/-- The check time of a check is later than `t`. -/
def checkAfter (t : SiteTime) (c : Check) : Bool := 0 < siteDiff c.checkTime t

/-- A check is placed in check time order, behind those of an equal check time (log 37); a list of 16 first performs its oldest
check (R32). -/
def Part.placeCheck (c : Check) (p : Part) : Part :=
  let p1 : Part :=
    if p.pse.checks.length < 16 then p
    else
      match p.pse.checks with
      | [] => p
      | oldest :: rest => (p.modPse fun u => { u with checks := rest }).performCheck oldest
  p1.modPse fun u => { u with checks := insertBefore (checkAfter c.checkTime) c u.checks }

/-- Perform the checks whose check time `now` has reached, earliest first; `n` bounds their number (R32). -/
def Part.performDue (now : SiteTime) : Nat → Part → Part
  | 0, p => p
  | n + 1, p =>
    match p.pse.checks with
    | [] => p
    | c :: rest =>
      if 0 ≤ siteDiff now c.checkTime then
        ((p.modPse fun u => { u with checks := rest }).performCheck c).performDue now n
      else p

/-- Every check whose check time has been reached is performed (R32). -/
def Part.dueChecks (now : SiteTime) (p : Part) : Part := p.performDue now p.pse.checks.length

/-! ## Completing a wheel (R26 to R30, R34 to R37) -/

/-- q of a strip when it is usable: its hit carries no hit flag, its channel has a calibration constant and no fault mark
(R34). The Bool is Q_SAT. -/
def Part.usableQ (p : Part) (f : Nat) : Option Hit → Option (Nat × Bool)
  | none => none
  | some h =>
    let c := p.image.strips.cal.get h.channel
    if h.flags.any || c = 0 || (p.lcu.channels.get h.channel).mark.isSome then none else some (stripQ h.area c f)

/-- Whether a strip's computation took Q_SAT. -/
def tookSat (q : Option (Nat × Bool)) : Bool :=
  match q with
  | some x => x.2
  | none => false

/-- The record of a wheel that completes with these hits (R26 to R28, R34, R37). -/
def Part.wheelRecord (p : Part) (side : Side) (lead trail : Option Hit) (speed : Option Nat) : Wheel :=
  let answer := p.effective
  let f := tableFactor answer.1 p.image.factors.temperature
  let qLead := p.usableQ f lead
  let qTrail := p.usableQ f trail
  let a := hitFlags lead
  let b := hitFlags trail
  let step := match lead, trail with
    | some x, some y => p.stepBetween x.startTime y.startTime
    | some _, none => false
    | none, _ => false
  let w : Wheel :=
    { number := p.pse.wheelCounter, side := side, leadStart := lead.map Hit.startTime, trailStart := trail.map Hit.startTime,
      speed := speed, qLead := qLead.map Prod.fst, qTrail := qTrail.map Prod.fst, temperature := answer.1, source := answer.2,
      runStart := p.vau.runStart, load := none,
      flags := { noWheelFlags with
        orphanLead := trail.isNone, orphanTrail := lead.isNone, clipped := a.clipped || b.clipped,
        stretched := a.stretched || b.stretched, areaSat := a.areaSat || b.areaSat,
        qSat := tookSat qLead || tookSat qTrail, timeStep := step } }
  match speed with
  | some v => finishWheel p.image.factors.speed v w
  | none => w

/-- The coincidence check of a paired wheel (R32). -/
def Part.checkOf (p : Part) (side : Side) (lead trail : SiteTime) (v : Nat) : Check :=
  let w := p.image.assembly.dc * 1000000 / v
  { side := side, leadStart := lead, trailStart := trail, window := w,
    checkTime := later trail (w + p.image.strips.lmax * samplePeriod) }

/-- A wheel completes: the effective temperature is asked for, the record made and numbered, and handed to the store, the
SBC and the VAU, in that order; a paired wheel then places its coincidence check, after the three (log 38) (R26, R29, R30). -/
def Part.completeWheel (side : Side) (lead trail : Option Hit) (speed : Option Nat) (now : SiteTime) (p : Part) : Part :=
  let w := p.wheelRecord side lead trail speed
  let p1 := (p.keepEffective p.effective).modPse fun u => { u with wheelCounter := u.wheelCounter + 1 }
  let p2 := (((p1.enterStore w).enterList (.wheel w) now).offerVehicle).enterIntake w now
  match lead, trail, speed with
  | some x, some y, some v => p2.placeCheck (p.checkOf side x.startTime y.startTime v)
  | _, _, _ => p2

/-- An orphan lead completes (R26). -/
def Part.orphanLead (side : Side) (now : SiteTime) (p : Part) (h : Hit) : Part :=
  p.completeWheel side (some h) none none now

/-! ## Expiry and pairing (R23 to R25) -/

/-- Replace a side's leading FIFO. -/
def Part.setFifo (side : Side) (l : List Hit) (p : Part) : Part := p.modPse fun u => { u with fifo := u.fifo.set side l }

/-- The expired entries of a side are removed and complete as orphan leads, oldest first (R23). -/
def Part.expireSide (side : Side) (now : SiteTime) (p : Part) : Part :=
  let l := p.pse.fifo.get side
  let old := hitExpired p.image.strips.spacing now
  (l.filter old).foldl (Part.orphanLead side now) (p.setFifo side (l.filter fun h => !old h))

/-- The expiry of both leading FIFOs, the left before the right (R23). -/
def Part.expireBoth (now : SiteTime) (p : Part) : Part := (p.expireSide .left now).expireSide .right now

/-- The scan of R25: entries from oldest to newest; the entries found too old, the first in window with its speed, and
the entries that stay. -/
def scanFifo (spacing : Nat) (trail : SiteTime) : List Hit → List Hit × Option (Hit × Nat) × List Hit
  | [] => ([], none, [])
  | h :: rest =>
    match standing spacing h.startTime trail with
    | .inWindow v => ([], some (h, v), rest)
    | .tooOld => let r := scanFifo spacing trail rest; (h :: r.1, r.2.1, r.2.2)
    | .tooRecent => let r := scanFifo spacing trail rest; (r.1, r.2.1, h :: r.2.2)

/-- A hit handed to the PSE joins its channel's start history (R32). -/
def Part.recordStart (h : Hit) (p : Part) : Part :=
  p.modPse fun u => { u with history := u.history.set h.channel (appendCapped 8 (u.history.get h.channel) h.startTime) }

/-- A leading hit handed to the PSE (R24). -/
def Part.takeLeading (h : Hit) (now : SiteTime) (p : Part) : Part :=
  let side := channelSide h.channel
  let p1 := p.recordStart h
  match p1.pse.fifo.get side with
  | [] => p1.setFifo side [h]
  | oldest :: rest =>
    if rest.length + 1 < 8 then p1.setFifo side (oldest :: rest ++ [h])
    else ((p1.setFifo side rest).orphanLead side now oldest).setFifo side (rest ++ [h])

/-- A trailing hit handed to the PSE (R25). -/
def Part.takeTrailing (h : Hit) (now : SiteTime) (p : Part) : Part :=
  let side := channelSide h.channel
  let p1 := (p.recordStart h).expireSide side now
  let r := scanFifo p1.image.strips.spacing h.startTime (p1.pse.fifo.get side)
  let p2 := r.1.foldl (Part.orphanLead side now) (p1.setFifo side r.2.2)
  match r.2.1 with
  | some x => p2.completeWheel side (some x.1) (some h) (some x.2) now
  | none => p2.completeWheel side none (some h) none now

/-- A hit handed to the PSE. -/
def Part.takeHit (h : Hit) (now : SiteTime) (p : Part) : Part :=
  if isLeading h.channel then p.takeLeading h now else p.takeTrailing h now

/-- The PSE's lists are emptied: on leaving RUN, and at a warm restart (R21, R41). -/
def Pse.emptied (u : Pse) : Pse :=
  { u with fifo := { left := [], right := [] }, history := { ll := [], lr := [], tl := [], tr := [] }, checks := [] }

/-! ## Disposal and the sampling instant (R1, R12) -/

/-- The disposal of a completed hit by the station state and its channel's fault mark (R12). -/
def Part.disposeHit (h : Hit) (now : SiteTime) (p : Part) : Part :=
  let marked := (p.lcu.channels.get h.channel).mark.isSome
  let countMarked := p.modTotals fun t => { t with markedHits := satInc t.markedHits }
  match p.csu.station with
  | .run => if marked then countMarked else p.takeHit h now
  | .hold => if marked then countMarked else p.modTotals fun t => { t with holdHits := satInc t.holdHits }
  | .join => p
  | .silent => p
  | .loading => p
  | .mute => p
  | .unconfigured => p

/-- The sample time of the instant at which the own clock stands: as it has been read for this instant, else the site time (R1). -/
def Part.sampleTime (p : Part) : SiteTime :=
  match p.lcu.stamp with
  | some x => if x.instant = p.clock then x.time else p.now
  | none => p.now

/-- The sample time is read for this instant, once (R1). -/
def Part.readTime (p : Part) : Part :=
  p.modLcu fun l => { l with stamp := some { instant := p.clock, time := p.sampleTime } }

/-- What one sample would do to a channel now. -/
def Part.preview (ch : Channel) (x : Sample) (p : Part) : SampleResult :=
  evalSample p.image.strips ch p.sampleTime x.toInt (p.lcu.channels.get ch)

/-- One sample of one channel: its evaluation, the disposal of a hit it completes, and the fault marks it calls for
(R3 to R12, R14, R15). -/
def Part.sampleChannel (ch : Channel) (x : Sample) (p : Part) : Part :=
  let before := p.lcu.channels.get ch
  let r := p.preview ch x
  let p1 := p.modChannel ch fun _ => r.record
  let p2 := match r.hit with
    | some h => p1.disposeHit h.2 p.sampleTime
    | none => p1
  let p3 := if r.rebased then p2.faultMark ch .stuckLong else p2
  if driftReached before r.record then p3.faultMark ch .drift else p3

/-- What follows the four samples at an instant in RUN: the expiry of leading entries and the due checks (R23, R32). -/
def Part.instantWork (p : Part) : Part :=
  if p.inRun then (p.expireBoth p.sampleTime).dueChecks p.sampleTime else p

/-- The sampling instant is at hand: 125 µs of own clock have passed since the last one, in a station state in which the LCU
samples (R1, R2). -/
def Part.sampleDue (p : Part) : Bool :=
  p.working && (match p.lcu.lastSample with | some t => elapsed p.clock t samplePeriod | none => true)

/-- The sampling instant is taken on the own clock, with its sample time and the levels at the inputs (R1; log 41). -/
def Part.markInstant (x : PerChannel Sample) (p : Part) : Part :=
  p.readTime.modLcu fun l => { l with lastSample := some p.clock, inputs := x }

/-- The four channels of a sampling instant, in the order LL, LR, TL, TR (R1, R12; log 8). -/
def Part.sampleFour (x : PerChannel Sample) (p : Part) : Part :=
  (((p.sampleChannel .ll x.ll).sampleChannel .lr x.lr).sampleChannel .tl x.tl).sampleChannel .tr x.tr

/-- A sampling instant, whole (R1). -/
def Part.sampleAll (x : PerChannel Sample) (p : Part) : Part := ((p.markInstant x).sampleFour x).instantWork

/-- Meaning of SAMPLE_INSTANT (R1, R2): at any other time there is no sampling instant (log 2). -/
def execSampleInstant (ll lr tl tr : Sample) (s : State) : Host.Outcome State Fault Refusal :=
  act (fun p => if p.sampleDue then p.sampleAll { ll := ll, lr := lr, tl := tl, tr := tr } else p) s

/-- A sampling instant at which the sample of one channel does what its command names; when it would not, the event does
not take place (log 2, 7). -/
def Part.sampleIf (happens : SampleResult → Bool) (ch : Channel) (x : PerChannel Sample) (p : Part) : Part :=
  if p.sampleDue && happens (p.preview ch (x.get ch)) then p.sampleAll x else p

/-- The sample ended a hit in the given way. -/
def SampleResult.endedBy (how : HitEnd) (r : SampleResult) : Bool :=
  match r.hit with
  | some h => h.1 = how
  | none => false

/-- Meaning of HIT_END_BY_TAIL (R7). -/
def execHitEndByTail (ch : Channel) (x : PerChannel Sample) (s : State) : Host.Outcome State Fault Refusal :=
  act (Part.sampleIf (SampleResult.endedBy .byTail) ch x) s

/-- Meaning of HIT_END_BY_COUNT_EXPIRY (R8). -/
def execHitEndByCountExpiry (ch : Channel) (x : PerChannel Sample) (s : State) : Host.Outcome State Fault Refusal :=
  act (Part.sampleIf (SampleResult.endedBy .byCountExpiry) ch x) s

/-- Meaning of STUCK_QUIET_RETURN (R9). -/
def execStuckQuietReturn (ch : Channel) (x : PerChannel Sample) (s : State) : Host.Outcome State Fault Refusal :=
  act (Part.sampleIf SampleResult.quietReturn ch x) s

/-- Meaning of FORCED_REBASELINE (R9). -/
def execForcedRebaseline (ch : Channel) (x : PerChannel Sample) (s : State) : Host.Outcome State Fault Refusal :=
  act (Part.sampleIf SampleResult.rebased ch x) s

/-- Meaning of DRIFT_MARK (R15). -/
def execDriftMark (ch : Channel) (x : PerChannel Sample) (s : State) : Host.Outcome State Fault Refusal :=
  act (fun p => Part.sampleIf (fun r => driftReached (p.lcu.channels.get ch) r.record) ch x p) s

/-- The own clock stands at a sampling instant, be it taken or still to be taken (R1; log 7). -/
def Part.atInstant (p : Part) : Bool := p.sampleDue || p.lcu.lastSample = some p.clock

/-- Work of the PSE at a sampling instant in RUN, by the instant's sample time, which it reads when the samples are still to be
taken; when there is none, the event does not take place (R1, R23, R32; log 2, 7). -/
def Part.workAt (due : SiteTime → Part → Bool) (work : SiteTime → Part → Part) (p : Part) : Part :=
  if p.inRun && p.atInstant && due p.sampleTime p then work p.sampleTime p.readTime else p

/-- A leading entry of either side has expired at a sample time (R23). -/
def anyExpired (now : SiteTime) (p : Part) : Bool :=
  (p.pse.fifo.left ++ p.pse.fifo.right).any (hitExpired p.image.strips.spacing now)

/-- The first check of the list is due at a sample time (R32). -/
def checkDue (now : SiteTime) (p : Part) : Bool :=
  match p.pse.checks with
  | [] => false
  | c :: _ => 0 ≤ siteDiff now c.checkTime

/-- Meaning of LEADING_ENTRY_EXPIRY (R23). -/
def execLeadingEntryExpiry (s : State) : Host.Outcome State Fault Refusal := act (Part.workAt anyExpired Part.expireBoth) s

/-- Meaning of COINCIDENCE_CHECK (R32, R33). -/
def execCoincidenceCheck (s : State) : Host.Outcome State Fault Refusal := act (Part.workAt checkDue Part.dueChecks) s

end Sys2Proof.Machine
end

