-- ==== Sys2Proof/Machine/Outputs.lean ====
section
/-! DEFINITION. The trigger output unit (chapter 10): reports, firings, the schedule list, pulses, with the meanings of
FIRING_DUE and PULSE_END. -/

namespace Sys2Proof.Machine

/-- The timing items of a report (R126, R144): the vehicle's tag, the first axle's trail time and speed, and the speed
carried for the vehicle. -/
structure Timing where
  tag : Count16
  trail : Option SiteTime
  axleSpeed : Option Nat
  vehicleSpeed : Option Nat
  deriving DecidableEq, Repr

/-- The configuration of an output. -/
def Part.trigger (p : Part) (o : Output) : TriggerParams := p.image.triggers.get o

/-- The level of an output's pin, true for high: ACTIVE is the polarity, INACTIVE its opposite, LOW is low (R164, R165). -/
def Part.pinHigh (p : Part) (o : Output) : Bool :=
  match (p.tou.outputs.get o).level with
  | .low => false
  | .active => !(p.trigger o).polarityLow
  | .inactive => (p.trigger o).polarityLow

/-- The due time of a firing, absent when it cannot be timed (R169). -/
def firingDueTime (distance : Nat) (r : Timing) : Option SiteTime :=
  match r.trail with
  | none => none
  | some t =>
    if distance = 0 then some t
    else
      match r.axleSpeed with
      | some v => some (later t (distance * 1000000 / v))
      | none => r.vehicleSpeed.map fun v => later t (distance * 1000000 / v)

/-- The width of an output's pulse in µs. -/
def Part.pulseWidth (p : Part) (o : Output) : Nat := (p.trigger o).width * 1000

/-- A firing acts on an output: it starts a pulse, or merges into the one that runs, with TRIG_MERGED (R172). -/
def Part.fire (o : Output) (tag : Count16) (p : Part) : Part :=
  let p1 := p.modOutput o fun x => { x with level := .active, pulseEnd := some (p.clock + p.pulseWidth o) }
  if (p.tou.outputs.get o).level = .active then p1.reportTrig .merged tag else p1

/-- Place a firing in a schedule list by due time, after equal due times (R170). -/
def scheduleFiring (f : Firing) (l : List Firing) : List Firing := insertBefore (fun x => decide (0 < siteDiff x.due f.due)) f l

/-- A firing made by a report is timed and placed: at once when its due time is past or now, in the list when it is later,
refused when it cannot be timed or the list is full (R169, R170). -/
def Part.makeFiring (o : Output) (r : Timing) (p : Part) : Part :=
  match firingDueTime (p.trigger o).distance r with
  | none => p.reportTrig .missed r.tag
  | some d =>
    let ahead := siteDiff d p.now
    if ahead < 0 then (p.reportTrig .late r.tag).fire o r.tag
    else if ahead = 0 then p.fire o r.tag
    else if (p.tou.outputs.get o).schedule.length < 4 then
      p.modOutput o fun x => { x with schedule := scheduleFiring { tag := r.tag, due := d } x.schedule }
    else p.reportTrig .missed r.tag

/-- A FRONT report on one output: a FRONT output makes a firing, a HEAVY output arms (R166, R167). -/
def Part.frontOn (r : Timing) (o : Output) (p : Part) : Part :=
  if !(p.trigger o).enable then p
  else
    match (p.trigger o).source with
    | .front => p.makeFiring o r
    | .heavy => p.modOutput o fun x => { x with armed := some r.tag }
    | .classed => p

/-- A gross report on one output: an armed HEAVY output fires once when the running gross exceeds its threshold (R167). -/
def Part.grossOn (r : Timing) (gross : Nat) (o : Output) (p : Part) : Part :=
  if !(p.trigger o).enable then p
  else
    match (p.trigger o).source with
    | .heavy =>
      if (p.tou.outputs.get o).armed = some r.tag && (p.trigger o).threshold < gross then
        (p.modOutput o fun x => { x with armed := none }).makeFiring o r
      else p
    | .front => p
    | .classed => p

/-- A CLASS report on one output: a CLASS output fires for the classes of its set (R168). -/
def Part.classOn (r : Timing) (cls : Fin 32) (o : Output) (p : Part) : Part :=
  if !(p.trigger o).enable then p
  else
    match (p.trigger o).source with
    | .classed => if (p.trigger o).classSet.getLsbD cls.val then p.makeFiring o r else p
    | .front => p
    | .heavy => p

/-- A report reaches every output in RUN, and is discarded in every other state (R166). -/
def Part.toOutputs (f : Output → Part → Part) (p : Part) : Part :=
  if p.inRun then f .trg2 (f .trg1 (f .trg0 p)) else p

/-- The FRONT report (R126). -/
def Part.frontReport (r : Timing) (p : Part) : Part := p.toOutputs (Part.frontOn r)

/-- The gross report (R126). -/
def Part.grossReport (r : Timing) (gross : Nat) (p : Part) : Part := p.toOutputs (Part.grossOn r gross)

/-- The CLASS report (R144). -/
def Part.classReport (r : Timing) (cls : Fin 32) (p : Part) : Part := p.toOutputs (Part.classOn r cls)

/-- An output at rest with nothing scheduled: its state on leaving RUN, at a warm restart and at the entry into JOIN
(R165, R174, R175). -/
def restingOutput : OutputState := { level := .inactive, pulseEnd := none, schedule := [], armed := none }

/-- Every output at rest. -/
def Tou.atRest : Tou := { outputs := { trg0 := restingOutput, trg1 := restingOutput, trg2 := restingOutput } }

/-- A firing has reached its due time (R171). -/
def firingReached (now : SiteTime) (f : Firing) : Bool := 0 ≤ siteDiff now f.due

/-- The firings of an output that have fallen due leave the list and act in list order (R171). -/
def Part.fireDue (o : Output) (p : Part) : Part :=
  let l := (p.tou.outputs.get o).schedule
  (l.filter (firingReached p.now)).foldl (fun q f => q.fire o f.tag)
    (p.modOutput o fun x => { x with schedule := l.filter fun f => !firingReached p.now f })

/-- The pulse of an output has reached its end (R172). -/
def Part.pulseOver (p : Part) (o : Output) : Bool :=
  (p.tou.outputs.get o).level = .active &&
    (match (p.tou.outputs.get o).pulseEnd with | some t => decide (t ≤ p.clock) | none => false)

/-- Meaning of FIRING_DUE (R171). -/
def execFiringDue (out : Output) (s : State) : Host.Outcome State Fault Refusal :=
  act (fun p => if p.inRun then p.fireDue out else p) s

/-- Meaning of PULSE_END (R172). -/
def execPulseEnd (out : Output) (s : State) : Host.Outcome State Fault Refusal :=
  act (fun p => if p.pulseOver out then p.modOutput out fun x => { x with level := .inactive, pulseEnd := none } else p) s

end Sys2Proof.Machine
end

