-- ==== Sys2Proof/Machine/Assembly.lean ====
section
/-! DEFINITION. The vehicle assembly unit: axle formation and ownership (chapter 6), the open vehicle and its close
(chapter 7), the hand-over to the VCL's list (R149 to R151), with the meanings of PEER_WHEEL_AGED, DECISION_TIME_REACHED,
AXLE_FORMER_HOLD and CLOSE_TIME_REACHED. -/

namespace Sys2Proof.Machine

/-! ## Axles (R102, R113) -/

/-- The speed a wheel adds to its axle's mean: its PAIR speed, otherwise its borrowed speed (R113). -/
def AxleWheel.speed (w : AxleWheel) : Option Nat :=
  match w.wheel.speed with
  | some v => some v
  | none => w.borrowed

/-- The mean, truncated, of the values present; absent when there is none (R113, R114). -/
def meanSpeed (l : List (Option Nat)) : Option Nat :=
  match l.filterMap id with
  | [] => none
  | x :: xs => some ((x :: xs).sum / (x :: xs).length)

/-- The earliest of the site times present. -/
def earliest : List (Option SiteTime) → Option SiteTime
  | [] => none
  | none :: rest => earliest rest
  | some t :: rest =>
    match earliest rest with
    | none => some t
    | some u => if siteDiff u t < 0 then some u else some t

/-- The wheels of an axle. -/
def Axle.wheels (a : Axle) : List AxleWheel := a.left.toList ++ a.right.toList

/-- The load of a wheel position (R113). -/
def wheelLoad (w : Option AxleWheel) : Option Nat := w.bind fun x => x.wheel.load

/-- The axle load: the sum of the present left and right loads (R113). -/
def Axle.load (a : Axle) : Nat := (wheelLoad a.left).getD 0 + (wheelLoad a.right).getD 0

/-- PARTIAL: a wheel is absent, or a present wheel's load is absent (R113). -/
def Axle.isPartial (a : Axle) : Bool := (wheelLoad a.left).isNone || (wheelLoad a.right).isNone

/-- A straddle axle. -/
def AxleKind.straddles : AxleKind → Bool
  | .inLane => false
  | .straddleLeft => true
  | .straddleRight => true
  | .singleWheel => false

/-- The axle record of an axle handed over, its spacing not yet computed (R102, R113). -/
def makeAxle (kind : AxleKind) (left right : Option AxleWheel) (blind : Bool) : Axle :=
  let wheels := left.toList ++ right.toList
  let leads := earliest (wheels.map fun w => w.wheel.leadStart)
  let trails := earliest (wheels.map fun w => w.wheel.trailStart)
  { kind := kind, leadTime := (match leads with | some t => t | none => trails.getD 0), trailTime := trails,
    speed := meanSpeed (wheels.map AxleWheel.speed), left := left, right := right, spacing := .absent, blind := blind }

/-! ## Finishing the wheels of an axle (R38, R39, R103, R106) -/

/-- The q of a strip whose channel now carries a fault mark is made absent (R36). -/
def Part.strikeMarked (p : Part) (w : Wheel) : Wheel :=
  { w with qLead := if (p.lcu.channels.get (leadingChannel w.side)).mark.isSome then none else w.qLead
           qTrail := if (p.lcu.channels.get (trailingChannel w.side)).mark.isSome then none else w.qTrail }

/-- A local wheel finished after completion, its channels' marks consulted (R36). -/
def Part.finishLocal (p : Part) (v : Nat) (w : Wheel) : Wheel :=
  if w.load.isSome || v < vMin || vMax < v then w else finishWheel p.image.factors.speed v (p.strikeMarked w)

/-- The copy of an owned straddle axle's peer wheel: load absent, SINGLE, LOAD_SAT and LOW_SPEED removed (R106). -/
def stripPeer (w : Wheel) : Wheel :=
  { w with load := none, flags := { w.flags with single := false, loadSat := false, lowSpeed := false } }

/-- Finish a wheel with an optional speed; an absent speed finishes nothing (R36). -/
def finishWith (f : Nat → Wheel → Wheel) (v : Option Nat) (w : Wheel) : Wheel :=
  match v with
  | some x => f x w
  | none => w

/-- A local wheel taken into an axle beside a partner: without a PAIR speed it borrows the partner's and is finished
(R38, R103). -/
def Part.localCopy (p : Part) (w : Wheel) (partner : Option Wheel) : AxleWheel :=
  match w.speed with
  | some _ => { wheel := w, borrowed := none, isLocal := true }
  | none =>
    let v := partner.bind Wheel.speed
    { wheel := finishWith p.finishLocal v w, borrowed := v, isLocal := true }

/-- The peer wheel of an owned straddle axle: finished with its PAIR speed, else with the borrowed one (R106). -/
def Part.peerCopy (p : Part) (w : Wheel) (partner : Wheel) : AxleWheel :=
  let finish := finishWheel p.image.factors.speed
  match w.speed with
  | some v => { wheel := finish v (stripPeer w), borrowed := none, isLocal := false }
  | none => { wheel := finishWith finish partner.speed (stripPeer w), borrowed := partner.speed, isLocal := false }

/-- Late weighing of one wheel with the vehicle speed (R39, R121). -/
def Part.lateWeigh (p : Part) (v : Nat) (w : AxleWheel) : AxleWheel :=
  if w.wheel.load.isSome || (w.wheel.qLead.isNone && w.wheel.qTrail.isNone) then w
  else { w with wheel := if w.isLocal then p.finishLocal v w.wheel else finishWheel p.image.factors.speed v w.wheel }

/-! ## Spacings and the close time (R114, R119) -/

/-- The vehicle speed so far (R114). -/
def vehicleSpeed (axles : List Axle) : Option Nat := meanSpeed (axles.map Axle.speed)

/-- The spacing at a speed: floor(v × Δt / 1,000,000) (R114). -/
def spacingAt (v : Nat) (a b : SiteTime) : Nat := v * (siteDiff b a).toNat / 1000000

/-- The spacing between consecutive axles P and N of a vehicle with these axles (R114). -/
def spacingOf (axles : List Axle) (p n : Axle) : Spacing :=
  match p.speed, n.speed with
  | some a, some b => .known (spacingAt ((a + b) / 2) p.leadTime n.leadTime)
  | _, _ =>
    match vehicleSpeed axles with
    | some v => .known (spacingAt v p.leadTime n.leadTime)
    | none => .pending

/-- The close time from the last axle (R119). -/
def closeTimeOf (asm : AssemblyBlock) (axles : List Axle) : SiteTime :=
  match axles.getLast? with
  | none => 0
  | some a =>
    let v := match a.speed with
      | some x => some x
      | none => vehicleSpeed axles
    match v with
    | some x => later a.leadTime (min (asm.tmax * 1000) (asm.smax * 1000000 / x) + asm.lp * 1000)
    | none => later a.leadTime ((asm.tmax + asm.lp) * 1000)

/-! ## Blind intervals as the VAU reads them (R74, R101, R124) -/

/-- The age beyond which a closed blind interval is removed, in µs (R74). -/
def blindAge : Int := 10000000

/-- A closed blind interval is old enough to be removed (R74). -/
def blindOld (now : SiteTime) (b : BlindInterval) : Bool :=
  match b.close with
  | some c => blindAge < siteDiff now c
  | none => false

/-- A blind interval of the list overlaps a span that ends at the present site time or before; an open one reaches to
the present (R74, R101, R124; ends included, log 17). -/
def Part.blindOver (p : Part) (first last : SiteTime) : Bool :=
  p.sbc.blind.any fun b =>
    !blindOld p.now b && siteDiff b.start last ≤ 0 && 0 ≤ siteDiff (b.close.getD p.now) first

/-! ## The hand-over of a closed vehicle (R149 to R151) -/

/-- The walk asks for the port when it is IDLE and a record awaits its class (R130). -/
def Part.askWalk (p : Part) : Part :=
  if p.vcl.walk.state = .idle && p.vcl.records.any (fun r => r.state = .awaitingClass) then
    (p.modVcl fun v => { v with walk := { v.walk with state := .waiting } }).requestPort .classWalk
  else p

/-- A closed vehicle is handed to the VCL: it takes its sequence number and enters the list with the carries, or is lost
when the list holds 16 (R125, R149, R150). -/
def Part.handOver (make : Count16 → Count16 → Count16 → VehicleRecord) (p : Part) : Part :=
  let p1 := (p.modVcl fun v => { v with seqCounter := v.seqCounter + 1 }).modTotals fun t =>
    { t with vehiclesCompleted := satInc t.vehiclesCompleted }
  if p.vcl.records.length < 16 then
    (p1.modVcl fun v =>
      { v with records := v.records ++ [make p.vcl.seqCounter v.lostCarry v.cededCarry], lostCarry := 0, cededCarry := 0 }).askWalk
  else
    (p1.modVcl fun v => { v with lostCarry := v.lostCarry + 1 }).modTotals fun t => { t with lost := satInc t.lost }

/-! ## The close (R120 to R125) -/

/-- An axle's part of the record (R125). -/
def recordAxle (a : Axle) : RecordAxle :=
  { left := wheelLoad a.left, right := wheelLoad a.right, kind := a.kind,
    spacing := match a.spacing with
      | .known s => some s
      | .absent => none
      | .pending => none }

/-- Pending spacings are computed at close: with the vehicle speed, or with 1,389 mm/s when there is none (R122). -/
def settleSpacings (v : Nat) : Option Axle → List Axle → List Axle
  | _, [] => []
  | previous, a :: rest =>
    let a' := match a.spacing, previous with
      | .pending, some q => { a with spacing := .known (spacingAt v q.leadTime a.leadTime) }
      | _, _ => a
    a' :: settleSpacings v (some a) rest

/-- ACCEL: some axle speed differs from the reference speed by more than a tenth of it (R122). -/
def accelOf (axles : List Axle) : Bool :=
  match axles.filterMap Axle.speed with
  | [] => false
  | ref :: rest => rest.any fun v => decide (ref < ((v : Int) - ref).natAbs * 10)

/-- The headway in ms from the headway reference (R123). -/
def headwayOf (first : SiteTime) (reference : Option SiteTime) : Option Nat :=
  reference.map fun r => min ((siteDiff first r).toNat / 1000) 65535

/-- The local wheel whose temperature the vehicle takes from its first axle (R124). -/
def temperatureWheel (a : Axle) : Option AxleWheel :=
  match a.left with
  | some w => if w.isLocal then some w else a.right
  | none => a.right

/-- The timing items of a report on the open vehicle (R126). -/
def vehicleTiming (tag : Count16) (axles : List Axle) : Timing :=
  { tag := tag, trail := axles.head?.bind Axle.trailTime, axleSpeed := axles.head?.bind Axle.speed,
    vehicleSpeed := vehicleSpeed axles }

/-- The gross report of the open vehicle (R126). -/
def Part.reportGross (p : Part) : Part :=
  match p.vau.vehicle with
  | some v => p.grossReport (vehicleTiming v.tag v.axles) v.runningGross
  | none => p

/-- The gross of a vehicle: the sum of its axle loads (R121). -/
def grossOf (axles : List Axle) : Nat := (axles.map Axle.load).sum

/-- The work of R121 on the open vehicle: late weighing with the vehicle speed, the gross, and the last gross report. -/
def Part.weighVehicle (p : Part) : Part :=
  match p.vau.vehicle with
  | none => p
  | some veh =>
    let axles := match vehicleSpeed veh.axles with
      | some v => veh.axles.map fun a => { a with left := a.left.map (p.lateWeigh v), right := a.right.map (p.lateWeigh v) }
      | none => veh.axles
    (p.modVau fun u => { u with vehicle := some { veh with axles := axles, runningGross := grossOf axles } }).reportGross

/-- The flags of a vehicle at its close (R124), from those it gathered while open. -/
def Part.closeFlags (p : Part) (cause : CloseCause) (axles : List Axle) (first : SiteTime) (f : VehicleFlags) : VehicleFlags :=
  let hasNeighbour := p.block.leftNeighbour.isSome || p.block.rightNeighbour.isSome
  { f with
    partialLoad := axles.any Axle.isPartial
    noSpeed := (vehicleSpeed axles).isNone
    accel := accelOf axles
    peerBlind := f.peerBlind || (hasNeighbour && p.blindOver (earlier first p.lpMicros) p.now)
    timeStep := f.timeStep || axles.any fun a => a.wheels.any fun w => w.wheel.flags.timeStep
    axleLimit := cause = .axleLimit
    holdCut := cause = .hold }

/-- The open vehicle closes with a cause (R120 to R125). A close mark that is set keeps its cause. -/
def Part.closeVehicle (cause : CloseCause) (p : Part) : Part :=
  let p1 := p.weighVehicle
  match p1.vau.vehicle with
  | none => p1
  | some veh =>
    let why := veh.closeMark.getD cause
    let speed := vehicleSpeed veh.axles
    let axles := settleSpacings (speed.getD vMin) none veh.axles
    let first := (axles.head?.map Axle.leadTime).getD 0
    let t := axles.head?.bind temperatureWheel
    let make (seq lost ceded : Count16) : VehicleRecord :=
      { seq := seq, owner := p1.block.number, firstLead := first, speed := speed,
        headway := headwayOf first p1.vau.headwayRef, axles := axles.map recordAxle, gross := grossOf axles,
        temperature := (t.map fun w => w.wheel.temperature).getD 0, source := (t.map fun w => w.wheel.source).getD .reference,
        flags := p1.closeFlags why axles first veh.flags, tag := veh.tag, state := .awaitingClass, lostCount := lost,
        cededCount := ceded, slotFlags := noVehicleFlags, firstTrail := axles.head?.bind Axle.trailTime,
        firstSpeed := axles.head?.bind Axle.speed, cls := none, ruleIndex := none, groupOver := 0 }
    (p1.modVau fun u => { u with vehicle := none, runStart := none, headwayRef := some first }).handOver make

/-- The open vehicle's close time has been reached (R119). -/
def closeReached (now : SiteTime) (v : Vehicle) : Bool := 0 ≤ siteDiff now v.closeTime

/-- The close that is due before any axle is tested: a set close mark, or a close time that has been reached (R120). -/
def Part.closeIfDue (p : Part) : Part :=
  match p.vau.vehicle with
  | none => p
  | some v => if v.closeMark.isSome || closeReached p.now v then p.closeVehicle .timer else p

/-! ## Opening and joining (R115 to R118) -/

/-- An axle opens a new vehicle (R117), which makes its FRONT report and its first gross report (R126). -/
def Part.openVehicle (continuation : Bool) (a : Axle) (p : Part) : Part :=
  let veh : Vehicle :=
    { axles := [a], closeTime := closeTimeOf p.image.assembly [a], closeMark := none, tag := p.vau.tagCounter,
      flags := { noVehicleFlags with continuation := continuation, peerBlind := a.blind }, runningGross := a.load }
  ((p.modVau fun u => { u with vehicle := some veh, tagCounter := u.tagCounter + 1, runStart := some a.leadTime }).frontReport
    (vehicleTiming veh.tag veh.axles)).reportGross

/-- The axles before an axle's position: those whose lead time is earlier than or equal to its own (R115). -/
def axlesBefore (a : Axle) (l : List Axle) : List Axle := l.takeWhile fun x => decide (siteDiff x.leadTime a.leadTime ≤ 0)

/-- The axles after an axle's position (R115). -/
def axlesAfter (a : Axle) (l : List Axle) : List Axle := l.dropWhile fun x => decide (siteDiff x.leadTime a.leadTime ≤ 0)

/-- The time gap test (R115). -/
def timeTest (asm : AssemblyBlock) (a : Axle) (l : List Axle) : Bool :=
  let limit : Int := asm.tmax * 1000
  match (axlesBefore a l).getLast?, (axlesAfter a l).head? with
  | some x, none => siteDiff a.leadTime x.leadTime ≤ limit
  | none, some y => siteDiff y.leadTime a.leadTime ≤ limit
  | some _, some _ => true
  | none, none => true

/-- A spacing passes the spacing test; a pending one passes (R115). -/
def spacingFits (smax : Nat) (s : Spacing) : Bool :=
  match s with
  | .known mm => mm ≤ smax
  | .pending => true
  | .absent => true

/-- The axle list with an axle inserted, and the spacings its insertion creates (R116). -/
def insertAxle (a : Axle) (l : List Axle) : List Axle :=
  let before := axlesBefore a l
  let after := axlesAfter a l
  let all := before ++ a :: after
  let a' := { a with spacing := match before.getLast? with | some x => spacingOf all x a | none => .absent }
  match after with
  | [] => before ++ [a']
  | y :: rest => before ++ a' :: { y with spacing := spacingOf all a y } :: rest

/-- The spacing test on each pair an insertion would create (R115). -/
def spacingTest (asm : AssemblyBlock) (a : Axle) (l : List Axle) : Bool :=
  let all := axlesBefore a l ++ a :: axlesAfter a l
  (match (axlesBefore a l).getLast? with | some x => spacingFits asm.smax (spacingOf all x a) | none => true) &&
    (match (axlesAfter a l).head? with | some y => spacingFits asm.smax (spacingOf all a y) | none => true)

/-- The kind test (R115). -/
def kindTest (a : Axle) (l : List Axle) : Bool :=
  match a.kind with
  | .straddleLeft => !l.any fun x => x.kind = .straddleRight
  | .straddleRight => !l.any fun x => x.kind = .straddleLeft
  | .inLane => true
  | .singleWheel => true

/-- All three tests of R115. -/
def joins (asm : AssemblyBlock) (a : Axle) (l : List Axle) : Bool := timeTest asm a l && spacingTest asm a l && kindTest a l

/-- The vehicle with an axle joined (R116). -/
def joinVehicle (asm : AssemblyBlock) (a : Axle) (veh : Vehicle) : Vehicle :=
  let axles := insertAxle a veh.axles
  { veh with
    axles := axles
    closeTime := closeTimeOf asm axles
    flags := { veh.flags with
      laneChange := veh.flags.laneChange || (axles.any (fun x => x.kind = .inLane) && axles.any fun x => x.kind.straddles)
      peerBlind := veh.flags.peerBlind || a.blind }
    runningGross := veh.runningGross + a.load }

/-- An axle joins the open vehicle (R116). -/
def Part.joinAxle (a : Axle) (veh : Vehicle) (p : Part) : Part :=
  let v := joinVehicle p.image.assembly a veh
  (p.modVau fun u => { u with vehicle := some v, runStart := v.axles.head?.map Axle.leadTime }).reportGross

/-- A kept axle is handed to the open vehicle (R112, R115, R118, R120). -/
def Part.handAxle (a : Axle) (p : Part) : Part :=
  let p1 := p.closeIfDue
  match p1.vau.vehicle with
  | none => p1.openVehicle false a
  | some veh =>
    if joins p1.image.assembly a veh.axles then
      if veh.axles.length < 12 then p1.joinAxle a veh else (p1.closeVehicle .axleLimit).openVehicle true a
    else (p1.closeVehicle .breakTest).openVehicle false a

/-! ## Choosing the partner (R98 to R101) -/

/-- The offset of two wheels, absent when they are not comparable (R98). -/
def wheelOffset (d k : Wheel) : Option Int :=
  match d.leadStart, k.leadStart with
  | some x, some y => some (siteDiff y x)
  | _, _ =>
    match d.trailStart, k.trailStart with
    | some x, some y => some (siteDiff y x)
    | _, _ => none

/-- The coincidence window for deciding wheel D and candidate K (R98). -/
def coincidenceWindow (dc : Nat) (d k : Wheel) : Option Nat :=
  match d.speed with
  | some v => some (dc * 1000000 / v)
  | none => k.speed.map fun v => dc * 1000000 / v

/-- |offset| when K is a candidate for D (R98). -/
def candidateOffset (dc : Nat) (d k : Wheel) : Option Nat :=
  match wheelOffset d k, coincidenceWindow dc d k with
  | some o, some w => if o.natAbs ≤ w then some o.natAbs else none
  | _, _ => none

/-- The candidate with the smallest |offset|, ties to the earlier reference time, then to the first in the list
(R99, R100; log 23). -/
def bestCandidate (dc : Nat) (d : Wheel) : List Wheel → Option (Nat × Wheel)
  | [] => none
  | k :: rest =>
    match candidateOffset dc d k, bestCandidate dc d rest with
    | none, r => r
    | some o, none => some (o, k)
    | some o, some r =>
      if r.1 < o || (r.1 = o && siteDiff r.2.refTime k.refTime < 0) then some r else some (o, k)

/-- A peer entry is aged (R93). -/
def Part.peerAged (p : Part) (e : PeerWheel) : Bool := e.aged || decide ((p.peerAge : Int) < siteDiff p.now e.wheel.refTime)

/-- The in-lane partner of a wheel among the pending wheels (R99). -/
def Part.inLanePartner (p : Part) (d : Wheel) : Option Wheel :=
  (bestCandidate p.image.assembly.dc d
    ((p.vau.waiting.map PendingWheel.wheel).filter fun k => k.side = otherSide d.side)).map Prod.snd

/-- The straddle partner of a wheel among the peer wheels of the neighbour on its side (R100). -/
def Part.straddlePartner (p : Part) (d : Wheel) : Option Wheel :=
  match p.neighbour d.side with
  | none => none
  | some n =>
    (bestCandidate p.image.assembly.dc d
      ((p.vau.peers.filter fun e => e.sender = n && e.wheel.side = otherSide d.side && !p.peerAged e).map
        PeerWheel.wheel)).map Prod.snd

/-- The blind test for a wheel whose side has a neighbour (R101). -/
def Part.blindTest (p : Part) (d : Wheel) : Bool :=
  (p.neighbour d.side).isSome && p.blindOver (earlier d.refTime p.lpMicros) p.now

/-! ## Ownership (R105 to R107) -/

/-- The key of a wheel in the ownership rule: its run start, else its reference time (R105). -/
def ownerKey (w : Wheel) : SiteTime :=
  match w.runStart with
  | some t => t
  | none => w.refTime

/-- The own station owns a straddle axle of local wheel L and peer wheel P from station `n` (R105). -/
def Part.owns (p : Part) (l q : Wheel) (n : Nat) : Bool :=
  let d := siteDiff (ownerKey l) (ownerKey q)
  d < 0 || (d = 0 && p.block.number < n)

/-- A straddle axle is ceded: counted by the VCL, and the open vehicle closes (R107, R151). -/
def Part.cedeAxle (p : Part) : Part :=
  let p1 := (p.modTotals fun t => { t with ceded := satInc t.ceded }).modVcl fun v => { v with cededCarry := satInc v.cededCarry }
  match p1.vau.vehicle with
  | some _ => p1.closeVehicle .cede
  | none => p1

/-! ## Deciding a wheel -/

/-- A pending wheel leaves the pending wheel list and its store record is closed (R96). -/
def Part.takePending (number : Count16) (p : Part) : Part :=
  (p.modVau fun v => { v with waiting := dropFirst (fun w => w.wheel.number = number) v.waiting }).closeRecord number

/-- The straddle axle of a local wheel and a peer wheel, whose entry leaves the list: kept, or ceded (R93, R100 to R107). -/
def Part.formStraddle (d q : Wheel) (n : Nat) (p : Part) : Part :=
  let p1 := p.modVau fun v => { v with peers := dropFirst (fun e => e.sender = n && e.wheel = q) v.peers }
  if p1.owns d q n then
    let own := p1.localCopy d (some q)
    let peer := p1.peerCopy q d
    match d.side with
    | .right => p1.handAxle (makeAxle .straddleRight (some own) (some peer) (p1.blindTest d))
    | .left => p1.handAxle (makeAxle .straddleLeft (some peer) (some own) (p1.blindTest d))
  else p1.cedeAxle

/-- A wheel alone (R101). -/
def Part.formSingle (d : Wheel) (p : Part) : Part :=
  let w := p.localCopy d none
  match d.side with
  | .left => p.handAxle (makeAxle .singleWheel (some w) none (p.blindTest d))
  | .right => p.handAxle (makeAxle .singleWheel none (some w) (p.blindTest d))

/-- An in-lane axle of two local wheels (R99, R102, R103). -/
def Part.formInLane (d k : Wheel) (p : Part) : Part :=
  let a := p.localCopy d (some k)
  let b := p.localCopy k (some d)
  match d.side with
  | .left => p.handAxle (makeAxle .inLane (some a) (some b) false)
  | .right => p.handAxle (makeAxle .inLane (some b) (some a) false)

/-- A pending wheel is decided (R99 to R101). -/
def Part.decideWheel (d : Wheel) (p : Part) : Part :=
  let p1 := p.takePending d.number
  match p1.inLanePartner d with
  | some k => (p1.takePending k.number).formInLane d k
  | none =>
    match p1.straddlePartner d, p1.neighbour d.side with
    | some q, some n => p1.formStraddle d q n
    | _, _ => p1.formSingle d

/-! ## The hold of the axle former (R95 to R97) -/

/-- Aged peer entries are removed, uncounted (R93). -/
def Part.removeAged (p : Part) : Part := p.modVau fun v => { v with peers := v.peers.filter fun e => !p.peerAged e }

/-- A wheel of the intake is placed in the pending wheel list; a list of 8 first decides its oldest wheel (R96). -/
def Part.placeWheel (p : Part) (w : IntakeWheel) : Part :=
  let p1 : Part :=
    if p.vau.waiting.length < 8 then p
    else
      match p.vau.waiting with
      | [] => p
      | oldest :: _ => (p.modVau fun v => { v with forcedDecisions := satInc v.forcedDecisions }).decideWheel oldest.wheel
  p1.modVau fun v =>
    { v with waiting := v.waiting ++ [{ wheel := w.wheel, decisionTime := later w.completion p.lpMicros, forced := w.forced }] }

/-- Every wheel of the intake is placed, oldest first (R95, R96). -/
def Part.placeIntake (p : Part) : Part := p.vau.intake.foldl Part.placeWheel (p.modVau fun v => { v with intake := [] })

/-- The decisions of the wheels a test names, in list order; `n` bounds their number (R95). -/
def Part.decideAll (f : PendingWheel → Bool) : Nat → Part → Part
  | 0, p => p
  | n + 1, p =>
    match p.vau.waiting.find? f with
    | none => p
    | some w => (p.decideWheel w.wheel).decideAll f n

/-- A pending wheel's decision time has been reached (R95). -/
def decisionReached (now : SiteTime) (w : PendingWheel) : Bool := 0 ≤ siteDiff now w.decisionTime

/-- The ordered work of one hold (R95). -/
def Part.formerWork (p : Part) : Part :=
  let p1 := p.removeAged.placeIntake
  let p2 := p1.decideAll PendingWheel.forced p1.vau.waiting.length
  (p2.decideAll (decisionReached p.now) p2.vau.waiting.length).closeIfDue

/-! ## Commands -/

/-- Meaning of AXLE_FORMER_HOLD (R95): when the axle former has been granted the port, its hold, and the release. -/
def execAxleFormerHold (s : State) : Host.Outcome State Fault Refusal :=
  act (fun p => if p.vau.port.holder = some .axleFormer then p.formerWork.releasePort else p) s

/-- Meaning of PEER_WHEEL_AGED (R93): entries past (Tmax + Lp) are no longer candidates. -/
def execPeerWheelAged (s : State) : Host.Outcome State Fault Refusal :=
  act (fun p => p.modVau fun v => { v with peers := v.peers.map fun e => { e with aged := p.peerAged e } }) s

/-- Meaning of DECISION_TIME_REACHED (R95): the axle former requests the port. -/
def execDecisionTimeReached (s : State) : Host.Outcome State Fault Refusal :=
  act (fun p => if p.vau.waiting.any (decisionReached p.now) then p.requestPort .axleFormer else p) s

/-- The close time is reached: the close mark becomes timer unless one is set, and the port is requested (R119, R120). -/
def Part.markTimer (p : Part) : Part :=
  match p.vau.vehicle with
  | none => p
  | some v =>
    if closeReached p.now v then
      (p.modVau fun u => { u with vehicle := some { v with closeMark := some (v.closeMark.getD .timer) } }).requestPort .axleFormer
    else p

/-- Meaning of CLOSE_TIME_REACHED (R119). -/
def execCloseTimeReached (s : State) : Host.Outcome State Fault Refusal := act Part.markTimer s

end Sys2Proof.Machine
end

