-- ==== Sys2Proof/Machine/Classing.lean ====
section
/-! DEFINITION. The vehicle classing unit (chapter 8): axle groups, group limits, class rules, the class walk, with the
meanings of CLASS_WALK_START and CLASS_WALK_END. -/

namespace Sys2Proof.Machine

/-! ## Axle groups (R133 to R135) -/

/-- PARTIAL: a load is absent (R113). -/
def RecordAxle.isPartial (a : RecordAxle) : Bool := a.left.isNone || a.right.isNone

/-- The axle load of a record's axle (R113). -/
def RecordAxle.load (a : RecordAxle) : Nat := a.left.getD 0 + a.right.getD 0

/-- An axle joins the group of the axle before it (R133). -/
def nearAxle (gmax : Nat) (a : RecordAxle) : Bool :=
  match a.spacing with
  | some s => s ≤ gmax
  | none => false

/-- The axle list cut into groups, in index order (R133). -/
def splitGroups (gmax : Nat) : List RecordAxle → List (List RecordAxle)
  | [] => []
  | a :: rest =>
    match rest, splitGroups gmax rest with
    | b :: _, g :: gs => if nearAxle gmax b then (a :: g) :: gs else [a] :: g :: gs
    | _, gs => [a] :: gs

/-- The load of a group: absent when one of its axles is PARTIAL (R134). -/
def groupLoad (g : List RecordAxle) : Option Nat :=
  if g.any RecordAxle.isPartial then none else some (g.map RecordAxle.load).sum

/-- The group entries of a cut axle list (R133). -/
def numberGroups : Nat → Nat → List (List RecordAxle) → List AxleGroup
  | _, _, [] => []
  | position, first, g :: rest =>
    { position := position, firstAxle := first, axleCount := g.length, load := groupLoad g } ::
      numberGroups (position + 1) (first + g.length) rest

/-- The group list of a record's axles (R133). -/
def groupsOf (gmax : Nat) (axles : List RecordAxle) : List AxleGroup := numberGroups 1 1 (splitGroups gmax axles)

/-- The limit for a group of `n` axles (R135). -/
def groupLimit (asm : AssemblyBlock) (n : Nat) : Option Nat :=
  if n ≤ 1 then asm.singleLimit
  else if n = 2 then asm.tandemLimit
  else if n = 3 then asm.tridemLimit
  else asm.quadLimit

/-- A group's load exceeds its limit (R135). -/
def groupIsOver (asm : AssemblyBlock) (g : AxleGroup) : Bool :=
  match g.load, groupLimit asm g.axleCount with
  | some load, some limit => limit < load
  | _, _ => false

/-- The GROUP_OVER mask: bit p − 1 for group position p (R135, section 12.2). -/
def groupOverMask (asm : AssemblyBlock) (groups : List AxleGroup) : BitVec 12 :=
  (groups.filter (groupIsOver asm)).foldl (fun m g => m ||| BitVec.ofNat 12 (2 ^ (g.position - 1))) 0

/-! ## Class rules (R137 to R142) -/

/-- The axle count and kind conditions (R137). -/
def axlesFit (r : ClassRule) (axles : List RecordAxle) : Bool :=
  r.axleMin ≤ axles.length && axles.length ≤ r.axleMax &&
    (!r.singleWheelOnly || axles.all fun a => a.kind = .singleWheel)

/-- The group pattern condition (R138). -/
def patternFits (r : ClassRule) (groups : List AxleGroup) : Bool :=
  match r.pattern with
  | none => true
  | some sizes => groups.map AxleGroup.axleCount = sizes

/-- One gap bound, in units of 100 mm; a maximum of 255 sets no upper bound (R139). -/
def gapFits (bound : Nat × Nat) (s : Nat) : Bool := bound.1 * 100 ≤ s && (bound.2 = 255 || s ≤ bound.2 * 100)

/-- The spacings of a record, of axle 2 and on. -/
def spacingsOf (axles : List RecordAxle) : List Nat := axles.tail.filterMap RecordAxle.spacing

/-- The gap bounds condition (R139). -/
def gapsFit (r : ClassRule) (noSpeed : Bool) (axles : List RecordAxle) : Bool :=
  match r.gaps with
  | none => true
  | some bounds =>
    !noSpeed && bounds.length ≤ (spacingsOf axles).length && (bounds.zip (spacingsOf axles)).all fun x => gapFits x.1 x.2

/-- The gross range condition (R140). -/
def grossFits (r : ClassRule) (gross : Nat) (axles : List RecordAxle) : Bool :=
  match r.grossRange with
  | none => true
  | some range => !axles.any RecordAxle.isPartial && range.1 ≤ gross && gross ≤ range.2

/-- A rule matches a record with a group list (R141). -/
def ruleMatches (groups : List AxleGroup) (v : VehicleRecord) (r : ClassRule) : Bool :=
  axlesFit r v.axles && patternFits r groups && gapsFit r v.flags.noSpeed v.axles && grossFits r v.gross v.axles

/-- The first rule that matches, with its index counted from `i` (R141). -/
def firstMatch (groups : List AxleGroup) (v : VehicleRecord) : Nat → List ClassRule → Option (Nat × ClassRule)
  | _, [] => none
  | i, r :: rest => if ruleMatches groups v r then some (i, r) else firstMatch groups v (i + 1) rest

/-- The rules a walk examines: up to and including the first match, else all (R132). -/
def rulesExamined (groups : List AxleGroup) (v : VehicleRecord) (rules : List ClassRule) : Nat :=
  match firstMatch groups v 0 rules with
  | some m => m.1 + 1
  | none => rules.length

/-- The length of a walk in µs (R132). -/
def walkLength (examined : Nat) : Nat := 200 + 150 * examined

/-- GROSS_OVER against the matched rule's limit (R142). -/
def grossOver (m : Option (Nat × ClassRule)) (gross : Nat) : Bool :=
  match m with
  | none => false
  | some x =>
    match x.2.grossLimit with
    | some limit => limit < gross
    | none => false

/-- The class of a match: the rule's code, or 0 (R141). -/
def classOf (m : Option (Nat × ClassRule)) : Fin 32 :=
  match m with
  | some x => x.2.code
  | none => 0

/-- A walked record (R143). -/
def classify (asm : AssemblyBlock) (groups : List AxleGroup) (rules : List ClassRule) (v : VehicleRecord) : VehicleRecord :=
  let m := firstMatch groups v 0 rules
  { v with
    cls := some (classOf m)
    ruleIndex := m.map Prod.fst
    groupOver := groupOverMask asm groups
    flags := { v.flags with grossOver := grossOver m v.gross }
    state := .ready }

/-! ## The walk (R130 to R132, R143, R144) -/

/-- The walk record while the walk is WALKING. -/
def Part.walkRecord (p : Part) : Option VehicleRecord :=
  match p.vcl.walk.record with
  | none => none
  | some seq => p.vcl.records.find? fun r => r.seq = seq

/-- The walk is granted the port and takes the oldest record that awaits its class (R131). -/
def Part.startWalk (p : Part) : Part :=
  match p.vcl.records.find? fun r => r.state = .awaitingClass with
  | none => p
  | some r =>
    (p.modVcl fun v =>
      { v with walk := { state := .walking, record := some r.seq, groups := groupsOf p.image.assembly.gmax r.axles,
                         rulePosition := 0, grantedAt := p.clock } }).modVau fun v => { v with port := v.port.started }

/-- The walk's length has passed on the own clock (R132). -/
def Part.walkOver (p : Part) : Bool :=
  p.vcl.walk.state = .walking && p.vau.port.holder = some .classWalk &&
    (match p.walkRecord with
     | none => false
     | some r =>
       elapsed p.clock p.vcl.walk.grantedAt (walkLength (rulesExamined p.vcl.walk.groups r p.image.rules)))

/-- The walk is IDLE again after examining `n` rules (R132; log 27). -/
def restingWalk (n grantedAt : Nat) : Walk :=
  { state := .idle, record := none, groups := [], rulePosition := n, grantedAt := grantedAt }

/-- The per-class count and the gross sum of a walked record (R143, R157). -/
def countWalked (cls : Fin 32) (gross : Nat) (t : Totals) : Totals :=
  { t with perClass := t.perClass.set cls (satInc t.perClass[cls]), grossSum := satAdd t.grossSum gross }

/-- The walk's release of the port, with its next request in the waiting set when a record still awaits (R132). -/
def Part.releaseWalk (p : Part) : Part :=
  if p.vcl.records.any fun r => r.state = .awaitingClass then
    ((p.modVcl fun v => { v with walk := { v.walk with state := .waiting } }).modVau fun v =>
      { v with port := v.port.request p.clock .classWalk }).releasePort
  else p.releasePort

/-- The timing items of a CLASS report (R144). -/
def recordTiming (v : VehicleRecord) : Timing :=
  { tag := v.tag, trail := v.firstTrail, axleSpeed := v.firstSpeed, vehicleSpeed := v.speed }

/-- The end of a walk on its record (R143). -/
def Part.endWalk (v : VehicleRecord) (p : Part) : Part :=
  let groups := p.vcl.walk.groups
  let done := classify p.image.assembly groups p.image.rules v
  let cls := classOf (firstMatch groups v 0 p.image.rules)
  let n := rulesExamined groups v p.image.rules
  let p1 := (p.modVcl fun u =>
    { u with
      records := changeFirst (fun r => r.seq = v.seq) (fun _ => done) u.records
      walk := restingWalk n u.walk.grantedAt }).modTotals (countWalked cls v.gross)
  (p1.releaseWalk.classReport (recordTiming v) cls).offerVehicle

/-! ## Commands -/

/-- Meaning of CLASS_WALK_START (R131): when the waiting walk has been granted the port. -/
def execClassWalkStart (s : State) : Host.Outcome State Fault Refusal :=
  act (fun p => if p.vcl.walk.state = .waiting && p.vau.port.holder = some .classWalk then p.startWalk else p) s

/-- Meaning of CLASS_WALK_END (R143): when the walk's length has passed. -/
def execClassWalkEnd (s : State) : Host.Outcome State Fault Refusal :=
  act (fun p =>
    if p.walkOver then
      match p.walkRecord with
      | some v => p.endWalk v
      | none => p
    else p) s

end Sys2Proof.Machine
end

