-- ==== Sys2Proof/Machine/Control.lean ====
section
/-! DEFINITION. The control and start-up unit (chapter 11) but for the image load: station states, hold sources, the warm
restart of every block (R189), commands (R186 to R188), the STATUS timers (R191) and the STATUS payload (R192), with the
meanings of the commands, the pins and the timers. -/

namespace Sys2Proof.Machine

/-! ## Changes of station state -/

/-- Put the station in a state; what the blocks do at the change stands with each entry. -/
def Part.setStation (st : StationState) (p : Part) : Part := p.modCsu fun c => { c with station := st }

/-- Either hold source is active (R182). -/
def Part.holdActive (p : Part) : Bool := p.csu.pinActive || p.csu.commandHold

/-- The intake and the pending wheel list are emptied, and each wheel's store record is closed (R109). The axle former's standing
request or unused grant stays, and makes a hold that may find nothing to do (log 42). -/
def Part.clearPending (p : Part) : Part :=
  let numbers := (p.vau.intake.map fun w => w.wheel.number) ++ (p.vau.waiting.map fun w => w.wheel.number)
  (numbers.foldl (fun q n => q.closeRecord n) p).modVau fun v => { v with intake := [], waiting := [] }

/-- The open vehicle's close mark at the entry into HOLD: a set mark keeps its cause, a close time already reached gives
timer, otherwise hold; the axle former requests the port (R120; log 28). -/
def Part.markHoldCut (p : Part) : Part :=
  match p.vau.vehicle with
  | none => p
  | some v =>
    let cause := if closeReached p.now v then CloseCause.timer else .hold
    (p.modVau fun u => { u with vehicle := some { v with closeMark := some (v.closeMark.getD cause) } }).requestPort .axleFormer

/-- The outputs at rest (R174, R175). -/
def Part.restOutputs (p : Part) : Part := p.modTou fun _ => Tou.atRest

/-- RUN to HOLD (R183). -/
def Part.enterHold (p : Part) : Part :=
  (((((p.modPse Pse.emptied).clearPending.markHoldCut).restOutputs).setStation .hold).dropWaitingWheels).setMark .state

/-- HOLD to RUN (R183). -/
def Part.returnToRun (p : Part) : Part := (p.setStation .run).setMark .state

/-- The hold sources act in RUN and HOLD alone (R182, R183). -/
def Part.applyHold (p : Part) : Part :=
  if p.csu.station = .run && p.holdActive then p.enterHold
  else if p.csu.station = .hold && !p.holdActive then p.returnToRun
  else p

/-- The pin source takes a value (R182). -/
def Part.takePin (active : Bool) (p : Part) : Part :=
  if p.csu.pinActive = active then p
  else ((p.modCsu fun c => { c with pinActive := active }).applyHold).setMark .state

/-- The command hold mark takes a value (R182). -/
def Part.takeCommandHold (on : Bool) (p : Part) : Part :=
  if p.csu.commandHold = on then p
  else ((p.modCsu fun c => { c with commandHold := on }).applyHold).setMark .state

/-- A frame in transmission is cut and the transmit list emptied; the line is quiet from a cut on (R68, R60). -/
def Part.cutAndFlush (p : Part) : Part :=
  match p.sending with
  | some _ => p.flushList.modSbc fun b => { b with line := .quiet p.clock }
  | none => p.flushList

/-- The receive side emptied: buffer, DEAF, the blind interval list and the frame being followed, with which the line was in use
until now (R77; log 16). At a warm restart the blind intervals go with it, which R88 lets age on (log 44). -/
def Part.emptyReceiver (p : Part) : Part :=
  p.modSbc fun b =>
    { b with rx := [], following := none, deaf := false, blind := [],
             line := if b.following.isSome then .quiet p.clock else b.line }

/-- The JOIN window opens (R85). -/
def Part.openJoinWindow (p : Part) : Part := p.modStu fun u => { u with joinWindow := some p.clock }

/-! ## The warm restart (R189) -/

/-- One record removed unsent (R152). -/
def removeUnsent (v : Vcl) (r : VehicleRecord) : Vcl :=
  { v with
    lostCarry := v.lostCarry + 1 + r.lostCount
    cededCarry := satAdd v.cededCarry r.cededCount.toNat
    totals := { v.totals with lost := satInc v.totals.lost } }

/-- The VCL at a warm restart: every record removed unsent in completion order, the walk abandoned (R146, R162). That the rule
position stays is the model's choice (log 27). -/
def Vcl.warmRestart (v : Vcl) : Vcl :=
  let v1 := v.records.foldl removeUnsent v
  { v1 with records := [], walk := restingWalk v.walk.rulePosition v.walk.grantedAt }

/-- The VAU at a warm restart (R91, R111, R129). -/
def Vau.warmRestart (v : Vau) : Vau :=
  { v with intake := [], waiting := [], peers := [], lastPeer := { left := none, right := none }, runStart := none,
           port := Port.free, vehicle := none, headwayRef := none }

/-- The STU at a warm restart, but for the JOIN window (R88). -/
def Stu.warmRestart (u : Stu) : Stu := { u with log := [], split := Vector.replicate 14 0 }

/-- The LCU at a warm restart (R19). -/
def Lcu.warmRestart (keep : Bool) (l : Lcu) : Lcu := { l with channels := l.channels.map (ChannelRecord.warmRestart keep) }

/-- The PSE at a warm restart (R41). -/
def Pse.warmRestart (u : Pse) : Pse := { u.emptied with store := [] }

/-- The CSU at a warm restart, but for the STATE mark (R189). -/
def Csu.warmRestart (now : Nat) (c : Csu) : Csu :=
  { c with station := .join, deferred := false, lastMarkRequest := none, periodicSince := some now }

/-- The warm restart: the single event at which every block takes its warm-restart values (R189). -/
def Part.warmRestart (p : Part) : Part :=
  let p1 := p.cutAndFlush.emptyReceiver
  let p2 := ((p1.modLcu (Lcu.warmRestart p.block.keepMarks)).modPse Pse.warmRestart).modVau Vau.warmRestart
  let p3 := ((p2.modVcl Vcl.warmRestart).modStu Stu.warmRestart).openJoinWindow.restOutputs
  ((p3.modCsu (Csu.warmRestart p.clock)).beginTemperature).setMark .state

/-- A RESTART that starts a new load: LOADING, and the read from byte 0 (R77, R188). -/
def Part.newLoad (p : Part) : Part :=
  (p.cutAndFlush.emptyReceiver.modCsu fun c =>
    { c with station := .loading, load := some .start }).setMark .state

/-! ## Commands (R186 to R188) -/

/-- The seven commands (section 12.4). -/
inductive CommandKind where
  | hold | release | restart | requestStatus | requestTotals | clearMarks | rebaseline
  deriving DecidableEq, Repr

/-- Command codes. -/
def CommandKind.code : CommandKind → Byte
  | .hold => 1
  | .release => 2
  | .restart => 3
  | .requestStatus => 4
  | .requestTotals => 5
  | .clearMarks => 6
  | .rebaseline => 7

/-- The command of a code. -/
def commandKindOf (code : Byte) : Option CommandKind :=
  [CommandKind.hold, .release, .restart, .requestStatus, .requestTotals, .clearMarks, .rebaseline].find? fun k => k.code = code

/-- The station states take the commands so (R187). -/
def Part.takesCommand (p : Part) (k : CommandKind) : Bool :=
  match p.csu.station with
  | .unconfigured => k = .restart || k = .requestStatus
  | .join => true
  | .run => true
  | .hold => true
  | .silent => if p.csu.image.isSome then k ≠ .requestStatus && k ≠ .requestTotals else k = .restart
  | .loading => false
  | .mute => false

/-- The arguments fit the command: the payload's length, the masks' sets, and no empty REBASELINE or CLEAR_MARKS (R186). -/
def argumentsFit (k : CommandKind) (args : List Byte) : Bool :=
  match k, args with
  | .clearMarks, [marks, faults] => marks.toNat < 32 && faults.toNat < 64 && !(marks = 0 && faults = 0)
  | .rebaseline, [mask] => mask.toNat < 16 && mask ≠ 0
  | .hold, [] => true
  | .release, [] => true
  | .restart, [] => true
  | .requestStatus, [] => true
  | .requestTotals, [] => true
  | _, _ => false

/-- The judgement of a known command: the first step that applies (R186). -/
def Part.judgement (p : Part) (k : CommandKind) (args : List Byte) : CommandResult :=
  if !p.takesCommand k then .refusedState else if argumentsFit k args then .taken else .badArgument

/-- RESTART (R188). -/
def Part.restart (p : Part) : Part := if p.csu.image.isSome then p.warmRestart else p.newLoad

/-- CLEAR_MARKS with its two masks (R17, R56, R188). -/
def Part.clearMarks (marks faults : Byte) (p : Part) : Part :=
  ((p.modCsu fun c => { c with marks := removeMarks c.marks (markSetOf marks.toNat) }).modLcu fun l =>
    { l with channels := changeMasked faults.toNat ChannelRecord.clearMark l.channels }).clearProbeMarks faults.toNat

/-- REBASELINE with its channel mask (R13, R188). -/
def Part.rebaseline (mask : Byte) (p : Part) : Part :=
  p.modLcu fun l => { l with channels := changeMasked mask.toNat ChannelRecord.rebaseline l.channels }

/-- What a TAKEN command does (R188). -/
def Part.doCommand (k : CommandKind) (args : List Byte) (p : Part) : Part :=
  match k with
  | .hold => p.takeCommandHold true
  | .release => p.takeCommandHold false
  | .restart => p.restart
  | .requestStatus => p.requestStatus
  | .requestTotals => p.handFrame .totals
  | .clearMarks => p.clearMarks (args.getD 0 0) (args.getD 1 0)
  | .rebaseline => p.rebaseline (args.getD 0 0)

/-- The CSU records the last command result (R186). -/
def Part.recordResult (code : Byte) (r : CommandResult) (p : Part) : Part :=
  p.modCsu fun c =>
    { c with lastResult := some { code := code, result := r, count := c.commandCount + 1 }, commandCount := c.commandCount + 1 }

/-- A known command is judged: TAKEN it acts, and the result is recorded (R186, R188). No command reaches the CSU while
the receiver is off (R59, R184). -/
def Part.judgeKnown (k : CommandKind) (args : List Byte) (p : Part) : Part :=
  if !p.receiverOn then p
  else
    let r := p.judgement k args
    (if r = .taken then p.doCommand k args else p).recordResult k.code r

/-- A command of an unknown code is judged UNKNOWN (R186). -/
def Part.judgeUnknown (code : Byte) (p : Part) : Part := if !p.receiverOn then p else p.recordResult code .unknown

/-- A COMMAND frame handed to the CSU (R72, R186). -/
def Part.judge (code : Byte) (args : List Byte) (p : Part) : Part :=
  match commandKindOf code with
  | some k => p.judgeKnown k args
  | none => p.judgeUnknown code

/-! ## The STATUS payload (R192, section 12.2) -/

/-- The channel marks byte. -/
def channelMarksByte (c : PerChannel ChannelRecord) : Nat :=
  channelMarkCode c.ll.mark + 4 * channelMarkCode c.lr.mark + 16 * channelMarkCode c.tl.mark + 64 * channelMarkCode c.tr.mark

/-- A probe's byte. -/
def probeByte (s : ProbeState) : Nat := qualityCode s.quality + 8 * probeMarkCode s.mark

/-- The split counters, 2 bits each, station 1 lowest. -/
def splitField (split : Vector (Fin 3) 14) : Nat := split.toList.foldr (fun x acc => x.val + 4 * acc) 0

/-- The nine error counters in order. -/
def Part.errorCounters (p : Part) : List Count16 :=
  [p.sbc.drops, p.sbc.mismatches, p.sbc.formatErrors, p.sbc.deafDiscards, p.vau.peerOverflows, p.vau.droppedWheels,
    p.vau.forcedDecisions, p.ptu.probes.p0.jumps, p.ptu.probes.p1.jumps]

/-- The STATUS payload as the station stands (R192). -/
def Part.statusPayload (p : Part) : List Byte :=
  let c := p.csu
  leBytes 1 (stationCode c.station) ++ leBytes 1 (maskOf [c.pinActive, c.commandHold]) ++
    leBytes 1 (channelMarksByte p.lcu.channels) ++ leBytes 1 (probeByte p.ptu.probes.p0) ++
    leBytes 1 (probeByte p.ptu.probes.p1) ++ leBytes 4 (splitField p.stu.split) ++ leBytes 2 p.stu.splitSteps.toNat ++
    (p.errorCounters.map fun x => leBytes 2 x.toNat).flatten ++ leBytes 1 (markMask c.marks) ++
    optionalFields
      [c.loadFault.map fun f => leBytes 1 f.index ++ leBytes 1 (faultCode f.code),
        (c.loadFault.bind LoadFault.offset).map (leBytes 1),
        c.lastResult.map fun r => [r.code, BitVec.ofNat 8 (resultCode r.result), r.count]]

/-! ## Meanings -/

/-- Meaning of POWER_ON (R179): every block in its power-on state, and the read of the image started. -/
def execPowerOn (s : State) : Host.Outcome State Fault Refusal := .next { s with part := .powerOn }

/-- The part held in reset: every block in its power-on state, no read under way (R179). -/
def Part.heldInReset : Part := { Part.powerOn with rstLow := true, csu := { Csu.powerOn with load := none } }

/-- Meaning of RESET_ASSERT (R179). -/
def execResetAssert (s : State) : Host.Outcome State Fault Refusal := .next { s with part := .heldInReset }

/-- Meaning of HOLD_N_LEVEL_TAKEN (R182). -/
def execHoldNLevelTaken (level : PinLevel) (s : State) : Host.Outcome State Fault Refusal := act (Part.takePin (level = .low)) s

/-- The JOIN window has run out (R85). -/
def Part.joinOver (p : Part) : Bool :=
  p.csu.station = .join && (match p.stu.joinWindow with | some t => elapsed p.clock t joinLength | none => false)

/-- The end of the JOIN window: a TIME frame, then RUN or HOLD (R85, R180). -/
def Part.endJoin (p : Part) : Part :=
  let p1 := (p.modStu fun u => { u with joinWindow := none }).handTime
  (p1.setStation (if p1.holdActive then .hold else .run)).setMark .state

/-- Meaning of JOIN_WINDOW_END (R85). -/
def execJoinWindowEnd (s : State) : Host.Outcome State Fault Refusal := act (fun p => if p.joinOver then p.endJoin else p) s

/-- Meaning of HOLD (R186, R188). -/
def execHold (args : List Byte) (s : State) : Host.Outcome State Fault Refusal := act (Part.judgeKnown .hold args) s

/-- Meaning of RELEASE (R186, R188). -/
def execRelease (args : List Byte) (s : State) : Host.Outcome State Fault Refusal := act (Part.judgeKnown .release args) s

/-- Meaning of RESTART (R186, R188, R189). -/
def execRestart (args : List Byte) (s : State) : Host.Outcome State Fault Refusal := act (Part.judgeKnown .restart args) s

/-- Meaning of REQUEST_STATUS (R186, R188, R191). -/
def execRequestStatus (args : List Byte) (s : State) : Host.Outcome State Fault Refusal :=
  act (Part.judgeKnown .requestStatus args) s

/-- Meaning of REQUEST_TOTALS (R159, R186, R188). -/
def execRequestTotals (args : List Byte) (s : State) : Host.Outcome State Fault Refusal :=
  act (Part.judgeKnown .requestTotals args) s

/-- Meaning of CLEAR_MARKS (R17, R56, R186, R188). -/
def execClearMarks (args : List Byte) (s : State) : Host.Outcome State Fault Refusal := act (Part.judgeKnown .clearMarks args) s

/-- Meaning of REBASELINE (R13, R186, R188). -/
def execRebaseline (args : List Byte) (s : State) : Host.Outcome State Fault Refusal := act (Part.judgeKnown .rebaseline args) s

/-- Meaning of UNKNOWN_COMMAND (R186), whatever its arguments: a code that names one of the seven is not this command
(log 2). -/
def execUnknownCommand (code : Byte) (_args : List Byte) (s : State) : Host.Outcome State Fault Refusal :=
  act (fun p => if (commandKindOf code).isSome then p else p.judgeUnknown code) s

/-- The periodic STATUS timer has reached 10 s in a state in which requests are made (R191). -/
def Part.periodicDue (p : Part) : Bool :=
  p.usesLine && (match p.csu.periodicSince with | some t => elapsed p.clock t statusPeriod | none => false)

/-- Meaning of STATUS_PERIODIC_TIMER (R191). -/
def execStatusPeriodicTimer (s : State) : Host.Outcome State Fault Refusal :=
  act (fun p =>
    if p.periodicDue then (p.modCsu fun c => { c with periodicSince := some p.clock }).requestStatus else p) s

/-- A deferred STATUS request stands and 100 ms have passed since the last request for a mark (R191). -/
def Part.deferredDue (p : Part) : Bool :=
  p.usesLine && p.csu.deferred &&
    (match p.csu.lastMarkRequest with | some t => elapsed p.clock t markSpacing | none => true)

/-- Meaning of STATUS_DEFERRED_REQUEST (R191). -/
def execStatusDeferredRequest (s : State) : Host.Outcome State Fault Refusal :=
  act (fun p => if p.deferredDue then p.requestForMarks else p) s

end Sys2Proof.Machine
end

