-- ==== Sys2Proof/Machine/Bus.lean ====
section
/-! DEFINITION. The site bus controller (chapter 4) on the line: starts, losses, mismatches and completions of its own
frames, the frames it receives, the receive buffer and its dispatcher, the blind intervals and SILENT (R190), with the
meanings of their commands. -/

namespace Sys2Proof.Machine

/-! ## The dispatcher (R72, R73) -/

/-- The head of the receive buffer is removed. -/
def Part.popFrame (p : Part) : Part := p.modSbc fun b => { b with rx := b.rx.drop 1 }

/-- The head of the receive buffer is a WHEEL frame. -/
def Part.wheelAtHead (p : Part) : Bool :=
  match p.sbc.rx with
  | e :: _ =>
    match e.frame with
    | .wheel _ _ => true
    | .time _ _ => false
    | .temp _ _ _ => false
    | .command _ _ => false
  | [] => false

/-- The frames at the head that need no port are handed on and removed; in SILENT a WHEEL frame is removed too. `n` bounds
their number (R72; log 21). -/
def Part.dispatchFrames : Nat → Part → Part
  | 0, p => p
  | n + 1, p =>
    match p.sbc.rx with
    | [] => p
    | e :: _ =>
      match e.frame with
      | .wheel _ _ => if p.csu.station = .silent then p.popFrame.dispatchFrames n else p
      | .time sender t => (p.popFrame.takeTimeFrame sender t e.capture).dispatchFrames n
      | .temp sender probe c => (p.popFrame.takeTempFrame sender probe c).dispatchFrames n
      | .command code args => (p.popFrame.judge code args).dispatchFrames n

/-- The open blind interval closes at a site time. -/
def closeBlind (t : SiteTime) (l : List BlindInterval) : List BlindInterval :=
  l.map fun b => { b with close := some (b.close.getD t) }

/-- When the buffer has been emptied, DEAF ends and the open blind interval closes (R73). -/
def Part.endDeaf (p : Part) : Part :=
  if p.sbc.deaf && p.sbc.rx.isEmpty then p.modSbc fun b => { b with deaf := false, blind := closeBlind p.now b.blind } else p

/-- The dispatcher deals with the head of the buffer until it is empty or a WHEEL frame waits for the port (R72). -/
def Part.dispatch (p : Part) : Part :=
  let p1 := (p.dispatchFrames p.sbc.rx.length).endDeaf
  if p1.wheelAtHead then p1.requestPort .dispatcher else p1

/-! ## SILENT (R190) -/

/-- The open vehicle is discarded (R112). -/
def Part.discardVehicle (p : Part) : Part := p.modVau fun v => { v with vehicle := none, runStart := none }

/-- The report of a suspected duplicate station number takes the station to SILENT; in a state that is not among the four
it has no effect (R68, R109, R112, R174, R190; log 32). -/
def Part.enterSilent (p : Part) : Part :=
  if !p.usesLine then p
  else
    let p1 := ((p.cutAndFlush.modPse Pse.emptied).clearPending).discardVehicle
    let p2 := if p.csu.image.isSome then p1.restOutputs else p1
    let p3 := p2.modStu fun u => { u with joinWindow := none }
    let p4 := (p3.modCsu fun c => { c with station := .silent, deferred := false }).setMark .state
    (p4.modVau fun v => { v with port := v.port.withdraw .dispatcher }).dispatch

/-! ## Sending (R65 to R67) -/

/-- What the SBC takes at a start mark: site time and step total (R60, R80). -/
def Part.capture (p : Part) : Capture := { siteTime := p.stu.siteTime, stepTotal := p.stu.stepTotal }

/-- The own-clock instant from which the line's quiet counts (R59). -/
def LineState.since : LineState → Nat
  | .quiet t => t
  | .ignored t => t

/-- The line was in use until an own-clock instant: its quiet counts from there (R59, R60). -/
def LineState.usedUntil (t : Nat) : LineState → LineState
  | .quiet _ => .quiet t
  | .ignored _ => .ignored t

/-- The line has been quiet for the quiet interval (R59, R65). -/
def Part.lineRested (p : Part) : Bool := elapsed p.clock p.sbc.line.since (quietInterval p.block.bitRate)

/-- The receiver ignores the line: the quiet interval since a length byte above 120 has not passed (R69). -/
def Part.lineIgnored (p : Part) : Bool :=
  match p.sbc.line with
  | .quiet _ => false
  | .ignored _ => !p.lineRested

/-- A sign of use on a line on which the SBC neither sends nor follows a frame (R59; log 16). -/
def Part.hearUse (p : Part) : Part := p.modSbc fun b => { b with line := b.line.usedUntil p.clock }

/-- The SBC may start a frame: it is not sending, follows no frame, and the line has been quiet for the quiet interval
(R59, R61, R65). -/
def Part.mayStart (p : Part) : Bool := p.usesLine && p.sending.isNone && p.sbc.following.isNone && p.lineRested

/-- The SBC is at a would-be start (R65). -/
def Part.startDue (p : Part) : Bool := p.mayStart && !p.sbc.list.isEmpty

/-- A WHEEL frame whose age exceeds the peer allowance (R65). -/
def Part.staleEntry (p : Part) (e : TxEntry) : Bool :=
  e.content.kind = .wheel && (p.lpMicros : Int) < siteDiff p.now e.queueTime

/-- The first frames of the list are removed while they are stale; `n` bounds their number (R65). -/
def Part.removeStale : Nat → Part → Part
  | 0, p => p
  | n + 1, p =>
    match p.sbc.list with
    | [] => p
    | e :: rest =>
      if p.staleEntry e then
        (((p.modSbc fun b => { b with list := rest }).countDrop).countStaleWheel).removeStale n
      else p

/-- The payload of an entry, taken at its start mark (R66). -/
def Part.payloadOf (p : Part) (content : TxContent) : List Byte :=
  match content with
  | .wheel w => wheelPayload w
  | .time => timePayload p.now
  | .vehicle seq =>
    match p.vcl.records.find? fun r => r.seq = seq with
    | some r => vehiclePayload r
    | none => []
  | .temp probe c => tempPayload probe c
  | .status => p.statusPayload
  | .totals => totalsPayload p.vcl.totals

/-- The start mark of the first frame of the list (R60, R65, R66, R160). -/
def Part.startFrame (p : Part) : Part :=
  match p.sbc.list with
  | [] => p
  | e :: rest =>
    let snapshot := if e.content.kind = .totals then some p.vcl.totals else none
    p.modSbc fun b =>
      { b with
        list := { e with inTransmission := true, snapshot := snapshot } :: rest
        onLine := some (frameBytes e.content.kind p.block.number (p.payloadOf e.content))
        txCapture := some p.capture }

/-- A would-be start: stale WHEEL frames leave, and the first frame starts (R65; log 33). -/
def Part.beginFrame (p : Part) : Part := ((p.removeStale p.sbc.list.length).offerVehicle).startFrame

/-- Meaning of WOULD_BE_START (R65). -/
def execWouldBeStart (s : State) : Host.Outcome State Fault Refusal :=
  act (fun p => if p.startDue then p.beginFrame else p) s

/-- The sender has lost: its frame stays, and it goes on following the other's frame with its own capture (R60, R61). -/
def Part.loseContention (p : Part) : Part :=
  ((p.stopSending).modSbc fun b => { b with following := p.sbc.txCapture }).offerVehicle

/-- Meaning of CONTENTION_LOSS (R61). -/
def execContentionLoss (s : State) : Host.Outcome State Fault Refusal :=
  act (fun p => if p.sending.isSome then p.loseContention else p) s

/-- The span within which a second payload mismatch reports a suspected duplicate, in µs (R62). -/
def mismatchSpan : Nat := 10000000

/-- A second payload mismatch within 10 s of the first (R62; log 30). A warm restart keeps the time of the first (R77), and after a
RESTART from SILENT the next mismatch is judged by that time too, though R189 names no span (log 47). -/
def Part.mismatchRepeated (p : Part) : Bool :=
  match p.sbc.lastMismatch with
  | some t => p.clock ≤ t + mismatchSpan
  | none => false

/-- The frame being sent is aborted, and the line's quiet counts from now (R62). The STATUS request of its BUS mark enters the list
before a VEHICLE offer, and both act before the entry into SILENT that a second mismatch brings (log 39). -/
def Part.abortFrame (p : Part) : Part :=
  let p1 := ((p.stopSending.modSbc fun b =>
    { b with mismatches := satInc b.mismatches, lastMismatch := some p.clock, line := .quiet p.clock }).setMark .bus).offerVehicle
  if p.mismatchRepeated then p1.enterSilent else p1

/-- Meaning of PAYLOAD_MISMATCH (R62). -/
def execPayloadMismatch (s : State) : Host.Outcome State Fault Refusal :=
  act (fun p => if p.sending.isSome then p.abortFrame else p) s

/-- The totals reduced by a snapshot (R161). -/
def reduceTotals (t snap : Totals) : Totals :=
  { perClass := Vector.zipWith (fun a b => a - b) t.perClass snap.perClass
    vehiclesCompleted := t.vehiclesCompleted - snap.vehiclesCompleted
    grossSum := t.grossSum - snap.grossSum
    lost := t.lost - snap.lost
    ceded := t.ceded - snap.ceded
    staleWheelDrops := t.staleWheelDrops - snap.staleWheelDrops
    crcErrors := t.crcErrors - snap.crcErrors
    overruns := t.overruns - snap.overruns
    markedHits := t.markedHits - snap.markedHits
    holdHits := t.holdHits - snap.holdHits }

/-- What follows the completion of a frame, by its kind (R67, R155, R161). -/
def Part.afterFrame (e : TxEntry) (p : Part) : Part :=
  match e.content with
  | .wheel _ => p
  | .time => p
  | .vehicle seq => p.modVcl fun v => { v with records := dropFirst (fun r => r.seq = seq) v.records }
  | .temp probe _ =>
    match e.repeatTemp with
    | some c => p.enterList (.temp probe c) p.now
    | none => p
  | .status => if e.repeatAsked then p.enterList .status p.now else p
  | .totals =>
    let p1 := match e.snapshot with
      | some snap => p.modTotals fun t => reduceTotals t snap
      | none => p
    if e.repeatAsked then p1.enterList .totals p.now else p1

/-- The frame being sent completes (R67). The frame of its repeat enters the list before a VEHICLE offer (log 39). -/
def Part.completeFrame (e : TxEntry) (p : Part) : Part :=
  ((p.modSbc fun b =>
    { b with list := dropFirst TxEntry.inTransmission b.list, onLine := none, txCapture := none, line := .quiet p.clock }).afterFrame
    e).offerVehicle

/-- Meaning of FRAME_COMPLETE (R67). -/
def execFrameComplete (s : State) : Host.Outcome State Fault Refusal :=
  act (fun p =>
    match p.sending with
    | some e => p.completeFrame e
    | none => p) s

/-! ## Receiving (R69 to R74, R196) -/

/-- Add 1 to the format errors (R75). -/
def Part.countFormat (p : Part) : Part := p.modSbc fun b => { b with formatErrors := satInc b.formatErrors }

/-- Add 1 to the CRC errors of the site totals (R157). -/
def Part.countCrc (p : Part) : Part := p.modTotals fun t => { t with crcErrors := satInc t.crcErrors }

/-- The command target addresses this station: its number, 0, or its group's target (R71). -/
def Part.targetsUs (p : Part) (target : Nat) : Bool :=
  target = p.block.number || target = 0 || target = 0x80 + p.block.group

/-- The receive filter (R71). -/
def Part.accepts (p : Part) (kind : FrameKind) (sender : Nat) (payload : List Byte) : Bool :=
  match kind with
  | .wheel => p.onDuty && (p.block.leftNeighbour = some sender || p.block.rightNeighbour = some sender)
  | .time => true
  | .temp => true
  | .command => !payload.isEmpty && p.targetsUs (byteAt payload 0)
  | .vehicle => false
  | .status => false
  | .totals => false

/-- The newest blind interval is opened again. -/
def reopenNewest : List BlindInterval → List BlindInterval
  | [] => []
  | [b] => [{ b with close := none }]
  | b :: c :: rest => b :: reopenNewest (c :: rest)

/-- A blind interval opens at a site time; a list of 4 reopens its newest (R74; log 24). -/
def openBlind (t : SiteTime) (l : List BlindInterval) : List BlindInterval :=
  let kept := l.filter fun b => !blindOld t b
  if kept.length < 4 then kept ++ [{ start := t, close := none }] else reopenNewest kept

/-- An overrun (R73). -/
def Part.overrun (p : Part) : Part :=
  (((p.modTotals fun t => { t with overruns := satInc t.overruns }).modSbc fun b =>
    { b with deaf := true, blind := openBlind p.now b.blind })).setMark .bus

/-- A frame that passed the filter and the content check is offered to the receive buffer (R72, R73). -/
def Part.offerFrame (f : RxFrame) (c : Capture) (p : Part) : Part :=
  if p.sbc.deaf then p.modSbc fun b => { b with deafDiscards := satInc b.deafDiscards }
  else if p.sbc.rx.length < 4 then
    (p.modSbc fun b => { b with rx := b.rx ++ [{ frame := f, capture := c, arrival := p.now }] }).dispatch
  else p.overrun

/-- A frame that passed the checks of R69 (R70, R71, R196). -/
def Part.takeFrame (kind : FrameKind) (sender : Nat) (payload : List Byte) (c : Capture) (p : Part) : Part :=
  if sender = p.block.number then p.enterSilent
  else if !p.accepts kind sender payload then p
  else
    match parseContent kind sender payload with
    | none => p.countFormat
    | some f => p.offerFrame f c

/-- The receiver has stopped following the frame; the line is in the state given. -/
def Part.stopFollowing (line : LineState) (p : Part) : Part := p.modSbc fun b => { b with following := none, line := line }

/-- The frame being followed has ended (R69). -/
def Part.receiveFrame (bytes : List Byte) (c : Capture) (p : Part) : Part :=
  let p1 := p.stopFollowing (.quiet p.clock)
  match judgeBytes bytes with
  | .endedEarly => p1.countCrc
  | .badCrc => p1.countCrc
  | .badKind => p1.countFormat
  | .tooLong => (p.stopFollowing (.ignored p.clock)).countFormat
  | .good kind sender payload => p1.takeFrame kind sender payload c

/-- Meaning of FRAME_RECEIVED (R69). With no frame followed it is the end of one that the receiver did not follow from its start mark
(R59, R62, R69, R77): nothing is received or counted, and the line's quiet counts from now (R60; log 16). -/
def execFrameReceived (bytes : List Byte) (s : State) : Host.Outcome State Fault Refusal :=
  act (fun p =>
    if !p.receiverOn then p
    else
      match p.sbc.following with
      | some c => p.receiveFrame bytes c
      | none => if p.sending.isNone then p.hearUse else p) s

/-- Meaning of START_MARK_RECEIVED (R60, R69, R80). On a line that the receiver ignores no frame is followed, and the wait for its
quiet begins anew (R69). -/
def execStartMarkReceived (s : State) : Host.Outcome State Fault Refusal :=
  act (fun p =>
    if p.receiverOn && p.sending.isNone && p.sbc.following.isNone then
      if p.lineIgnored then p.hearUse else p.modSbc fun b => { b with following := some p.capture }
    else p) s

/-- Meaning of LENGTH_BYTE_OVER_120 (R69): the frame is discarded and the line ignored until it has been quiet. -/
def execLengthByteOver120 (s : State) : Host.Outcome State Fault Refusal :=
  act (fun p => if p.receiverOn && p.sbc.following.isSome then (p.stopFollowing (.ignored p.clock)).countFormat else p) s

/-- Meaning of BLIND_INTERVAL_REMOVAL (R74). -/
def execBlindIntervalRemoval (s : State) : Host.Outcome State Fault Refusal :=
  act (fun p => p.modSbc fun b => { b with blind := b.blind.filter fun x => !blindOld p.now x }) s

/-! ## The dispatcher's hold of the port (R91 to R93) -/

/-- A peer entry stands behind a reference time (R92). -/
def peerAfter (t : SiteTime) (e : PeerWheel) : Bool := 0 < siteDiff e.wheel.refTime t

/-- Two peer entries of the same sender and wheel number, of which the list holds one at most (R93). -/
def samePeer (a b : PeerWheel) : Bool := a.sender = b.sender && a.wheel.number = b.wheel.number

/-- The peer wheel list takes an entry, in place of one of the same sender and number (log 46); of 33 entries the earliest goes,
counted as a peer overflow (R92, R93), of several with the same earliest reference time the one inserted first (log 45). -/
def takePeer (e : PeerWheel) (v : Vau) : Vau :=
  let l := insertBefore (peerAfter e.wheel.refTime) e (v.peers.filter fun x => !samePeer x e)
  if l.length ≤ 32 then { v with peers := l } else { v with peers := l.drop 1, peerOverflows := satInc v.peerOverflows }

/-- A WHEEL frame's wheel is judged: kept when it is on the near side of its sender's lane and no repeat (R92). -/
def Part.insertPeer (sender : Nat) (w : Wheel) (p : Part) : Part :=
  let side := otherSide w.side
  if p.neighbour side = some sender && p.vau.lastPeer.get side ≠ some w.number then
    p.modVau fun v =>
      { takePeer { sender := sender, wheel := w, aged := false } v with lastPeer := v.lastPeer.set side (some w.number) }
  else p

/-- The dispatcher's next request stands in the waiting set at its release (R91). -/
def Part.releaseDispatcher (p : Part) : Part :=
  if p.wheelAtHead then (p.modVau fun v => { v with port := v.port.request p.clock .dispatcher }).releasePort else p.releasePort

/-- The dispatcher's work of one grant (R91 to R93): aged entries go, the head wheel is inserted or discarded and removed
from the buffer, the frames behind it that need no port are handed on, and the port is released. A decision time or close time
that a TIME frame's step reaches here makes the axle former's request after that release (log 40). -/
def Part.serveWheel (p : Part) : Part :=
  let p1 := p.removeAged
  match p1.sbc.rx with
  | [] => p1.releaseDispatcher
  | e :: rest =>
    match e.frame with
    | .wheel sender w => (((p1.insertPeer sender w).popFrame.dispatchFrames rest.length).endDeaf).releaseDispatcher
    | .time _ _ => p1.releaseDispatcher
    | .temp _ _ _ => p1.releaseDispatcher
    | .command _ _ => p1.releaseDispatcher

/-- Meaning of DISPATCHER_PORT_GRANT (R92). -/
def execDispatcherPortGrant (s : State) : Host.Outcome State Fault Refusal :=
  act (fun p => if p.vau.port.holder = some .dispatcher then p.serveWheel else p) s

end Sys2Proof.Machine
end

