-- ==== Sys2Proof/Machine/ImageLoad.lean ====
section
/-! DEFINITION. The configuration image (section 11.1, R176 to R178, section 12.5, R197): the blocks as bytes, the checks of
each block in their order, the blocks held aside, and the two ends of a load, with the meaning of CONFIG_BLOCK_READ. -/

namespace Sys2Proof.Machine

/-! ## Blocks -/

/-- The eight block kinds. -/
inductive BlockKind where
  | station | strips | assembly | probes | factors | classes | triggers | ending
  deriving DecidableEq, Repr

/-- The block kind of a code (section 12.4). -/
def blockKindOf : Nat → Option BlockKind
  | 1 => some .station
  | 2 => some .strips
  | 3 => some .assembly
  | 4 => some .probes
  | 5 => some .factors
  | 6 => some .classes
  | 7 => some .triggers
  | 8 => some .ending
  | _ => none

/-- The payload length a kind takes (section 12.5); a CLASS block's follows from its rules. -/
def BlockKind.payloadLength : BlockKind → Option Nat
  | .station => some 9
  | .strips => some 30
  | .assembly => some 26
  | .probes => some 13
  | .factors => some 74
  | .classes => none
  | .triggers => some 39
  | .ending => some 0

/-- The `n` bytes of the memory from an offset of those given; a byte that is not given reads 0xFF (log 13). -/
def memoryBytes (bytes : List Byte) (offset n : Nat) : List Byte := (List.range n).map fun i => bytes.getD (offset + i) 0xFF

/-- The block sum: every byte before the stored sum, modulo 65,536 (R176). -/
def blockSum (bytes : List Byte) : Nat := (bytes.map BitVec.toNat).sum % 65536

/-- A field of a payload by its offset, and whether its value lies in its range. -/
abbrev FieldCheck := Nat × Bool

/-- The offset of the first field out of range (R177). -/
def firstBad (fields : List FieldCheck) : Option Nat := (fields.find? fun f => !f.2).map Prod.fst

/-- A value within a range, both ends included. -/
def within (lo hi x : Nat) : Bool := lo ≤ x && x ≤ hi

/-- A signed value within a range, both ends included. -/
def withinInt (lo hi x : Int) : Bool := lo ≤ x && x ≤ hi

/-! ## STATION -/

/-- The fields of a STATION payload (section 12.5). -/
def stationChecks (b : List Byte) : List FieldCheck :=
  let number := byteAt b 0
  let left := (byteAt b 1).testBit 0
  let right := (byteAt b 1).testBit 1
  [(0, within 1 14 number), (1, byteAt b 1 < 4),
    (2, !left || (within 1 14 (byteAt b 2) && byteAt b 2 ≠ number)),
    (3, !right || (within 1 14 (byteAt b 3) && byteAt b 3 ≠ number && !(left && byteAt b 3 = byteAt b 2))),
    (4, within 1 3 (byteAt b 4)), (5, byteAt b 5 < 3), (6, byteAt b 6 ≤ 50), (7, byteAt b 7 < 2), (8, byteAt b 8 < 32)]

/-- The bit rate of a code. -/
def bitRateOf (code : Nat) : BitRate := if code = 0 then .k125 else if code = 1 then .k250 else .k500

/-- The values of a STATION payload. -/
def stationValues (b : List Byte) : StationBlock :=
  { number := byteAt b 0
    leftNeighbour := if (byteAt b 1).testBit 0 then some (byteAt b 2) else none
    rightNeighbour := if (byteAt b 1).testBit 1 then some (byteAt b 3) else none
    group := byteAt b 4
    bitRate := bitRateOf (byteAt b 5)
    lineDelay := byteAt b 6
    keepMarks := (byteAt b 7).testBit 0
    attentionMask := markSetOf (byteAt b 8) }

/-! ## STRIPS -/

/-- The fields of a STRIPS payload; Th_off not below Th_on is found at Th_off (R177). -/
def stripsChecks (b : List Byte) : List FieldCheck :=
  [(0, within 1000 6000 (fieldAt b 0 2)), (2, within 16 32767 (fieldAt b 2 2)),
    (4, 8 ≤ fieldAt b 4 2 && fieldAt b 4 2 < fieldAt b 2 2), (6, within 1 64 (byteAt b 6)),
    (7, within 80 16000 (fieldAt b 7 2)), (9, within 10 600 (fieldAt b 9 2)), (11, within 100 16000 (fieldAt b 11 2)),
    (13, within 2 15 (byteAt b 13))]

/-- The values of a STRIPS payload. -/
def stripsValues (b : List Byte) : StripsBlock :=
  { spacing := fieldAt b 0 2, thOn := fieldAt b 2 2, thOff := fieldAt b 4 2, ntail := byteAt b 6, lmax := fieldAt b 7 2,
    stuckLimit := fieldAt b 9 2, bwin := fieldAt b 11 2, deadCount := byteAt b 13,
    cal := { ll := fieldAt b 14 4, lr := fieldAt b 18 4, tl := fieldAt b 22 4, tr := fieldAt b 26 4 } }

/-! ## ASSEMBLY -/

/-- A group limit that counts lies in its range. -/
def limitCheck (b : List Byte) (bit offset : Nat) : FieldCheck :=
  (offset, !(byteAt b 9).testBit bit || within 1000 1000000 (fieldAt b offset 4))

/-- The fields of an ASSEMBLY payload. -/
def assemblyChecks (b : List Byte) : List FieldCheck :=
  [(0, within 50 1500 (fieldAt b 0 2)), (2, within 5 200 (byteAt b 2)), (3, within 2000 20000 (fieldAt b 3 2)),
    (5, within 200 5000 (fieldAt b 5 2)), (7, within 500 3000 (fieldAt b 7 2)), (9, byteAt b 9 < 16),
    limitCheck b 0 10, limitCheck b 1 14, limitCheck b 2 18, limitCheck b 3 22]

/-- A group limit, present when its presence bit is set. -/
def limitValue (b : List Byte) (bit offset : Nat) : Option Nat :=
  if (byteAt b 9).testBit bit then some (fieldAt b offset 4) else none

/-- The values of an ASSEMBLY payload. -/
def assemblyValues (b : List Byte) : AssemblyBlock :=
  { dc := fieldAt b 0 2, lp := byteAt b 2, smax := fieldAt b 3 2, tmax := fieldAt b 5 2, gmax := fieldAt b 7 2,
    singleLimit := limitValue b 0 10, tandemLimit := limitValue b 1 14, tridemLimit := limitValue b 2 18,
    quadLimit := limitValue b 3 22 }

/-! ## PROBES -/

/-- The fields of one probe from an offset. -/
def probeChecks (b : List Byte) (o : Nat) : List FieldCheck :=
  [(o, byteAt b o < 2), (o + 1, 1 ≤ fieldAt b (o + 1) 2), (o + 3, withinInt (-2000) 2000 (signedAt b (o + 3)))]

/-- The fields of a PROBES payload. -/
def probesChecks (b : List Byte) : List FieldCheck :=
  probeChecks b 0 ++ probeChecks b 5 ++
    ([(10, within 1 60 (byteAt b 10)), (11, withinInt (-400) 800 (signedAt b 11))] : List FieldCheck)

/-- The values of one probe. -/
def probeValues (b : List Byte) (o : Nat) : ProbeParams :=
  { enable := byteAt b o = 1, gain := fieldAt b (o + 1) 2, offset := signedAt b (o + 3) }

/-- The values of a PROBES payload. -/
def probesValues (b : List Byte) : ProbesBlock :=
  { probe := { p0 := probeValues b 0, p1 := probeValues b 5 }, interval := byteAt b 10, reference := signedAt b 11 }

/-! ## FACTORS (R197) -/

/-- The points that count of a table with `count` points: the first `count`, for a count of 1 to 8; a count above 8 names none,
and fails with RANGE (R197). -/
def tableSize (count : Nat) : Nat := if count ≤ 8 then count else 0

/-- The temperature points that count. -/
def temperaturePoints (b : List Byte) : List FactorPoint :=
  (List.range (tableSize (byteAt b 0))).map fun i => { key := signedAt b (2 + 4 * i), factor := fieldAt b (4 + 4 * i) 2 }

/-- The speed points that count. -/
def speedPoints (b : List Byte) : List FactorPoint :=
  (List.range (tableSize (byteAt b 1))).map fun i => { key := (fieldAt b (34 + 5 * i) 3 : Nat), factor := fieldAt b (37 + 5 * i) 2 }

/-- The keys of a table increase strictly (R35, R177). -/
def keysIncrease : List FactorPoint → Bool
  | a :: b :: rest => a.key < b.key && keysIncrease (b :: rest)
  | _ => true

/-- The range checks of the points of a table: its first field's offset, a point's size and its key's size, and the
range of its keys. -/
def pointChecks (first size keySize : Nat) (lo hi : Int) (points : List FactorPoint) : List FieldCheck :=
  (points.zipIdx.map fun x =>
    [(first + size * x.2, withinInt lo hi x.1.key), (first + size * x.2 + keySize, within 16384 65535 x.1.factor)]).flatten

/-- The fields of a FACTORS payload. -/
def factorsChecks (b : List Byte) : List FieldCheck :=
  ([(0, byteAt b 0 ≤ 8), (1, byteAt b 1 ≤ 8)] : List FieldCheck) ++ pointChecks 2 4 2 (-400) 800 (temperaturePoints b) ++
    pointChecks 34 5 3 vMin vMax (speedPoints b)

/-- The values of a FACTORS payload. -/
def factorsValues (b : List Byte) : FactorsBlock := { temperature := temperaturePoints b, speed := speedPoints b }

/-! ## TRIGGERS -/

/-- The fields of one output from an offset. -/
def triggerChecks (b : List Byte) (o : Nat) : List FieldCheck :=
  [(o, byteAt b o < 16 && byteAt b o / 4 ≠ 3), (o + 1, within 1 1000000 (fieldAt b (o + 1) 4)),
    (o + 9, fieldAt b (o + 9) 2 ≤ 60000), (o + 11, within 1 1000 (fieldAt b (o + 11) 2))]

/-- The trigger source of a code. -/
def triggerSourceOf (code : Nat) : TriggerSource := if code = 0 then .front else if code = 1 then .heavy else .classed

/-- The values of one output. -/
def triggerValues (b : List Byte) (o : Nat) : TriggerParams :=
  { enable := (byteAt b o).testBit 0, source := triggerSourceOf (byteAt b o / 4 % 4), threshold := fieldAt b (o + 1) 4,
    classSet := BitVec.ofNat 32 (fieldAt b (o + 5) 4), polarityLow := (byteAt b o).testBit 1,
    distance := fieldAt b (o + 9) 2, width := fieldAt b (o + 11) 2 }

/-- The fields of a TRIGGERS payload. -/
def triggersChecks (b : List Byte) : List FieldCheck := triggerChecks b 0 ++ triggerChecks b 13 ++ triggerChecks b 26

/-- The values of a TRIGGERS payload. -/
def triggersValues (b : List Byte) : PerOutput TriggerParams :=
  { trg0 := triggerValues b 0, trg1 := triggerValues b 13, trg2 := triggerValues b 26 }

/-! ## CLASS (R136, R197) -/

/-- Where the fields of the rule at the head of some bytes lie: offsets from the rule's first byte. -/
structure RulePlan where
  options : Nat
  patternAt : Nat
  patternCount : Nat
  gapsAt : Nat
  gapCount : Nat
  rangeAt : Nat
  limitAt : Nat
  size : Nat
  deriving DecidableEq, Repr

/-- The plan of the rule at the head of some bytes (R197). A pattern count or a gap count outside its range spans that many
entries too, so that SIZE and ORDER are tested on what follows them before RANGE names the count (log 35). -/
def rulePlan (b : List Byte) : RulePlan :=
  let options := byteAt b 3
  let hasPattern := options.testBit 1
  let hasGaps := options.testBit 2
  let patternCount := if hasPattern then byteAt b 4 else 0
  let gapsAt := 4 + (if hasPattern then 1 + patternCount else 0)
  let gapCount := if hasGaps then byteAt b gapsAt else 0
  let rangeAt := gapsAt + (if hasGaps then 1 + 2 * gapCount else 0)
  let limitAt := rangeAt + (if options.testBit 3 then 8 else 0)
  { options := options, patternAt := 4, patternCount := patternCount, gapsAt := gapsAt, gapCount := gapCount,
    rangeAt := rangeAt, limitAt := limitAt, size := limitAt + (if options.testBit 4 then 4 else 0) }

/-- The group sizes of a rule's pattern. -/
def patternSizes (b : List Byte) (q : RulePlan) : List Nat := (List.range q.patternCount).map fun i => byteAt b (q.patternAt + 1 + i)

/-- The gap bounds of a rule. -/
def gapPairs (b : List Byte) (q : RulePlan) : List (Nat × Nat) :=
  (List.range q.gapCount).map fun i => (byteAt b (q.gapsAt + 1 + 2 * i), byteAt b (q.gapsAt + 2 + 2 * i))

/-- The values of the rule at the head of some bytes. -/
def ruleValues (b : List Byte) (q : RulePlan) : ClassRule :=
  { code := Fin.ofNat 32 (byteAt b 0)
    axleMin := byteAt b 1
    axleMax := byteAt b 2
    singleWheelOnly := q.options.testBit 0
    pattern := if q.options.testBit 1 then some (patternSizes b q) else none
    gaps := if q.options.testBit 2 then some (gapPairs b q) else none
    grossRange := if q.options.testBit 3 then some (fieldAt b q.rangeAt 4, fieldAt b (q.rangeAt + 4) 4) else none
    grossLimit := if q.options.testBit 4 then some (fieldAt b q.limitAt 4) else none }

/-- No minimum of the rule exceeds its maximum (R177, ORDER). -/
def ruleOrdered (r : ClassRule) : Bool :=
  r.axleMin ≤ r.axleMax && (r.gaps.getD []).all (fun g => g.1 ≤ g.2) &&
    (match r.grossRange with | some g => g.1 ≤ g.2 | none => true)

/-- The fields of a rule in payload order, from the offset of its first byte. -/
def ruleChecks (b : List Byte) (q : RulePlan) (o : Nat) : List FieldCheck :=
  ([(o, within 1 31 (byteAt b 0)), (o + 1, within 1 12 (byteAt b 1)), (o + 2, within 1 12 (byteAt b 2)),
    (o + 3, q.options < 32)] : List FieldCheck) ++
    (if q.options.testBit 1 then
      (o + q.patternAt, within 1 6 q.patternCount) ::
        (patternSizes b q).zipIdx.map fun x => (o + q.patternAt + 1 + x.2, within 1 12 x.1)
     else []) ++
    (if q.options.testBit 2 then [(o + q.gapsAt, within 1 11 q.gapCount)] else []) ++
    (if q.options.testBit 4 then ([(o + q.limitAt, 1 ≤ fieldAt b q.limitAt 4)] : List FieldCheck) else [])

/-- One rule of a CLASS payload: its values, and its fields' checks. -/
structure ParsedRule where
  rule : ClassRule
  checks : List FieldCheck
  deriving DecidableEq, Repr

/-- The rules of a CLASS payload from an offset; none when a rule would run past the payload's end (R197). `n` bounds their
number. -/
def parseRules : Nat → Nat → List Byte → Option (List ParsedRule)
  | _, _, [] => some []
  | 0, _, _ :: _ => none
  | n + 1, o, b :: bs =>
    let q := rulePlan (b :: bs)
    if (b :: bs).length < q.size then none
    else
      (parseRules n (o + q.size) ((b :: bs).drop q.size)).map fun l =>
        { rule := ruleValues (b :: bs) q, checks := ruleChecks (b :: bs) q o } :: l

/-- The rules of a CLASS payload. -/
def classRules (b : List Byte) : Option (List ParsedRule) := parseRules b.length 0 b

/-! ## The checks of a block (R177) -/

/-- A block as read: its kind, position and length bytes, its payload and its stored sum. -/
structure BlockRead where
  kindByte : Nat
  position : Nat
  length : Nat
  payload : List Byte
  sum : Nat
  stored : Nat
  deriving DecidableEq, Repr

/-- A block read from the memory's bytes (R176). -/
def readBlock (bytes : List Byte) : BlockRead :=
  let head := memoryBytes bytes 0 3
  let n := byteAt head 2
  let payload := memoryBytes bytes 3 n
  { kindByte := byteAt head 0, position := byteAt head 1, length := n, payload := payload,
    sum := blockSum (head ++ payload), stored := leValue (memoryBytes bytes (3 + n) 2) }

/-- The size of the configuration memory that an image may use (R177, SIZE). -/
def memorySize : Nat := 4096

/-- The SIZE condition (R177). -/
def sizeFault (l : Load) (kind : BlockKind) (r : BlockRead) : Bool :=
  memorySize < l.offset + r.length + 5 || 240 < r.length ||
    (match kind.payloadLength with
     | some n => r.length ≠ n
     | none =>
       match classRules r.payload with
       | none => true
       | some rules => rules.isEmpty || 32 < l.rules.length + rules.length)

/-- The ORDER condition (R177). -/
def orderFault (l : Load) (kind : BlockKind) (b : List Byte) : Bool :=
  (l.index = 0 && kind ≠ .station) ||
    (match kind with
     | .factors => !(keysIncrease (temperaturePoints b) && keysIncrease (speedPoints b))
     | .classes => ((classRules b).getD []).any fun r => !ruleOrdered r.rule
     | .station => false
     | .strips => false
     | .assembly => false
     | .probes => false
     | .triggers => false
     | .ending => false)

/-- A CLASS block that goes on with a run: MIDDLE or LAST. -/
def continuesRun (kind : BlockKind) (position : Nat) : Bool := kind = .classes && (position = 2 || position = 3)

/-- The SEQUENCE condition (R177, R194). -/
def sequenceFault (l : Load) (kind : BlockKind) (position : Nat) : Bool :=
  3 < position || (kind ≠ .classes && position ≠ 0) || (continuesRun kind position && l.classRun ≠ .running) ||
    (!continuesRun kind position && l.classRun = .running)

/-- The DUPLICATE condition (R177). -/
def duplicateFault (l : Load) (kind : BlockKind) (position : Nat) : Bool :=
  match kind with
  | .station => l.station.isSome
  | .strips => l.strips.isSome
  | .assembly => l.assembly.isSome
  | .probes => l.probes.isSome
  | .factors => l.factors.isSome
  | .classes => !continuesRun kind position && l.classRun ≠ .none
  | .triggers => l.triggers.isSome
  | .ending => false

/-- The fields of a payload with their range checks, in payload order. -/
def blockChecks (kind : BlockKind) (b : List Byte) : List FieldCheck :=
  match kind with
  | .station => stationChecks b
  | .strips => stripsChecks b
  | .assembly => assemblyChecks b
  | .probes => probesChecks b
  | .factors => factorsChecks b
  | .classes => (((classRules b).getD []).map ParsedRule.checks).flatten
  | .triggers => triggersChecks b
  | .ending => []

/-- The first condition that a block of a known kind meets (R177). -/
def knownBlockFault (l : Load) (kind : BlockKind) (r : BlockRead) : Option (FaultCode × Option Nat) :=
  if sizeFault l kind r then some (.size, none)
  else if r.stored ≠ r.sum then some (.sum, none)
  else if orderFault l kind r.payload then some (.order, none)
  else if sequenceFault l kind r.position then some (.sequence, none)
  else if duplicateFault l kind r.position then some (.duplicate, none)
  else
    match firstBad (blockChecks kind r.payload) with
    | some o => some (.range, some o)
    | none => if kind = .ending && (l.strips.isNone || l.assembly.isNone) then some (.missing, none) else none

/-! ## The end of a block and of a load (R176, R178) -/

/-- The CLASS run after a block. -/
def runAfter (l : Load) (kind : BlockKind) (position : Nat) : ClassRun :=
  if kind = .classes then (if position = 1 || position = 2 then .running else .complete) else l.classRun

/-- A block that passed is held aside, and the read goes on behind it (R176). -/
def holdAside (l : Load) (kind : BlockKind) (r : BlockRead) : Load :=
  let next := { l with offset := l.offset + r.length + 5, index := l.index + 1, classRun := runAfter l kind r.position }
  match kind with
  | .station => { next with station := some (stationValues r.payload) }
  | .strips => { next with strips := some (stripsValues r.payload) }
  | .assembly => { next with assembly := some (assemblyValues r.payload) }
  | .probes => { next with probes := some (probesValues r.payload) }
  | .factors => { next with factors := some (factorsValues r.payload) }
  | .classes => { next with rules := l.rules ++ ((classRules r.payload).getD []).map ParsedRule.rule }
  | .triggers => { next with triggers := some (triggersValues r.payload) }
  | .ending => next

/-- The accepted image: the blocks held aside, with the defaults of those it lacks (R178). -/
def imageOf (l : Load) : Image :=
  { strips := l.strips.getD absentImage.strips, assembly := l.assembly.getD absentImage.assembly,
    probes := l.probes.getD standardProbes, factors := l.factors.getD standardFactors, rules := l.rules,
    triggers := l.triggers.getD standardTriggers }

/-- The SBC starts work, and treats the line as busy: its quiet counts from this moment at the earliest (R59; log 16). -/
def Part.startBus (p : Part) : Part := p.modSbc fun b => { b with line := .quiet p.clock }

/-- The LCU begins to sample at once, with a first sampling instant whose sample time is still to be read (R1, R2; log 41). -/
def Part.startSampling (p : Part) : Part := p.modLcu fun l => { l with lastSample := none, stamp := none }

/-- The image is accepted: all blocks are applied at once, and the station enters JOIN (R178, R180). -/
def Part.acceptImage (l : Load) (p : Part) : Part :=
  let p1 := p.modCsu fun c =>
    { c with station := .join, block := l.station, image := some (imageOf l), loadFault := none, load := none,
             periodicSince := some p.clock }
  (p1.startBus.startSampling.openJoinWindow.restOutputs.beginTemperature).setMark .state

/-- The image is refused at the block being read: MUTE when that is block 0, otherwise UNCONFIGURED with the STATION block
alone (R178; log 18). -/
def Part.refuseImage (l : Load) (code : FaultCode) (offset : Option Nat) (p : Part) : Part :=
  let fault : LoadFault := { index := l.index, code := code, offset := offset }
  if l.index = 0 then
    (p.modCsu fun c => { c with station := .mute, block := none, loadFault := some fault, load := none }).setMark .state
  else
    ((p.modCsu fun c =>
      { c with station := .unconfigured, block := l.station, loadFault := some fault, load := none,
               periodicSince := some p.clock }).startBus).setMark .state

/-- One block of the image, read and checked (R176, R177). -/
def Part.takeBlock (l : Load) (r : BlockRead) (p : Part) : Part :=
  if r.kindByte = 0xFF then p.refuseImage l .read none
  else
    match blockKindOf r.kindByte with
    | none => p.refuseImage l .range none
    | some kind =>
      match knownBlockFault l kind r with
      | some fault => p.refuseImage l fault.1 fault.2
      | none => if kind = .ending then p.acceptImage l else p.modCsu fun c => { c with load := some (holdAside l kind r) }

/-- CFG_SEL is driven exactly while a read is in progress (R176). -/
def Part.cfgSelected (p : Part) : Bool := p.csu.load.isSome

/-- Meaning of CONFIG_BLOCK_READ (R177). -/
def execConfigBlockRead (bytes : List Byte) (s : State) : Host.Outcome State Fault Refusal :=
  act (fun p =>
    match p.csu.load with
    | some l => if p.csu.station = .loading then p.takeBlock l (readBlock bytes) else p
    | none => p) s

end Sys2Proof.Machine
end

