-- ==== Sys2Proof/Machine/Clock.lean ====
section
/-! DEFINITION. The part left to itself: one microsecond of its own clock (R78), and the events that its own timers, ages and
port grants bring about, each a command of the table that the part gives itself when it is due (log 1). -/

namespace Sys2Proof.Machine

/-- One microsecond of own clock passes, and site time counts with it in every station state (R78), off the due point it may
have stood at (log 25); none passes while RST_N is low (log 6). -/
def Part.tick (p : Part) : Part :=
  if p.rstLow then p
  else { p with clock := p.clock + 1, stu := { p.stu with siteTime := later p.stu.siteTime 1, lastDue := none } }

/-- A new interval of the converter is due (R43). -/
def Part.intervalDue (p : Part) : Bool :=
  p.working && p.ptu.converter = .idle &&
    (match p.ptu.intervalStart with
     | some t => elapsed p.clock t (p.image.probes.interval * 1000000)
     | none => false)

/-- Settling is over (R43). -/
def Part.settleDue (p : Part) : Bool :=
  p.working &&
    (match p.ptu.converter with
     | .settle _ t => elapsed p.clock t settleTime
     | .idle => false
     | .convert _ _ => false)

/-- The result code of a conversion whose 80 ms are over, by the code last taken for its probe (R43; log 43). -/
def Part.codeDue (p : Part) : Option (BitVec 16) :=
  match p.ptu.converter with
  | .convert pr t => if p.working && elapsed p.clock t convertTime then some (p.ptu.codes.get pr) else none
  | .idle => none
  | .settle _ _ => none

/-- A firing of an output has fallen due in RUN (R171). -/
def Part.firingIsDue (p : Part) (o : Output) : Bool := p.inRun && (p.tou.outputs.get o).schedule.any (firingReached p.now)

/-- A pending wheel's decision time has been reached, and the axle former has not yet asked for the port (R95). -/
def Part.decisionDue (p : Part) : Bool := p.vau.waiting.any (decisionReached p.now) && !p.vau.port.standing .axleFormer

/-- The close time has been reached and not yet acted on (R119). -/
def Part.closeDue (p : Part) : Bool :=
  match p.vau.vehicle with
  | some v => closeReached p.now v && (v.closeMark.isNone || !p.vau.port.standing .axleFormer)
  | none => false

/-- The events of the part itself, each with its condition, in the order in which those of one instant are taken
(log 1, 21). -/
def Part.ownEvents (p : Part) : List (Bool × Instr) :=
  [(p.stu.log.any (stepOld p.now), .stepLogEntryRemoval),
    (p.ptu.peers.any (peerTempOld p.now), .peerTempEntryRemoval),
    ((match p.ptu.held with | some h => heldOld p.now h | none => false), .heldValueExpiry),
    (p.sbc.blind.any (blindOld p.now), .blindIntervalRemoval),
    (p.vau.peers.any (fun e => p.peerAged e && !e.aged), .peerWheelAged),
    (p.joinOver, .joinWindowEnd),
    (p.atDuePoint, .timeDuePoint),
    (p.sampleDue, .sampleInstant p.lcu.inputs.ll p.lcu.inputs.lr p.lcu.inputs.tl p.lcu.inputs.tr),
    (p.intervalDue, .measurementIntervalStart),
    (p.settleDue, .settleEnd),
    (p.codeDue.isSome, .conversionComplete (p.codeDue.getD 0)),
    (p.tempTimerDue .p0, .tempTimerExpiry .p0),
    (p.tempTimerDue .p1, .tempTimerExpiry .p1),
    (p.decisionDue, .decisionTimeReached),
    (p.closeDue, .closeTimeReached),
    (p.pulseOver .trg0, .pulseEnd .trg0),
    (p.pulseOver .trg1, .pulseEnd .trg1),
    (p.pulseOver .trg2, .pulseEnd .trg2),
    (p.firingIsDue .trg0, .firingDue .trg0),
    (p.firingIsDue .trg1, .firingDue .trg1),
    (p.firingIsDue .trg2, .firingDue .trg2),
    (p.periodicDue, .statusPeriodicTimer),
    (p.deferredDue, .statusDeferredRequest),
    (p.walkOver, .classWalkEnd),
    (decide (p.vau.port.holder = some .dispatcher), .dispatcherPortGrant),
    (decide (p.vau.port.holder = some .axleFormer), .axleFormerHold),
    (decide (p.vau.port.holder = some .classWalk) && decide (p.vcl.walk.state = .waiting), .classWalkStart),
    (p.startDue, .wouldBeStart)]

/-- The first event of the part that is due; none while RST_N is low. -/
def Part.dueCommand (p : Part) : Option Instr :=
  if p.rstLow then none else (p.ownEvents.find? Prod.fst).map Prod.snd

end Sys2Proof.Machine
end

