-- ==== Sys2Proof/Machine/Dispatch.lean ====
section
/-! DEFINITION. What each command of the table does: one arm per constructor, each one call of its meaning. -/

namespace Sys2Proof.Machine

/-- The meaning of a command on everything but the queue. -/
def exec (i : Instr) (s : State) : Host.Outcome State Fault Refusal :=
  match i with
  | .powerOn => Sys2Proof.Machine.execPowerOn s
  | .resetAssert => Sys2Proof.Machine.execResetAssert s
  | .configBlockRead bytes => Sys2Proof.Machine.execConfigBlockRead bytes s
  | .holdNLevelTaken level => Sys2Proof.Machine.execHoldNLevelTaken level s
  | .sampleInstant ll lr tl tr => Sys2Proof.Machine.execSampleInstant ll lr tl tr s
  | .hitEndByTail ch x => Sys2Proof.Machine.execHitEndByTail ch x s
  | .hitEndByCountExpiry ch x => Sys2Proof.Machine.execHitEndByCountExpiry ch x s
  | .stuckQuietReturn ch x => Sys2Proof.Machine.execStuckQuietReturn ch x s
  | .forcedRebaseline ch x => Sys2Proof.Machine.execForcedRebaseline ch x s
  | .driftMark ch x => Sys2Proof.Machine.execDriftMark ch x s
  | .leadingEntryExpiry => Sys2Proof.Machine.execLeadingEntryExpiry s
  | .coincidenceCheck => Sys2Proof.Machine.execCoincidenceCheck s
  | .measurementIntervalStart => Sys2Proof.Machine.execMeasurementIntervalStart s
  | .settleEnd => Sys2Proof.Machine.execSettleEnd s
  | .conversionComplete code => Sys2Proof.Machine.execConversionComplete code s
  | .tempTimerExpiry probe => Sys2Proof.Machine.execTempTimerExpiry probe s
  | .peerTempEntryRemoval => Sys2Proof.Machine.execPeerTempEntryRemoval s
  | .heldValueExpiry => Sys2Proof.Machine.execHeldValueExpiry s
  | .wouldBeStart => Sys2Proof.Machine.execWouldBeStart s
  | .contentionLoss => Sys2Proof.Machine.execContentionLoss s
  | .payloadMismatch => Sys2Proof.Machine.execPayloadMismatch s
  | .frameComplete => Sys2Proof.Machine.execFrameComplete s
  | .frameReceived bytes => Sys2Proof.Machine.execFrameReceived bytes s
  | .blindIntervalRemoval => Sys2Proof.Machine.execBlindIntervalRemoval s
  | .dispatcherPortGrant => Sys2Proof.Machine.execDispatcherPortGrant s
  | .peerWheelAged => Sys2Proof.Machine.execPeerWheelAged s
  | .decisionTimeReached => Sys2Proof.Machine.execDecisionTimeReached s
  | .axleFormerHold => Sys2Proof.Machine.execAxleFormerHold s
  | .closeTimeReached => Sys2Proof.Machine.execCloseTimeReached s
  | .stepLogEntryRemoval => Sys2Proof.Machine.execStepLogEntryRemoval s
  | .timeDuePoint => Sys2Proof.Machine.execTimeDuePoint s
  | .joinWindowEnd => Sys2Proof.Machine.execJoinWindowEnd s
  | .classWalkStart => Sys2Proof.Machine.execClassWalkStart s
  | .classWalkEnd => Sys2Proof.Machine.execClassWalkEnd s
  | .firingDue out => Sys2Proof.Machine.execFiringDue out s
  | .pulseEnd out => Sys2Proof.Machine.execPulseEnd out s
  | .hold args => Sys2Proof.Machine.execHold args s
  | .release args => Sys2Proof.Machine.execRelease args s
  | .restart args => Sys2Proof.Machine.execRestart args s
  | .requestStatus args => Sys2Proof.Machine.execRequestStatus args s
  | .requestTotals args => Sys2Proof.Machine.execRequestTotals args s
  | .clearMarks args => Sys2Proof.Machine.execClearMarks args s
  | .rebaseline args => Sys2Proof.Machine.execRebaseline args s
  | .unknownCommand code args => Sys2Proof.Machine.execUnknownCommand code args s
  | .statusPeriodicTimer => Sys2Proof.Machine.execStatusPeriodicTimer s
  | .statusDeferredRequest => Sys2Proof.Machine.execStatusDeferredRequest s
  | .startMarkReceived => Sys2Proof.Machine.execStartMarkReceived s
  | .lengthByteOver120 => Sys2Proof.Machine.execLengthByteOver120 s

end Sys2Proof.Machine
end

