-- ==== Sys2Proof/Safety.lean ====
section
/-! DEFINITION. What the manual promises of every state the machine can reach: lists within their capacities and counts and
parameters within their ranges, one frame in transmission at most, one open blind interval at most, a sampling instant every
125 µs, and a station state that agrees with what is loaded. The obligations speak of these predicates. -/

namespace Sys2Proof

/-! ## The blocks of the image (R177) -/

/-- A station number (section 11.1). -/
def stationNumber (n : Nat) : Prop := 1 ≤ n ∧ n ≤ 14

/-- The ranges of a STATION block: its neighbours are other stations, and differ (R177). -/
structure StationBlock.InRange (b : StationBlock) : Prop where
  number : stationNumber b.number
  left : ∀ n, b.leftNeighbour = some n → stationNumber n ∧ n ≠ b.number
  right : ∀ n, b.rightNeighbour = some n → stationNumber n ∧ n ≠ b.number
  apart : ∀ n, b.leftNeighbour = some n → b.rightNeighbour ≠ some n
  group : 1 ≤ b.group ∧ b.group ≤ 3
  lineDelay : b.lineDelay ≤ 50

/-- The ranges of a STRIPS block (sections 1.1 and 2.1). -/
structure StripsBlock.InRange (b : StripsBlock) : Prop where
  spacing : 1000 ≤ b.spacing ∧ b.spacing ≤ 6000
  thOn : 16 ≤ b.thOn ∧ b.thOn ≤ 32767
  thOff : 8 ≤ b.thOff ∧ b.thOff < b.thOn
  ntail : 1 ≤ b.ntail ∧ b.ntail ≤ 64
  lmax : 80 ≤ b.lmax ∧ b.lmax ≤ 16000
  stuckLimit : 10 ≤ b.stuckLimit ∧ b.stuckLimit ≤ 600
  bwin : 100 ≤ b.bwin ∧ b.bwin ≤ 16000
  deadCount : 2 ≤ b.deadCount ∧ b.deadCount ≤ 15

/-- A group limit, when present, lies in its range (section 8.1). -/
def limitInRange (limit : Option Nat) : Prop := ∀ n, limit = some n → 1000 ≤ n ∧ n ≤ 1000000

/-- The ranges of an ASSEMBLY block (sections 6.1, 7.1 and 8.1). -/
structure AssemblyBlock.InRange (b : AssemblyBlock) : Prop where
  dc : 50 ≤ b.dc ∧ b.dc ≤ 1500
  lp : 5 ≤ b.lp ∧ b.lp ≤ 200
  smax : 2000 ≤ b.smax ∧ b.smax ≤ 20000
  tmax : 200 ≤ b.tmax ∧ b.tmax ≤ 5000
  gmax : 500 ≤ b.gmax ∧ b.gmax ≤ 3000
  single : limitInRange b.singleLimit
  tandem : limitInRange b.tandemLimit
  tridem : limitInRange b.tridemLimit
  quad : limitInRange b.quadLimit

/-- The ranges of a PROBES block (section 3.1). -/
structure ProbesBlock.InRange (b : ProbesBlock) : Prop where
  gain : ∀ pr, 1 ≤ (b.probe.get pr).gain
  offset : ∀ pr, -2000 ≤ (b.probe.get pr).offset ∧ (b.probe.get pr).offset ≤ 2000
  interval : 1 ≤ b.interval ∧ b.interval ≤ 60
  reference : -400 ≤ b.reference ∧ b.reference ≤ 800

/-- A factor table: at most 8 points, their keys strictly increasing and in range, their factors in range (R35). -/
structure tableInRange (lo hi : Int) (l : List FactorPoint) : Prop where
  length : l.length ≤ 8
  order : l.Pairwise fun a b => a.key < b.key
  keys : ∀ a ∈ l, lo ≤ a.key ∧ a.key ≤ hi
  factors : ∀ a ∈ l, 16384 ≤ a.factor ∧ a.factor ≤ 65535

/-- The ranges of a FACTORS block (section 2.1). -/
structure FactorsBlock.InRange (b : FactorsBlock) : Prop where
  temperature : tableInRange (-400) 800 b.temperature
  speed : tableInRange 1389 69444 b.speed

/-- The ranges of a class rule (section 8.3). -/
structure ClassRule.InRange (r : ClassRule) : Prop where
  code : 1 ≤ r.code.val
  axles : 1 ≤ r.axleMin ∧ r.axleMin ≤ r.axleMax ∧ r.axleMax ≤ 12
  pattern : ∀ l, r.pattern = some l → (1 ≤ l.length ∧ l.length ≤ 6) ∧ ∀ n ∈ l, 1 ≤ n ∧ n ≤ 12
  gaps : ∀ l, r.gaps = some l → (1 ≤ l.length ∧ l.length ≤ 11) ∧ ∀ g ∈ l, g.1 ≤ g.2 ∧ g.2 ≤ 255
  grossRange : ∀ g, r.grossRange = some g → g.1 ≤ g.2
  grossLimit : ∀ n, r.grossLimit = some n → 1 ≤ n

/-- The class rules of an image: at most 32, each in its ranges (sections 8.1 and 8.3). -/
structure rulesInRange (l : List ClassRule) : Prop where
  length : l.length ≤ 32
  each : ∀ r ∈ l, r.InRange

/-- The ranges of an output's configuration (section 10.1). -/
structure TriggerParams.InRange (t : TriggerParams) : Prop where
  threshold : 1 ≤ t.threshold ∧ t.threshold ≤ 1000000
  distance : t.distance ≤ 60000
  width : 1 ≤ t.width ∧ t.width ≤ 1000

/-- The ranges of a TRIGGERS block (section 10.1). -/
def triggersInRange (b : PerOutput TriggerParams) : Prop := ∀ o, (b.get o).InRange

/-- The ranges of an accepted image. -/
structure Image.InRange (i : Image) : Prop where
  strips : i.strips.InRange
  assembly : i.assembly.InRange
  probes : i.probes.InRange
  factors : i.factors.InRange
  rules : rulesInRange i.rules
  triggers : triggersInRange i.triggers

end Sys2Proof

namespace Sys2Proof.Machine

/-- The ranges of the blocks that a read holds aside (R176, R177). -/
structure Load.InRange (l : Load) : Prop where
  station : ∀ b, l.station = some b → b.InRange
  strips : ∀ b, l.strips = some b → b.InRange
  assembly : ∀ b, l.assembly = some b → b.InRange
  probes : ∀ b, l.probes = some b → b.InRange
  factors : ∀ b, l.factors = some b → b.InRange
  rules : rulesInRange l.rules
  triggers : ∀ b, l.triggers = some b → triggersInRange b

/-! ## The blocks of the part -/

/-- A channel as it stands before the station first leaves LOADING (R2): IDLE, its seed pending, its accumulators empty. -/
structure ChannelRecord.AtRest (c : ChannelRecord) : Prop where
  state : c.state = .idle
  seed : c.seedPending = true
  area : c.area = 0
  peak : c.peak = 0
  length : c.lengthCount = 0
  tail : c.tailCount = 0
  flags : c.flags = noHitFlags

/-- The counts of a hit in progress, and of STUCK, below the parameters that end them (R6 to R9). -/
structure ChannelRecord.Unended (st : StripsBlock) (c : ChannelRecord) : Prop where
  pulse : c.state = .pulse → c.lengthCount < st.lmax
  tail : c.state = .tail → c.lengthCount < st.lmax ∧ c.tailCount < st.ntail
  stuck : c.state = .stuck → c.stuckCount ≤ st.stuckLimit * 8000 ∧ c.quietCount < st.ntail

/-- The ranges of the channel record (section 1.1). -/
structure ChannelRecord.InRange (c : ChannelRecord) : Prop where
  baseline : -2097152 ≤ c.baseline ∧ c.baseline ≤ 2097151
  area : c.area ≤ 4294967295
  peak : c.peak ≤ 65535
  length : c.lengthCount ≤ 16000
  tail : c.tailCount ≤ 64
  stuck : c.stuckCount ≤ 4800001
  quiet : c.quietCount ≤ 64
  drift : c.driftCount ≤ 8000
  miss : c.missCounter ≤ 15

/-- A sound channel under an image in use, or under none. -/
structure ChannelRecord.Sound (img : Option Image) (c : ChannelRecord) : Prop where
  range : c.InRange
  unended : ∀ i, img = some i → c.Unended i.strips
  rest : img = none → c.AtRest

/-- A sound LCU: its channels; and, while an image is in use, the LCU samples in every state the station takes (R2), so the
last sampling instant lies no more than 125 µs back; the sample time of an instant taken has been read at it, and none is read
ahead of the own clock (R1). -/
structure Lcu.Sound (img : Option Image) (clock : Nat) (l : Lcu) : Prop where
  channels : ∀ ch, (l.channels.get ch).Sound img
  sampled : ∀ t, l.lastSample = some t → t ≤ clock ∧ (img.isSome = true → clock ≤ t + 125)
  read : ∀ t, l.lastSample = some t → ∃ x, l.stamp = some x ∧ t ≤ x.instant
  stamped : ∀ x, l.stamp = some x → x.instant ≤ clock

/-- The capacities of section 2.1. -/
structure Pse.Fits (u : Pse) : Prop where
  fifoLeft : u.fifo.left.length ≤ 8
  fifoRight : u.fifo.right.length ≤ 8
  historyLL : u.history.ll.length ≤ 8
  historyLR : u.history.lr.length ≤ 8
  historyTL : u.history.tl.length ≤ 8
  historyTR : u.history.tr.length ≤ 8
  checks : u.checks.length ≤ 16
  store : u.store.length ≤ 32

/-- The place in the transmit list of which R63 allows one frame only; WHEEL frames have none. -/
def TxContent.slot : TxContent → Option (FrameKind × Option Probe)
  | .wheel _ => none
  | .time => some (.time, none)
  | .vehicle _ => some (.vehicle, none)
  | .temp probe _ => some (.temp, some probe)
  | .status => some (.status, none)
  | .totals => some (.totals, none)

/-- Two entries of a transmit list in their order: the more urgent first, never two of one place, never two in
transmission (R63). -/
structure TxEntry.Before (a b : TxEntry) : Prop where
  urgent : a.code ≤ b.code
  slot : a.content.slot = none ∨ a.content.slot ≠ b.content.slot
  single : ¬(a.inTransmission = true ∧ b.inTransmission = true)

/-- A received frame as the content check lets it through, as far as its owner relies on it: the group of a TEMP frame lies
in 1 to 3 (R196). -/
def RxFrame.InRange : RxFrame → Prop
  | .temp _ _ c => 1 ≤ c.group ∧ c.group ≤ 3
  | .wheel _ _ => True
  | .time _ _ => True
  | .command _ _ => True

/-- Chapter 4: the transmit list with its capacity and order (R63); the receive buffer with its capacity (R72) and its
frames; the blind interval list, in which only the newest interval may be open, and none is while the receiver is not
DEAF (R73, R74). -/
structure Sbc.Fits (b : Sbc) : Prop where
  list : b.list.length ≤ 8
  order : b.list.Pairwise TxEntry.Before
  rx : b.rx.length ≤ 4
  frames : ∀ e ∈ b.rx, e.frame.InRange
  blind : b.blind.length ≤ 4
  newest : b.blind.Pairwise fun x _ => x.close.isSome = true
  hearing : b.deaf = false → ∀ x ∈ b.blind, x.close.isSome = true

/-- A temperature of −400 to +800 tenths of °C. -/
def temperatureInRange (t : Int) : Prop := -400 ≤ t ∧ t ≤ 800

/-- The ranges of a probe's state (section 3.1): a GOOD probe is seeded, and its own entry's value is a filtered value
(R48, R49). -/
structure ProbeState.InRange (s : ProbeState) : Prop where
  filtered : s.seeded = true → temperatureInRange s.filtered
  reject : s.reject ≤ 2
  stale : s.stale ≤ 10
  good : s.quality = .good → s.seeded = true
  value : ∀ t, s.own.value = some t → temperatureInRange t
  own : s.own.quality = .good → s.own.value.isSome = true

/-- The ranges of a peer entry of the temperature table (section 3.5, R50). -/
structure PeerTemp.InRange (e : PeerTemp) : Prop where
  station : stationNumber e.station
  group : 1 ≤ e.group ∧ e.group ≤ 3
  good : e.quality = .good → ∃ t, e.value = some t ∧ temperatureInRange t

/-- A sound PTU: the probes and the temperature table of section 3.5, which holds one entry for a station and probe, none of
a peer under the own number, and none of a peer while the PTU has not worked (R42, R50). -/
structure Ptu.Sound (c : Csu) (u : Ptu) : Prop where
  probes : ∀ pr, (u.probes.get pr).InRange
  peers : ∀ e ∈ u.peers, e.InRange
  distinct : u.peers.Pairwise fun a b => a.station ≠ b.station ∨ a.probe ≠ b.probe
  others : ∀ e ∈ u.peers, c.image.isSome = true ∧ ∀ b, c.block = some b → e.station ≠ b.number
  held : ∀ h, u.held = some h → temperatureInRange h.value

/-- The capacity of the step log (R86). -/
def Stu.Fits (u : Stu) : Prop := u.log.length ≤ 8

/-- The capacities of section 6.1 and of the axle list (section 7.1). -/
structure Vau.Fits (v : Vau) : Prop where
  intake : v.intake.length ≤ 32
  waiting : v.waiting.length ≤ 8
  peers : v.peers.length ≤ 32
  distinct : v.peers.Pairwise fun a b => a.sender ≠ b.sender ∨ a.wheel.number ≠ b.wheel.number
  axles : ∀ x, v.vehicle = some x → x.axles.length ≤ 12

/-- The class walk (section 8.1): a record and a group list in WALKING alone, 12 groups and a rule position of 32 at most. -/
structure Walk.Fits (w : Walk) : Prop where
  record : w.record.isSome = true ↔ w.state = .walking
  groups : w.state ≠ .walking → w.groups = []
  length : w.groups.length ≤ 12
  position : w.rulePosition ≤ 32

/-- The completed vehicle list with its capacity (R148) and its records' axle lists (section 7.1), and the class walk. -/
structure Vcl.Fits (v : Vcl) : Prop where
  records : v.records.length ≤ 16
  axles : ∀ r ∈ v.records, r.axles.length ≤ 12
  walk : v.walk.Fits

/-- The capacity of a schedule list (section 10.1). -/
structure Tou.Fits (u : Tou) : Prop where
  trg0 : u.outputs.trg0.schedule.length ≤ 4
  trg1 : u.outputs.trg1.schedule.length ≤ 4
  trg2 : u.outputs.trg2.schedule.length ≤ 4

/-- A read beyond block 0 holds the STATION block aside (R177, R178). -/
def Load.holdsStation (l : Load) : Bool := l.index = 0 || l.station.isSome

/-- The station state agrees with what is loaded (R178, R184, R185, R190): an accepted image in JOIN, RUN and HOLD, a
STATION block alone in UNCONFIGURED, neither in MUTE, and a read in LOADING only. -/
def Csu.legal (c : Csu) : Bool :=
  match c.station with
  | .loading => c.image.isNone && c.load.all Load.holdsStation
  | .mute => c.image.isNone && c.block.isNone && c.load.isNone
  | .unconfigured => c.image.isNone && c.block.isSome && c.load.isNone
  | .join => c.image.isSome && c.block.isSome && c.load.isNone
  | .run => c.image.isSome && c.block.isSome && c.load.isNone
  | .hold => c.image.isSome && c.block.isSome && c.load.isNone
  | .silent => c.block.isSome && c.load.isNone

/-- A sound CSU: a legal station state, and the image and STATION block in use and the blocks held aside in their ranges. -/
structure Csu.Sound (c : Csu) : Prop where
  legal : c.legal
  image : ∀ i, c.image = some i → i.InRange
  block : ∀ b, c.block = some b → b.InRange
  load : ∀ l, c.load = some l → l.InRange

/-- A sound part. -/
structure Part.Sound (p : Part) : Prop where
  lcu : p.lcu.Sound p.csu.image p.clock
  pse : p.pse.Fits
  ptu : p.ptu.Sound p.csu
  sbc : p.sbc.Fits
  stu : p.stu.Fits
  vau : p.vau.Fits
  vcl : p.vcl.Fits
  tou : p.tou.Fits
  csu : p.csu.Sound

/-! ## What the obligations speak of -/

/-- The part is not held in reset. -/
def State.running (s : State) : Prop := s.part.rstLow = false

/-- The nine blocks of the part. -/
inductive Block where
  | lcu | pse | ptu | sbc | stu | vau | vcl | tou | csu
  deriving DecidableEq, Repr

/-- A block is the same in two parts. -/
def Part.sameAt (a b : Part) : Block → Prop
  | .lcu => b.lcu = a.lcu
  | .pse => b.pse = a.pse
  | .ptu => b.ptu = a.ptu
  | .sbc => b.sbc = a.sbc
  | .stu => b.stu = a.stu
  | .vau => b.vau = a.vau
  | .vcl => b.vcl = a.vcl
  | .tou => b.tou = a.tou
  | .csu => b.csu = a.csu

/-- The frame of an operation: from `a` to `b` only the named blocks may have changed; the reset pin and the own clock have
not. -/
def Part.changedOnly (blocks : List Block) (a b : Part) : Prop :=
  b.rstLow = a.rstLow ∧ b.clock = a.clock ∧ ∀ k : Block, k ∉ blocks → a.sameAt b k

/-- The part reads the image: it stands in LOADING with the read at `l` (R176). -/
structure State.reads (s : State) (l : Load) : Prop where
  running : s.running
  station : s.part.csu.station = .loading
  load : s.part.csu.load = some l

/-- The first condition of R177 that a block meets, the two tests of its kind byte included. -/
def blockFault (l : Load) (r : BlockRead) : Option (FaultCode × Option Nat) :=
  if r.kindByte = 0xFF then some (.read, none)
  else
    match blockKindOf r.kindByte with
    | none => some (.range, none)
    | some kind => knownBlockFault l kind r

/-- The row of the table that carries a command of the bus. -/
def CommandKind.instr (args : List Byte) : CommandKind → Instr
  | .hold => .hold args
  | .release => .release args
  | .restart => .restart args
  | .requestStatus => .requestStatus args
  | .requestTotals => .requestTotals args
  | .clearMarks => .clearMarks args
  | .rebaseline => .rebaseline args

/-- The CSU with the result of a judged command (R186). -/
def Csu.judged (c : Csu) (code : Byte) (r : CommandResult) : Csu :=
  { c with lastResult := some { code := code, result := r, count := c.commandCount + 1 }, commandCount := c.commandCount + 1 }

end Sys2Proof.Machine
end

