-- ==== Sys2Proof/Certificates/Slice0/Obligations.lean ====
section
/-! DEFINITION. The statements for the provers, each about the spec's own rules: what a command or the machine does, over all
states and operands. OBLIGATIONS.json gives each its number, tier and rules. -/

section

open Sys2Proof Sys2Proof.Machine

/-! ## Steps and outcomes -/

/-- A step takes the command at the front of the queue and runs it with the queue's rest. -/
def Obligations.StepRunsFrontCommand : Prop :=
  ∀ (c : Instr) (rest : List Instr) (s : State), s.pending = c :: rest → step s = exec c { s with pending := rest }

/-- On an empty queue (the model's choice, log 1): the part's own event that is due, else one microsecond of own clock,
with which site time counts (R78), and which leaves behind it the due point that site time may have stood at (the model's own
field, log 25); nothing while RST_N is low (the model's inference from R179, log 6). -/
def Obligations.StepOnEmptyQueue : Prop :=
  ∀ s : State, s.pending = [] →
    (∀ c, s.part.dueCommand = some c → step s = exec c s) ∧
    (s.part.dueCommand = none → s.running →
      step s = .next { s with part := { s.part with
        clock := s.part.clock + 1, stu := { s.part.stu with siteTime := s.part.stu.siteTime + 1, lastDue := none } } }) ∧
    (s.part.rstLow = true → step s = .next s)

/-- Every command completes in every state, and leaves the queue as it is; while RST_N is low no command but the two of the
reset pin changes anything (the model's inference from R179, log 6). -/
def Obligations.EveryCommandCompletes : Prop :=
  ∀ (c : Instr) (s : State), (∃ p : Part, exec c s = .next { s with part := p }) ∧
    (s.part.rstLow = true → c ≠ .powerOn → c ≠ .resetAssert → exec c s = .next s)

/-- The part after a power-on is sound. -/
def Obligations.ResetStateIsSound : Prop := State.reset.part.Sound

/-- Soundness is an invariant of every step: every list within its capacity, every count, register and parameter within its range;
the transmit list in its order with at most one frame in transmission; at most one blind interval open, the newest, and none
outside DEAF; the temperature table one entry for a station and probe, 26 at most, none of the own number; the class walk's
groups, rule position and rules within their bounds; a sampling instant at most 125 µs ago while an image is in use, its
sample time read, and none read ahead of the own clock; and the station state in agreement with what is loaded. -/
def Obligations.StepKeepsSound : Prop :=
  ∀ s t : State, s.part.Sound → step s = .next t → t.part.Sound ∧ t.part.ptu.peers.length ≤ 26

/-! ## Start-up -/

/-- POWER_ON: the values the manual gives each block at power-on, with the read of the image started. RESET_ASSERT: the same
values in every block, the read abandoned, and no pin but the outputs driven, which rest low. The own temperature entries hold
quality NONE and no value, no interval runs, and no frame is followed or on the line (R18, R41, R57, R77, R87, R110,
R128, R147, R163, R165, R175, R179). The model's own choices among these values, which the manual does not give: the own clock 0 (log 4); start and tail
times, filtered values, the receive times of the own entries and the walk's grant instant 0 (log 9); the line's quiet from 0
(log 16); no grant of the port to pass on (log 20); no due point acted on (log 25); no sampling instant yet, no sample time read, and
input levels 0 (log 41); result codes 0 (log 43). -/
def Obligations.PowerOnAndResetSetEveryValue : Prop :=
  (∀ s : State, ∃ p : Part, exec .powerOn s = .next { s with part := p } ∧ p.rstLow = false ∧
    (p.csu.station = .loading ∧ p.cfgSelected = true ∧ p.csu.image = none ∧ p.csu.loadFault = none ∧
      p.csu.pinActive = false ∧ p.csu.commandHold = false ∧ p.csu.marks = MarkSet.clear ∧ p.csu.lastResult = none ∧
      p.csu.commandCount = 0 ∧ p.csu.periodicSince = none ∧ p.csu.lastMarkRequest = none ∧ p.csu.deferred = false ∧
      p.csu.block = none ∧ p.csu.load = some Load.start ∧ p.clock = 0) ∧
    (p.stu.siteTime = 0 ∧ p.stu.stepTotal = 0 ∧ (∀ i : Fin 14, p.stu.split[i] = 0) ∧ p.stu.splitSteps = 0 ∧ p.stu.log = [] ∧
      p.stu.joinWindow = none ∧ p.stu.lastDue = none) ∧
    (p.lcu.lastSample = none ∧ p.lcu.stamp = none ∧ p.lcu.inputs = { ll := 0, lr := 0, tl := 0, tr := 0 }) ∧
    (∀ ch : Channel, (p.lcu.channels.get ch).state = .idle ∧ (p.lcu.channels.get ch).seedPending = true ∧
      (p.lcu.channels.get ch).baseline = 0 ∧ (p.lcu.channels.get ch).area = 0 ∧ (p.lcu.channels.get ch).peak = 0 ∧
      (p.lcu.channels.get ch).lengthCount = 0 ∧ (p.lcu.channels.get ch).tailCount = 0 ∧
      (p.lcu.channels.get ch).stuckCount = 0 ∧ (p.lcu.channels.get ch).quietCount = 0 ∧
      (p.lcu.channels.get ch).driftCount = 0 ∧ (p.lcu.channels.get ch).missCounter = 0 ∧
      (p.lcu.channels.get ch).flags = noHitFlags ∧ (p.lcu.channels.get ch).mark = none ∧
      (p.lcu.channels.get ch).startTime = 0 ∧ (p.lcu.channels.get ch).tailTime = 0) ∧
    (p.pse.fifo = { left := [], right := [] } ∧ p.pse.history = { ll := [], lr := [], tl := [], tr := [] } ∧
      p.pse.checks = [] ∧ p.pse.store = [] ∧ p.pse.wheelCounter = 0) ∧
    (p.ptu.converter = .idle ∧ p.pexc = false ∧ p.ptu.peers = [] ∧ p.ptu.held = none ∧ p.ptu.codes = { p0 := 0, p1 := 0 } ∧
      p.ptu.intervalStart = none ∧ ∀ pr : Probe, (p.ptu.probes.get pr).seeded = false ∧ (p.ptu.probes.get pr).reject = 0 ∧
        (p.ptu.probes.get pr).stale = 0 ∧ (p.ptu.probes.get pr).quality = .none ∧ (p.ptu.probes.get pr).mark = none ∧
        (p.ptu.probes.get pr).jumps = 0 ∧ (p.ptu.probes.get pr).tempTimer = none ∧ (p.ptu.probes.get pr).filtered = 0 ∧
        (p.ptu.probes.get pr).own = { value := none, quality := .none, receiveTime := 0 }) ∧
    (p.sbc.line = .quiet 0 ∧ p.sbc.list = [] ∧ p.sending = none ∧ p.sbc.rx = [] ∧ p.sbc.blind = [] ∧ p.sbc.deaf = false ∧
      p.sbc.onLine = none ∧ p.sbc.txCapture = none ∧ p.sbc.following = none ∧
      p.sbc.lastMismatch = none ∧ p.sbc.drops = 0 ∧ p.sbc.mismatches = 0 ∧ p.sbc.formatErrors = 0 ∧ p.sbc.deafDiscards = 0) ∧
    (p.vau.intake = [] ∧ p.vau.waiting = [] ∧ p.vau.peers = [] ∧ p.vau.lastPeer = { left := none, right := none } ∧
      p.vau.runStart = none ∧ p.vau.port = Port.free ∧ p.vau.peerOverflows = 0 ∧ p.vau.droppedWheels = 0 ∧
      p.vau.forcedDecisions = 0 ∧ p.vau.vehicle = none ∧ p.vau.tagCounter = 0 ∧ p.vau.headwayRef = none) ∧
    (p.vcl.records = [] ∧ p.vcl.seqCounter = 0 ∧ p.vcl.lostCarry = 0 ∧ p.vcl.cededCarry = 0 ∧ p.vcl.totals = Totals.zero ∧
      p.vcl.walk.state = .idle ∧ p.vcl.walk.record = none ∧ p.vcl.walk.groups = [] ∧ p.vcl.walk.rulePosition = 0 ∧
      p.vcl.walk.grantedAt = 0) ∧
    (∀ o : Output, p.tou.outputs.get o = { level := .low, pulseEnd := none, schedule := [], armed := none } ∧
      p.pinHigh o = false)) ∧
  ∀ s : State, ∃ p : Part, exec .resetAssert s = .next { s with part := p } ∧ p.rstLow = true ∧
    p.lcu = Lcu.powerOn ∧ p.pse = Pse.powerOn ∧ p.ptu = Ptu.powerOn ∧ p.sbc = Sbc.powerOn ∧ p.stu = Stu.powerOn ∧
    p.vau = Vau.powerOn ∧ p.vcl = Vcl.powerOn ∧ p.tou = Tou.powerOn ∧ p.csu = { Csu.powerOn with load := none } ∧
    p.cfgSelected = false ∧ p.attn = false ∧ p.pexc = false ∧ ∀ o : Output, p.pinHigh o = false

/-- The bytes of a block: kind, position and length, the payload and the stored sum, low byte first; the block sum is the sum of all
bytes before it, modulo 65,536 (R176). The conditions of a block in their order, the first met giving the fault: READ; RANGE
without an offset for an unknown kind; SIZE; SUM; ORDER; SEQUENCE; DUPLICATE; RANGE with the offset of the first bad field;
MISSING (R177). -/
def Obligations.FaultConditionsComeInOrder : Prop :=
  (∀ (kind position s0 s1 : Byte) (payload : List Byte), payload.length < 256 →
    let block := kind :: position :: BitVec.ofNat 8 payload.length :: payload
    readBlock (block ++ [s0, s1]) =
      { kindByte := kind.toNat, position := position.toNat, length := payload.length, payload := payload,
        sum := (block.map BitVec.toNat).sum % 65536, stored := s0.toNat + 256 * s1.toNat }) ∧
  ∀ (l : Load) (r : BlockRead),
    let rules := (classRules r.payload).getD []
    (r.kindByte = 255 → blockFault l r = some (.read, none)) ∧
    (r.kindByte ≠ 255 → r.kindByte = 0 ∨ 8 < r.kindByte → blockFault l r = some (.range, none)) ∧
    ∀ kind, (r.kindByte, kind) ∈ [(1, BlockKind.station), (2, .strips), (3, .assembly), (4, .probes), (5, .factors), (6, .classes),
        (7, .triggers), (8, .ending)] →
      let more := kind = .classes ∧ (r.position = 2 ∨ r.position = 3)
      let size := 4096 < l.offset + r.length + 5 ∨ 240 < r.length ∨
        kind ≠ .classes ∧ (kind, r.length) ∉ [(BlockKind.station, 9), (.strips, 30), (.assembly, 26), (.probes, 13), (.factors, 74),
          (.triggers, 39), (.ending, 0)] ∨
        kind = .classes ∧ (classRules r.payload = none ∨ rules = [] ∨ 32 < l.rules.length + rules.length)
      let order := l.index = 0 ∧ kind ≠ .station ∨
        kind = .factors ∧ ¬((temperaturePoints r.payload).Pairwise (fun a b => a.key < b.key) ∧
          (speedPoints r.payload).Pairwise fun a b => a.key < b.key) ∨
        kind = .classes ∧ ∃ x ∈ rules, x.rule.axleMax < x.rule.axleMin ∨
          (∃ gaps, x.rule.gaps = some gaps ∧ ∃ g ∈ gaps, g.2 < g.1) ∨ ∃ g, x.rule.grossRange = some g ∧ g.2 < g.1
      let sequence := 3 < r.position ∨ kind ≠ .classes ∧ r.position ≠ 0 ∨ more ∧ l.classRun ≠ .running ∨
        ¬more ∧ l.classRun = .running
      let duplicate := kind = .station ∧ l.station.isSome = true ∨ kind = .strips ∧ l.strips.isSome = true ∨
        kind = .assembly ∧ l.assembly.isSome = true ∨ kind = .probes ∧ l.probes.isSome = true ∨
        kind = .factors ∧ l.factors.isSome = true ∨ kind = .triggers ∧ l.triggers.isSome = true ∨
        kind = .classes ∧ ¬more ∧ l.classRun ≠ .none
      let bad := firstBad (blockChecks kind r.payload)
      let missing := kind = .ending ∧ (l.strips = none ∨ l.assembly = none)
      (size → blockFault l r = some (.size, none)) ∧
      (¬size → r.stored ≠ r.sum → blockFault l r = some (.sum, none)) ∧
      (¬size → r.stored = r.sum → order → blockFault l r = some (.order, none)) ∧
      (¬size → r.stored = r.sum → ¬order → sequence → blockFault l r = some (.sequence, none)) ∧
      (¬size → r.stored = r.sum → ¬order → ¬sequence → duplicate → blockFault l r = some (.duplicate, none)) ∧
      (¬size → r.stored = r.sum → ¬order → ¬sequence → ¬duplicate →
        (∀ o, bad = some o → blockFault l r = some (.range, some o)) ∧
        (bad = none → missing → blockFault l r = some (.missing, none)) ∧
        (bad = none → ¬missing → blockFault l r = none))

/-- CONFIG_BLOCK_READ of a block that passes and is not END: its values, read from the payload bytes of section 12.5, are held
aside, the read goes on at the byte behind the stored sum with the next index, and nothing is applied (R176, R197). A count of a
class rule outside its range spans that many entries all the same (the model's choice, log 35). -/
def Obligations.PassedBlockIsHeldAside : Prop :=
  (∀ (s : State) (l : Load) (bytes : List Byte) (kind : BlockKind), s.reads l →
    blockKindOf (readBlock bytes).kindByte = some kind → kind ≠ .ending → blockFault l (readBlock bytes) = none →
    let held := holdAside l kind (readBlock bytes)
    exec (.configBlockRead bytes) s = .next { s with part := { s.part with csu := { s.part.csu with load := some held } } } ∧
    held.offset = l.offset + 3 + (readBlock bytes).length + 2 ∧ held.index = l.index + 1 ∧
    (kind = .classes → ∃ rules, classRules (readBlock bytes).payload = some rules ∧
      held.rules = l.rules ++ rules.map ParsedRule.rule)) ∧
  (∀ (l : Load) (r : BlockRead) (kind : BlockKind),
    let held := holdAside l kind r
    let u (o : Nat) : Nat := (r.payload.getD o 0).toNat
    let u2 (o : Nat) : Nat := u o + 256 * u (o + 1)
    let u3 (o : Nat) : Nat := u2 o + 65536 * u (o + 2)
    let u4 (o : Nat) : Nat := u2 o + 65536 * u2 (o + 2)
    let s2 (o : Nat) : Int := if u2 o < 32768 then u2 o else u2 o - 65536
    let probe (o : Nat) : ProbeParams := { enable := decide (u o = 1), gain := u2 (o + 1), offset := s2 (o + 3) }
    let limit (bit o : Nat) : Option Nat := if (u 9).testBit bit then some (u4 o) else none
    let output (o : Nat) : TriggerParams :=
      { enable := (u o).testBit 0, polarityLow := (u o).testBit 1,
        source := if u o / 4 % 4 = 0 then .front else if u o / 4 % 4 = 1 then .heavy else .classed,
        threshold := u4 (o + 1), classSet := BitVec.ofNat 32 (u4 (o + 5)), distance := u2 (o + 9), width := u2 (o + 11) }
    held.station = (if kind = .station then some
      { number := u 0, leftNeighbour := if (u 1).testBit 0 then some (u 2) else none
        rightNeighbour := if (u 1).testBit 1 then some (u 3) else none, group := u 4
        bitRate := if u 5 = 0 then .k125 else if u 5 = 1 then .k250 else .k500, lineDelay := u 6, keepMarks := (u 7).testBit 0
        attentionMask :=
          { state := (u 8).testBit 0, channels := (u 8).testBit 1, probes := (u 8).testBit 2, time := (u 8).testBit 3
            bus := (u 8).testBit 4 } } else l.station) ∧
    held.strips = (if kind = .strips then some
      { spacing := u2 0, thOn := u2 2, thOff := u2 4, ntail := u 6, lmax := u2 7, stuckLimit := u2 9, bwin := u2 11
        deadCount := u 13, cal := { ll := u4 14, lr := u4 18, tl := u4 22, tr := u4 26 } } else l.strips) ∧
    held.assembly = (if kind = .assembly then some
      { dc := u2 0, lp := u 2, smax := u2 3, tmax := u2 5, gmax := u2 7, singleLimit := limit 0 10, tandemLimit := limit 1 14
        tridemLimit := limit 2 18, quadLimit := limit 3 22 } else l.assembly) ∧
    held.probes = (if kind = .probes then some { probe := { p0 := probe 0, p1 := probe 5 }, interval := u 10, reference := s2 11 }
      else l.probes) ∧
    (u 0 ≤ 8 → u 1 ≤ 8 → held.factors = if kind = .factors then some
      { temperature := (List.range (u 0)).map fun i => { key := s2 (2 + 4 * i), factor := u2 (4 + 4 * i) }
        speed := (List.range (u 1)).map fun i => { key := u3 (34 + 5 * i), factor := u2 (37 + 5 * i) } } else l.factors) ∧
    (kind ≠ .factors → held.factors = l.factors) ∧
    held.triggers = (if kind = .triggers then some { trg0 := output 0, trg1 := output 13, trg2 := output 26 } else l.triggers) ∧
    (kind ≠ .classes → held.rules = l.rules)) ∧
  ∀ (code lo hi options : Byte) (pattern : List Byte) (gaps : List (Byte × Byte)) (range limit rest : List Byte),
    let has (bit : Nat) : Bool := options.toNat.testBit bit
    let pairs := (gaps.map fun g => [g.1, g.2]).flatten
    let u4 (b : List Byte) (o : Nat) : Nat := (b.getD o 0).toNat + 256 * (b.getD (o + 1) 0).toNat +
      65536 * (b.getD (o + 2) 0).toNat + 16777216 * (b.getD (o + 3) 0).toNat
    let bytes := [code, lo, hi, options] ++ (if has 1 then BitVec.ofNat 8 pattern.length :: pattern else []) ++
      (if has 2 then BitVec.ofNat 8 gaps.length :: pairs else []) ++ (if has 3 then range else []) ++ (if has 4 then limit else [])
    let rule : ClassRule :=
      { code := Fin.ofNat 32 code.toNat, axleMin := lo.toNat, axleMax := hi.toNat, singleWheelOnly := has 0
        pattern := if has 1 then some (pattern.map BitVec.toNat) else none
        gaps := if has 2 then some (gaps.map fun g => (g.1.toNat, g.2.toNat)) else none
        grossRange := if has 3 then some (u4 range 0, u4 range 4) else none
        grossLimit := if has 4 then some (u4 limit 0) else none }
    pattern.length < 256 → gaps.length < 256 → range.length = 8 → limit.length = 4 →
    (classRules (bytes ++ rest)).map (fun l => l.map ParsedRule.rule) =
      (classRules rest).map (fun l => rule :: l.map ParsedRule.rule) ∧
    ∀ n, 0 < n → n < bytes.length → classRules (bytes.take n) = none

/-- CONFIG_BLOCK_READ of an END block that passes: the image is accepted, all its blocks are applied at once, and the station enters
JOIN. STRIPS and ASSEMBLY are as read, and so are PROBES, FACTORS and TRIGGERS if the image has them, otherwise their parameter
tables' defaults; the SBC begins its work, the line's quiet counting from now at the earliest, and the channels are sampled at once (the phase of the
instants is the model's choice, log 41) (R1, R59, R178, R180; the defaults of sections 2.1, 3.1 and 10.1). -/
def Obligations.EndBlockAcceptsTheImage : Prop :=
  ∀ (s : State) (l : Load) (bytes : List Byte), s.reads l →
    blockKindOf (readBlock bytes).kindByte = some .ending → blockFault l (readBlock bytes) = none →
    ∃ p : Part, exec (.configBlockRead bytes) s = .next { s with part := p } ∧ p.csu.station = .join ∧
      p.csu.block = l.station ∧ p.csu.image = some (imageOf l) ∧ p.csu.loadFault = none ∧ p.cfgSelected = false ∧
      p.csu.marks.state = true ∧ p.csu.periodicSince = some s.part.clock ∧ p.stu.joinWindow = some s.part.clock ∧
      p.ptu.intervalStart = some s.part.clock ∧
      p.ptu.converter = serveNext (imageOf l).probes.probe s.part.clock [.p0, .p1] ∧
      (∀ pr : Probe, (p.ptu.probes.get pr).tempTimer =
        if ((imageOf l).probes.probe.get pr).enable then some s.part.clock else none) ∧
      (∀ o : Output, p.tou.outputs.get o = { level := .inactive, pulseEnd := none, schedule := [], armed := none }) ∧
      (let probe : ProbeParams := { enable := false, gain := 1200, offset := -400 }
       let output : TriggerParams := { enable := false, source := .front, threshold := 40000, classSet := 0,
                                       polarityLow := false, distance := 0, width := 50 }
       l.strips = some (imageOf l).strips ∧ l.assembly = some (imageOf l).assembly ∧ (imageOf l).rules = l.rules ∧
       (imageOf l).probes = l.probes.getD { probe := { p0 := probe, p1 := probe }, interval := 5, reference := 200 } ∧
       (imageOf l).factors = l.factors.getD { temperature := [], speed := [] } ∧
       (imageOf l).triggers = l.triggers.getD { trg0 := output, trg1 := output, trg2 := output }) ∧
      p.sbc.line = .quiet s.part.clock ∧ p.lcu = { s.part.lcu with lastSample := none, stamp := none } ∧ p.sampleDue = true ∧
      s.part.changedOnly [.csu, .lcu, .ptu, .sbc, .stu, .tou, .vcl] p

/-- CONFIG_BLOCK_READ of a block with a fault: the image is refused, MUTE with nothing applied when it is block 0, otherwise
UNCONFIGURED with the STATION block alone, the SBC's work begun and the line's quiet counting from now; the load fault reason is the block's
index, the code and the offset. That nothing is applied at block 0, not the STATION block in use before a RESTART either, is
the model's inference (log 18) (R59, R177, R178). -/
def Obligations.FaultyBlockRefusesTheImage : Prop :=
  ∀ (s : State) (l : Load) (bytes : List Byte) (code : FaultCode) (offset : Option Nat), s.reads l →
    blockFault l (readBlock bytes) = some (code, offset) →
    ∃ p : Part, exec (.configBlockRead bytes) s = .next { s with part := p } ∧
      p.csu.station = (if l.index = 0 then .mute else .unconfigured) ∧
      p.csu.block = (if l.index = 0 then none else l.station) ∧ p.csu.image = s.part.csu.image ∧
      p.csu.loadFault = some { index := l.index, code := code, offset := offset } ∧ p.cfgSelected = false ∧
      p.csu.marks.state = true ∧ (l.index = 0 → p.attn = true) ∧ p.csu.pinActive = s.part.csu.pinActive ∧
      p.csu.commandHold = s.part.csu.commandHold ∧ p.csu.lastResult = s.part.csu.lastResult ∧
      p.sbc.line = (if l.index = 0 then s.part.sbc.line else .quiet s.part.clock) ∧ s.part.changedOnly [.csu, .sbc] p

/-- Where a payload has its first field out of range, and when it has none. The fields of each kind stand in payload order, each
at its own offset with its own condition: the range its chapter gives; Th_off below Th_on, at Th_off; a neighbour that counts
another station than the own, at the neighbour, and the two different, at the right one; no unassigned bit set. The points of a
factor table that count are tested, none of a count above 8. A class rule's fields are its code, its axle counts, its options, its
pattern's count and sizes, its gap count and its limit, and a payload's rules are tested one behind the other (R136, R177, R194,
R197). That the fields of a disabled output or probe are tested like any other is the model's inference (log 14). -/
def Obligations.BlockRanges : Prop :=
  (∀ (fields : List FieldCheck) (o : Nat), firstBad fields = some o ↔
    ∃ before after, fields = before ++ (o, false) :: after ∧ ∀ f ∈ before, f.2 = true) ∧
  (∀ fields : List FieldCheck, firstBad fields = none ↔ ∀ f ∈ fields, f.2 = true) ∧
  (∀ b : List Byte,
    let u (o : Nat) : Nat := (b.getD o 0).toNat
    let u2 (o : Nat) : Nat := u o + 256 * u (o + 1)
    let u3 (o : Nat) : Nat := u2 o + 65536 * u (o + 2)
    let u4 (o : Nat) : Nat := u2 o + 65536 * u2 (o + 2)
    let s2 (o : Nat) : Int := if u2 o < 32768 then u2 o else u2 o - 65536
    let bit (o n : Nat) : Prop := u o / 2 ^ n % 2 = 1
    let tests (kind : BlockKind) (fields : List (Nat × Prop)) : Prop :=
      List.Forall₂ (fun c f => c.1 = f.1 ∧ (c.2 = true ↔ f.2)) (blockChecks kind b) fields
    let limit (n o : Nat) : Nat × Prop := (o, bit 9 n → 1000 ≤ u4 o ∧ u4 o ≤ 1000000)
    let probe (o : Nat) : List (Nat × Prop) := [(o, u o ≤ 1), (o + 1, 1 ≤ u2 (o + 1)), (o + 3, -2000 ≤ s2 (o + 3) ∧ s2 (o + 3) ≤ 2000)]
    let output (o : Nat) : List (Nat × Prop) :=
      [(o, u o ≤ 15 ∧ u o / 4 ≠ 3), (o + 1, 1 ≤ u4 (o + 1) ∧ u4 (o + 1) ≤ 1000000), (o + 9, u2 (o + 9) ≤ 60000),
        (o + 11, 1 ≤ u2 (o + 11) ∧ u2 (o + 11) ≤ 1000)]
    let factor (o : Nat) : Nat × Prop := (o, 16384 ≤ u2 o ∧ u2 o ≤ 65535)
    tests .station
      [(0, 1 ≤ u 0 ∧ u 0 ≤ 14), (1, u 1 ≤ 3), (2, bit 1 0 → 1 ≤ u 2 ∧ u 2 ≤ 14 ∧ u 2 ≠ u 0),
        (3, bit 1 1 → 1 ≤ u 3 ∧ u 3 ≤ 14 ∧ u 3 ≠ u 0 ∧ (bit 1 0 → u 3 ≠ u 2)), (4, 1 ≤ u 4 ∧ u 4 ≤ 3), (5, u 5 ≤ 2), (6, u 6 ≤ 50),
        (7, u 7 ≤ 1), (8, u 8 ≤ 31)] ∧
    tests .strips
      [(0, 1000 ≤ u2 0 ∧ u2 0 ≤ 6000), (2, 16 ≤ u2 2 ∧ u2 2 ≤ 32767), (4, 8 ≤ u2 4 ∧ u2 4 < u2 2), (6, 1 ≤ u 6 ∧ u 6 ≤ 64),
        (7, 80 ≤ u2 7 ∧ u2 7 ≤ 16000), (9, 10 ≤ u2 9 ∧ u2 9 ≤ 600), (11, 100 ≤ u2 11 ∧ u2 11 ≤ 16000), (13, 2 ≤ u 13 ∧ u 13 ≤ 15)] ∧
    tests .assembly
      [(0, 50 ≤ u2 0 ∧ u2 0 ≤ 1500), (2, 5 ≤ u 2 ∧ u 2 ≤ 200), (3, 2000 ≤ u2 3 ∧ u2 3 ≤ 20000), (5, 200 ≤ u2 5 ∧ u2 5 ≤ 5000),
        (7, 500 ≤ u2 7 ∧ u2 7 ≤ 3000), (9, u 9 ≤ 15), limit 0 10, limit 1 14, limit 2 18, limit 3 22] ∧
    tests .probes (probe 0 ++ probe 5 ++ [(10, 1 ≤ u 10 ∧ u 10 ≤ 60), (11, -400 ≤ s2 11 ∧ s2 11 ≤ 800)]) ∧
    (u 0 ≤ 8 → u 1 ≤ 8 → tests .factors ([(0, True), (1, True)] ++
      (List.range (u 0)).flatMap (fun i => [(2 + 4 * i, -400 ≤ s2 (2 + 4 * i) ∧ s2 (2 + 4 * i) ≤ 800), factor (4 + 4 * i)]) ++
      (List.range (u 1)).flatMap fun i => [(34 + 5 * i, 1389 ≤ u3 (34 + 5 * i) ∧ u3 (34 + 5 * i) ≤ 69444), factor (37 + 5 * i)])) ∧
    (8 < u 0 → firstBad (blockChecks .factors b) = some 0) ∧
    (u 0 ≤ 8 → 8 < u 1 → firstBad (blockChecks .factors b) = some 1) ∧
    tests .triggers (output 0 ++ output 13 ++ output 26) ∧
    blockChecks .ending b = []) ∧
  ∀ (code lo hi options : Byte) (pattern : List Byte) (gaps : List (Byte × Byte)) (range limit rest : List Byte),
    let has (bit : Nat) : Bool := options.toNat.testBit bit
    let pairs := (gaps.map fun g => [g.1, g.2]).flatten
    let bytes := [code, lo, hi, options] ++ (if has 1 then BitVec.ofNat 8 pattern.length :: pattern else []) ++
      (if has 2 then BitVec.ofNat 8 gaps.length :: pairs else []) ++ (if has 3 then range else []) ++ (if has 4 then limit else [])
    let gapsAt : Nat := if has 1 then 5 + pattern.length else 4
    let fields : List (Nat × Prop) :=
      [(0, 1 ≤ code.toNat ∧ code.toNat ≤ 31), (1, 1 ≤ lo.toNat ∧ lo.toNat ≤ 12), (2, 1 ≤ hi.toNat ∧ hi.toNat ≤ 12),
        (3, options.toNat ≤ 31)] ++
      (if has 1 then (4, 1 ≤ pattern.length ∧ pattern.length ≤ 6) ::
        pattern.zipIdx.map (fun x => (5 + x.2, 1 ≤ x.1.toNat ∧ x.1.toNat ≤ 12)) else []) ++
      (if has 2 then [(gapsAt, 1 ≤ gaps.length ∧ gaps.length ≤ 11)] else []) ++
      (if has 4 then [(bytes.length - 4, ∃ n ∈ limit, n ≠ 0)] else [])
    pattern.length < 256 → gaps.length < 256 → range.length = 8 → limit.length = 4 →
    List.Forall₂ (fun c f => c.1 = f.1 ∧ (c.2 = true ↔ f.2)) (blockChecks .classes bytes) fields ∧
    ((classRules rest).isSome = true → blockChecks .classes (bytes ++ rest) =
      blockChecks .classes bytes ++ (blockChecks .classes rest).map fun c => (bytes.length + c.1, c.2))

/-! ## Hold sources, commands and station states -/

/-- HOLD_N_LEVEL_TAKEN: a level already taken changes nothing; a new one is the pin source's value and sets STATE. HOLD and
RELEASE that are taken set and clear the command hold mark and are recorded TAKEN; STATE is set when the mark changed its value,
and a command that finds the mark as it wants it changes no source. In RUN and HOLD the two hold sources decide the station
state, in the other states neither acts on it (R182, R183, R186, R188). -/
def Obligations.HoldSourcesMoveTheStation : Prop :=
  (∀ (s : State) (level : PinLevel), s.running →
     (s.part.csu.pinActive = decide (level = .low) → exec (.holdNLevelTaken level) s = .next s) ∧
     (s.part.csu.pinActive ≠ decide (level = .low) →
       ∃ p : Part, exec (.holdNLevelTaken level) s = .next { s with part := p } ∧
         p.csu.pinActive = decide (level = .low) ∧ p.csu.commandHold = s.part.csu.commandHold ∧ p.csu.marks.state = true ∧
         p.csu.station =
           (if s.part.csu.station = .run ∧ (level = .low ∨ s.part.csu.commandHold = true) then .hold
            else if s.part.csu.station = .hold ∧ level = .high ∧ s.part.csu.commandHold = false then .run
            else s.part.csu.station) ∧
         p.csu.image = s.part.csu.image ∧ p.csu.block = s.part.csu.block ∧ p.csu.lastResult = s.part.csu.lastResult ∧
         s.part.changedOnly [.csu, .pse, .sbc, .vau, .vcl, .tou] p ∧
         (s.part.csu.station ≠ .run → s.part.changedOnly [.csu, .sbc, .vcl] p))) ∧
  ∀ (s : State) (k : CommandKind), s.running → (k = .hold ∨ k = .release) → s.part.takesCommand k = true →
    (s.part.csu.commandHold = decide (k = .hold) →
      exec (k.instr []) s = .next { s with part := { s.part with csu := s.part.csu.judged k.code .taken } }) ∧
    (s.part.csu.commandHold ≠ decide (k = .hold) →
      ∃ p : Part, exec (k.instr []) s = .next { s with part := p } ∧
        p.csu.commandHold = decide (k = .hold) ∧ p.csu.pinActive = s.part.csu.pinActive ∧ p.csu.marks.state = true ∧
        p.csu.lastResult = some { code := k.code, result := .taken, count := s.part.csu.commandCount + 1 } ∧
        p.csu.commandCount = s.part.csu.commandCount + 1 ∧
        p.csu.station =
          (if s.part.csu.station = .run ∧ (k = .hold ∨ s.part.csu.pinActive = true) then .hold
           else if s.part.csu.station = .hold ∧ k = .release ∧ s.part.csu.pinActive = false then .run
           else s.part.csu.station) ∧
        p.csu.image = s.part.csu.image ∧ p.csu.block = s.part.csu.block ∧
        s.part.changedOnly [.csu, .pse, .sbc, .vau, .vcl, .tou] p ∧
        (s.part.csu.station ≠ .run → s.part.changedOnly [.csu, .sbc, .vcl] p))

/-- The entry into HOLD, by the pin or by a HOLD command: the PSE's FIFOs, checks and histories are emptied and its counter kept;
intake and pending wheels are emptied, the peer wheels kept; the open vehicle's close mark is set, timer when its close time
has been reached without the event having run (the model's inference, log 28), and the port requested, while with no open
vehicle the port stays as it is (the model's choice, log 42); waiting WHEEL frames are removed, one in transmission is marked to
leave should it lose or abort (the model's own field, log 36), and the frames of other kinds stay in their order, where a VEHICLE
offer and a STATUS request that the list lacks still have room in it; pulses end and schedules empty; the channels, temperatures
and site time are untouched (R20, R21, R68, R109, R120, R174, R183). -/
def Obligations.EnteringHoldActsOnTheBlocks : Prop :=
  ∀ (s : State) (i : Instr), s.running → s.part.csu.station = .run →
    (i = .holdNLevelTaken .low ∧ s.part.csu.pinActive = false ∨ i = .hold [] ∧ s.part.csu.commandHold = false) →
    ∃ p : Part, exec i s = .next { s with part := p } ∧ p.csu.station = .hold ∧
      p.pse.fifo = { left := [], right := [] } ∧ p.pse.history = { ll := [], lr := [], tl := [], tr := [] } ∧
      p.pse.checks = [] ∧ p.pse.wheelCounter = s.part.pse.wheelCounter ∧
      p.pse.store.map StoreRecord.wheel = s.part.pse.store.map StoreRecord.wheel ∧
      (∀ r ∈ p.pse.store, r.isOpen = true → ∀ n, (n ∈ s.part.vau.intake.map fun w => w.wheel.number) ∨
        (n ∈ s.part.vau.waiting.map fun w => w.wheel.number) → r.wheel.number ≠ n) ∧
      p.vau.intake = [] ∧ p.vau.waiting = [] ∧ p.vau.peers = s.part.vau.peers ∧ p.vau.lastPeer = s.part.vau.lastPeer ∧
      p.vau.runStart = s.part.vau.runStart ∧
      (s.part.vau.vehicle = none → p.vau.vehicle = none ∧ p.vau.port = s.part.vau.port) ∧
      (∀ v, s.part.vau.vehicle = some v →
        p.vau.vehicle = some { v with
          closeMark := some (v.closeMark.getD (if closeReached s.part.now v then .timer else .hold)) } ∧
        p.vau.port.standing .axleFormer = true) ∧
      (∀ e ∈ p.sbc.list, e.content.kind = .wheel → e.inTransmission = true ∧ e.leaving = true) ∧
      (let kept := s.part.sbc.list.filter fun e => e.inTransmission || decide (e.content.kind ≠ .wheel)
       let lacks (k : FrameKind) : Nat := if kept.any fun e => decide (e.content.kind = k) then 0 else 1
       kept.length + lacks .vehicle + lacks .status ≤ 8 →
         (s.part.sbc.list.filter fun e => decide (e.content.kind ≠ .wheel ∧ e.content.kind ≠ .status)).Sublist p.sbc.list ∧
         ∀ e ∈ s.part.sbc.list, e.content = .status → ∃ x ∈ p.sbc.list, x.content = .status ∧ x.queueTime = e.queueTime ∧
           x.inTransmission = e.inTransmission) ∧
      (∀ o : Output, p.tou.outputs.get o = { level := .inactive, pulseEnd := none, schedule := [], armed := none }) ∧
      s.part.changedOnly [.csu, .pse, .sbc, .vau, .vcl, .tou] p

/-- A RESTART that is taken with an accepted image is a warm restart: every block takes the warm-restart values of its own
chapter; a new measurement interval begins; the other change marks stay, a deferred STATUS request is dropped, the spacing holds no last request, and STATE, when newly
set, makes a STATUS request at once, the only frame of the list (R19, R41, R58, R68, R77, R88, R111, R129, R146, R162, R175, R189,
R191). That the blind intervals go with the rest of the receive side, as R77 says, is the model's inference where R88 lets them age
on (log 44). The model's own choices: the sampling instants go on
in their phase (log 41); the SBC, at work already, goes on with the line as it knows it, its quiet counting from now where a frame is
cut or no longer followed (log 16); the rule position of the walk and the instant of its grant stay (log 27); the result codes stay (log 43). -/
def Obligations.RestartIsAWarmRestart : Prop :=
  ∀ s : State, s.running → s.part.takesCommand .restart = true → s.part.csu.image.isSome = true →
    ∃ p : Part, exec (.restart []) s = .next { s with part := p } ∧
      (p.csu.station = .join ∧ p.csu.marks.state = true ∧ p.csu.image = s.part.csu.image ∧ p.csu.block = s.part.csu.block ∧
        p.csu.loadFault = s.part.csu.loadFault ∧ p.csu.pinActive = s.part.csu.pinActive ∧
        p.csu.commandHold = s.part.csu.commandHold ∧ p.csu.periodicSince = some s.part.clock ∧
        p.csu.marks = { s.part.csu.marks with state := true } ∧ p.csu.deferred = false ∧
        p.csu.lastMarkRequest = (if s.part.csu.marks.state then none else some s.part.clock) ∧
        p.csu.lastResult = some { code := 3, result := .taken, count := s.part.csu.commandCount + 1 }) ∧
      (∀ ch : Channel, p.lcu.channels.get ch =
        if s.part.block.keepMarks then (s.part.lcu.channels.get ch).toIdle else (s.part.lcu.channels.get ch).toIdle.clearMark) ∧
      (p.pse.fifo = { left := [], right := [] } ∧ p.pse.history = { ll := [], lr := [], tl := [], tr := [] } ∧
        p.pse.checks = [] ∧ p.pse.store = [] ∧ p.pse.wheelCounter = s.part.pse.wheelCounter) ∧
      (p.ptu.peers = s.part.ptu.peers ∧ p.ptu.held = s.part.ptu.held ∧ p.ptu.codes = s.part.ptu.codes ∧
        p.ptu.intervalStart = some s.part.clock ∧ p.ptu.converter = serveNext s.part.image.probes.probe s.part.clock [.p0, .p1] ∧
        ∀ pr : Probe, p.ptu.probes.get pr = { s.part.ptu.probes.get pr with
          tempTimer := if (s.part.probeParams pr).enable then some s.part.clock else none }) ∧
      (p.sbc.rx = [] ∧ p.sbc.blind = [] ∧ p.sbc.deaf = false ∧ p.sbc.following = none ∧ p.sending = none ∧
        (∀ e ∈ p.sbc.list, e.content = .status ∧ e.queueTime = s.part.now) ∧
        p.sbc.list.length = (if s.part.csu.marks.state then 0 else 1) ∧ p.sbc.drops = s.part.sbc.drops ∧
        p.sbc.mismatches = s.part.sbc.mismatches ∧ p.sbc.formatErrors = s.part.sbc.formatErrors ∧
        p.sbc.deafDiscards = s.part.sbc.deafDiscards ∧ p.sbc.lastMismatch = s.part.sbc.lastMismatch ∧
        p.sbc.line = (if s.part.sending.isSome || s.part.sbc.following.isSome then .quiet s.part.clock else s.part.sbc.line)) ∧
      (p.lcu.lastSample = s.part.lcu.lastSample ∧ p.lcu.stamp = s.part.lcu.stamp ∧ p.lcu.inputs = s.part.lcu.inputs) ∧
      (p.stu.siteTime = s.part.stu.siteTime ∧ p.stu.stepTotal = s.part.stu.stepTotal ∧ p.stu.log = [] ∧
        (∀ i : Fin 14, p.stu.split[i] = 0) ∧ p.stu.splitSteps = s.part.stu.splitSteps ∧
        p.stu.joinWindow = some s.part.clock) ∧
      (p.vau.intake = [] ∧ p.vau.waiting = [] ∧ p.vau.peers = [] ∧ p.vau.lastPeer = { left := none, right := none } ∧
        p.vau.runStart = none ∧ p.vau.port = Port.free ∧ p.vau.vehicle = none ∧ p.vau.headwayRef = none ∧
        p.vau.tagCounter = s.part.vau.tagCounter ∧ p.vau.peerOverflows = s.part.vau.peerOverflows ∧
        p.vau.droppedWheels = s.part.vau.droppedWheels ∧ p.vau.forcedDecisions = s.part.vau.forcedDecisions) ∧
      (p.vcl.records = [] ∧ p.vcl.seqCounter = s.part.vcl.seqCounter ∧ p.vcl.walk.state = .idle ∧
        p.vcl.walk.record = none ∧ p.vcl.walk.groups = [] ∧ p.vcl.walk.rulePosition = s.part.vcl.walk.rulePosition ∧
        p.vcl.walk.grantedAt = s.part.vcl.walk.grantedAt ∧
        p.vcl.lostCarry = s.part.vcl.records.foldl (fun n r => n + 1 + r.lostCount) s.part.vcl.lostCarry ∧
        p.vcl.cededCarry = s.part.vcl.records.foldl (fun n r => satAdd n r.cededCount.toNat) s.part.vcl.cededCarry ∧
        p.vcl.totals = { s.part.vcl.totals with lost := s.part.vcl.records.foldl (fun n _ => satInc n) s.part.vcl.totals.lost }) ∧
      (∀ o : Output, p.tou.outputs.get o = { level := .inactive, pulseEnd := none, schedule := [], armed := none })

/-- A RESTART that is taken without an accepted image starts a new load: LOADING, the read from byte 0, the transmit list and
the receive side emptied; site time, the SBC's counters, the hold sources, the load fault reason and the blocks outside go on
(R77, R188). What is held of the line through LOADING, where nothing reads it, is the model's choice (log 16). -/
def Obligations.RestartReadsTheImageAgain : Prop :=
  ∀ s : State, s.running → s.part.takesCommand .restart = true → s.part.csu.image = none →
    ∃ p : Part, exec (.restart []) s = .next { s with part := p } ∧ p.csu.station = .loading ∧ p.csu.load = some Load.start ∧
      p.csu.marks.state = true ∧ p.csu.loadFault = s.part.csu.loadFault ∧ p.csu.pinActive = s.part.csu.pinActive ∧
      p.csu.commandHold = s.part.csu.commandHold ∧
      p.csu.lastResult = some { code := 3, result := .taken, count := s.part.csu.commandCount + 1 } ∧
      p.sbc.line = (if s.part.sending.isSome || s.part.sbc.following.isSome then .quiet s.part.clock else s.part.sbc.line) ∧
      p.sbc.list = [] ∧ p.sbc.rx = [] ∧ p.sbc.blind = [] ∧ p.sbc.deaf = false ∧ p.sbc.following = none ∧
      p.sbc.drops = s.part.sbc.drops ∧ p.sbc.mismatches = s.part.sbc.mismatches ∧
      p.sbc.formatErrors = s.part.sbc.formatErrors ∧ p.sbc.deafDiscards = s.part.sbc.deafDiscards ∧
      p.sbc.lastMismatch = s.part.sbc.lastMismatch ∧ s.part.changedOnly [.csu, .sbc, .vcl] p

/-- CLEAR_MARKS that is taken: the change marks its first mask names become clear; each channel its second mask names loses
its fault mark and its miss and drift counts; each probe it names loses its fault mark; nothing else changes but the
result. REBASELINE that is taken: each selected channel enters IDLE with its seed pending, an abandoned pulse leaving empty
accumulators and a STUCK channel empty counts; mark, miss and drift counts stay, and so do the other channels (R13, R17, R56,
R186, R188). -/
def Obligations.ClearMarksAndRebaselineActOnTheirMasks : Prop :=
  (∀ (s : State) (marks faults : Byte), s.running → s.part.takesCommand .clearMarks = true →
     marks.toNat < 32 → faults.toNat < 64 → (marks ≠ 0 ∨ faults ≠ 0) →
     ∃ p : Part, exec (.clearMarks [marks, faults]) s = .next { s with part := p } ∧
       p.csu = { s.part.csu.judged 6 .taken with marks := removeMarks s.part.csu.marks (markSetOf marks.toNat) } ∧
       (∀ (ch : Channel) (bit : Nat), (ch, bit) ∈ [(Channel.ll, 0), (.lr, 1), (.tl, 2), (.tr, 3)] →
         p.lcu.channels.get ch = if faults.getLsbD bit then
           { s.part.lcu.channels.get ch with mark := none, missCounter := 0, driftCount := 0 } else s.part.lcu.channels.get ch) ∧
       (∀ (pr : Probe) (bit : Nat), (pr, bit) ∈ [(Probe.p0, 4), (.p1, 5)] →
         p.ptu.probes.get pr = if faults.getLsbD bit then { s.part.ptu.probes.get pr with mark := none }
           else s.part.ptu.probes.get pr) ∧
       p.ptu = { s.part.ptu with probes := p.ptu.probes } ∧ s.part.changedOnly [.csu, .lcu, .ptu] p) ∧
  ∀ (s : State) (mask : Byte), s.running → s.part.takesCommand .rebaseline = true → mask.toNat < 16 → mask ≠ 0 →
    ∃ p : Part, exec (.rebaseline [mask]) s = .next { s with part := p } ∧
      p.csu = s.part.csu.judged 7 .taken ∧
      (∀ (ch : Channel) (bit : Nat), (ch, bit) ∈ [(Channel.ll, 0), (.lr, 1), (.tl, 2), (.tr, 3)] →
        (mask.getLsbD bit = false → p.lcu.channels.get ch = s.part.lcu.channels.get ch) ∧
        (mask.getLsbD bit = true →
          p.lcu.channels.get ch =
            match (s.part.lcu.channels.get ch).state with
            | .idle => { s.part.lcu.channels.get ch with seedPending := true }
            | .pulse | .tail => { s.part.lcu.channels.get ch with
                state := .idle, area := 0, peak := 0, lengthCount := 0, tailCount := 0, flags := noHitFlags, seedPending := true }
            | .stuck => { s.part.lcu.channels.get ch with
                state := .idle, stuckCount := 0, quietCount := 0, seedPending := true })) ∧
      s.part.changedOnly [.csu, .lcu] p

/-- Which station states take which commands, and which arguments fit (R186, R187, section 12.2). A command of the seven that the
state does not take, or whose arguments do not fit, and UNKNOWN_COMMAND, whose code names none of the seven, are recorded
REFUSED_STATE, BAD_ARGUMENT and UNKNOWN in every state whose receiver is on, and do nothing else (R186). -/
def Obligations.CommandsAreTakenOrRefused : Prop :=
  (∀ (s : State) (k : CommandKind) (code : Byte) (args : List Byte), s.running → s.part.receiverOn = true →
    (s.part.takesCommand k = false →
      exec (k.instr args) s = .next { s with part := { s.part with csu := s.part.csu.judged k.code .refusedState } }) ∧
    (s.part.takesCommand k = true → argumentsFit k args = false →
      exec (k.instr args) s = .next { s with part := { s.part with csu := s.part.csu.judged k.code .badArgument } }) ∧
    (code = 0 ∨ 8 ≤ code.toNat →
      exec (.unknownCommand code args) s = .next { s with part := { s.part with csu := s.part.csu.judged code .unknown } })) ∧
  ∀ (p : Part) (k : CommandKind),
    ((p.csu.station = .join ∨ p.csu.station = .run ∨ p.csu.station = .hold) → p.takesCommand k = true) ∧
    (p.csu.station = .unconfigured → (p.takesCommand k = true ↔ k = .restart ∨ k = .requestStatus)) ∧
    (p.csu.station = .silent → p.csu.image.isSome = true →
      (p.takesCommand k = true ↔ k ≠ .requestStatus ∧ k ≠ .requestTotals)) ∧
    (p.csu.station = .silent → p.csu.image = none → (p.takesCommand k = true ↔ k = .restart)) ∧
    ((k ≠ .clearMarks ∧ k ≠ .rebaseline) → ∀ args, (argumentsFit k args = true ↔ args = [])) ∧
    (∀ args, (argumentsFit .clearMarks args = true ↔
      ∃ a b : Byte, args = [a, b] ∧ a.toNat < 32 ∧ b.toNat < 64 ∧ (a ≠ 0 ∨ b ≠ 0))) ∧
    (∀ args, (argumentsFit .rebaseline args = true ↔ ∃ a : Byte, args = [a] ∧ a.toNat < 16 ∧ a ≠ 0))

/-- Site time's own events. JOIN_WINDOW_END once 1,000 ms of own clock have passed: the window closes, the SBC gets one TIME frame,
and the station goes to HOLD with a hold source active, otherwise to RUN, with STATE set. TIME_DUE_POINT: at a site time that
is 16,000 times the station number modulo 250,000, in RUN and HOLD, one TIME frame is handed over; in the other states nothing
happens (R84, R85, R180). That it is handed over once is the work of `lastDue`, a field of the model's own that holds the
due point acted on while site time stands there (its choice, log 25). -/
def Obligations.JoinEndAndDuePointsHandTimeFrames : Prop :=
  ∀ s : State, s.running →
    let now := s.part.stu.siteTime
    (∀ t, s.part.csu.station = .join → s.part.stu.joinWindow = some t → t + 1000000 ≤ s.part.clock →
      ∃ p : Part, exec .joinWindowEnd s = .next { s with part := p } ∧
        p.csu.station = (if s.part.csu.pinActive = true ∨ s.part.csu.commandHold = true then .hold else .run) ∧
        p.csu.marks.state = true ∧ p.stu = { s.part.stu with joinWindow := none } ∧
        (s.part.sbc.list.length < 7 → (∀ e ∈ s.part.sbc.list, e.content ≠ .time) →
          ∃ e ∈ p.sbc.list, e.content = .time ∧ e.queueTime = now ∧ e.inTransmission = false) ∧
        s.part.changedOnly [.csu, .sbc, .stu, .vcl] p) ∧
    (s.part.csu.station = .run ∨ s.part.csu.station = .hold → now.toNat % 250000 = 16000 * s.part.block.number →
      s.part.stu.lastDue ≠ some now →
      exec .timeDuePoint s = .next { s with part :=
        ({ s.part with stu := { s.part.stu with lastDue := some now } }).handFrame .time }) ∧
    (s.part.stu.lastDue = some now → exec .timeDuePoint s = .next s) ∧
    (s.part.csu.station ≠ .run → s.part.csu.station ≠ .hold → exec .timeDuePoint s = .next s)

/-- REQUEST_STATUS and REQUEST_TOTALS that are taken hand the SBC their request and are recorded TAKEN; STATUS_PERIODIC_TIMER
at 10 s hands over a STATUS request, its timer from 0 again; STATUS_DEFERRED_REQUEST 100 ms after the last request for a
mark hands over one from which the spacing counts, none deferred any more. That both times are measured on the part's own clock is
the model's choice (log 19). ATTN is asserted in MUTE, released in LOADING, otherwise asserted exactly while a mark is set that
the attention mask does not name (R159, R186, R188, R191, R193). -/
def Obligations.RequestsReachTheListAndAttnFollows : Prop :=
  (∀ s : State, s.running →
     (s.part.takesCommand .requestStatus = true →
       exec (.requestStatus []) s = .next { s with part :=
         { s.part.handFrame .status with csu := s.part.csu.judged 4 .taken } }) ∧
     (s.part.takesCommand .requestTotals = true →
       exec (.requestTotals []) s = .next { s with part :=
         { s.part.handFrame .totals with csu := s.part.csu.judged 5 .taken } }) ∧
     (∀ t, s.part.usesLine = true → s.part.csu.periodicSince = some t → t + 10000000 ≤ s.part.clock →
       exec .statusPeriodicTimer s = .next { s with part :=
         ({ s.part with csu := { s.part.csu with periodicSince := some s.part.clock } }).handFrame .status }) ∧
     (∀ t, s.part.usesLine = true → s.part.csu.deferred = true → s.part.csu.lastMarkRequest = some t →
       t + 100000 ≤ s.part.clock →
       exec .statusDeferredRequest s = .next { s with part :=
         ({ s.part with csu := { s.part.csu with lastMarkRequest := some s.part.clock, deferred := false } }).handFrame .status })) ∧
  ∀ p : Part, p.rstLow = false →
    (p.csu.station = .mute → p.attn = true) ∧ (p.csu.station = .loading → p.attn = false) ∧
    (p.csu.station ≠ .mute → p.csu.station ≠ .loading →
      (p.attn = true ↔ ∃ m : ChangeMark, hasMark p.csu.marks m = true ∧ hasMark p.block.attentionMask m = false))

/-! ## Load channels -/

/-- SAMPLE_INSTANT: in a state that does not sample, and before 125 µs of own clock have passed since the last instant, nothing
happens; otherwise the four samples are taken together, and the instant, its sample time and its levels are noted (the phase of the
instants and the levels held are the model's choice, log 41). The sample time is the site time, read once for the instant: once
read it stays, also where site time is stepped at the same own-clock time (log 7). With no channel in a hit or in STUCK and no leading entry or check due,
each channel takes its seed, or follows its baseline with a sample below the on threshold, or starts a hit with one at or
above it; the drift condition of an evaluated sample counts, and nothing else changes (R1 to R5, R10, R15). -/
def Obligations.SampleInstantSeedsFollowsAndStarts : Prop :=
  (∀ p : Part, p.sampleDue = true ↔ p.working = true ∧ ∀ t, p.lcu.lastSample = some t → t + 125 ≤ p.clock) ∧
  (∀ p : Part, p.working = true ↔ p.csu.station = .join ∨ p.csu.station = .run ∨ p.csu.station = .hold ∨
    p.csu.station = .silent ∧ p.csu.image.isSome = true) ∧
  (∀ p : Part, (∀ x, p.lcu.stamp = some x → x.instant = p.clock → p.sampleTime = x.time) ∧
    ((∀ x, p.lcu.stamp = some x → x.instant ≠ p.clock) → p.sampleTime = p.stu.siteTime)) ∧
  ∀ (s : State) (x : PerChannel Sample), s.running →
    let now := s.part.sampleTime
    (s.part.sampleDue = false → exec (.sampleInstant x.ll x.lr x.tl x.tr) s = .next s) ∧
    (s.part.sampleDue = true → exec (.sampleInstant x.ll x.lr x.tl x.tr) s = .next { s with part := s.part.sampleAll x }) ∧
    (s.part.sampleDue = true →
      (∀ ch, (s.part.lcu.channels.get ch).state = .idle ∧ (s.part.lcu.channels.get ch).driftCount ≠ 7999) →
      (s.part.inRun = true →
        (∀ side, ∀ h ∈ s.part.pse.fifo.get side, siteDiff now h.startTime ≤ s.part.image.strips.spacing * 1000000 / 1389) ∧
        (∀ c ∈ s.part.pse.checks, siteDiff now c.checkTime < 0)) →
      ∃ q : PerChannel ChannelRecord,
        exec (.sampleInstant x.ll x.lr x.tl x.tr) s = .next { s with part := { s.part with
          lcu := { channels := q, lastSample := some s.part.clock, stamp := some { instant := s.part.clock, time := now }, inputs := x } } } ∧
        ∀ ch : Channel,
          let c := s.part.lcu.channels.get ch
          let v := (x.get ch).toInt
          let count (b : Int) : Nat := if s.part.image.strips.bwin < b.natAbs then min (c.driftCount + 1) 8000 else 0
          (c.seedPending = true → q.get ch = { c with baseline := 64 * v, seedPending := false }) ∧
          (c.seedPending = false → v - c.b < s.part.image.strips.thOn →
            q.get ch = { c with baseline := c.baseline + v - c.b, driftCount := count ((c.baseline + v - c.b).fdiv 64) }) ∧
          (c.seedPending = false → s.part.image.strips.thOn ≤ v - c.b →
            q.get ch = { c with
              state := .pulse, startTime := now, area := (v - c.b).toNat, peak := (v - c.b).toNat, lengthCount := 1,
              tailCount := 0, driftCount := count c.b,
              flags := { stretched := false, clipped := v = 32767 || v = -32768, areaSat := false } }))

/-- What a sampling instant does, whatever its channels hold: the samples of LL, LR, TL and TR, in that order (the model's choice,
log 8); then, in RUN, the expiry of the left and the right FIFO and the due checks, all at the instant's sample time, read once for it (log 7). One
sample of one channel: its record is evaluated; a hit that it completes is disposed of; a forced rebaseline calls for
STUCK_LONG, and a drift count that it brings to 8,000 calls for DRIFT (R1, R12, R14, R15, R23, R32). -/
def Obligations.InstantIsFourSamplesThenItsWork : Prop :=
  (∀ (p : Part) (x : PerChannel Sample),
    let now := p.sampleTime
    let stamp : SampleStamp := { instant := p.clock, time := now }
    let noted : Part := { p with lcu := { p.lcu with lastSample := some p.clock, stamp := some stamp, inputs := x } }
    let four := (((noted.sampleChannel .ll x.ll).sampleChannel .lr x.lr).sampleChannel .tl x.tl).sampleChannel .tr x.tr
    let q := p.sampleAll x
    (p.csu.station ≠ .run → q = four) ∧
    (p.csu.station = .run → q = ((four.expireSide .left now).expireSide .right now).dueChecks now) ∧
    q.csu.station = p.csu.station ∧ q.csu.image = p.csu.image ∧ q.lcu.lastSample = some p.clock ∧ q.lcu.stamp = some stamp ∧
    q.lcu.inputs = x ∧ q.sampleTime = now ∧
    p.changedOnly [.lcu, .pse, .ptu, .sbc, .vau, .vcl, .csu] q) ∧
  ∀ (p : Part) (ch : Channel) (v : Sample),
    let before := p.lcu.channels.get ch
    let r := evalSample p.image.strips ch p.sampleTime v.toInt before
    let evaluated : Part := { p with lcu := { p.lcu with channels := p.lcu.channels.set ch r.record } }
    let drifted := before.driftCount < 8000 ∧ r.record.driftCount = 8000
    let q := p.sampleChannel ch v
    (∀ how h, r.hit = some (how, h) → r.rebased = false ∧ r.quietReturn = false ∧ h.channel = ch ∧
      h.startTime = before.startTime) ∧
    (r.hit = none → r.rebased = false → ¬drifted → q = evaluated) ∧
    (∀ how h, r.hit = some (how, h) → ¬drifted → q = evaluated.disposeHit h p.sampleTime) ∧
    (r.hit = none → r.rebased = true → ¬drifted → q = evaluated.faultMark ch .stuckLong) ∧
    (r.hit = none → r.rebased = false → drifted → q = evaluated.faultMark ch .drift) ∧
    (∀ how h, r.hit = some (how, h) → drifted → q = (evaluated.disposeHit h p.sampleTime).faultMark ch .drift) ∧
    (r.hit = none → r.rebased = true → drifted → q = (evaluated.faultMark ch .stuckLong).faultMark ch .drift)

/-- A sample of a hit in progress. Whatever becomes of the hit, its length count grows by one, its area by the difference when
that is positive, up to 4,294,967,295 with AREA_SAT, its peak is the greatest difference, and a sample at either end of
the range takes CLIPPED; start time and baseline stay. That the record keeps all this after a sample that completes the hit is the
model's inference (log 10). A sample that ends it neither way leaves TAIL, with its count and
its first sample's tail time, or PULSE, with the tail count back at 0 (R6, R7, R10). -/
def Obligations.HitSampleAccumulates : Prop :=
  ∀ (st : StripsBlock) (ch : Channel) (now : SiteTime) (x : Int) (c : ChannelRecord),
    c.seedPending = false → (c.state = .pulse ∨ c.state = .tail) →
    let e := evalSample st ch now x c
    let r := e.record
    let d := x - c.b
    (r.lengthCount = c.lengthCount + 1 ∧ r.startTime = c.startTime ∧ r.baseline = c.baseline ∧ r.seedPending = false ∧
      r.area = min (c.area + d.toNat) 4294967295 ∧ r.peak = max c.peak d.toNat ∧
      r.flags.clipped = (c.flags.clipped || decide (x = 32767 ∨ x = -32768)) ∧
      r.flags.areaSat = (c.flags.areaSat || decide (4294967295 < c.area + d.toNat)) ∧
      r.missCounter = c.missCounter ∧ r.mark = c.mark) ∧
    (c.lengthCount + 1 < st.lmax →
      (d < st.thOff → c.state = .pulse → 1 < st.ntail →
        e.hit = none ∧ r.state = .tail ∧ r.tailCount = 1 ∧ r.tailTime = now) ∧
      (d < st.thOff → c.state = .tail → c.tailCount + 1 < st.ntail →
        e.hit = none ∧ r.state = .tail ∧ r.tailCount = c.tailCount + 1 ∧ r.tailTime = c.tailTime) ∧
      (st.thOff ≤ d → e.hit = none ∧ r.state = .pulse ∧
        (c.state = .tail → r.tailCount = 0) ∧ (c.state = .pulse → r.tailCount = c.tailCount)))

/-- The two ends of a hit. HIT_END_BY_TAIL and HIT_END_BY_COUNT_EXPIRY carry the four samples and are a whole sampling instant, one
at which their channel's sample ends its hit so; at any other time nothing happens (both the model's choice, logs 7 and 2). The
sample that brings the tail count to Ntail ends the hit at its tail time and
takes the channel to IDLE; otherwise the one that brings the length count to Lmax ends it there, with STRETCHED, and takes the
channel to STUCK with both STUCK counts at 0. The hit carries what was accumulated; that the record keeps its accumulators
after it is the model's inference (log 10). In RUN an unmarked channel's hit goes to the pairing; in RUN and HOLD a marked
channel's counts as a marked hit, in HOLD an unmarked one's as a hold hit; in JOIN and SILENT nothing is counted (R7, R8,
R11, R12). -/
def Obligations.HitEndsAreDisposedOf : Prop :=
  (∀ (s : State) (ch : Channel) (x : PerChannel Sample) (how : HitEnd), s.running →
    let cmd : Instr := if how = .byTail then .hitEndByTail ch x
      else .hitEndByCountExpiry ch x
    let ends := ∃ h, (evalSample s.part.image.strips ch s.part.sampleTime (x.get ch).toInt (s.part.lcu.channels.get ch)).hit =
      some (how, h)
    (s.part.sampleDue = true → ends → exec cmd s = .next { s with part := s.part.sampleAll x }) ∧
    (s.part.sampleDue = false ∨ ¬ends → exec cmd s = .next s)) ∧
  (∀ (st : StripsBlock) (ch : Channel) (now : SiteTime) (x : Int) (c : ChannelRecord), c.seedPending = false →
    let low := x - c.b < st.thOff
    let a := accumulate c x (x - c.b)
    let tailCount := if low then (if c.state = .tail then c.tailCount + 1 else 1) else if c.state = .tail then 0 else c.tailCount
    let tailTime := if low ∧ c.state = .pulse then now else c.tailTime
    (c.state = .tail ∧ low ∧ st.ntail ≤ c.tailCount + 1 ∨ c.state = .pulse ∧ low ∧ st.ntail ≤ 1 →
      evalSample st ch now x c =
        { record := driftSample st { a with state := .idle, tailTime := tailTime, tailCount := tailCount }
          hit := some (.byTail, { channel := ch, startTime := c.startTime, endTime := tailTime, area := a.area, peak := a.peak
                                  flags := a.flags })
          quietReturn := false, rebased := false }) ∧
    (st.lmax ≤ c.lengthCount + 1 →
      (c.state = .tail ∧ (low → c.tailCount + 1 < st.ntail) ∨ c.state = .pulse ∧ (low → 1 < st.ntail)) →
      evalSample st ch now x c =
        { record := driftSample st { a with
            state := .stuck, tailTime := tailTime, tailCount := tailCount, flags := { a.flags with stretched := true }
            stuckCount := 0, quietCount := 0 }
          hit := some (.byCountExpiry, { channel := ch, startTime := c.startTime, endTime := now, area := a.area, peak := a.peak
                                         flags := { a.flags with stretched := true } })
          quietReturn := false, rebased := false })) ∧
  ∀ (p : Part) (h : Hit) (now : SiteTime),
    let marked := (p.lcu.channels.get h.channel).mark.isSome = true
    let t := p.vcl.totals
    (p.csu.station = .run → ¬marked → p.disposeHit h now = p.takeHit h now) ∧
    ((p.csu.station = .run ∨ p.csu.station = .hold) → marked → p.disposeHit h now =
      { p with vcl := { p.vcl with totals := { t with markedHits := satInc t.markedHits } } }) ∧
    (p.csu.station = .hold → ¬marked → p.disposeHit h now =
      { p with vcl := { p.vcl with totals := { t with holdHits := satInc t.holdHits } } }) ∧
    (p.csu.station ≠ .run → p.csu.station ≠ .hold → p.disposeHit h now = p)

/-- A leading hit handed to the pairing: its start time joins its channel's history, of the 8 most recent, and it joins its side's
FIFO behind the others; a FIFO of 8 first loses its oldest entry, which completes as a wheel (R11, R24, R32). -/
def Obligations.LeadingHitJoinsTheFifo : Prop :=
  ∀ (p : Part) (side : Side) (h : Hit) (now : SiteTime),
    let ch := leadingChannel side
    let fifo := p.pse.fifo.get side
    let history := p.pse.history.set ch (((p.pse.history.get ch) ++ [h.startTime]).drop ((p.pse.history.get ch).length - 7))
    h.channel = ch →
    (fifo.length < 8 → p.takeHit h now = { p with pse := { p.pse with
      fifo := p.pse.fifo.set side (fifo ++ [h]), history := history } }) ∧
    (∀ oldest rest, fifo = oldest :: rest → fifo.length = 8 →
      let removed : Part := { p with pse := { p.pse with fifo := p.pse.fifo.set side rest, history := history } }
      let k := removed.completeWheel side (some oldest) none none now
      p.takeHit h now = { k with pse := { k.pse with fifo := k.pse.fifo.set side (rest ++ [h]) } } ∧
      k.pse.fifo = removed.pse.fifo ∧ k.pse.history = history ∧ k.pse.checks = p.pse.checks ∧
      k.pse.wheelCounter = p.pse.wheelCounter + 1 ∧ p.changedOnly [.pse, .ptu, .sbc, .vau, .vcl] k)

/-- STUCK and drift. STUCK_QUIET_RETURN, FORCED_REBASELINE and DRIFT_MARK carry the four samples and are a whole sampling instant,
one at which their channel's sample does what they name; at any other time nothing happens (both the model's choice, logs 7
and 2). A sample in STUCK counts; the one that brings the quiet count to Ntail
takes the channel to IDLE, its baseline as it was; otherwise the one that takes the stuck count past the stuck limit sets the
baseline to 64 times itself and takes the channel to IDLE; that both counts then stay as they stand is the model's
inference (log 10). An evaluated sample with its baseline beyond Bwin counts toward 8,000, one within it returns the count to
0. A channel that is called a fault keeps the mark it has, or takes the cause, which sets CHANNELS (R9, R14, R15). -/
def Obligations.StuckEndsAndDriftMarks : Prop :=
  (∀ (s : State) (ch : Channel) (x : PerChannel Sample), s.running →
    let c := s.part.lcu.channels.get ch
    let r := evalSample s.part.image.strips ch s.part.sampleTime (x.get ch).toInt c
    let runs (cmd : Instr) (happens : Prop) : Prop :=
      (s.part.sampleDue = true → happens → exec cmd s = .next { s with part := s.part.sampleAll x }) ∧
      (s.part.sampleDue = false ∨ ¬happens → exec cmd s = .next s)
    runs (.stuckQuietReturn ch x) (r.quietReturn = true) ∧
    runs (.forcedRebaseline ch x) (r.rebased = true) ∧
    runs (.driftMark ch x) (c.driftCount < 8000 ∧ r.record.driftCount = 8000)) ∧
  (∀ (st : StripsBlock) (ch : Channel) (now : SiteTime) (x : Int) (c : ChannelRecord), c.seedPending = false → c.state = .stuck →
    let quiet := if x - c.b < st.thOff then c.quietCount + 1 else 0
    let counted : ChannelRecord := { c with stuckCount := c.stuckCount + 1, quietCount := quiet }
    let e := evalSample st ch now x c
    (st.ntail ≤ quiet → e =
      { record := driftSample st { counted with state := .idle }, hit := none, quietReturn := true, rebased := false }) ∧
    (quiet < st.ntail → st.stuckLimit * 8000 < c.stuckCount + 1 → e =
      { record := driftSample st { counted with state := .idle, baseline := 64 * x }, hit := none, quietReturn := false
        rebased := true }) ∧
    (quiet < st.ntail → c.stuckCount + 1 ≤ st.stuckLimit * 8000 → e =
      { record := driftSample st counted, hit := none, quietReturn := false, rebased := false })) ∧
  (∀ (st : StripsBlock) (c : ChannelRecord), driftSample st c = { c with
    driftCount := if st.bwin < (c.baseline.fdiv 64).natAbs then min (c.driftCount + 1) 8000 else 0 }) ∧
  ∀ (p : Part) (ch : Channel) (cause : ChannelMark),
    let c := p.lcu.channels.get ch
    let q := p.faultMark ch cause
    (c.mark.isSome = true → q = p) ∧
    (c.mark = none → q.lcu = { p.lcu with channels := p.lcu.channels.set ch { c with mark := some cause } } ∧
      q.csu.marks = { p.csu.marks with channels := true } ∧ p.changedOnly [.lcu, .csu, .sbc, .vcl] q)


/-! ## Pairing, speed and load -/

/-- The standing and the candidate speed of a leading hit against a trailing hit, by their signed difference: too recent at a
difference of 0 or below, or with a candidate speed above 69,444 mm/s; too old below 1,389 mm/s; in window between, which for
rows 3,000 mm apart is 43,200 to 2,159,827 µs; a paired wheel's speed is its leading hit's candidate speed (R22). -/
def Obligations.StandingFollowsTheTable : Prop :=
  ∀ (spacing : Nat) (lead trail : SiteTime),
    let d := siteDiff trail lead
    let v := spacing * 1000000 / d.toNat
    (d ≤ 0 → standing spacing lead trail = .tooRecent) ∧
    (0 < d → 69444 < v → standing spacing lead trail = .tooRecent) ∧
    (0 < d → 1389 ≤ v → v ≤ 69444 → standing spacing lead trail = .inWindow v) ∧
    (0 < d → v < 1389 → standing spacing lead trail = .tooOld) ∧
    (∀ u, standing spacing lead trail = .inWindow u → 1389 ≤ u ∧ u ≤ 69444) ∧
    (spacing = 3000 → ((∃ u, standing spacing lead trail = .inWindow u) ↔ 43200 ≤ d ∧ d ≤ 2159827)) ∧
    (∀ (l : List Hit) (h : Hit) (u : Nat), (scanFifo spacing trail l).2.1 = some (h, u) →
      h ∈ l ∧ standing spacing h.startTime trail = .inWindow u)

/-- LEADING_ENTRY_EXPIRY in RUN at a sampling instant, taken or still to be taken: the entries older than
floor(S × 1,000,000 / 1,389) µs at the instant's sample time leave both FIFOs, the left before the right, each as one more
numbered wheel, oldest first; histories and checks stay, and with no such entry nothing changes (R23). That the row is the
instant's work of its own, at an instant taken now or still to be taken, which then has its sample time read, and that at any other
time nothing happens, is the model's choice (logs 7 and 2). -/
def Obligations.LeadingEntriesExpire : Prop :=
  (∀ s : State, s.running →
    let limit := s.part.image.strips.spacing * 1000000 / 1389
    let now := s.part.sampleTime
    let old (h : Hit) : Bool := decide ((limit : Int) < siteDiff now h.startTime)
    let noted : Part := { s.part with lcu := { s.part.lcu with stamp := some { instant := s.part.clock, time := now } } }
    (s.part.atInstant = true ↔ s.part.sampleDue = true ∨ s.part.lcu.lastSample = some s.part.clock) ∧
    (s.part.csu.station ≠ .run ∨ s.part.atInstant = false → exec .leadingEntryExpiry s = .next s) ∧
    ((∀ side, ∀ h ∈ s.part.pse.fifo.get side, old h = false) → exec .leadingEntryExpiry s = .next s) ∧
    (s.part.csu.station = .run → s.part.atInstant = true → (∃ side, ∃ h ∈ s.part.pse.fifo.get side, old h = true) →
      ∃ p : Part, exec .leadingEntryExpiry s = .next { s with part := p } ∧
        p = (noted.expireSide .left now).expireSide .right now ∧
        (∀ side, p.pse.fifo.get side = (s.part.pse.fifo.get side).filter fun h => !old h) ∧
        p.pse.wheelCounter = s.part.pse.wheelCounter +
          BitVec.ofNat 16 ((s.part.pse.fifo.left.filter old).length + (s.part.pse.fifo.right.filter old).length) ∧
        p.pse.history = s.part.pse.history ∧ p.pse.checks = s.part.pse.checks ∧
        noted.changedOnly [.pse, .ptu, .sbc, .vau, .vcl] p)) ∧
  ∀ (p : Part) (side : Side) (now : SiteTime),
    let fifo := p.pse.fifo.get side
    let old (h : Hit) : Bool := decide ((p.image.strips.spacing * 1000000 / 1389 : Nat) < siteDiff now h.startTime)
    p.expireSide side now = (fifo.filter old).foldl (fun k x => k.completeWheel side (some x) none none now)
      { p with pse := { p.pse with fifo := p.pse.fifo.set side (fifo.filter fun h => !old h) } }

/-- A trailing hit handed to the pairing: its start time joins its channel's history, the expired entries of its side's FIFO leave,
each as an orphan lead, and the others are taken from oldest to newest. The first in window completes a paired wheel at its
candidate speed and leaves; those found too old before it complete as orphan leads first; those too recent stay; those behind
it are not looked at. With none in window every entry is looked at, and the hit completes as an orphan trail: a FIFO of
entries too recent stays as it is (R22, R23, R25, R32). -/
def Obligations.TrailingHitCompletesAWheel : Prop :=
  ∀ (p : Part) (side : Side) (h : Hit) (now : SiteTime),
    let ch := trailingChannel side
    let spacing := p.image.strips.spacing
    let old (x : Hit) : Bool := decide ((spacing * 1000000 / 1389 : Nat) < siteDiff now x.startTime)
    let young := (p.pse.fifo.get side).filter fun x => !old x
    let orphan (k : Part) (x : Hit) : Part := k.completeWheel side (some x) none none now
    let expired := ((p.pse.fifo.get side).filter old).foldl orphan { p with pse := { p.pse with
      fifo := p.pse.fifo.set side young
      history := p.pse.history.set ch (((p.pse.history.get ch) ++ [h.startTime]).drop ((p.pse.history.get ch).length - 7)) } }
    let leaving (l : List Hit) : List Hit := l.filter fun x => decide (standing spacing x.startTime h.startTime = .tooOld)
    let staying (l : List Hit) : List Hit := l.filter fun x => decide (standing spacing x.startTime h.startTime = .tooRecent)
    let keeping (l : List Hit) : Part := { expired with pse := { expired.pse with fifo := expired.pse.fifo.set side l } }
    h.channel = ch →
    (∀ (before after : List Hit) (e : Hit) (v : Nat), young = before ++ e :: after →
      (∀ x ∈ before, ∀ u, standing spacing x.startTime h.startTime ≠ .inWindow u) →
      standing spacing e.startTime h.startTime = .inWindow v →
      p.takeHit h now = ((leaving before).foldl orphan (keeping (staying before ++ after))).completeWheel side (some e) (some h)
        (some v) now) ∧
    ((∀ x ∈ young, ∀ u, standing spacing x.startTime h.startTime ≠ .inWindow u) →
      p.takeHit h now = ((leaving young).foldl orphan (keeping (staying young))).completeWheel side none (some h) none now) ∧
    ((∀ x ∈ p.pse.fifo.get side, old x = false ∧ standing spacing x.startTime h.startTime = .tooRecent) →
      (p.takeHit h now).pse.fifo = p.pse.fifo ∧ (p.takeHit h now).pse.wheelCounter = p.pse.wheelCounter + 1) ∧
    p.changedOnly [.lcu, .pse, .ptu, .sbc, .vau, .vcl, .csu] (p.takeHit h now)

/-- A completed wheel. Its record takes the wheel counter's number, the start times, the speed, the effective temperature with
its source, the q of each usable strip at that temperature's factor, the VAU's run start, the flags of its hits, Q_SAT of either
strip, and TIME_STEP when a step of the log lies between the two starts of a pair, a step of more than 8 s ago passed over
(log 24); with a speed it is finished at once. An answer of sources 1 to 4 becomes the held value. The record joins the store as
open, the transmit list while that takes WHEEL frames, and the VAU's intake, whose axle former stands for the port; the counter
goes on. A store of 32 gives up its oldest record, for which, when open, it asks a forced decision: the record is closed and the
wheel marked where it waits. An intake of 32 drops its oldest wheel, whose record is closed. That the store comes before the intake,
and the check after the three, is the model's choice (log 38). A paired wheel places its check in the order of the check times, behind those of the same time
(the model's choice, log 37); a list of 16 first performs its oldest (R26 to R32, R34, R37, R55, R86, R94, R97). -/
def Obligations.CompletedWheelIsHandedOn : Prop :=
  ∀ (p : Part) (side : Side) (lead trail : Option Hit) (speed : Option Nat) (now : SiteTime),
    let w := p.wheelRecord side lead trail speed
    let q := p.completeWheel side lead trail speed now
    let a := hitFlags lead
    let b := hitFlags trail
    let asked : Option Count16 := if p.pse.store.length < 32 then none
      else (p.pse.store.head?.filter StoreRecord.isOpen).map fun r => r.wheel.number
    let lost : Option Count16 := if p.vau.intake.length < 32 then none else p.vau.intake.head?.map fun e => e.wheel.number
    let close (n : Option Count16) (l : List StoreRecord) : List StoreRecord :=
      l.map fun r => if some r.wheel.number = n then { r with isOpen := false } else r
    let intake : List IntakeWheel :=
      p.vau.intake.map fun e => if some e.wheel.number = asked then { e with forced := true } else e
    (w.number = p.pse.wheelCounter ∧ w.side = side ∧ w.leadStart = lead.map Hit.startTime ∧
      w.trailStart = trail.map Hit.startTime ∧ w.speed = speed ∧ (w.temperature, w.source) = p.effective ∧
      w.runStart = p.vau.runStart ∧ (speed = none → w.load = none)) ∧
    (let f := tableFactor p.effective.1 p.image.factors.temperature
     let unfinished : Wheel := { w with
       load := none, flags := { w.flags with single := false, loadSat := false, lowSpeed := false } }
     w.qLead = (p.usableQ f lead).map Prod.fst ∧ w.qTrail = (p.usableQ f trail).map Prod.fst ∧
     (w.flags.qSat = true ↔ ∃ n, p.usableQ f lead = some (n, true) ∨ p.usableQ f trail = some (n, true)) ∧
     w = (match speed with | some v => finishWheel p.image.factors.speed v unfinished | none => unfinished)) ∧
    (w.flags.timeStep = true ↔ ∃ x y, lead = some x ∧ trail = some y ∧ ∃ e ∈ p.stu.log,
      siteDiff p.now e.last ≤ 8000000 ∧ siteDiff e.first y.startTime ≤ 0 ∧ 0 < siteDiff e.last x.startTime) ∧
    q.ptu = { p.ptu with held := match p.effective.2 with
      | .ownSurface | .ownDepth | .peerSurface | .peerDepth => some { value := p.effective.1, obtained := p.now }
      | .held | .reference => p.ptu.held } ∧
    (w.flags.orphanLead = trail.isNone ∧ w.flags.orphanTrail = lead.isNone ∧ w.flags.clipped = (a.clipped || b.clipped) ∧
      w.flags.stretched = (a.stretched || b.stretched) ∧ w.flags.areaSat = (a.areaSat || b.areaSat)) ∧
    q.pse.wheelCounter = p.pse.wheelCounter + 1 ∧
    q.pse.store = close lost ((if p.pse.store.length < 32 then p.pse.store else (close asked p.pse.store).drop 1) ++
      [{ wheel := w, isOpen := true }]) ∧
    q.vau.intake = (if p.vau.intake.length < 32 then intake else intake.drop 1) ++
      [{ wheel := w, completion := now, forced := false }] ∧
    q.vau.waiting = p.vau.waiting.map (fun e => if some e.wheel.number = asked then { e with forced := true } else e) ∧
    q.vau.forcedDecisions = (if asked.isSome then satInc p.vau.forcedDecisions else p.vau.forcedDecisions) ∧
    q.vau.droppedWheels = (if lost.isSome then satInc p.vau.droppedWheels else p.vau.droppedWheels) ∧
    q.vau.port.standing .axleFormer = true ∧
    (p.onDuty = true → p.sbc.list.length < 8 → ∃ e ∈ q.sbc.list, e.content = .wheel w ∧ e.queueTime = now) ∧
    q.pse.fifo = p.pse.fifo ∧ q.pse.history = p.pse.history ∧ q.vau.vehicle = p.vau.vehicle ∧
    ((lead = none ∨ trail = none ∨ speed = none) → q.pse.checks = p.pse.checks ∧ q.lcu = p.lcu) ∧
    (∀ x y v, lead = some x → trail = some y → speed = some v →
      let window := p.image.assembly.dc * 1000000 / v
      let c : Check :=
        { side := side, leadStart := x.startTime, trailStart := y.startTime, window := window
          checkTime := y.startTime + BitVec.ofNat 48 (window + p.image.strips.lmax * 125) }
      let behind (k : Check) : Bool := decide (0 < siteDiff k.checkTime c.checkTime)
      (p.pse.checks.length < 16 → q.pse.checks = insertBefore behind c p.pse.checks ∧ q.lcu = p.lcu) ∧
      (∀ oldest rest, p.pse.checks = oldest :: rest → p.pse.checks.length = 16 →
        q.pse.checks = insertBefore behind c rest ∧ q.lcu = (p.performCheck oldest).lcu)) ∧
    p.changedOnly [.lcu, .pse, .ptu, .sbc, .vau, .vcl, .csu] q

/-- COINCIDENCE_CHECK in RUN at a sampling instant, taken or still to be taken: each check that is due at the instant's sample time
leaves the list, earliest first, and the channels of the other side get their notices by what their start histories hold; at any other time nothing
happens. Seen takes the miss counter to 0; missed adds one up to the dead count, and the one that reaches it raises DEAD on an
unmarked channel (R14, R16, R32, R33). That the row is the instant's work of its own, at an instant taken now or still to be taken,
which then has its sample time read, and that at any other time nothing happens, is the model's choice (logs 7 and 2). -/
def Obligations.DueChecksSendTheirNotices : Prop :=
  (∀ s : State, s.running →
    let now := s.part.sampleTime
    let noted : Part := { s.part with lcu := { s.part.lcu with stamp := some { instant := s.part.clock, time := now } } }
    (s.part.csu.station ≠ .run ∨ s.part.atInstant = false → exec .coincidenceCheck s = .next s) ∧
    ((∀ c rest, s.part.pse.checks = c :: rest → siteDiff now c.checkTime < 0) → exec .coincidenceCheck s = .next s) ∧
    (s.part.csu.station = .run → s.part.atInstant = true →
      ∀ c rest, s.part.pse.checks = c :: rest → 0 ≤ siteDiff now c.checkTime →
        exec .coincidenceCheck s = .next { s with part := noted.dueChecks now })) ∧
  (∀ (p : Part) (now : SiteTime),
    (p.pse.checks = [] → p.dueChecks now = p) ∧
    ∀ c rest, p.pse.checks = c :: rest →
      (siteDiff now c.checkTime < 0 → p.dueChecks now = p) ∧
      (0 ≤ siteDiff now c.checkTime →
        p.dueChecks now = (({ p with pse := { p.pse with checks := rest } } : Part).performCheck c).dueChecks now)) ∧
  (∀ (p : Part) (c : Check),
    let yl := leadingChannel (otherSide c.side)
    let yt := trailingChannel (otherSide c.side)
    let seenL := ∃ t ∈ p.pse.history.get yl, (siteDiff t c.leadStart).natAbs ≤ c.window
    let seenT := ∃ t ∈ p.pse.history.get yt, (siteDiff t c.trailStart).natAbs ≤ c.window
    (seenL → seenT → p.performCheck c = (p.seenNotice yl).seenNotice yt) ∧
    (seenL → ¬seenT → p.performCheck c = (p.seenNotice yl).missedNotice yt) ∧
    (¬seenL → seenT → p.performCheck c = (p.missedNotice yl).seenNotice yt) ∧
    (¬seenL → ¬seenT → p.performCheck c = p)) ∧
  ∀ (p : Part) (ch : Channel),
    let c := p.lcu.channels.get ch
    let withRecord (r : ChannelRecord) : Lcu := { p.lcu with channels := p.lcu.channels.set ch r }
    p.seenNotice ch = { p with lcu := withRecord { c with missCounter := 0 } } ∧
    (c.missCounter + 1 < p.image.strips.deadCount →
      p.missedNotice ch = { p with lcu := withRecord { c with missCounter := c.missCounter + 1 } }) ∧
    (c.missCounter + 1 = p.image.strips.deadCount →
      (p.missedNotice ch).lcu = withRecord { c with
        missCounter := c.missCounter + 1, mark := some (c.mark.getD .dead) } ∧
      (p.missedNotice ch).csu.marks = (if c.mark = none then { p.csu.marks with channels := true } else p.csu.marks) ∧
      p.changedOnly [.lcu, .csu, .sbc, .vcl] (p.missedNotice ch)) ∧
    (p.image.strips.deadCount ≤ c.missCounter → p.missedNotice ch = p)

/-- The factor of a table of 1 to 8 points, its keys strictly increasing, at any key: a point's own factor at its key, the
interpolated factor, truncated toward zero, between two points and lying between their factors, the end point's factor
beyond either end; 32,768 for an absent table (R35). -/
def Obligations.FactorTableInterpolates : Prop :=
  (∀ x : Int, tableFactor x [] = 32768) ∧ (∀ (x : Int) (a : FactorPoint), tableFactor x [a] = a.factor) ∧
  ∀ (l : List FactorPoint) (x : Int), 1 ≤ l.length → l.length ≤ 8 → (l.map FactorPoint.key).Pairwise (· < ·) →
    (∀ a ∈ l, x = a.key → tableFactor x l = a.factor) ∧
    (∀ (before after : List FactorPoint) (a b : FactorPoint), l = before ++ a :: b :: after → a.key < x → x < b.key →
      (tableFactor x l : Int) = a.factor + (((b.factor : Int) - a.factor) * (x - a.key)).tdiv (b.key - a.key) ∧
      min a.factor b.factor ≤ tableFactor x l ∧ tableFactor x l ≤ max a.factor b.factor) ∧
    (∀ a, l.head? = some a → x < a.key → tableFactor x l = a.factor) ∧
    (∀ a, l.getLast? = some a → a.key < x → tableFactor x l = a.factor) ∧
    ((∀ a ∈ l, 16384 ≤ a.factor ∧ a.factor ≤ 65535) → 16384 ≤ tableFactor x l ∧ tableFactor x l ≤ 65535)

/-- The load formula. The coefficient of a strip: usable when its hit carries no flag, its channel has a calibration constant
and no fault mark; then the area times the constant over 65,536, times the temperature factor over 32,768, each step
floored and held at 4,294,967,295 with Q_SAT. Finishing a wheel with a speed within the window: the load from both strips,
from one with SINGLE, or from none; LOAD_SAT when a strip was clamped, LOW_SPEED below 2,778 mm/s; a load already present,
or a speed outside the window, changes nothing (R34, R36, R37). -/
def Obligations.LoadFormula : Prop :=
  (∀ (p : Part) (f : Nat) (h : Hit),
    let c := p.image.strips.cal.get h.channel
    let x := h.area * c / 65536
    let y := min x 4294967295 * f / 32768
    p.usableQ f none = none ∧
    (h.flags = { stretched := false, clipped := false, areaSat := false } → c ≠ 0 → (p.lcu.channels.get h.channel).mark = none →
      p.usableQ f (some h) = some (min y 4294967295, decide (4294967295 < x ∨ 4294967295 < y))) ∧
    (h.flags.stretched = true ∨ h.flags.clipped = true ∨ h.flags.areaSat = true ∨ c = 0 ∨
        (p.lcu.channels.get h.channel).mark ≠ none →
      p.usableQ f (some h) = none)) ∧
  ∀ (table : List FactorPoint) (v : Nat) (w : Wheel),
    let g := tableFactor v table
    let raw (q : Nat) : Nat := (q * v / 65536 * g + 16384) / 32768
    let strip (q : Nat) : Nat := min (raw q) 65535
    let low := w.flags.lowSpeed || decide (v < 2778)
    (w.load.isSome = true ∨ v < 1389 ∨ 69444 < v → finishWheel table v w = w) ∧
    (w.load = none → 1389 ≤ v → v ≤ 69444 →
      (∀ a b, w.qLead = some a → w.qTrail = some b → finishWheel table v w = { w with
        load := some ((strip a + strip b + 1) / 2)
        flags := { w.flags with
          loadSat := w.flags.loadSat || decide (65535 < raw a) || decide (65535 < raw b), lowSpeed := low } }) ∧
      (∀ a, (w.qLead = some a ∧ w.qTrail = none ∨ w.qLead = none ∧ w.qTrail = some a) → finishWheel table v w = { w with
        load := some (strip a)
        flags := { w.flags with single := true, loadSat := w.flags.loadSat || decide (65535 < raw a), lowSpeed := low } }) ∧
      (w.qLead = none → w.qTrail = none → finishWheel table v w = w))


/-! ## Pavement temperature -/

/-- The measurement cycle and the TEMP timer. MEASUREMENT_INTERVAL_START when the interval has passed: the next begins one
interval length after it did, and the converter settles on the first enabled probe. SETTLE_END after 20 ms: it converts.
CONVERSION_COMPLETE after 80 ms: the probe takes the reading, its own entry is brought up to date, a change of quality sets
PROBES, an accepted reading or such a change hands over a TEMP frame and restarts the probe's timer, and the converter goes on.
TEMP_TIMER_EXPIRY at 10 s: a TEMP frame, and the timer from 0. No own clock passes beyond the end of an interval, a settling or a
conversion: left to itself the part then takes its own event (log 1) (R43, R48, R49, R52, R53). A conversion that no command completes
takes the result code last taken for its probe, which the part holds (the model's choice, log 43). -/
def Obligations.MeasurementCycleRuns : Prop :=
  ∀ (s : State) (t : Nat), s.running → s.part.working = true →
    let params := s.part.image.probes.probe
    let clock := s.part.clock
    (s.part.ptu.converter = .idle → s.part.ptu.intervalStart = some t → t + s.part.image.probes.interval * 1000000 ≤ clock →
      exec .measurementIntervalStart s = .next { s with part := { s.part with ptu := { s.part.ptu with
        intervalStart := some (t + s.part.image.probes.interval * 1000000)
        converter := if params.p0.enable then .settle .p0 clock else if params.p1.enable then .settle .p1 clock else .idle } } }) ∧
    (∀ pr, s.part.ptu.converter = .settle pr t → t + 20000 ≤ clock →
      exec .settleEnd s = .next { s with part := { s.part with ptu := { s.part.ptu with converter := .convert pr clock } } }) ∧
    (∀ (pr : Probe) (code : BitVec 16), s.part.ptu.converter = .convert pr t → t + 80000 ≤ clock →
      let before := s.part.ptu.probes.get pr
      let u := takeReading (readCode (params.get pr) code.toNat) before
      let changed := u.1.quality ≠ before.quality
      let value := if u.1.seeded then some u.1.filtered else none
      ∃ p : Part, exec (.conversionComplete code) s = .next { s with part := p } ∧
        p.ptu = { s.part.ptu with
          codes := s.part.ptu.codes.set pr code
          probes := s.part.ptu.probes.set pr { u.1 with
            own := { value := value, quality := u.1.quality, receiveTime := s.part.now }
            tempTimer := if (u.2 = true ∨ changed) ∧ s.part.csu.station ≠ .silent then some clock else before.tempTimer }
          converter := if pr = .p0 ∧ params.p1.enable = true then .settle .p1 clock else .idle } ∧
        p.csu.marks = (if changed then { s.part.csu.marks with probes := true } else s.part.csu.marks) ∧
        ((u.2 = true ∨ changed) → s.part.onDuty = true → s.part.sbc.list.length < 6 →
          (∀ e ∈ s.part.sbc.list, isTempOf pr e = false) →
          ∃ e ∈ p.sbc.list, e.content = .temp pr { quality := u.1.quality, group := s.part.block.group, value := value }) ∧
        s.part.changedOnly [.ptu, .csu, .sbc, .vcl] p) ∧
    (∀ pr : Probe, s.part.onDuty = true → (params.get pr).enable = true → (s.part.ptu.probes.get pr).tempTimer = some t →
      t + 10000000 ≤ clock →
      let own := (s.part.ptu.probes.get pr).own
      let content : TxContent := .temp pr { quality := own.quality, group := s.part.block.group, value := own.value }
      let q : Part := { s.part with ptu := { s.part.ptu with
        probes := s.part.ptu.probes.set pr { s.part.ptu.probes.get pr with tempTimer := some clock } } }
      exec (.tempTimerExpiry pr) s = .next { s with part := q.handFrame content }) ∧
    (∀ pr, s.part.ptu.converter = .convert pr t → t + 80000 ≤ clock →
      (true, Instr.conversionComplete (s.part.ptu.codes.get pr)) ∈ s.part.ownEvents) ∧
    (s.part.dueCommand = none →
      (∀ pr, s.part.ptu.converter = .settle pr t → clock < t + 20000) ∧
      (∀ pr, s.part.ptu.converter = .convert pr t → clock < t + 80000) ∧
      (s.part.ptu.converter = .idle → s.part.ptu.intervalStart = some t →
        clock < t + s.part.image.probes.interval * 1000000))

/-- A result code as a reading: 0 and 65,535 are faults, every other code a temperature, a fault when that lies outside −400 to
+800; a valid reading of an unseeded probe becomes its filtered value, and a fault leaves the filter alone and settles mark
and quality (R44). -/
def Obligations.ResultCodeBecomesReading : Prop :=
  ∀ (params : ProbeParams) (code : Nat) (s : ProbeState),
    let t : Int := (code * params.gain / 65536 : Nat) + params.offset
    (code = 0 → readCode params code = .fault .shortCircuit) ∧
    (code = 65535 → readCode params code = .fault .openCircuit) ∧
    (1 ≤ code → code ≤ 65534 →
      (-400 ≤ t → t ≤ 800 → readCode params code = .valid t) ∧
      (t < -400 ∨ 800 < t → readCode params code = .fault .range) ∧
      (params.gain ≤ 65535 → code * params.gain < 2 ^ 32)) ∧
    (∀ v, readCode params code = .valid v → s.seeded = false → (takeReading (readCode params code) s).1.filtered = v) ∧
    (∀ kind, readCode params code = .fault kind →
      (takeReading (readCode params code) s).1.filtered = s.filtered ∧
      (takeReading (readCode params code) s).1.seeded = s.seeded ∧
      (takeReading (readCode params code) s).1.quality = faultQuality kind ∧
      (takeReading (readCode params code) s).1.mark = some (s.mark.getD kind))

/-- What a conversion does to its probe, with whether the reading was accepted: the seed; a quarter of a difference of at most
50, truncated; a rejection, with STALE at the tenth conversion without an accepted reading; the reseed at the third
rejection in a row; a fault (R45 to R48). -/
def Obligations.ReadingIsFiltered : Prop :=
  ∀ (t : Int) (s : ProbeState),
    let diff := t - s.filtered
    let good (v : Int) : ProbeState := { s with seeded := true, filtered := v, reject := 0, stale := 0, quality := .good }
    (s.seeded = false → takeReading (.valid t) s = (good t, true)) ∧
    (s.seeded = true → diff.natAbs ≤ 50 → takeReading (.valid t) s = (good (s.filtered + diff.tdiv 4), true)) ∧
    (s.seeded = true → 50 < diff.natAbs → s.reject < 2 → takeReading (.valid t) s = ({ s with
      jumps := satInc s.jumps, reject := s.reject + 1, stale := min (s.stale + 1) 10,
      quality := if 10 ≤ s.stale + 1 then .stale else s.quality }, false)) ∧
    (s.seeded = true → 50 < diff.natAbs → 2 ≤ s.reject →
      takeReading (.valid t) s = ({ good t with jumps := satInc s.jumps }, true)) ∧
    (∀ kind, takeReading (.fault kind) s = ({ s with
      mark := some (s.mark.getD kind), reject := 0, stale := min (s.stale + 1) 10,
      quality := match kind with | .openCircuit => .faultOpen | .shortCircuit => .faultShort | .range => .faultRange }, false))

/-- The five events of age. Four remove: peer temperatures past 120 s, the held value past 30 minutes, blind intervals closed more
than 10 s ago, step log entries past 8 s. PEER_WHEEL_AGED removes nothing: a peer wheel past Tmax + Lp is marked aged from then
on, and leaves in the next hold of the port. Nothing else changes (R51, R55, R74, R86, R93). -/
def Obligations.AgedEntriesLeaveOrAreMarked : Prop :=
  ∀ s : State, s.running →
    let now := s.part.now
    let limit : Int := (s.part.image.assembly.tmax + s.part.image.assembly.lp) * 1000
    exec .peerTempEntryRemoval s = .next { s with part := { s.part with ptu := { s.part.ptu with
      peers := s.part.ptu.peers.filter fun e => decide (siteDiff now e.receiveTime ≤ 120000000) } } } ∧
    exec .heldValueExpiry s = .next { s with part := { s.part with ptu := { s.part.ptu with
      held := s.part.ptu.held.filter fun h => decide (siteDiff now h.obtained ≤ 1800000000) } } } ∧
    exec .blindIntervalRemoval s = .next { s with part := { s.part with sbc := { s.part.sbc with
      blind := s.part.sbc.blind.filter fun b => b.close.all fun c => decide (siteDiff now c ≤ 10000000) } } } ∧
    exec .stepLogEntryRemoval s = .next { s with part := { s.part with stu := { s.part.stu with
      log := s.part.stu.log.filter fun e => decide (siteDiff now e.last ≤ 8000000) } } } ∧
    exec .peerWheelAged s = .next { s with part := { s.part with vau := { s.part.vau with
      peers := s.part.vau.peers.map fun e => { e with aged := e.aged || decide (limit < siteDiff now e.wheel.refTime) } } } }

/-- The effective temperature: the first usable of own surface, own depth, the mean of the group's surface values, the mean of
its depth values, the held value and the reference; an answer from the first four becomes the held value. An entry past its age
whose removal has not run yet is passed over (the model's inference, log 24) (R54, R55). -/
def Obligations.EffectiveTemperatureOrder : Prop :=
  ∀ p : Part,
    let own (pr : Probe) : Option Int :=
      if (p.ptu.probes.get pr).own.quality = .good then (p.ptu.probes.get pr).own.value else none
    let group (pr : Probe) : List Int := (p.ptu.peers.filter fun e => e.probe = pr && e.quality = .good &&
      e.group = p.block.group && decide (siteDiff p.now e.receiveTime ≤ 120000000)).filterMap PeerTemp.value
    let mean (l : List Int) : Int := l.sum.tdiv l.length
    let held : Option Int := (p.ptu.held.filter fun h => decide (siteDiff p.now h.obtained ≤ 1800000000)).map HeldValue.value
    (∀ t, own .p0 = some t → p.effective = (t, .ownSurface)) ∧
    (∀ t, own .p0 = none → own .p1 = some t → p.effective = (t, .ownDepth)) ∧
    (own .p0 = none → own .p1 = none → group .p0 ≠ [] → p.effective = (mean (group .p0), .peerSurface)) ∧
    (own .p0 = none → own .p1 = none → group .p0 = [] → group .p1 ≠ [] → p.effective = (mean (group .p1), .peerDepth)) ∧
    (∀ t, own .p0 = none → own .p1 = none → group .p0 = [] → group .p1 = [] → held = some t → p.effective = (t, .held)) ∧
    (own .p0 = none → own .p1 = none → group .p0 = [] → group .p1 = [] → held = none →
      p.effective = (p.image.probes.reference, .reference)) ∧
    (∀ t, p.keepEffective (t, .held) = p ∧ p.keepEffective (t, .reference) = p ∧
      ∀ source, source ≠ .held → source ≠ .reference →
        p.keepEffective (t, source) =
          { p with ptu := { p.ptu with held := some { value := t, obtained := p.now } } })

/-! ## Site time -/

/-- Following TIME frames. The difference is what own site time falls short of the sender's, the line delay and the own steps since
the start mark allowed for. JOIN follows any lead at once; elsewhere a lead of at most 1,000 µs is followed at once, a
larger one at the third frame of its sender, counted as a split step, and a frame that does not lead changes nothing. A step
moves site time and step total alike, is logged behind the entries not yet past 8 s, or merged into the newest of 8 (an entry that
this very step carries past 8 s counts among them: the model's choice, log 22), gives the open vehicle TIME_STEP, and in RUN and
HOLD hands over a TIME frame when it passes a due point; a due point that it lands on has been acted on (log 25) (R79 to R84,
R86). -/
def Obligations.TimeFramesAreFollowed : Prop :=
  (∀ (p : Part) (sender : Nat) (i : Fin 14) (t : SiteTime) (c : Capture), p.working = true → sender = i.val + 1 →
    let d : Int := (t + BitVec.ofNat 48 p.block.lineDelay - c.siteTime - (p.stu.stepTotal - c.stepTotal)).toInt
    let q := p.takeTimeFrame sender t c
    (d ≤ 0 → q = p) ∧
    (1 ≤ d → p.csu.station = .join ∨ d ≤ 1000 → q = (p.takeStep d.toNat).setSplit i 0) ∧
    (1000 < d → p.csu.station ≠ .join → p.stu.split[i] ≠ 2 → q = p.setSplit i (p.stu.split[i] + 1)) ∧
    (1000 < d → p.csu.station ≠ .join → p.stu.split[i] = 2 →
      q.stu.siteTime = p.stu.siteTime + BitVec.ofNat 48 d.toNat ∧ q.stu.splitSteps = satInc p.stu.splitSteps ∧ q.stu.split[i] = 0)) ∧
  (∀ (p : Part) (d : Nat),
    let q := p.takeStep d
    let t := p.stu.siteTime + BitVec.ofNat 48 d
    q.stu.siteTime = t ∧ q.stu.stepTotal = p.stu.stepTotal + BitVec.ofNat 48 d ∧ q.stu.split = p.stu.split ∧
    q.stu.splitSteps = p.stu.splitSteps ∧ q.stu.joinWindow = p.stu.joinWindow ∧
    let kept := p.stu.log.filter fun e => decide (siteDiff p.now e.last ≤ 8000000)
    (kept.length < 8 → q.stu.log = kept ++ [{ first := t, last := t }]) ∧
    (∀ older e, kept = older ++ [e] → older.length = 7 → q.stu.log = older ++ [{ e with last := t }]) ∧
    q.stu.lastDue = (if t.toNat % 250000 = 16000 * p.block.number then some t else none) ∧
    q.vau = { p.vau with vehicle := p.vau.vehicle.map fun v => { v with flags := { v.flags with timeStep := true } } } ∧
    (p.inRunOrHold = true → stepPassesDue p.block.number p.now d = true → p.sbc.list.length < 7 →
      ∃ e ∈ q.sbc.list, e.content = .time) ∧
    p.changedOnly [.stu, .vau, .sbc, .vcl] q) ∧
  (∀ (number : Nat) (t : SiteTime) (d : Nat), number ≤ 14 → d < 2 ^ 48 →
    (stepPassesDue number t d = true ↔ ∃ k, 1 ≤ k ∧ k ≤ d ∧ (t.toNat + k) % 2 ^ 48 % 250000 = 16000 * number)) ∧
  (∀ (p : Part) (i : Fin 14) (n : Fin 3),
    let q := p.setSplit i n
    q.stu = { p.stu with split := p.stu.split.set i n } ∧
    (p.stu.split[i] = n → q = p) ∧ (p.stu.split[i] ≠ n → q.csu.marks = { p.csu.marks with time := true }) ∧
    p.changedOnly [.stu, .csu, .sbc, .vcl] q)

/-! ## The site bus -/

/-- A frame or request handed to the transmit list. In LOADING, MUTE and SILENT it takes none, in UNCONFIGURED STATUS alone, and what
it does not take has no effect. What it takes: at most one TIME, VEHICLE, STATUS and TOTALS frame and one TEMP
frame of a probe, each merging as its kind does; the entry stands behind those as urgent as itself or more; a full list gives
up the newest entry of its least urgent waiting kind to a more urgent frame, and drops the new one otherwise, with the
drop counted; the record of a VEHICLE frame that leaves so is READY again (R59, R63, R64, R75, R155). -/
def Obligations.TransmitListTakesByKind : Prop :=
  ∀ (p : Part) (content : TxContent) (t : SiteTime),
    let e := newEntry content t
    let q := p.enterList content t
    let handedBack (x : TxEntry) : List VehicleRecord := match x.content with
      | .vehicle seq => p.vcl.records.map fun r =>
          if r.seq = seq ∧ r.state = .sending then { r with state := .ready } else r
      | .wheel _ | .time | .temp _ _ | .status | .totals => p.vcl.records
    let here (k : FrameKind) : Bool := p.sbc.list.any fun x => decide (x.content.kind = k)
    let one : Bool := match content with
      | .time => here .time
      | .status => here .status
      | .totals => here .totals
      | .temp probe _ => p.sbc.list.any (isTempOf probe)
      | .wheel _ | .vehicle _ => false
    let same (x : TxEntry) : Bool := decide (x.content.kind = content.kind)
    let again (x : TxEntry) : TxEntry := if x.inTransmission then { x with repeatAsked := true } else x
    let anew (c : TempContent) (x : TxEntry) : TxEntry :=
      if x.inTransmission then { x with repeatTemp := some c } else { x with content := content }
    (p.csu.station = .loading ∨ p.csu.station = .mute ∨ p.csu.station = .silent → q = p) ∧
    (p.csu.station = .unconfigured → content ≠ .status → q = p) ∧
    (p.onDuty = true ∨ p.csu.station = .unconfigured ∧ content = .status →
    (content = .time → one = true → q = { p with sbc := { p.sbc with drops := satInc p.sbc.drops } }) ∧
    (content = .status ∨ content = .totals → one = true →
      q = { p with sbc := { p.sbc with list := changeFirst same again p.sbc.list } }) ∧
    (∀ probe c, content = .temp probe c → one = true →
      q = { p with sbc := { p.sbc with list := changeFirst (isTempOf probe) (anew c) p.sbc.list } }) ∧
    (one = false → p.sbc.list.length < 8 →
      q = { p with sbc := { p.sbc with list := insertBefore (fun x => decide (e.code < x.code)) e p.sbc.list } }) ∧
    (one = false → p.sbc.list.length = 8 → (∃ x ∈ p.sbc.list, x.inTransmission = false ∧ e.code < x.code) →
      ∃ (before after : List TxEntry) (out : TxEntry), p.sbc.list = before ++ out :: after ∧ out.inTransmission = false ∧
        (∀ x ∈ p.sbc.list, x.inTransmission = false → x.code ≤ out.code) ∧
        (∀ x ∈ after, x.inTransmission = true ∨ x.code ≠ out.code) ∧
        q.sbc.list = insertBefore (fun x => decide (e.code < x.code)) e (before ++ after) ∧
        q.sbc.drops = satInc p.sbc.drops ∧ q.vcl = { p.vcl with records := handedBack out } ∧ p.changedOnly [.sbc, .vcl] q) ∧
    (one = false → p.sbc.list.length = 8 → (∀ x ∈ p.sbc.list, x.inTransmission = true ∨ x.code ≤ e.code) →
      q.sbc = { p.sbc with drops := satInc p.sbc.drops } ∧ p.changedOnly [.sbc, .vcl] q ∧
      q.vcl.records = handedBack e ∧
      q.vcl.totals = (if content.kind = .wheel then
        { p.vcl.totals with staleWheelDrops := satInc p.vcl.totals.staleWheelDrops } else p.vcl.totals)))

/-- The VEHICLE offer. The invitation stands while the list takes VEHICLE frames and holds none, and holds fewer than 8 frames or a
waiting one of a less urgent kind. While it stands and a record is READY, the oldest READY record becomes SENDING, and its frame
enters the list at this site time; otherwise nothing happens. After an offer no invitation stands that a READY record could take.
Every frame handed over is followed by such an offer (R63, R64, R153). -/
def Obligations.VehicleOffersFollowTheInvitation : Prop :=
  ∀ p : Part,
    let vehicleHere : Prop := ∃ x ∈ p.sbc.list, x.content.kind = .vehicle
    let invited : Prop := (p.csu.station = .join ∨ p.csu.station = .run ∨ p.csu.station = .hold) ∧ ¬vehicleHere ∧
      (p.sbc.list.length < 8 ∨ ∃ x ∈ p.sbc.list, x.inTransmission = false ∧ 4 < x.code)
    let q := p.offerVehicle
    (p.invitation = true ↔ invited) ∧
    (¬invited → q = p) ∧
    ((∀ r ∈ p.vcl.records, r.state ≠ .ready) → q = p) ∧
    (invited → ∀ (before after : List VehicleRecord) (r : VehicleRecord), p.vcl.records = before ++ r :: after →
      r.state = .ready → (∀ x ∈ before, x.state ≠ .ready) →
      let offered : Part := { p with vcl := { p.vcl with records := before ++ { r with state := .sending } :: after } }
      let e := newEntry (.vehicle r.seq) p.now
      q = offered.enterList (.vehicle r.seq) p.now ∧ e ∈ q.sbc.list ∧ q.vcl.records = offered.vcl.records ∧
      (p.sbc.list.length < 8 → q = { offered with sbc := { p.sbc with
        list := insertBefore (fun x => decide (4 < x.code)) e p.sbc.list } })) ∧
    (q.invitation = true → ∀ r ∈ q.vcl.records, r.state ≠ .ready) ∧
    ∀ content : TxContent, p.handFrame content = (p.enterList content p.now).offerVehicle

/-- WOULD_BE_START. On a line that has been quiet for 11 bit times: the WHEEL frames at the head older than the peer allowance are
dropped and counted, one after the other; a VEHICLE offer that this makes possible is made (its place here the model's choice,
log 33); and the first frame of the list starts with its bytes, its capture and, for TOTALS, the snapshot. On a line quiet for
less, and with an empty list, nothing happens. With frames in its list the part finds this instant itself, and lets none pass
(R59, R60, R65, R66, R157, R160). That the line is quiet while no command says otherwise is the model's choice (log 16). -/
def Obligations.FirstFrameStarts : Prop :=
  ∀ (s : State) (stale rest : List TxEntry), s.running → s.part.usesLine = true → s.part.sending = none →
    s.part.sbc.following = none →
    let bit := match s.part.block.bitRate with | .k125 => 8 | .k250 => 4 | .k500 => 2
    let limit : Int := s.part.image.assembly.lp * 1000
    let old (x : TxEntry) : Prop := x.content.kind = .wheel ∧ limit < siteDiff s.part.now x.queueTime
    let behind : Part := { s.part with
      sbc := { s.part.sbc with list := rest, drops := satInc^[stale.length] s.part.sbc.drops }
      vcl := { s.part.vcl with totals := { s.part.vcl.totals with
        staleWheelDrops := satInc^[stale.length] s.part.vcl.totals.staleWheelDrops } } }
    let p := behind.offerVehicle
    (∀ t, s.part.sbc.line = .quiet t ∨ s.part.sbc.line = .ignored t → t + 11 * bit ≤ s.part.clock →
      s.part.sbc.list = stale ++ rest → s.part.sbc.list ≠ [] → (∀ x ∈ stale, old x) →
      (∀ e, rest.head? = some e → ¬old e) →
      (∀ e more, p.sbc.list = e :: more →
        exec .wouldBeStart s = .next { s with part := { p with sbc := { p.sbc with
          list := { e with
            inTransmission := true
            snapshot := if e.content.kind = .totals then some p.vcl.totals else none } :: more
          onLine := some (frameBytes e.content.kind s.part.block.number (p.payloadOf e.content))
          txCapture := some { siteTime := s.part.stu.siteTime, stepTotal := s.part.stu.stepTotal } } } }) ∧
      (p.sbc.list = [] → exec .wouldBeStart s = .next { s with part := p })) ∧
    (∀ t, s.part.sbc.line = .quiet t ∨ s.part.sbc.line = .ignored t →
      (s.part.clock < t + 11 * bit → exec .wouldBeStart s = .next s) ∧
      (t + 11 * bit ≤ s.part.clock → s.part.sbc.list ≠ [] → (true, Instr.wouldBeStart) ∈ s.part.ownEvents) ∧
      (s.part.dueCommand = none → s.part.sbc.list ≠ [] → s.part.clock < t + 11 * bit)) ∧
    (s.part.sbc.list = [] → exec .wouldBeStart s = .next s)

/-- CONTENTION_LOSS and PAYLOAD_MISMATCH: the frame being sent stays where it stands, no longer in transmission, its snapshot and its repeat gone, a TEMP frame with its repeat's content; a WHEEL frame that was in transmission at
an entry into HOLD leaves (marked so by the model's own field, log 36), and a VEHICLE offer that this makes possible is made; a loss follows the other frame with the own capture; a
mismatch is counted, sets BUS, and lets the line's quiet count from now; the second within 10 s, the end of that span included (the
model's inference, log 30), a RESTART between the two or not (the model's choice, log 47), takes the station to SILENT, after the
STATUS request and the offer (the model's choice, log 39) (R61, R62, R66 to R68, R190). -/
def Obligations.LostFramesStayInTheList : Prop :=
  ∀ (s : State) (before after : List TxEntry) (e : TxEntry), s.running → s.part.sbc.list = before ++ e :: after →
    e.inTransmission = true → (∀ x ∈ before, x.inTransmission = false) →
    let kept : List TxEntry := if e.leaving then before ++ after else before ++ stopEntry e :: after
    let stopped : Sbc := { s.part.sbc with list := kept, onLine := none, txCapture := none }
    let repeated := ∃ t, s.part.sbc.lastMismatch = some t ∧ s.part.clock ≤ t + 10000000
    let counted : Sbc := { stopped with
      mismatches := satInc s.part.sbc.mismatches
      lastMismatch := some s.part.clock
      line := .quiet s.part.clock }
    ((stopEntry e).inTransmission = false ∧ (stopEntry e).snapshot = none ∧ (stopEntry e).repeatAsked = false ∧
      (stopEntry e).repeatTemp = none ∧ (stopEntry e).queueTime = e.queueTime ∧
      (stopEntry e).leaving = false ∧ (e.repeatTemp = none ∨ e.content.kind ≠ .temp → (stopEntry e).content = e.content) ∧
      (∀ probe c d, e.content = .temp probe c → e.repeatTemp = some d → (stopEntry e).content = .temp probe d)) ∧
    exec .contentionLoss s = .next { s with part :=
      ({ s.part with sbc := { stopped with following := s.part.sbc.txCapture } } : Part).offerVehicle } ∧
    (¬repeated → s.part.csu.marks.bus = true →
      exec .payloadMismatch s = .next { s with part := ({ s.part with sbc := counted } : Part).offerVehicle }) ∧
    (¬repeated → ∃ p : Part, exec .payloadMismatch s = .next { s with part := p } ∧ p.csu.marks.bus = true ∧
      p.sbc.mismatches = satInc s.part.sbc.mismatches ∧ p.sbc.lastMismatch = some s.part.clock ∧
      p.sbc.line = .quiet s.part.clock ∧ p.csu.station = s.part.csu.station ∧ s.part.changedOnly [.sbc, .csu, .vcl] p) ∧
    (repeated → s.part.usesLine = true → s.part.sbc.rx = [] →
      ∃ p : Part, exec .payloadMismatch s = .next { s with part := p } ∧ p.csu.station = .silent ∧ p.csu.marks.bus = true ∧
        p.sbc.mismatches = satInc s.part.sbc.mismatches ∧ p.sbc.lastMismatch = some s.part.clock ∧ p.sbc.list = [] ∧
        p.sbc.line = .quiet s.part.clock)

/-- FRAME_COMPLETE: the frame leaves the list and the line is quiet from now on; a VEHICLE frame takes its record with it, a TOTALS
frame reduces each total by its snapshot, and a repeat asked for enters anew, before the VEHICLE offer that this makes possible
(their order the model's choice, log 39) (R67, R153, R155, R161). -/
def Obligations.CompletedFrameLeavesTheList : Prop :=
  ∀ (s : State) (before after : List TxEntry) (e : TxEntry), s.running → s.part.sbc.list = before ++ e :: after →
    e.inTransmission = true → (∀ x ∈ before, x.inTransmission = false) →
    let q : Part := { s.part with sbc := { s.part.sbc with
      list := before ++ after, onLine := none, txCapture := none, line := .quiet s.part.clock } }
    (e.repeatAsked = false → e.repeatTemp = none →
      (e.content.kind ≠ .vehicle → e.content.kind ≠ .totals → exec .frameComplete s = .next { s with part := q.offerVehicle }) ∧
      (∀ seq, e.content = .vehicle seq → exec .frameComplete s = .next { s with part := ({ q with vcl := { q.vcl with
        records := dropFirst (fun r => r.seq = seq) s.part.vcl.records } } : Part).offerVehicle }) ∧
      (∀ snap, e.content = .totals → e.snapshot = some snap → exec .frameComplete s = .next { s with part :=
        ({ q with vcl := { q.vcl with totals := reduceTotals s.part.vcl.totals snap } } : Part).offerVehicle })) ∧
    (s.part.onDuty = true → before.length + after.length < 8 →
      (∀ c, e.content = c → c = .status ∨ c = .totals → e.repeatAsked = true → (∀ x ∈ before ++ after, x.content ≠ c) →
        ∃ p : Part, exec .frameComplete s = .next { s with part := p.offerVehicle } ∧ p.vcl.records = s.part.vcl.records ∧
          p.sbc.list = insertBefore (fun x => decide (c.kind.code < x.code)) (newEntry c s.part.now) (before ++ after)) ∧
      (∀ probe c d, e.content = .temp probe c → e.repeatTemp = some d → (∀ x ∈ before ++ after, isTempOf probe x = false) →
        ∃ p : Part, exec .frameComplete s = .next { s with part := p.offerVehicle } ∧ p.vcl.records = s.part.vcl.records ∧
          p.sbc.list = insertBefore (fun x => decide (5 < x.code)) (newEntry (.temp probe d) s.part.now) (before ++ after))) ∧
    (∀ t u : Totals, (∀ i : Fin 32, (reduceTotals t u).perClass[i] = t.perClass[i] - u.perClass[i]) ∧
      (reduceTotals t u).vehiclesCompleted = t.vehiclesCompleted - u.vehiclesCompleted ∧
      (reduceTotals t u).grossSum = t.grossSum - u.grossSum ∧ (reduceTotals t u).lost = t.lost - u.lost ∧
      (reduceTotals t u).ceded = t.ceded - u.ceded ∧
      (reduceTotals t u).staleWheelDrops = t.staleWheelDrops - u.staleWheelDrops ∧
      (reduceTotals t u).crcErrors = t.crcErrors - u.crcErrors ∧ (reduceTotals t u).overruns = t.overruns - u.overruns ∧
      (reduceTotals t u).markedHits = t.markedHits - u.markedHits ∧ (reduceTotals t u).holdHits = t.holdHits - u.holdHits)

/-- The receiver. START_MARK_RECEIVED: it follows the frame with site time and step total, but not on a line ignored for less than 11
bit times, where the wait begins anew. LENGTH_BYTE_OVER_120: the frame is let go and counted as a format error, and the line is
ignored from now. FRAME_RECEIVED: with no frame followed it is the end of one whose start mark was not followed, from which the line's
quiet counts (the model's choice, log 16); an early end and a wrong CRC count as CRC errors, an unknown kind as a format
error; a frame the filter turns away has no effect; one of wrong content counts as a format error; one that comes while
DEAF counts as a deaf discard. A WHEEL payload is wrong when its length is not 9 and the sizes of the fields its mask names, an
unassigned bit of the flags or the mask is set, the side or source code lies outside its table, the temperature outside −400 to
+800, or a present speed outside 1,389 to 69,444, or when neither start time is present; a TIME payload when its length is not 6; a
TEMP payload when its length does not fit its mask, an unassigned mask bit is set, or the probe, quality or group lies outside its
codes; a COMMAND payload when no code follows the target (R60, R69 to R71, R73, R75, R196). -/
def Obligations.ReceivedFramesAreChecked : Prop :=
  (∀ (sender : Nat) (b : List Byte),
    let u (o : Nat) : Nat := (b.getD o 0).toNat
    let u2 (o : Nat) : Nat := u o + 256 * u (o + 1)
    let bit (n k : Nat) : Nat := if n.testBit k then 1 else 0
    let mask := u 8
    let temperature : Int := if u2 5 < 32768 then u2 5 else u2 5 - 65536
    let at4 := 9 + 6 * bit mask 0 + 6 * bit mask 1
    let speed := u2 at4 + 65536 * u (at4 + 2)
    (parseContent .wheel sender b = none ↔
      b.length ≠ 9 + 6 * bit mask 0 + 6 * bit mask 1 + 3 * bit mask 2 + 4 * bit mask 3 + 4 * bit mask 4 + 6 * bit mask 5 +
          2 * bit mask 6 ∨
        1024 ≤ u2 3 ∨ 128 ≤ mask ∨ 1 < u 2 ∨ 5 < u 7 ∨ temperature < -400 ∨ 800 < temperature ∨
        (bit mask 0 = 0 ∧ bit mask 1 = 0) ∨ (bit mask 2 = 1 ∧ (speed < 1389 ∨ 69444 < speed))) ∧
    (parseContent .time sender b = none ↔ b.length ≠ 6) ∧
    (parseContent .temp sender b = none ↔
      b.length ≠ 4 + 2 * bit (u 3) 0 ∨ 2 ≤ u 3 ∨ 1 < u 0 ∨ 5 < u 1 ∨ u 2 < 1 ∨ 3 < u 2) ∧
    (parseContent .command sender b = none ↔ b.length < 2) ∧
    ∀ (target code : Byte) (args : List Byte), parseContent .command sender (target :: code :: args) = some (.command code args)) ∧
  ∀ (s : State) (bytes : List Byte), s.running → s.part.receiverOn = true →
    let bit := match s.part.block.bitRate with | .k125 => 8 | .k250 => 4 | .k500 => 2
    (s.part.sending = none → s.part.sbc.following = none →
      ((∀ t, s.part.sbc.line = .ignored t → t + 11 * bit ≤ s.part.clock) →
        exec .startMarkReceived s = .next { s with part := { s.part with sbc := { s.part.sbc with
          following := some { siteTime := s.part.stu.siteTime, stepTotal := s.part.stu.stepTotal } } } }) ∧
      (∀ t, s.part.sbc.line = .ignored t →
        (s.part.clock < t + 11 * bit →
          exec .startMarkReceived s = .next { s with part := { s.part with sbc := { s.part.sbc with
            line := .ignored s.part.clock } } }) ∧
        exec (.frameReceived bytes) s = .next { s with part := { s.part with sbc := { s.part.sbc with
          line := .ignored s.part.clock } } }) ∧
      (∀ t, s.part.sbc.line = .quiet t →
        exec (.frameReceived bytes) s = .next { s with part := { s.part with sbc := { s.part.sbc with
          line := .quiet s.part.clock } } })) ∧
    (s.part.sbc.following.isSome = true →
      exec .lengthByteOver120 s = .next { s with part := { s.part with sbc := { s.part.sbc with
        following := none, line := .ignored s.part.clock, formatErrors := satInc s.part.sbc.formatErrors } } }) ∧
    (s.part.sbc.following.isSome = true →
      let heard : Sbc := { s.part.sbc with following := none, line := .quiet s.part.clock }
      let badFormat : Part := { s.part with sbc := { heard with formatErrors := satInc s.part.sbc.formatErrors } }
      ((judgeBytes bytes = .endedEarly ∨ judgeBytes bytes = .badCrc) →
        exec (.frameReceived bytes) s = .next { s with part := { s.part with
          sbc := heard
          vcl := { s.part.vcl with totals :=
            { s.part.vcl.totals with crcErrors := satInc s.part.vcl.totals.crcErrors } } } }) ∧
      (judgeBytes bytes = .tooLong → exec (.frameReceived bytes) s = exec .lengthByteOver120 s) ∧
      (judgeBytes bytes = .badKind → exec (.frameReceived bytes) s = .next { s with part := badFormat }) ∧
      (∀ kind sender payload, judgeBytes bytes = .good kind sender payload → sender ≠ s.part.block.number →
        (s.part.accepts kind sender payload = false →
          exec (.frameReceived bytes) s = .next { s with part := { s.part with sbc := heard } }) ∧
        (s.part.accepts kind sender payload = true → parseContent kind sender payload = none →
          exec (.frameReceived bytes) s = .next { s with part := badFormat }) ∧
        (s.part.accepts kind sender payload = true → (parseContent kind sender payload).isSome = true →
          s.part.sbc.deaf = true →
          exec (.frameReceived bytes) s = .next { s with part := { s.part with
            sbc := { heard with deafDiscards := satInc s.part.sbc.deafDiscards } } })) ∧
      (∀ kind sender payload, s.part.accepts kind sender payload = true ↔
        kind = .wheel ∧ s.part.onDuty = true ∧
            (s.part.block.leftNeighbour = some sender ∨ s.part.block.rightNeighbour = some sender) ∨
          kind = .time ∨ kind = .temp ∨
          kind = .command ∧ ∃ target rest, payload = target :: rest ∧
            (target.toNat = s.part.block.number ∨ target = 0 ∨ target.toNat = 0x80 + s.part.block.group)))

/-- What the checks find in the bytes after the start mark: a length byte above 120; an early end, when the bytes stop before the
length byte, the payload's end or the second CRC byte; a CRC that differs from that of the priority field, the length byte and
the payload, low byte first; a kind code that names no frame; otherwise the frame's kind, its sender and its payload. Bytes
behind the CRC are not looked at (the model's choice, log 15). The kind codes are those of section 12.4. The CRC-16 register starts
at 0xFFFF and takes in each byte bit by bit, most significant first, by the generator x^16 + x^12 + x^5 + 1. A frame sent is its
priority field, its length byte, its payload and the two CRC bytes. On the line it is one dominant start mark; for each byte a
dominant start bit, its bits from the most significant on, a 0 dominant, and a recessive stop bit; and 2 recessive bit times at
the end (R60, R61, R69, R195). -/
def Obligations.FrameChecksReadTheBytes : Prop :=
  (∀ bytes : List Byte, bytes.length < 2 → judgeBytes bytes = .endedEarly) ∧
  (∀ (priority length : Byte) (rest : List Byte),
    (120 < length.toNat → judgeBytes (priority :: length :: rest) = .tooLong) ∧
    (length.toNat ≤ 120 → rest.length < length.toNat + 2 → judgeBytes (priority :: length :: rest) = .endedEarly)) ∧
  (∀ (priority low high : Byte) (payload more : List Byte), payload.length ≤ 120 →
    let length : Byte := BitVec.ofNat 8 payload.length
    let verdict := judgeBytes (priority :: length :: payload ++ low :: high :: more)
    let crc := (crc16 (priority :: length :: payload)).toNat
    (low.toNat + 256 * high.toNat ≠ crc → verdict = .badCrc) ∧
    (low.toNat + 256 * high.toNat = crc → priority.toNat / 16 = 0 ∨ 8 ≤ priority.toNat / 16 → verdict = .badKind) ∧
    (low.toNat + 256 * high.toNat = crc → ∀ kind : FrameKind, kind.code = priority.toNat / 16 →
      verdict = .good kind (priority.toNat % 16) payload)) ∧
  (∀ kind : FrameKind, (kind, kind.code) ∈ [(FrameKind.wheel, 1), (.time, 2), (.command, 3), (.vehicle, 4), (.temp, 5), (.status, 6),
    (.totals, 7)]) ∧
  (let takeBit (c : BitVec 16) (x : Bool) : BitVec 16 := (c <<< 1) ^^^ (if c.getLsbD 15 = x then 0 else 0x1021)
   crc16 [] = 0xFFFF ∧
   ∀ (bytes : List Byte) (b : Byte),
     crc16 (bytes ++ [b]) = ([7, 6, 5, 4, 3, 2, 1, 0].map fun i => b.getLsbD i).foldl takeBit (crc16 bytes)) ∧
  (∀ bytes : List Byte,
    let levels := frameLevels bytes
    levels.length = 3 + 10 * bytes.length ∧ levels[0]? = some .dominant ∧ levels[1 + 10 * bytes.length]? = some .recessive ∧
    levels[2 + 10 * bytes.length]? = some .recessive ∧
    ∀ (i : Nat) (b : Byte), bytes[i]? = some b →
      levels[1 + 10 * i]? = some .dominant ∧ levels[10 + 10 * i]? = some .recessive ∧
      ∀ k, k < 8 → levels[2 + 10 * i + k]? = some (if b.getLsbD (7 - k) then .recessive else .dominant)) ∧
  ∀ (kind : FrameKind) (sender : Nat) (payload : List Byte), sender < 16 →
    let body : List Byte := BitVec.ofNat 8 (kind.code * 16 + sender) :: BitVec.ofNat 8 payload.length :: payload
    frameBytes kind sender payload =
      body ++ [BitVec.ofNat 8 (crc16 body).toNat, BitVec.ofNat 8 ((crc16 body).toNat / 256)]

/-- A frame that needs no port, received into an empty buffer, is handed on at once: TIME to the STU, TEMP to the PTU, and a
COMMAND as the command that its code names. The PTU takes a TEMP frame of another station 1 to 14 whose quality is not GOOD or
whose value lies in −400 to +800: it replaces the entry of its station and probe, or makes one, with this site time; any other
has no effect (R50, R72, R80, R186). That a COMMAND frame of any sender but the own number is handed on, though section 12.2 gives
its sender as 15, is the model's inference (log 31). -/
def Obligations.FramesAreHandedOnAtOnce : Prop :=
  (∀ (p : Part) (sender : Nat) (probe : Probe) (c : TempContent),
    let fits := p.working = true ∧ 1 ≤ sender ∧ sender ≤ 14 ∧ sender ≠ p.block.number ∧
      (c.quality = .good → ∃ t, c.value = some t ∧ -400 ≤ t ∧ t ≤ 800)
    let e : PeerTemp := { station := sender, probe := probe, value := c.value, quality := c.quality, group := c.group,
                          receiveTime := p.now }
    let other (x : PeerTemp) : Prop := x.station ≠ sender ∨ x.probe ≠ probe
    let q := p.takeTempFrame sender probe c
    (¬fits → q = p) ∧
    (fits → (∀ x ∈ p.ptu.peers, other x) → q = { p with ptu := { p.ptu with peers := p.ptu.peers ++ [e] } }) ∧
    (fits → ∀ before x after, p.ptu.peers = before ++ x :: after → (∀ y ∈ before, other y) → ¬other x →
      q = { p with ptu := { p.ptu with peers := before ++ e :: after } })) ∧
  ∀ (s : State) (bytes : List Byte) (c : Capture) (kind : FrameKind) (sender : Nat) (payload : List Byte), s.running →
    s.part.receiverOn = true → s.part.sbc.following = some c → s.part.sbc.rx = [] → s.part.sbc.deaf = false →
    judgeBytes bytes = .good kind sender payload → sender ≠ s.part.block.number →
    s.part.accepts kind sender payload = true →
    let heard : Part := { s.part with sbc := { s.part.sbc with following := none, line := .quiet s.part.clock } }
    let carried : SiteTime := BitVec.ofNat 48 (leValue payload)
    (kind = .time → payload.length = 6 →
      exec (.frameReceived bytes) s = .next { s with part := heard.takeTimeFrame sender carried c }) ∧
    (∀ probe content, kind = .temp → parseTemp payload = some (probe, content) →
      exec (.frameReceived bytes) s = .next { s with part := heard.takeTempFrame sender probe content }) ∧
    (∀ target code args, kind = .command → payload = target :: code :: args →
      (∀ k : CommandKind, k.code = code → exec (.frameReceived bytes) s = exec (k.instr args) { s with part := heard }) ∧
      ((code = 0 ∨ 8 ≤ code.toNat) →
        exec (.frameReceived bytes) s = exec (.unknownCommand code args) { s with part := heard }))

/-- A received frame and the buffer. A WHEEL frame that comes into an empty buffer is kept, and the dispatcher requests the port. Behind
a WHEEL frame that waits, any frame waits, up to 4 in all. A frame that finds 4 is an overrun, which counts, sets BUS and DEAF,
and opens a blind interval at this site time, or, with 4 held, opens the newest again with its start kept; those closed more
than 10 s ago leave first (the model's inference, log 24) (R72 to R74, R90). -/
def Obligations.WheelFramesWaitForThePort : Prop :=
  ∀ (s : State) (bytes payload : List Byte) (c : Capture) (kind : FrameKind) (sender : Nat) (f : RxFrame), s.running →
    s.part.receiverOn = true → s.part.sbc.following = some c → s.part.sbc.deaf = false →
    judgeBytes bytes = .good kind sender payload → sender ≠ s.part.block.number → s.part.accepts kind sender payload = true →
    parseContent kind sender payload = some f →
    let entry : RxEntry := { frame := f, capture := c, arrival := s.part.now }
    let kept : Part := { s.part with sbc := { s.part.sbc with
      following := none, line := .quiet s.part.clock, rx := s.part.sbc.rx ++ [entry] } }
    let fresh := s.part.sbc.blind.filter fun b => b.close.all fun x => decide (siteDiff s.part.now x ≤ 10000000)
    (∀ n w, s.part.sbc.rx = [] → f = .wheel n w →
      exec (.frameReceived bytes) s = .next { s with part := kept.requestPort .dispatcher }) ∧
    (∀ e rest n w, s.part.sbc.rx = e :: rest → rest.length < 3 → e.frame = .wheel n w → s.part.csu.station ≠ .silent →
      s.part.vau.port.standing .dispatcher = true → exec (.frameReceived bytes) s = .next { s with part := kept }) ∧
    (s.part.sbc.rx.length = 4 →
      ∃ p : Part, exec (.frameReceived bytes) s = .next { s with part := p } ∧ p.sbc.rx = s.part.sbc.rx ∧
        p.sbc.deaf = true ∧ p.csu.marks.bus = true ∧
        p.vcl.totals = { s.part.vcl.totals with overruns := satInc s.part.vcl.totals.overruns } ∧
        (fresh.length < 4 → p.sbc.blind = fresh ++ [{ start := s.part.now, close := none }]) ∧
        (∀ older newest, fresh = older ++ [newest] → older.length = 3 →
          p.sbc.blind = older ++ [{ newest with close := none }]) ∧
        s.part.changedOnly [.sbc, .csu, .vcl] p)

/-- DISPATCHER_PORT_GRANT: aged entries leave; the wheel at the head joins the peer list in the order of the reference times when
its sender is the neighbour on its near side and it is no repeat, and with 33 entries the earliest leaves, counted, of equals the one inserted first (the
model's choice, log 45); an entry of its sender and number that the list still holds gives way to it (log 46); the head
leaves the buffer, and the frames behind it that need no port are handed on in their order, one by one. With an empty buffer
DEAF and the open blind interval end, and the port goes to the next; with another WHEEL frame at the head the dispatcher's
next request stands at the release, which returns the port to it. A request on a free port is granted at once, any other waits; of
requests made at one instant of own clock, before the work of the one granted has begun, the order dispatcher, axle former, class walk
picks, and the others wait (that such a grant is passed on is the model's inference, log 20); a release grants in that order
(R72, R73, R90 to R93). -/
def Obligations.DispatcherServesItsGrant : Prop :=
  (∀ (s : State) (e : RxEntry) (rest : List RxEntry) (sender : Nat) (w : Wheel), s.running →
    s.part.vau.port.holder = some .dispatcher → s.part.sbc.rx = e :: rest → e.frame = .wheel sender w →
    let limit : Int := (s.part.image.assembly.tmax + s.part.image.assembly.lp) * 1000
    let young := s.part.vau.peers.filter fun x => !x.aged && decide (siteDiff s.part.now x.wheel.refTime ≤ limit)
    let near := otherSide w.side
    let fits : Bool := decide (s.part.neighbour near = some sender) && decide (s.part.vau.lastPeer.get near ≠ some w.number)
    let later (x : PeerWheel) : Bool := decide (0 < siteDiff x.wheel.refTime w.refTime)
    let others := young.filter fun x => !decide (x.sender = sender ∧ x.wheel.number = w.number)
    let l := insertBefore later { sender := sender, wheel := w, aged := false } others
    let judged : Vau := if fits then { s.part.vau with
        peers := if l.length ≤ 32 then l else l.drop 1
        peerOverflows := if l.length ≤ 32 then s.part.vau.peerOverflows else satInc s.part.vau.peerOverflows
        lastPeer := s.part.vau.lastPeer.set near (some w.number) }
      else { s.part.vau with peers := young }
    let served : Part := { s.part with vau := judged, sbc := { s.part.sbc with rx := rest } }
    let closed := s.part.sbc.blind.map fun b => { b with close := some (b.close.getD s.part.now) }
    exec .dispatcherPortGrant s =
      .next { s with part := ((served.dispatchFrames rest.length).endDeaf).releaseDispatcher } ∧
    (rest = [] → exec .dispatcherPortGrant s = .next { s with part := { s.part with
      vau := { judged with port := s.part.vau.port.grantNext }
      sbc := { s.part.sbc with
        rx := [], deaf := false, blind := if s.part.sbc.deaf then closed else s.part.sbc.blind } } }) ∧
    (∀ x more n v, rest = x :: more → x.frame = .wheel n v → s.part.csu.station ≠ .silent →
      exec .dispatcherPortGrant s = .next { s with part := { served with
        vau := { judged with port := { s.part.vau.port with holder := some .dispatcher, waitDispatcher := false, freshAt := none } } } })) ∧
  (∀ (s : State), s.running → s.part.vau.port.holder ≠ some .dispatcher → exec .dispatcherPortGrant s = .next s) ∧
  (∀ (q : Port) (now : Nat) (r : Requester),
    let rank (x : Requester) : Nat := match x with | .dispatcher => 0 | .axleFormer => 1 | .classWalk => 2
    let waits (x : Requester) : Port := { q with
      waitDispatcher := q.waitDispatcher || decide (x = .dispatcher)
      waitAxleFormer := q.waitAxleFormer || decide (x = .axleFormer)
      waitClassWalk := q.waitClassWalk || decide (x = .classWalk) }
    (q.holder = none → q.request now r = { q with holder := some r, freshAt := some now }) ∧
    (∀ x, q.holder = some x →
      (q.freshAt = some now → rank r < rank x → q.request now r = { waits x with holder := some r }) ∧
      (q.freshAt ≠ some now ∨ rank x ≤ rank r → q.request now r = waits r)) ∧
    q.grantNext = { q with
      holder := if q.waitDispatcher then some .dispatcher else if q.waitAxleFormer then some .axleFormer
        else if q.waitClassWalk then some .classWalk else none
      waitDispatcher := false
      waitAxleFormer := q.waitDispatcher && q.waitAxleFormer
      waitClassWalk := (q.waitDispatcher || q.waitAxleFormer) && q.waitClassWalk
      freshAt := none }) ∧
  (∀ (p : Part) (r : Requester), p.requestPort r = if p.vau.port.standing r then p
    else { p with vau := { p.vau with port := p.vau.port.request p.clock r } }) ∧
  ∀ (p : Part) (n : Nat),
    (p.sbc.rx = [] → p.dispatchFrames n = p) ∧
    ∀ (e : RxEntry) (rest : List RxEntry), p.sbc.rx = e :: rest →
      let popped : Part := { p with sbc := { p.sbc with rx := rest } }
      (∀ k t, e.frame = .time k t → p.dispatchFrames (n + 1) = (popped.takeTimeFrame k t e.capture).dispatchFrames n) ∧
      (∀ k pr c, e.frame = .temp k pr c → p.dispatchFrames (n + 1) = (popped.takeTempFrame k pr c).dispatchFrames n) ∧
      (∀ code args, e.frame = .command code args → p.dispatchFrames (n + 1) = (popped.judge code args).dispatchFrames n) ∧
      (∀ k w, e.frame = .wheel k w → p.csu.station ≠ .silent → p.dispatchFrames n = p) ∧
      (∀ k w, e.frame = .wheel k w → p.csu.station = .silent → p.dispatchFrames (n + 1) = popped.dispatchFrames n)

/-- A frame with the own station number takes the station to SILENT: what waits to be sent and what is being assembled is given up,
wheels, checks and the open vehicle among it, outputs come to rest under an accepted image, the JOIN window closes, and
STATE is set. The record of a VEHICLE frame in the list is handed back as READY, and the store record of each wheel given up in
the intake and the pending list is closed. In SILENT such a frame has no further effect (R21, R68, R70, R109, R112, R155, R174,
R190). -/
def Obligations.OwnNumberHeardTakesSilent : Prop :=
  ∀ (s : State) (bytes payload : List Byte) (kind : FrameKind), s.running → s.part.sbc.following.isSome = true →
    s.part.sbc.rx = [] → judgeBytes bytes = .good kind s.part.block.number payload →
    (s.part.usesLine = true →
      ∃ p : Part, exec (.frameReceived bytes) s = .next { s with part := p } ∧ p.csu.station = .silent ∧
        p.csu.marks.state = true ∧ p.csu.image = s.part.csu.image ∧ p.csu.block = s.part.csu.block ∧ p.csu.deferred = false ∧
        p.csu.pinActive = s.part.csu.pinActive ∧ p.csu.commandHold = s.part.csu.commandHold ∧
        p.sbc.list = [] ∧ p.sbc.onLine = none ∧ p.sbc.following = none ∧ p.sbc.drops = s.part.sbc.drops ∧
        p.pse.fifo = { left := [], right := [] } ∧ p.pse.checks = [] ∧ p.pse.wheelCounter = s.part.pse.wheelCounter ∧
        p.vau.intake = [] ∧ p.vau.waiting = [] ∧ p.vau.vehicle = none ∧ p.vau.runStart = none ∧
        p.vau.peers = s.part.vau.peers ∧ p.stu = { s.part.stu with joinWindow := none } ∧
        p.tou = (if s.part.csu.image.isSome then Tou.atRest else s.part.tou) ∧
        p.pse.history = { ll := [], lr := [], tl := [], tr := [] } ∧
        p.pse.store = s.part.pse.store.map (fun r =>
          if (s.part.vau.intake.any fun w => decide (w.wheel.number = r.wheel.number)) ||
            s.part.vau.waiting.any (fun w => decide (w.wheel.number = r.wheel.number)) then { r with isOpen := false } else r) ∧
        p.vcl = { s.part.vcl with records := s.part.vcl.records.map fun r =>
          if (s.part.sbc.list.any fun e => decide (e.content = .vehicle r.seq)) && decide (r.state = .sending) then
            { r with state := .ready } else r } ∧
        s.part.changedOnly [.csu, .sbc, .pse, .vau, .stu, .tou, .vcl] p) ∧
    (s.part.csu.station = .silent →
      exec (.frameReceived bytes) s = .next { s with part := { s.part with sbc := { s.part.sbc with
        following := none, line := .quiet s.part.clock } } })

/-- What a station sends another receives: the bytes of a frame of at most 120 payload bytes pass the checks with the kind, the
sender and the payload that they were made from. A TIME payload carries its site time, a TEMP payload its probe, quality, group
and value, and a WHEEL payload the whole wheel record, for every value that its fields admit (R60, R69, R195, R196, section
12.2). -/
def Obligations.FramesAndPayloadsRoundTrip : Prop :=
  (∀ (kind : FrameKind) (sender : Nat) (payload : List Byte), sender < 16 → payload.length ≤ 120 →
    judgeBytes (frameBytes kind sender payload) = .good kind sender payload) ∧
  ∀ sender : Nat,
    (∀ t : SiteTime, parseContent .time sender (timePayload t) = some (.time sender t)) ∧
    (∀ (probe : Probe) (c : TempContent), 1 ≤ c.group → c.group ≤ 3 → (∀ v, c.value = some v → -32768 ≤ v ∧ v ≤ 32767) →
      parseContent .temp sender (tempPayload probe c) = some (.temp sender probe c)) ∧
    (∀ w : Wheel, (w.leadStart.isSome = true ∨ w.trailStart.isSome = true) → -400 ≤ w.temperature → w.temperature ≤ 800 →
      (∀ v, w.speed = some v → 1389 ≤ v ∧ v ≤ 69444) → (∀ q, w.qLead = some q → q < 2 ^ 32) →
      (∀ q, w.qTrail = some q → q < 2 ^ 32) → (∀ n, w.load = some n → n < 65536) →
      parseContent .wheel sender (wheelPayload w) = some (.wheel sender w))

/-- Where the fields of the payloads lie (sections 12.1, 12.2 and 12.4), each multi-byte field low byte first, as the frame builder
makes them from the part: every field of a VEHICLE, a STATUS and a TOTALS payload at its offset, with the length; flags joined
with the TRIG flags of the slot; the optional fields named by the presence mask and in their order; the axle descriptors two to a
byte; the loads and spacings of the axles; and the fields of WHEEL, TEMP and TIME payloads. The codes of the enumerated values
are those of section 12.4 (R66, R154, R160, R192, R194). -/
def Obligations.PayloadFieldsLieAtTheirOffsets : Prop :=
  let bytes (n v : Nat) : List Byte := (List.range n).map fun i => BitVec.ofNat 8 (v / 256 ^ i)
  let opt (n : Nat) (v : Option Nat) : List Byte := (v.map (bytes n)).getD []
  let field (b : List Byte) (o n : Nat) : Nat := ((b.drop o).take n).foldr (fun x k => x.toNat + 256 * k) 0
  let names (mask : Nat) (l : List Bool) : Prop := mask < 2 ^ l.length ∧ ∀ i x, l[i]? = some x → mask / 2 ^ i % 2 = (if x then 1 else 0)
  let signed (k : Nat) : Int := if k < 32768 then k else k - 65536
  (∀ (p : Part) (before after : List VehicleRecord) (r : VehicleRecord), p.vcl.records = before ++ r :: after →
    (∀ x ∈ before, x.seq ≠ r.seq) → r.owner ≤ 14 → r.axles.length ≤ 12 → r.gross < 2 ^ 32 →
    -400 ≤ r.temperature → r.temperature ≤ 800 →
    let b := p.payloadOf (.vehicle r.seq)
    let f := r.flags
    let g := r.slotFlags
    let half (i : Nat) : Nat := match r.axles[i]? with
      | some a => axleKindCode a.kind + (if a.left.isSome then 4 else 0) + (if a.right.isSome then 8 else 0)
      | none => 0
    (field b 0 2 = r.seq.toNat ∧ field b 2 1 = r.owner ∧ field b 3 6 = r.firstLead.toNat ∧ field b 9 1 = r.axles.length ∧
      field b 10 4 = r.gross ∧ field b 14 1 = (r.cls.getD 0).val ∧ field b 15 2 = r.groupOver.toNat ∧
      signed (field b 17 2) = r.temperature ∧ field b 19 1 = sourceCode r.source ∧ field b 20 2 = r.lostCount.toNat ∧
      field b 22 2 = r.cededCount.toNat) ∧
    names (field b 24 2) [f.partialLoad || g.partialLoad, f.noSpeed || g.noSpeed, f.accel || g.accel, f.laneChange || g.laneChange,
      f.peerBlind || g.peerBlind, f.timeStep || g.timeStep, f.axleLimit || g.axleLimit, f.continuation || g.continuation,
      f.holdCut || g.holdCut, f.grossOver || g.grossOver, f.trigLate || g.trigLate, f.trigMerged || g.trigMerged,
      f.trigMissed || g.trigMissed] ∧
    names (field b 26 1) [r.speed.isSome, r.headway.isSome, r.ruleIndex.isSome] ∧
    b.drop 27 = opt 3 r.speed ++ opt 2 r.headway ++ opt 1 r.ruleIndex ++
      (List.range ((r.axles.length + 1) / 2)).map (fun i => BitVec.ofNat 8 (half (2 * i) + 16 * half (2 * i + 1))) ++
      r.axles.flatMap (fun a => opt 2 a.left ++ opt 2 a.right ++ opt 3 a.spacing) ∧
    (1 ≤ r.axles.length → (∀ a, r.axles.head? = some a → a.spacing = none) → 28 ≤ b.length ∧ b.length ≤ 120)) ∧
  (∀ p : Part,
    let b := p.payloadOf .status
    let c := p.csu
    let marks := p.lcu.channels
    let probe (s : ProbeState) : Nat := qualityCode s.quality + 8 * probeMarkCode s.mark
    (field b 0 1 = stationCode c.station ∧ names (field b 1 1) [c.pinActive, c.commandHold] ∧
      field b 2 1 = channelMarkCode marks.ll.mark + 4 * channelMarkCode marks.lr.mark + 16 * channelMarkCode marks.tl.mark +
        64 * channelMarkCode marks.tr.mark ∧
      field b 3 1 = probe p.ptu.probes.p0 ∧ field b 4 1 = probe p.ptu.probes.p1 ∧
      field b 5 4 < 4 ^ 14 ∧ (∀ i : Fin 14, field b 5 4 / 4 ^ i.val % 4 = p.stu.split[i].val) ∧ field b 9 2 = p.stu.splitSteps.toNat) ∧
    ((List.range 9).map (fun k => field b (11 + 2 * k) 2) = [p.sbc.drops.toNat, p.sbc.mismatches.toNat, p.sbc.formatErrors.toNat,
      p.sbc.deafDiscards.toNat, p.vau.peerOverflows.toNat, p.vau.droppedWheels.toNat, p.vau.forcedDecisions.toNat,
      p.ptu.probes.p0.jumps.toNat, p.ptu.probes.p1.jumps.toNat] ∧
      names (field b 29 1) [c.marks.state, c.marks.channels, c.marks.probes, c.marks.time, c.marks.bus]) ∧
    (let offset : Option Nat := match c.loadFault with | some x => x.offset | none => none
     names (field b 30 1) [c.loadFault.isSome, offset.isSome, c.lastResult.isSome] ∧
     b.drop 31 = (match c.loadFault with | some x => bytes 1 x.index ++ bytes 1 (faultCode x.code) | none => []) ++ opt 1 offset ++
       (match c.lastResult with | some x => [x.code, BitVec.ofNat 8 (resultCode x.result), x.count] | none => []))) ∧
  (∀ p : Part,
    let b := p.payloadOf .totals
    let t := p.vcl.totals
    b.length = 90 ∧ (∀ i : Fin 32, field b (2 * i.val) 2 = t.perClass[i].toNat) ∧ field b 64 4 = t.vehiclesCompleted.toNat ∧
    field b 68 4 = t.grossSum.toNat ∧ field b 72 2 = t.lost.toNat ∧ field b 74 2 = t.ceded.toNat ∧
    field b 76 2 = t.staleWheelDrops.toNat ∧ field b 78 2 = t.crcErrors.toNat ∧ field b 80 2 = t.overruns.toNat ∧
    field b 82 4 = t.markedHits.toNat ∧ field b 86 4 = t.holdHits.toNat) ∧
  (∀ (p : Part) (w : Wheel), -400 ≤ w.temperature → w.temperature ≤ 800 →
    let b := p.payloadOf (.wheel w)
    let f := w.flags
    let time (x : Option SiteTime) : List Byte := opt 6 (x.map BitVec.toNat)
    field b 0 2 = w.number.toNat ∧ field b 2 1 = sideCode w.side ∧ signed (field b 5 2) = w.temperature ∧
    field b 7 1 = sourceCode w.source ∧
    names (field b 3 2) [f.orphanLead, f.orphanTrail, f.single, f.clipped, f.stretched, f.areaSat, f.qSat, f.loadSat, f.lowSpeed,
      f.timeStep] ∧
    names (field b 8 1) [w.leadStart.isSome, w.trailStart.isSome, w.speed.isSome, w.qLead.isSome, w.qTrail.isSome, w.runStart.isSome,
      w.load.isSome] ∧
    b.drop 9 = time w.leadStart ++ time w.trailStart ++ opt 3 w.speed ++ opt 4 w.qLead ++ opt 4 w.qTrail ++ time w.runStart ++
      opt 2 w.load) ∧
  (∀ (p : Part) (probe : Probe) (c : TempContent), c.group ≤ 3 → (∀ v, c.value = some v → -32768 ≤ v ∧ v ≤ 32767) →
    let b := p.payloadOf (.temp probe c)
    field b 0 1 = probeCode probe ∧ field b 1 1 = qualityCode c.quality ∧ field b 2 1 = c.group ∧
    (c.value = none → field b 3 1 = 0 ∧ b.length = 4) ∧
    (∀ v, c.value = some v → field b 3 1 = 1 ∧ signed (field b 4 2) = v ∧ b.length = 6)) ∧
  (∀ p : Part, field (p.payloadOf .time) 0 6 = p.stu.siteTime.toNat ∧ (p.payloadOf .time).length = 6) ∧
  ([StationState.loading, .mute, .unconfigured, .join, .run, .hold, .silent].map stationCode = [0, 1, 2, 3, 4, 5, 6] ∧
    [CommandResult.taken, .refusedState, .badArgument, .unknown].map resultCode = [0, 1, 2, 3] ∧
    [CommandKind.hold, .release, .restart, .requestStatus, .requestTotals, .clearMarks, .rebaseline].map CommandKind.code =
      [1, 2, 3, 4, 5, 6, 7] ∧
    [Side.left, .right].map sideCode = [0, 1] ∧ [Probe.p0, .p1].map probeCode = [0, 1] ∧
    [TempSource.ownSurface, .ownDepth, .peerSurface, .peerDepth, .held, .reference].map sourceCode = [0, 1, 2, 3, 4, 5] ∧
    [Quality.none, .good, .stale, .faultOpen, .faultShort, .faultRange].map qualityCode = [0, 1, 2, 3, 4, 5] ∧
    [none, some ChannelMark.dead, some .drift, some .stuckLong].map channelMarkCode = [0, 1, 2, 3] ∧
    [none, some ProbeMark.openCircuit, some .shortCircuit, some .range].map probeMarkCode = [0, 1, 2, 3] ∧
    [AxleKind.inLane, .straddleLeft, .straddleRight, .singleWheel].map axleKindCode = [0, 1, 2, 3] ∧
    [FaultCode.sum, .sequence, .range, .order, .duplicate, .missing, .size, .read].map faultCode = [1, 2, 3, 4, 5, 6, 7, 8])

/-! ## Axles, vehicles, classes and outputs -/

/-- When a wheel is a candidate for another: they hold a common start time, one of them has a PAIR speed, the deciding wheel's
before the candidate's, and the offset of the common start times lies within the coincidence window at that speed (R98). -/
def Obligations.CandidateWheels : Prop :=
  (∀ d k : Wheel,
    (∀ x y, d.leadStart = some x → k.leadStart = some y → wheelOffset d k = some (siteDiff y x)) ∧
    (∀ x y, d.leadStart = none ∨ k.leadStart = none → d.trailStart = some x → k.trailStart = some y →
      wheelOffset d k = some (siteDiff y x)) ∧
    (wheelOffset d k = none ↔ (d.leadStart = none ∨ k.leadStart = none) ∧ (d.trailStart = none ∨ k.trailStart = none))) ∧
  (∀ (dc : Nat) (d k : Wheel),
    (∀ v, d.speed = some v → coincidenceWindow dc d k = some (dc * 1000000 / v)) ∧
    (∀ v, d.speed = none → k.speed = some v → coincidenceWindow dc d k = some (dc * 1000000 / v)) ∧
    (d.speed = none → k.speed = none → coincidenceWindow dc d k = none ∧ candidateOffset dc d k = none) ∧
    (∀ n, candidateOffset dc d k = some n ↔
      ∃ o w, wheelOffset d k = some o ∧ coincidenceWindow dc d k = some w ∧ o.natAbs ≤ w ∧ n = o.natAbs) ∧
    (dc = 400 → d.speed = some 22222 → coincidenceWindow dc d k = some 18000)) ∧
  ∃ (dc : Nat) (d k : Wheel), (candidateOffset dc d k).isSome = true ∧ candidateOffset dc k d = none

/-- The two stations of a straddle axle name the same owner: the one whose wheel has the smaller key, its run start when present
and otherwise its reference time, and on equal keys the lower number; no two keys are half the range of site time apart in
a running site. A ceded axle is counted, and ends the open vehicle (R105, R107, R151). -/
def Obligations.StationsNameOneOwner : Prop :=
  (∀ (p q : Part) (l m : Wheel), p.block.number ≠ q.block.number → siteDiff (ownerKey l) (ownerKey m) ≠ -(2 ^ 47) →
    (p.owns l m q.block.number = true ↔ q.owns m l p.block.number = false) ∧
    (p.owns l m q.block.number = true ↔ siteDiff (ownerKey l) (ownerKey m) < 0 ∨
      ownerKey l = ownerKey m ∧ p.block.number < q.block.number) ∧
    (∀ t, l.runStart = some t → ownerKey l = t) ∧ (l.runStart = none → ownerKey l = l.refTime)) ∧
  ∀ p : Part,
    let t : Totals := { p.vcl.totals with ceded := satInc p.vcl.totals.ceded }
    (p.vau.vehicle = none →
      p.cedeAxle = { p with vcl := { p.vcl with totals := t, cededCarry := satInc p.vcl.cededCarry } }) ∧
    (p.vau.vehicle.isSome = true → p.cedeAxle.vau.vehicle = none ∧ p.cedeAxle.vcl.totals.ceded = satInc p.vcl.totals.ceded)

/-- The axle former. DECISION_TIME_REACHED and CLOSE_TIME_REACHED: it stands for the port, and the open vehicle's close mark becomes
timer unless it is set. AXLE_FORMER_HOLD: aged peer wheels leave; the intake is placed, oldest first, a full list of 8 deciding its
oldest wheel first as a forced decision; then the marked wheels are decided, then those whose decision time has been reached,
each the first of the list (a full list counts a forced decision of a wheel that is forced already too, the model's inference,
log 11); then the close that is due is done, and the port released. So the intake is taken whole, and no wheel
that is forced or whose decision time has been reached stays pending, no vehicle whose close is due stays open and no aged peer
wheel stays; a wheel with no partner opens a vehicle of one SINGLE_WHEEL axle, two wheels of the lane within the window one of
an IN_LANE axle, under the next tag (R93, R95, R96, R97, R99, R101, R102, R117, R119, R120). -/
def Obligations.AxleFormerDoesItsWork : Prop :=
  (∀ s : State, s.running →
    let now := s.part.now
    let asm := s.part.image.assembly
    let asked : Port := if s.part.vau.port.standing .axleFormer then s.part.vau.port else
      s.part.vau.port.request s.part.clock .axleFormer
    ((∃ w ∈ s.part.vau.waiting, 0 ≤ siteDiff now w.decisionTime) →
      exec .decisionTimeReached s = .next { s with part := { s.part with vau := { s.part.vau with port := asked } } }) ∧
    (∀ v, s.part.vau.vehicle = some v → 0 ≤ siteDiff now v.closeTime →
      exec .closeTimeReached s = .next { s with part := { s.part with vau := { s.part.vau with
        port := asked, vehicle := some { v with closeMark := some (v.closeMark.getD .timer) } } } }) ∧
    (s.part.vau.port.holder = some .axleFormer →
      exec .axleFormerHold s = .next { s with part := s.part.formerWork.releasePort }) ∧
    (s.part.vau.port.holder = some .axleFormer →
      ∃ p : Part, exec .axleFormerHold s = .next { s with part := p } ∧ p.vau.intake = [] ∧
        (∀ w ∈ p.vau.waiting, w.forced = false ∧ siteDiff now w.decisionTime < 0) ∧
        (∀ v, p.vau.vehicle = some v → v.closeMark = none ∧ siteDiff now v.closeTime < 0) ∧
        (∀ e ∈ p.vau.peers, e.aged = false ∧ siteDiff now e.wheel.refTime ≤ (asm.tmax + asm.lp) * 1000) ∧
        s.part.changedOnly [.pse, .vau, .vcl, .tou] p ∧
        (∀ (w : Wheel) (t : SiteTime), s.part.vau.intake = [{ wheel := w, completion := t, forced := false }] →
          s.part.vau.waiting = [] → s.part.vau.peers = [] → s.part.vau.vehicle = none →
          0 ≤ siteDiff now (t + BitVec.ofNat 48 (asm.lp * 1000)) →
          let single : AxleWheel := { wheel := w, borrowed := none, isLocal := true }
          let a := makeAxle .singleWheel (if w.side = .left then some single else none)
            (if w.side = .right then some single else none) (s.part.blindTest w)
          siteDiff now (closeTimeOf asm [a]) < 0 →
          p.vau.waiting = [] ∧ p.vau.tagCounter = s.part.vau.tagCounter + 1 ∧ p.vau.runStart = some w.refTime ∧
          ∃ v, p.vau.vehicle = some v ∧ v.axles = [a] ∧ v.tag = s.part.vau.tagCounter ∧ v.closeMark = none ∧
            v.runningGross = w.load.getD 0 ∧ v.closeTime = closeTimeOf asm [a]) ∧
        (∀ (w k : Wheel) (t u : SiteTime), s.part.vau.intake =
            [{ wheel := w, completion := t, forced := false }, { wheel := k, completion := u, forced := false }] →
          s.part.vau.waiting = [] → s.part.vau.vehicle = none → 0 ≤ siteDiff now (t + BitVec.ofNat 48 (asm.lp * 1000)) →
          w.side = .left → k.side = .right → w.number ≠ k.number → (candidateOffset asm.dc w k).isSome = true →
          let a := makeAxle .inLane (some (s.part.localCopy w (some k))) (some (s.part.localCopy k (some w))) false
          siteDiff now (closeTimeOf asm [a]) < 0 →
          p.vau.waiting = [] ∧ p.vau.tagCounter = s.part.vau.tagCounter + 1 ∧ p.vau.runStart = some a.leadTime ∧
          ∃ v, p.vau.vehicle = some v ∧ v.axles = [a] ∧ v.tag = s.part.vau.tagCounter ∧ v.closeMark = none ∧
            v.runningGross = a.load))) ∧
  (∀ p : Part,
    let asm := p.image.assembly
    let aged (e : PeerWheel) : Bool := e.aged || decide (((asm.tmax + asm.lp) * 1000 : Nat) < siteDiff p.now e.wheel.refTime)
    let placed := p.vau.intake.foldl Part.placeWheel
      { p with vau := { p.vau with peers := p.vau.peers.filter (fun e => !aged e), intake := [] } }
    let forced := placed.decideAll PendingWheel.forced placed.vau.waiting.length
    let due (w : PendingWheel) : Bool := decide (0 ≤ siteDiff p.now w.decisionTime)
    p.formerWork = (forced.decideAll due forced.vau.waiting.length).closeIfDue ∧
    (∀ v, p.vau.vehicle = some v → (v.closeMark.isSome = true ∨ 0 ≤ siteDiff p.now v.closeTime) →
      p.closeIfDue = p.closeVehicle .timer) ∧
    ((∀ v, p.vau.vehicle = some v → v.closeMark = none ∧ siteDiff p.now v.closeTime < 0) → p.closeIfDue = p) ∧
    (∀ (f : PendingWheel → Bool) (n : Nat),
      (p.vau.waiting.find? f = none → p.decideAll f n = p) ∧
      (∀ w, p.vau.waiting.find? f = some w → p.decideAll f (n + 1) = (p.decideWheel w.wheel).decideAll f n))) ∧
  ∀ (p : Part) (w : IntakeWheel),
    let e : PendingWheel :=
      { wheel := w.wheel, decisionTime := w.completion + BitVec.ofNat 48 (p.image.assembly.lp * 1000), forced := w.forced }
    let joined (q : Part) : Part := { q with vau := { q.vau with waiting := q.vau.waiting ++ [e] } }
    (p.vau.waiting.length < 8 → p.placeWheel w = joined p) ∧
    ∀ oldest rest, p.vau.waiting = oldest :: rest → p.vau.waiting.length = 8 →
      p.placeWheel w = joined (({ p with vau := { p.vau with forcedDecisions := satInc p.vau.forcedDecisions } } : Part).decideWheel
        oldest.wheel)

/-- How a pending wheel is decided. It leaves the list, its store record closed. Its partner is the candidate of the other side
with the smallest offset among the pending wheels, else, where it has a neighbour on its side, among that neighbour's wheels
of the other side that are not aged; of two with equal offsets the one with the earlier reference time. An in-lane partner
leaves the list too and the two form an IN_LANE axle; a peer wheel leaves its list and forms a straddle axle, kept when the
own station owns it and ceded when not; with no partner the wheel forms a SINGLE_WHEEL axle. A wheel without a PAIR speed
borrows its partner's and is finished with it, the marks of its channels barring their strips; the peer wheel of an owned
axle is finished anew by the own station's table. An axle's times are the earliest of its wheels, its speed the mean of
theirs, its load their sum; it is blind when an interval overlaps the span from Lp before the reference time to now, spans
that touch included (the model's choice, log 17), one closed more than 10 s ago left out (log 24) (R36, R38, R93, R96, R99 to R103, R105 to R107, R113). -/
def Obligations.DecidedWheelFormsItsAxle : Prop :=
  (∀ (dc : Nat) (d : Wheel) (l : List Wheel),
    (bestCandidate dc d l = none ↔ ∀ k ∈ l, candidateOffset dc d k = none) ∧
    (∀ o k, bestCandidate dc d l = some (o, k) →
      k ∈ l ∧ candidateOffset dc d k = some o ∧ ∀ x ∈ l, ∀ n, candidateOffset dc d x = some n → o ≤ n) ∧
    (∀ a b o, candidateOffset dc d a = some o → candidateOffset dc d b = some o →
      siteDiff b.refTime a.refTime < 0 → siteDiff b.refTime a.refTime ≠ -(2 ^ 47) →
      bestCandidate dc d [a, b] = some (o, b) ∧ bestCandidate dc d [b, a] = some (o, b))) ∧
  (∀ (p : Part) (d : Wheel),
    let asm := p.image.assembly
    let without (n : Count16) (q : Part) : Part := { q with
      vau := { q.vau with waiting := dropFirst (fun w => decide (w.wheel.number = n)) q.vau.waiting }
      pse := { q.pse with store := q.pse.store.map fun r => if r.wheel.number = n then { r with isOpen := false } else r } }
    let taken := without d.number p
    let near : Option Nat := match d.side with | .left => p.block.leftNeighbour | .right => p.block.rightNeighbour
    let lane := bestCandidate asm.dc d ((taken.vau.waiting.map PendingWheel.wheel).filter fun k => decide (k.side ≠ d.side))
    let beyond (n : Nat) := bestCandidate asm.dc d ((p.vau.peers.filter fun e =>
      decide (e.sender = n ∧ e.wheel.side ≠ d.side ∧ e.aged = false ∧
        siteDiff p.now e.wheel.refTime ≤ ((asm.tmax + asm.lp) * 1000 : Nat))).map PeerWheel.wheel)
    let freed (n : Nat) (q : Wheel) : Part := { taken with vau := { taken.vau with
      peers := dropFirst (fun e => decide (e.sender = n ∧ e.wheel = q)) p.vau.peers } }
    let blind : Bool := near.isSome && p.sbc.blind.any fun b =>
      (match b.close with | some c => decide (siteDiff p.now c ≤ 10000000) | none => true) &&
        decide (siteDiff b.start p.now ≤ 0 ∧
          0 ≤ siteDiff (b.close.getD p.now) (d.refTime - BitVec.ofNat 48 (asm.lp * 1000)))
    let alone : AxleWheel := { wheel := d, borrowed := none, isLocal := true }
    (∀ o k, lane = some (o, k) →
      let both := without k.number taken
      (d.side = .left → p.decideWheel d =
        both.handAxle (makeAxle .inLane (some (both.localCopy d (some k))) (some (both.localCopy k (some d))) false)) ∧
      (d.side = .right → p.decideWheel d =
        both.handAxle (makeAxle .inLane (some (both.localCopy k (some d))) (some (both.localCopy d (some k))) false))) ∧
    (∀ n o q, lane = none → near = some n → beyond n = some (o, q) →
      let free := freed n q
      let own := free.localCopy d (some q)
      let peer := free.peerCopy q d
      (free.owns d q n = false → p.decideWheel d = free.cedeAxle) ∧
      (free.owns d q n = true → d.side = .right →
        p.decideWheel d = free.handAxle (makeAxle .straddleRight (some own) (some peer) blind)) ∧
      (free.owns d q n = true → d.side = .left →
        p.decideWheel d = free.handAxle (makeAxle .straddleLeft (some peer) (some own) blind))) ∧
    (lane = none → (∀ n, near = some n → beyond n = none) →
      (d.side = .left → p.decideWheel d = taken.handAxle (makeAxle .singleWheel (some alone) none blind)) ∧
      (d.side = .right → p.decideWheel d = taken.handAxle (makeAxle .singleWheel none (some alone) blind)))) ∧
  (∀ (p : Part) (w k : Wheel) (v : Nat),
    let barred (x : Wheel) : Wheel := { x with
      qLead := if (p.lcu.channels.get (leadingChannel x.side)).mark = none then x.qLead else none
      qTrail := if (p.lcu.channels.get (trailingChannel x.side)).mark = none then x.qTrail else none }
    let stripped : Wheel := { w with
      load := none, flags := { w.flags with single := false, loadSat := false, lowSpeed := false } }
    let finish := finishWheel p.image.factors.speed
    (w.speed = some v → p.localCopy w (some k) = { wheel := w, borrowed := none, isLocal := true } ∧
      p.peerCopy w k = { wheel := finish v stripped, borrowed := none, isLocal := false }) ∧
    (w.speed = none → k.speed = some v → 1389 ≤ v → v ≤ 69444 → w.load = none →
      p.localCopy w (some k) = { wheel := finish v (barred w), borrowed := some v, isLocal := true }) ∧
    (w.speed = none → k.speed = some v →
      p.peerCopy w k = { wheel := finish v stripped, borrowed := some v, isLocal := false })) ∧
  ∀ (kind : AxleKind) (l r : Option AxleWheel) (blind : Bool),
    let a := makeAxle kind l r blind
    let wheels := l.toList ++ r.toList
    let speeds := wheels.filterMap fun w => w.wheel.speed.or w.borrowed
    let first (t : SiteTime) (f : Wheel → Option SiteTime) : Prop :=
      (∃ w ∈ wheels, f w.wheel = some t) ∧ ∀ w ∈ wheels, ∀ u, f w.wheel = some u → siteDiff t u ≤ 0
    a.kind = kind ∧ a.left = l ∧ a.right = r ∧ a.blind = blind ∧ a.spacing = .absent ∧
    a.load = (wheels.map fun w => w.wheel.load.getD 0).sum ∧
    (speeds = [] → a.speed = none) ∧ (speeds ≠ [] → a.speed = some (speeds.sum / speeds.length)) ∧
    ((∃ w ∈ wheels, w.wheel.leadStart.isSome = true) → first a.leadTime Wheel.leadStart) ∧
    ((∀ w ∈ wheels, w.wheel.leadStart = none) → (∃ w ∈ wheels, w.wheel.trailStart.isSome = true) →
      first a.leadTime Wheel.trailStart) ∧
    ((∃ w ∈ wheels, w.wheel.trailStart.isSome = true) → ∃ t, a.trailTime = some t ∧ first t Wheel.trailStart) ∧
    ((∀ w ∈ wheels, w.wheel.trailStart = none) → a.trailTime = none)

/-- An axle handed to the open vehicle. With none open it opens one. A vehicle whose close mark is set, or whose close time has been
reached, is closed first, and the axle opens another. Otherwise three tests look at the axle's place, behind the axles whose
lead time is its own or earlier: at an end, its distance in time to the axle next to it is at most Tmax; each spacing it makes
is at most Smax, or pending; and no straddle to one side meets one to the other. With all passed it joins, its spacing and
that of the axle behind it computed, the close time, the gross, the run start and the flags following, and a gross report is
made; a vehicle of 12 axles is closed by the axle limit and continued instead; a test failed breaks the vehicle. An axle that
opens a vehicle takes the tag counter's value, and its FRONT and gross reports are made. The spacing takes the mean of the two
axle speeds, else the vehicle speed so far, else is pending; the close time is that of the last axle (R112, R114 to R120,
R126). -/
def Obligations.AxleJoinsOrOpensAVehicle : Prop :=
  let timing (v : Vehicle) : Timing :=
    { tag := v.tag, trail := v.axles.head?.bind Axle.trailTime, axleSpeed := v.axles.head?.bind Axle.speed
      vehicleSpeed := vehicleSpeed v.axles }
  (∀ (p : Part) (a : Axle) (continuation : Bool),
    let v : Vehicle :=
      { axles := [a], closeTime := closeTimeOf p.image.assembly [a], closeMark := none, tag := p.vau.tagCounter
        flags := { noVehicleFlags with continuation := continuation, peerBlind := a.blind }, runningGross := a.load }
    p.openVehicle continuation a =
      (({ p with vau := { p.vau with
        vehicle := some v, tagCounter := p.vau.tagCounter + 1, runStart := some a.leadTime } } : Part).frontReport
          (timing v)).grossReport (timing v) a.load) ∧
  (∀ (p : Part) (a : Axle),
    let asm := p.image.assembly
    (p.vau.vehicle = none → p.handAxle a = p.openVehicle false a) ∧
    ∀ (v : Vehicle) (before after : List Axle), p.vau.vehicle = some v → v.axles = before ++ after →
      (∀ x ∈ before, siteDiff x.leadTime a.leadTime ≤ 0) → (∀ y, after.head? = some y → 0 < siteDiff y.leadTime a.leadTime) →
      let all := before ++ a :: after
      let inTime : Prop :=
        (after = [] → ∀ x, before.getLast? = some x → siteDiff a.leadTime x.leadTime ≤ (asm.tmax * 1000 : Nat)) ∧
        (before = [] → ∀ y, after.head? = some y → siteDiff y.leadTime a.leadTime ≤ (asm.tmax * 1000 : Nat))
      let inSpace : Prop :=
        (∀ x mm, before.getLast? = some x → spacingOf all x a = .known mm → mm ≤ asm.smax) ∧
        (∀ y mm, after.head? = some y → spacingOf all a y = .known mm → mm ≤ asm.smax)
      let ofKind : Prop :=
        (a.kind = .straddleLeft → ∀ x ∈ v.axles, x.kind ≠ .straddleRight) ∧
        (a.kind = .straddleRight → ∀ x ∈ v.axles, x.kind ≠ .straddleLeft)
      let placed : Axle := { a with
        spacing := (match before.getLast? with | some x => spacingOf all x a | none => .absent) }
      let behind : List Axle := match after with
        | [] => []
        | y :: rest => { y with spacing := spacingOf all a y } :: rest
      let axles := before ++ placed :: behind
      let straddles (x : Axle) : Bool := decide (x.kind = .straddleLeft ∨ x.kind = .straddleRight)
      let joined : Vehicle := { v with
        axles := axles, closeTime := closeTimeOf asm axles, runningGross := v.runningGross + a.load
        flags := { v.flags with
          laneChange := v.flags.laneChange || (axles.any (fun x => decide (x.kind = .inLane)) && axles.any straddles)
          peerBlind := v.flags.peerBlind || a.blind } }
      (v.closeMark.isSome = true ∨ 0 ≤ siteDiff p.now v.closeTime →
        p.handAxle a = (p.closeVehicle .timer).openVehicle false a) ∧
      (v.closeMark = none → siteDiff p.now v.closeTime < 0 →
        (inTime → inSpace → ofKind → v.axles.length < 12 →
          p.handAxle a = ({ p with vau := { p.vau with
            vehicle := some joined, runStart := axles.head?.map Axle.leadTime } } : Part).grossReport
              (timing joined) joined.runningGross) ∧
        (inTime → inSpace → ofKind → v.axles.length = 12 →
          p.handAxle a = (p.closeVehicle .axleLimit).openVehicle true a) ∧
        (¬(inTime ∧ inSpace ∧ ofKind) → p.handAxle a = (p.closeVehicle .breakTest).openVehicle false a))) ∧
  ∀ (asm : AssemblyBlock) (l : List Axle) (x y : Axle),
    let speeds := l.filterMap Axle.speed
    let between (v : Nat) : Spacing := .known (v * (siteDiff y.leadTime x.leadTime).toNat / 1000000)
    let last (n : Nat) : SiteTime := y.leadTime + BitVec.ofNat 48 n
    (speeds = [] → vehicleSpeed l = none) ∧ (speeds ≠ [] → vehicleSpeed l = some (speeds.sum / speeds.length)) ∧
    (∀ u v, x.speed = some u → y.speed = some v → spacingOf l x y = between ((u + v) / 2)) ∧
    (x.speed = none ∨ y.speed = none →
      (∀ v, vehicleSpeed l = some v → spacingOf l x y = between v) ∧ (vehicleSpeed l = none → spacingOf l x y = .pending)) ∧
    (∀ v, y.speed = some v ∨ y.speed = none ∧ vehicleSpeed (l ++ [y]) = some v →
      closeTimeOf asm (l ++ [y]) = last (min (asm.tmax * 1000) (asm.smax * 1000000 / v) + asm.lp * 1000)) ∧
    (vehicleSpeed (l ++ [y]) = none → closeTimeOf asm (l ++ [y]) = last ((asm.tmax + asm.lp) * 1000))

/-- A vehicle that closes. First the wheels with no load are weighed late with the vehicle speed, if there is one, the marks of its
channels barring a local wheel's strips, and the gross is reported a last time. Its record takes the next sequence number, the own
station, the first lead time, the vehicle speed, the headway in ms up to 65,535, its axles with their loads and spacings, a pending
one at the vehicle speed or else at 1,389 mm/s, the loads' sum, the temperature and source of the first axle's local wheel, its tag
and the two carries, and awaits its class. PARTIAL_LOAD and NO_SPEED say what is absent; ACCEL that a speed differs from the first
by more than a tenth of it; PEER_BLIND is gathered, or set where the station has a neighbour and a blind interval overlaps the
span from Lp before the first lead time to now (spans that touch included, the model's choice, log 17; one closed more than 10 s ago
left out, log 24); TIME_STEP is gathered, or carried by a wheel. With 16 records in the list it is lost and counted in the carry;
the headway reference is its first lead time, and the run ends. So it is in the axle former's hold, for a vehicle whose close mark is
set or whose close time has been reached without one, and wherever a vehicle is closed with a cause: its close mark, when it has
one, is the cause, and AXLE_LIMIT and HOLD_CUT name two of the causes (R36, R39, R114, R118 to R126, R149, R150, R157). -/
def Obligations.ClosedVehicleIsHandedOver : Prop :=
  let closes (q : Part) (v : Vehicle) (first : Axle) (cause : CloseCause) (p : Part) : Prop :=
    let speed := vehicleSpeed v.axles
    let load (w : AxleWheel) : Option Nat := match speed with
      | some u => if w.wheel.load.isSome then w.wheel.load
          else (finishWheel q.image.factors.speed u (if w.isLocal then q.strikeMarked w.wheel else w.wheel)).load
      | none => w.wheel.load
    let blind (b : BlindInterval) : Bool :=
      (match b.close with | some c => decide (siteDiff q.now c ≤ 10000000) | none => true) &&
        decide (siteDiff b.start q.now ≤ 0 ∧ 0 ≤ siteDiff (b.close.getD q.now)
          (first.leadTime - BitVec.ofNat 48 (q.image.assembly.lp * 1000)))
    let totals := { q.vcl.totals with vehiclesCompleted := satInc q.vcl.totals.vehiclesCompleted }
    p.vau.vehicle = none ∧ p.vau.runStart = none ∧ p.vau.headwayRef = some first.leadTime ∧
    p.vau.tagCounter = q.vau.tagCounter ∧ p.vcl.seqCounter = q.vcl.seqCounter + 1 ∧
    (q.vcl.records.length < 16 →
      p.vcl.totals = totals ∧ p.vcl.lostCarry = 0 ∧ p.vcl.cededCarry = 0 ∧
      ∃ r : VehicleRecord, p.vcl.records = q.vcl.records ++ [r] ∧ r.seq = q.vcl.seqCounter ∧
        r.owner = q.block.number ∧ r.firstLead = first.leadTime ∧ r.speed = vehicleSpeed v.axles ∧
        r.headway = q.vau.headwayRef.map (fun h => min ((siteDiff first.leadTime h).toNat / 1000) 65535) ∧
        r.axles.length = v.axles.length ∧
        (∀ i a, v.axles[i]? = some a → ∃ x, r.axles[i]? = some x ∧ x.left = a.left.bind load ∧ x.right = a.right.bind load ∧
          x.kind = a.kind ∧ (∀ mm, a.spacing = .known mm → x.spacing = some mm) ∧ (a.spacing = .absent → x.spacing = none) ∧
          (a.spacing = .pending → ∀ k b, i = k + 1 → v.axles[k]? = some b →
            x.spacing = some (speed.getD 1389 * (siteDiff a.leadTime b.leadTime).toNat / 1000000))) ∧
        r.gross = (r.axles.map fun a => a.left.getD 0 + a.right.getD 0).sum ∧
        r.tag = v.tag ∧ r.state = .awaitingClass ∧ r.lostCount = q.vcl.lostCarry ∧
        r.cededCount = q.vcl.cededCarry ∧ r.cls = none ∧ r.flags.noSpeed = (vehicleSpeed v.axles).isNone ∧
        r.flags.partialLoad = r.axles.any (fun a => a.left.isNone || a.right.isNone) ∧
        (r.flags.accel = true ↔ ∃ ref more, v.axles.filterMap Axle.speed = ref :: more ∧
          ∃ u ∈ more, ref < ((u : Int) - ref).natAbs * 10) ∧
        (∀ w : AxleWheel, (first.left = some w ∧ w.isLocal = true ∨
            (∀ x, first.left = some x → x.isLocal = false) ∧ first.right = some w) →
          r.temperature = w.wheel.temperature ∧ r.source = w.wheel.source) ∧
        r.flags.peerBlind = (v.flags.peerBlind ||
          ((q.block.leftNeighbour.isSome || q.block.rightNeighbour.isSome) && q.sbc.blind.any blind)) ∧
        r.flags.timeStep = (v.flags.timeStep || v.axles.any fun a =>
          (a.left.toList ++ a.right.toList).any fun w => w.wheel.flags.timeStep) ∧
        r.flags.laneChange = v.flags.laneChange ∧ r.flags.continuation = v.flags.continuation ∧
        r.firstTrail = first.trailTime ∧ r.firstSpeed = first.speed ∧
        r.flags.axleLimit = decide (cause = .axleLimit) ∧ r.flags.holdCut = decide (cause = .hold)) ∧
    (q.vcl.records.length = 16 →
      p.vcl.records = q.vcl.records ∧ p.vcl.lostCarry = q.vcl.lostCarry + 1 ∧
      p.vcl.totals = { totals with lost := satInc totals.lost }) ∧
    q.changedOnly [.vau, .vcl, .tou] p
  (∀ (s : State) (v : Vehicle) (cause : CloseCause) (first : Axle) (rest : List Axle), s.running →
     s.part.vau.port.holder = some .axleFormer → s.part.vau.intake = [] → s.part.vau.waiting = [] →
     s.part.vau.vehicle = some v → v.axles = first :: rest →
     (v.closeMark = some cause ∨ v.closeMark = none ∧ 0 ≤ siteDiff s.part.now v.closeTime ∧ cause = .timer) →
     ∃ p : Part, exec .axleFormerHold s = .next { s with part := p } ∧ closes s.part v first cause p) ∧
  (∀ (p : Part) (v : Vehicle) (cause : CloseCause) (first : Axle) (rest : List Axle), p.vau.vehicle = some v →
     v.axles = first :: rest → closes p v first (v.closeMark.getD cause) (p.closeVehicle cause)) ∧
  ∀ (p : Part) (v : Vehicle), p.vau.vehicle = some v →
    (∀ u, vehicleSpeed v.axles = some u → 1389 ≤ u ∧ u ≤ 69444) →
    let late (w : AxleWheel) : AxleWheel := match vehicleSpeed v.axles with
      | some u => if w.wheel.load.isSome || (w.wheel.qLead.isNone && w.wheel.qTrail.isNone) then w else { w with
          wheel := finishWheel p.image.factors.speed u (if w.isLocal then { w.wheel with
            qLead := if (p.lcu.channels.get (leadingChannel w.wheel.side)).mark = none then w.wheel.qLead else none
            qTrail := if (p.lcu.channels.get (trailingChannel w.wheel.side)).mark = none then w.wheel.qTrail else none }
            else w.wheel) }
      | none => w
    let axles := v.axles.map fun a => { a with left := a.left.map late, right := a.right.map late }
    let gross := (axles.map fun a =>
      ((a.left.bind fun w => w.wheel.load).getD 0) + ((a.right.bind fun w => w.wheel.load).getD 0)).sum
    p.weighVehicle = ({ p with vau := { p.vau with
      vehicle := some { v with axles := axles, runningGross := gross } } } : Part).grossReport
        { tag := v.tag, trail := v.axles.head?.bind Axle.trailTime, axleSpeed := v.axles.head?.bind Axle.speed
          vehicleSpeed := vehicleSpeed v.axles } gross

/-- The class walk. CLASS_WALK_START: granted the port, which no request of the same instant takes from it any more (log 20), it takes the oldest record that awaits its class, with its groups, which
the model holds from the start of the walk on and empties at its end, as it sets the rule position at its end only (the model's
choice, log 27). CLASS_WALK_END after 200 µs and 150 µs for each rule examined: the record takes the code of the first rule that
matches, or 0, the rule's index, its GROUP_OVER mask and GROSS_OVER against that rule's limit, and is READY to be sent, the other
records as they were; its class and its gross are counted; the walk is over; the port is released to the dispatcher, else to the axle
former, else to the next walk, which waits while a record awaits its class; the CLASS report goes to the outputs with the
record's tag and times; and a VEHICLE offer is made. What a group, the mask and a match are, the next statement says (R90, R130 to
R132, R135, R141 to R144, R153, R157). -/
def Obligations.ClassWalkClassifiesTheRecord : Prop :=
  (∀ (s : State) (before after : List VehicleRecord) (r : VehicleRecord), s.running →
    s.part.vau.port.holder = some .classWalk → s.part.vcl.records = before ++ r :: after →
    (s.part.vcl.walk.state = .waiting → (∀ x ∈ before, x.state ≠ .awaitingClass) → r.state = .awaitingClass →
      exec .classWalkStart s = .next { s with part := { s.part with
        vcl := { s.part.vcl with walk :=
          { state := .walking, record := some r.seq, groups := groupsOf s.part.image.assembly.gmax r.axles, rulePosition := 0,
            grantedAt := s.part.clock } }
        vau := { s.part.vau with port := { s.part.vau.port with freshAt := none } } } }) ∧
    (s.part.vcl.walk.state = .walking → s.part.vcl.walk.record = some r.seq → (∀ x ∈ before, x.seq ≠ r.seq) →
      let groups := s.part.vcl.walk.groups
      let rules := s.part.image.rules
      let m := firstMatch groups r 0 rules
      let examined := match m with | some x => x.1 + 1 | none => rules.length
      let cls : Fin 32 := match m with | some x => x.2.code | none => 0
      let totals := s.part.vcl.totals
      let done : VehicleRecord := { r with
        cls := some cls, ruleIndex := m.map Prod.fst, groupOver := groupOverMask s.part.image.assembly groups, state := .ready
        flags := { r.flags with grossOver := (m.bind fun y => y.2.grossLimit).any fun limit => decide (limit < r.gross) } }
      let again := (before ++ after).any fun x => decide (x.state = .awaitingClass)
      let port := s.part.vau.port
      let walk : Walk :=
        { state := if again then .waiting else .idle, record := none, groups := [], rulePosition := examined
          grantedAt := s.part.vcl.walk.grantedAt }
      let ended : Part := { s.part with
        vcl := { s.part.vcl with
          records := before ++ done :: after, walk := walk
          totals := { totals with
            perClass := totals.perClass.set cls (satInc totals.perClass[cls]), grossSum := satAdd totals.grossSum r.gross } }
        vau := { s.part.vau with port := ({ port with waitClassWalk := port.waitClassWalk || again } : Port).grantNext } }
      s.part.vcl.walk.grantedAt + (200 + 150 * examined) ≤ s.part.clock →
      ∃ p : Part, exec .classWalkEnd s = .next { s with part := p } ∧
        p = (ended.classReport
          { tag := r.tag, trail := r.firstTrail, axleSpeed := r.firstSpeed, vehicleSpeed := r.speed } cls).offerVehicle ∧
        p.vau.port = ended.vau.port ∧ p.vcl.walk = walk ∧
        p.vau.port.holder = (if port.waitDispatcher then some .dispatcher else if port.waitAxleFormer then some .axleFormer
          else if port.waitClassWalk || again then some .classWalk else none) ∧
        p.vcl.totals = { totals with
          perClass := totals.perClass.set cls (satInc totals.perClass[cls]), grossSum := satAdd totals.grossSum r.gross } ∧
        (∃ x ∈ p.vcl.records, x.seq = r.seq ∧ x.cls = some cls ∧ x.ruleIndex = m.map Prod.fst ∧
          x.groupOver = groupOverMask s.part.image.assembly groups ∧ x.gross = r.gross ∧ x.axles = r.axles ∧
          x.flags = { r.flags with grossOver := (m.bind fun y => y.2.grossLimit).any fun limit => decide (limit < r.gross) } ∧
          (x.state = .ready ∨ x.state = .sending)) ∧
        p.vcl.walk.record = none ∧ p.vcl.walk.rulePosition = examined ∧
        p.vcl.walk.state =
          (if (before ++ after).any (fun x => decide (x.state = .awaitingClass)) then .waiting else .idle) ∧
        s.part.changedOnly [.vcl, .vau, .tou, .sbc] p)) ∧
  ∀ (groups : List AxleGroup) (r : VehicleRecord) (rules : List ClassRule) (i : Nat) (rule : ClassRule),
    firstMatch groups r 0 rules = some (i, rule) ↔
      rules[i]? = some rule ∧ ruleMatches groups r rule = true ∧
      ∀ (j : Nat) (other : ClassRule), j < i → rules[j]? = some other → ruleMatches groups r other = false

/-- What the class walk reads. The groups of an axle list follow one another from position 1 and axle 1 on and take in every axle; an
axle behind the first begins a group exactly when its spacing is not at most Gmax; a group's load is the sum of its axles' loads,
absent when one of them lacks a load. The mask holds the positions of the groups whose load exceeds the limit for their axle
count, where both are present. A rule matches when the axle count lies within its bounds and, where the rule asks for it, every axle
is a SINGLE_WHEEL axle, the groups have the sizes of its pattern, the spacings lie within its gap bounds, in units of 100 mm and
255 for no upper bound, on a record without NO_SPEED, and the gross lies within its range on a record with every load (R133 to
R135, R137 to R141). -/
def Obligations.GroupsLimitsAndRulesAreJudged : Prop :=
  (∀ (gmax : Nat) (axles : List RecordAxle),
    let groups := groupsOf gmax axles
    let before (k : Nat) : Nat := ((groups.take k).map AxleGroup.axleCount).sum
    before groups.length = axles.length ∧
    (∀ i a, axles[i + 1]? = some a →
      ((∃ k, k < groups.length ∧ before k = i + 1) ↔ ¬∃ mm, a.spacing = some mm ∧ mm ≤ gmax)) ∧
    (∀ k g, groups[k]? = some g →
      let own := (axles.drop (before k)).take g.axleCount
      g.position = k + 1 ∧ g.firstAxle = before k + 1 ∧ 1 ≤ g.axleCount ∧
      ((∀ a ∈ own, a.left.isSome = true ∧ a.right.isSome = true) →
        g.load = some (own.map fun a => a.left.getD 0 + a.right.getD 0).sum) ∧
      ((∃ a ∈ own, a.left = none ∨ a.right = none) → g.load = none)) ∧
    ∀ (asm : AssemblyBlock) (n : Nat), 1 ≤ n → n ≤ 12 →
      ((groupOverMask asm groups).getLsbD (n - 1) = true ↔ ∃ g ∈ groups, g.position = n ∧
        ∃ load limit, g.load = some load ∧ limit < load ∧
          (if g.axleCount = 1 then asm.singleLimit else if g.axleCount = 2 then asm.tandemLimit
           else if g.axleCount = 3 then asm.tridemLimit else asm.quadLimit) = some limit)) ∧
  ∀ (groups : List AxleGroup) (r : VehicleRecord) (rule : ClassRule), (∀ a ∈ r.axles.tail, a.spacing.isSome = true) →
    (ruleMatches groups r rule = true ↔
      (rule.axleMin ≤ r.axles.length ∧ r.axles.length ≤ rule.axleMax) ∧
      (rule.singleWheelOnly = true → ∀ a ∈ r.axles, a.kind = .singleWheel) ∧
      (∀ sizes, rule.pattern = some sizes → groups.map AxleGroup.axleCount = sizes) ∧
      (∀ gaps, rule.gaps = some gaps → r.flags.noSpeed = false ∧
        ∀ i gap, gaps[i]? = some gap → ∃ a mm, r.axles[i + 1]? = some a ∧ a.spacing = some mm ∧ gap.1 * 100 ≤ mm ∧
          (gap.2 = 255 ∨ mm ≤ gap.2 * 100)) ∧
      ∀ lo hi, rule.grossRange = some (lo, hi) →
        (∀ a ∈ r.axles, a.left.isSome = true ∧ a.right.isSome = true) ∧ lo ≤ r.gross ∧ r.gross ≤ hi)

/-- The outputs. In RUN a report reaches the three outputs in turn: an enabled FRONT output makes a firing of a FRONT report; a HEAVY
output arms for its tag, and makes one firing of the first gross report of that tag above its threshold; a CLASS output makes
one of a class in its set; otherwise, and outside RUN, nothing happens. A firing's due time is the first axle's trail time plus the
time to the output at the first axle's speed, else at the vehicle's: without one it is refused as missed; earlier than now it
acts at once as late; now, at once; later, it is placed by due time behind its equals, and in a full list of 4 refused as missed.
Acting, it starts a pulse of the output's width, or begins it anew as merged. A TRIG flag goes to the open vehicle when it has
the tag, else to the newest record that has it. FIRING_DUE in RUN: the firings whose due time has come leave the list and act
in turn; in the other states nothing happens. PULSE_END: the output is INACTIVE. A pin is high for an ACTIVE output of polarity HIGH
and an INACTIVE one of polarity LOW, and low otherwise (R127, R164 to R173). -/
def Obligations.FiringsPulseTheOutputs : Prop :=
  (∀ (s : State) (o : Output), s.running →
    let x := s.part.tou.outputs.get o
    let now := s.part.now
    let due (f : Firing) : Bool := decide (0 ≤ siteDiff now f.due)
    let fired : OutputState := { x with
      level := .active
      pulseEnd := some (s.part.clock + (s.part.image.triggers.get o).width * 1000)
      schedule := x.schedule.filter fun f => !due f }
    let acted : Part := (x.schedule.filter due).foldl (fun q f => q.fire o f.tag) { s.part with
      tou := { outputs := s.part.tou.outputs.set o { x with schedule := x.schedule.filter fun f => !due f } } }
    (s.part.csu.station ≠ .run → exec (.firingDue o) s = .next s) ∧
    (s.part.csu.station = .run → x.schedule.any due = false → exec (.firingDue o) s = .next s) ∧
    (s.part.csu.station = .run → exec (.firingDue o) s = .next { s with part := acted }) ∧
    (s.part.csu.station = .run → x.schedule.any due = true →
      (∃ p : Part, exec (.firingDue o) s = .next { s with part := p } ∧ p.tou.outputs = s.part.tou.outputs.set o fired ∧
        s.part.changedOnly [.tou, .vau, .vcl] p) ∧
      (x.level ≠ .active → (x.schedule.filter due).length = 1 →
        exec (.firingDue o) s = .next { s with part := { s.part with
          tou := { outputs := s.part.tou.outputs.set o fired } } })) ∧
    (∀ t, x.level = .active → x.pulseEnd = some t → t ≤ s.part.clock →
      exec (.pulseEnd o) s = .next { s with part := { s.part with
        tou := { outputs := s.part.tou.outputs.set o { x with level := .inactive, pulseEnd := none } } } })) ∧
  (∀ (p : Part) (r : Timing) (gross : Nat) (cls : Fin 32),
    (p.csu.station ≠ .run → p.frontReport r = p ∧ p.grossReport r gross = p ∧ p.classReport r cls = p) ∧
    (p.csu.station = .run →
      p.frontReport r = ((p.frontOn r .trg0).frontOn r .trg1).frontOn r .trg2 ∧
      p.grossReport r gross = ((p.grossOn r gross .trg0).grossOn r gross .trg1).grossOn r gross .trg2 ∧
      p.classReport r cls = ((p.classOn r cls .trg0).classOn r cls .trg1).classOn r cls .trg2)) ∧
  (∀ (p : Part) (o : Output) (r : Timing) (gross : Nat) (cls : Fin 32),
    let c := p.image.triggers.get o
    let x := p.tou.outputs.get o
    let withOutput (y : OutputState) : Part := { p with tou := { outputs := p.tou.outputs.set o y } }
    let fires : Prop := x.armed = some r.tag ∧ c.threshold < gross
    (c.enable = false → p.frontOn r o = p ∧ p.grossOn r gross o = p ∧ p.classOn r cls o = p) ∧
    (c.enable = true →
      (c.source = .front → p.frontOn r o = p.makeFiring o r ∧ p.grossOn r gross o = p ∧ p.classOn r cls o = p) ∧
      (c.source = .heavy → p.frontOn r o = withOutput { x with armed := some r.tag } ∧
        (fires → p.grossOn r gross o = (withOutput { x with armed := none }).makeFiring o r) ∧
        (¬fires → p.grossOn r gross o = p) ∧ p.classOn r cls o = p) ∧
      (c.source = .classed → p.frontOn r o = p ∧ p.grossOn r gross o = p ∧
        p.classOn r cls o = (if c.classSet.getLsbD cls.val then p.makeFiring o r else p))) ∧
    (firingDueTime c.distance r = none → p.makeFiring o r = p.reportTrig .missed r.tag) ∧
    (∀ d, firingDueTime c.distance r = some d →
      (siteDiff d p.now < 0 → p.makeFiring o r = (p.reportTrig .late r.tag).fire o r.tag) ∧
      (siteDiff d p.now = 0 → p.makeFiring o r = p.fire o r.tag) ∧
      (0 < siteDiff d p.now → x.schedule.length < 4 → p.makeFiring o r = withOutput { x with
        schedule := insertBefore (fun k => decide (0 < siteDiff k.due d)) { tag := r.tag, due := d } x.schedule }) ∧
      (0 < siteDiff d p.now → 4 ≤ x.schedule.length → p.makeFiring o r = p.reportTrig .missed r.tag)) ∧
    (∀ tag : Count16,
      let pulsed := withOutput { x with level := .active, pulseEnd := some (p.clock + c.width * 1000) }
      (x.level = .active → p.fire o tag = pulsed.reportTrig .merged tag) ∧ (x.level ≠ .active → p.fire o tag = pulsed))) ∧
  (∀ (p : Part) (flag : TrigFlag) (tag : Count16) (f : VehicleFlags),
    (∀ v, p.vau.vehicle = some v → v.tag = tag → p.reportTrig flag tag =
      { p with vau := { p.vau with vehicle := some { v with flags := addTrig v.flags flag } } }) ∧
    ((∀ v, p.vau.vehicle = some v → v.tag ≠ tag) →
      (∀ before x after, p.vcl.records = before ++ x :: after → x.tag = tag → (∀ y ∈ after, y.tag ≠ tag) →
        p.reportTrig flag tag = { p with vcl := { p.vcl with
          records := before ++ { x with slotFlags := addTrig x.slotFlags flag } :: after } }) ∧
      ((∀ x ∈ p.vcl.records, x.tag ≠ tag) → p.reportTrig flag tag = p)) ∧
    addTrig f .late = { f with trigLate := true } ∧ addTrig f .merged = { f with trigMerged := true } ∧
    addTrig f .missed = { f with trigMissed := true }) ∧
  (∀ (p : Part) (o : Output),
    let low := (p.image.triggers.get o).polarityLow
    ((p.tou.outputs.get o).level = .low → p.pinHigh o = false) ∧
    ((p.tou.outputs.get o).level = .active → (p.pinHigh o = true ↔ low = false)) ∧
    ((p.tou.outputs.get o).level = .inactive → (p.pinHigh o = true ↔ low = true))) ∧
  ∀ (distance : Nat) (r : Timing),
    (r.trail = none → firingDueTime distance r = none) ∧
    (∀ t, r.trail = some t → distance = 0 → firingDueTime distance r = some t) ∧
    (∀ t v, r.trail = some t → distance ≠ 0 → (r.axleSpeed = some v ∨ r.axleSpeed = none ∧ r.vehicleSpeed = some v) →
      firingDueTime distance r = some (t + BitVec.ofNat 48 (distance * 1000000 / v))) ∧
    (distance ≠ 0 → r.axleSpeed = none → r.vehicleSpeed = none → firingDueTime distance r = none)

end
end

