-- ==== Sys2Proof/Laws/State.lean ====
section
/-! SUPPORT. One lemma per field of the part per named update, all true by rfl, so that no proof unfolds a record update. -/

namespace Sys2Proof.Machine

/-! ## modLcu -/

@[simp] theorem Part.modLcu_rstLow (f : Lcu → Lcu) (p : Part) : (p.modLcu f).rstLow = p.rstLow := rfl
@[simp] theorem Part.modLcu_clock (f : Lcu → Lcu) (p : Part) : (p.modLcu f).clock = p.clock := rfl
@[simp] theorem Part.modLcu_lcu (f : Lcu → Lcu) (p : Part) : (p.modLcu f).lcu = f p.lcu := rfl
@[simp] theorem Part.modLcu_pse (f : Lcu → Lcu) (p : Part) : (p.modLcu f).pse = p.pse := rfl
@[simp] theorem Part.modLcu_ptu (f : Lcu → Lcu) (p : Part) : (p.modLcu f).ptu = p.ptu := rfl
@[simp] theorem Part.modLcu_sbc (f : Lcu → Lcu) (p : Part) : (p.modLcu f).sbc = p.sbc := rfl
@[simp] theorem Part.modLcu_stu (f : Lcu → Lcu) (p : Part) : (p.modLcu f).stu = p.stu := rfl
@[simp] theorem Part.modLcu_vau (f : Lcu → Lcu) (p : Part) : (p.modLcu f).vau = p.vau := rfl
@[simp] theorem Part.modLcu_vcl (f : Lcu → Lcu) (p : Part) : (p.modLcu f).vcl = p.vcl := rfl
@[simp] theorem Part.modLcu_tou (f : Lcu → Lcu) (p : Part) : (p.modLcu f).tou = p.tou := rfl
@[simp] theorem Part.modLcu_csu (f : Lcu → Lcu) (p : Part) : (p.modLcu f).csu = p.csu := rfl

/-! ## modPse -/

@[simp] theorem Part.modPse_rstLow (f : Pse → Pse) (p : Part) : (p.modPse f).rstLow = p.rstLow := rfl
@[simp] theorem Part.modPse_clock (f : Pse → Pse) (p : Part) : (p.modPse f).clock = p.clock := rfl
@[simp] theorem Part.modPse_lcu (f : Pse → Pse) (p : Part) : (p.modPse f).lcu = p.lcu := rfl
@[simp] theorem Part.modPse_pse (f : Pse → Pse) (p : Part) : (p.modPse f).pse = f p.pse := rfl
@[simp] theorem Part.modPse_ptu (f : Pse → Pse) (p : Part) : (p.modPse f).ptu = p.ptu := rfl
@[simp] theorem Part.modPse_sbc (f : Pse → Pse) (p : Part) : (p.modPse f).sbc = p.sbc := rfl
@[simp] theorem Part.modPse_stu (f : Pse → Pse) (p : Part) : (p.modPse f).stu = p.stu := rfl
@[simp] theorem Part.modPse_vau (f : Pse → Pse) (p : Part) : (p.modPse f).vau = p.vau := rfl
@[simp] theorem Part.modPse_vcl (f : Pse → Pse) (p : Part) : (p.modPse f).vcl = p.vcl := rfl
@[simp] theorem Part.modPse_tou (f : Pse → Pse) (p : Part) : (p.modPse f).tou = p.tou := rfl
@[simp] theorem Part.modPse_csu (f : Pse → Pse) (p : Part) : (p.modPse f).csu = p.csu := rfl

/-! ## modPtu -/

@[simp] theorem Part.modPtu_rstLow (f : Ptu → Ptu) (p : Part) : (p.modPtu f).rstLow = p.rstLow := rfl
@[simp] theorem Part.modPtu_clock (f : Ptu → Ptu) (p : Part) : (p.modPtu f).clock = p.clock := rfl
@[simp] theorem Part.modPtu_lcu (f : Ptu → Ptu) (p : Part) : (p.modPtu f).lcu = p.lcu := rfl
@[simp] theorem Part.modPtu_pse (f : Ptu → Ptu) (p : Part) : (p.modPtu f).pse = p.pse := rfl
@[simp] theorem Part.modPtu_ptu (f : Ptu → Ptu) (p : Part) : (p.modPtu f).ptu = f p.ptu := rfl
@[simp] theorem Part.modPtu_sbc (f : Ptu → Ptu) (p : Part) : (p.modPtu f).sbc = p.sbc := rfl
@[simp] theorem Part.modPtu_stu (f : Ptu → Ptu) (p : Part) : (p.modPtu f).stu = p.stu := rfl
@[simp] theorem Part.modPtu_vau (f : Ptu → Ptu) (p : Part) : (p.modPtu f).vau = p.vau := rfl
@[simp] theorem Part.modPtu_vcl (f : Ptu → Ptu) (p : Part) : (p.modPtu f).vcl = p.vcl := rfl
@[simp] theorem Part.modPtu_tou (f : Ptu → Ptu) (p : Part) : (p.modPtu f).tou = p.tou := rfl
@[simp] theorem Part.modPtu_csu (f : Ptu → Ptu) (p : Part) : (p.modPtu f).csu = p.csu := rfl

/-! ## modSbc -/

@[simp] theorem Part.modSbc_rstLow (f : Sbc → Sbc) (p : Part) : (p.modSbc f).rstLow = p.rstLow := rfl
@[simp] theorem Part.modSbc_clock (f : Sbc → Sbc) (p : Part) : (p.modSbc f).clock = p.clock := rfl
@[simp] theorem Part.modSbc_lcu (f : Sbc → Sbc) (p : Part) : (p.modSbc f).lcu = p.lcu := rfl
@[simp] theorem Part.modSbc_pse (f : Sbc → Sbc) (p : Part) : (p.modSbc f).pse = p.pse := rfl
@[simp] theorem Part.modSbc_ptu (f : Sbc → Sbc) (p : Part) : (p.modSbc f).ptu = p.ptu := rfl
@[simp] theorem Part.modSbc_sbc (f : Sbc → Sbc) (p : Part) : (p.modSbc f).sbc = f p.sbc := rfl
@[simp] theorem Part.modSbc_stu (f : Sbc → Sbc) (p : Part) : (p.modSbc f).stu = p.stu := rfl
@[simp] theorem Part.modSbc_vau (f : Sbc → Sbc) (p : Part) : (p.modSbc f).vau = p.vau := rfl
@[simp] theorem Part.modSbc_vcl (f : Sbc → Sbc) (p : Part) : (p.modSbc f).vcl = p.vcl := rfl
@[simp] theorem Part.modSbc_tou (f : Sbc → Sbc) (p : Part) : (p.modSbc f).tou = p.tou := rfl
@[simp] theorem Part.modSbc_csu (f : Sbc → Sbc) (p : Part) : (p.modSbc f).csu = p.csu := rfl

/-! ## modStu -/

@[simp] theorem Part.modStu_rstLow (f : Stu → Stu) (p : Part) : (p.modStu f).rstLow = p.rstLow := rfl
@[simp] theorem Part.modStu_clock (f : Stu → Stu) (p : Part) : (p.modStu f).clock = p.clock := rfl
@[simp] theorem Part.modStu_lcu (f : Stu → Stu) (p : Part) : (p.modStu f).lcu = p.lcu := rfl
@[simp] theorem Part.modStu_pse (f : Stu → Stu) (p : Part) : (p.modStu f).pse = p.pse := rfl
@[simp] theorem Part.modStu_ptu (f : Stu → Stu) (p : Part) : (p.modStu f).ptu = p.ptu := rfl
@[simp] theorem Part.modStu_sbc (f : Stu → Stu) (p : Part) : (p.modStu f).sbc = p.sbc := rfl
@[simp] theorem Part.modStu_stu (f : Stu → Stu) (p : Part) : (p.modStu f).stu = f p.stu := rfl
@[simp] theorem Part.modStu_vau (f : Stu → Stu) (p : Part) : (p.modStu f).vau = p.vau := rfl
@[simp] theorem Part.modStu_vcl (f : Stu → Stu) (p : Part) : (p.modStu f).vcl = p.vcl := rfl
@[simp] theorem Part.modStu_tou (f : Stu → Stu) (p : Part) : (p.modStu f).tou = p.tou := rfl
@[simp] theorem Part.modStu_csu (f : Stu → Stu) (p : Part) : (p.modStu f).csu = p.csu := rfl

/-! ## modVau -/

@[simp] theorem Part.modVau_rstLow (f : Vau → Vau) (p : Part) : (p.modVau f).rstLow = p.rstLow := rfl
@[simp] theorem Part.modVau_clock (f : Vau → Vau) (p : Part) : (p.modVau f).clock = p.clock := rfl
@[simp] theorem Part.modVau_lcu (f : Vau → Vau) (p : Part) : (p.modVau f).lcu = p.lcu := rfl
@[simp] theorem Part.modVau_pse (f : Vau → Vau) (p : Part) : (p.modVau f).pse = p.pse := rfl
@[simp] theorem Part.modVau_ptu (f : Vau → Vau) (p : Part) : (p.modVau f).ptu = p.ptu := rfl
@[simp] theorem Part.modVau_sbc (f : Vau → Vau) (p : Part) : (p.modVau f).sbc = p.sbc := rfl
@[simp] theorem Part.modVau_stu (f : Vau → Vau) (p : Part) : (p.modVau f).stu = p.stu := rfl
@[simp] theorem Part.modVau_vau (f : Vau → Vau) (p : Part) : (p.modVau f).vau = f p.vau := rfl
@[simp] theorem Part.modVau_vcl (f : Vau → Vau) (p : Part) : (p.modVau f).vcl = p.vcl := rfl
@[simp] theorem Part.modVau_tou (f : Vau → Vau) (p : Part) : (p.modVau f).tou = p.tou := rfl
@[simp] theorem Part.modVau_csu (f : Vau → Vau) (p : Part) : (p.modVau f).csu = p.csu := rfl

/-! ## modVcl -/

@[simp] theorem Part.modVcl_rstLow (f : Vcl → Vcl) (p : Part) : (p.modVcl f).rstLow = p.rstLow := rfl
@[simp] theorem Part.modVcl_clock (f : Vcl → Vcl) (p : Part) : (p.modVcl f).clock = p.clock := rfl
@[simp] theorem Part.modVcl_lcu (f : Vcl → Vcl) (p : Part) : (p.modVcl f).lcu = p.lcu := rfl
@[simp] theorem Part.modVcl_pse (f : Vcl → Vcl) (p : Part) : (p.modVcl f).pse = p.pse := rfl
@[simp] theorem Part.modVcl_ptu (f : Vcl → Vcl) (p : Part) : (p.modVcl f).ptu = p.ptu := rfl
@[simp] theorem Part.modVcl_sbc (f : Vcl → Vcl) (p : Part) : (p.modVcl f).sbc = p.sbc := rfl
@[simp] theorem Part.modVcl_stu (f : Vcl → Vcl) (p : Part) : (p.modVcl f).stu = p.stu := rfl
@[simp] theorem Part.modVcl_vau (f : Vcl → Vcl) (p : Part) : (p.modVcl f).vau = p.vau := rfl
@[simp] theorem Part.modVcl_vcl (f : Vcl → Vcl) (p : Part) : (p.modVcl f).vcl = f p.vcl := rfl
@[simp] theorem Part.modVcl_tou (f : Vcl → Vcl) (p : Part) : (p.modVcl f).tou = p.tou := rfl
@[simp] theorem Part.modVcl_csu (f : Vcl → Vcl) (p : Part) : (p.modVcl f).csu = p.csu := rfl

/-! ## modTou -/

@[simp] theorem Part.modTou_rstLow (f : Tou → Tou) (p : Part) : (p.modTou f).rstLow = p.rstLow := rfl
@[simp] theorem Part.modTou_clock (f : Tou → Tou) (p : Part) : (p.modTou f).clock = p.clock := rfl
@[simp] theorem Part.modTou_lcu (f : Tou → Tou) (p : Part) : (p.modTou f).lcu = p.lcu := rfl
@[simp] theorem Part.modTou_pse (f : Tou → Tou) (p : Part) : (p.modTou f).pse = p.pse := rfl
@[simp] theorem Part.modTou_ptu (f : Tou → Tou) (p : Part) : (p.modTou f).ptu = p.ptu := rfl
@[simp] theorem Part.modTou_sbc (f : Tou → Tou) (p : Part) : (p.modTou f).sbc = p.sbc := rfl
@[simp] theorem Part.modTou_stu (f : Tou → Tou) (p : Part) : (p.modTou f).stu = p.stu := rfl
@[simp] theorem Part.modTou_vau (f : Tou → Tou) (p : Part) : (p.modTou f).vau = p.vau := rfl
@[simp] theorem Part.modTou_vcl (f : Tou → Tou) (p : Part) : (p.modTou f).vcl = p.vcl := rfl
@[simp] theorem Part.modTou_tou (f : Tou → Tou) (p : Part) : (p.modTou f).tou = f p.tou := rfl
@[simp] theorem Part.modTou_csu (f : Tou → Tou) (p : Part) : (p.modTou f).csu = p.csu := rfl

/-! ## modCsu -/

@[simp] theorem Part.modCsu_rstLow (f : Csu → Csu) (p : Part) : (p.modCsu f).rstLow = p.rstLow := rfl
@[simp] theorem Part.modCsu_clock (f : Csu → Csu) (p : Part) : (p.modCsu f).clock = p.clock := rfl
@[simp] theorem Part.modCsu_lcu (f : Csu → Csu) (p : Part) : (p.modCsu f).lcu = p.lcu := rfl
@[simp] theorem Part.modCsu_pse (f : Csu → Csu) (p : Part) : (p.modCsu f).pse = p.pse := rfl
@[simp] theorem Part.modCsu_ptu (f : Csu → Csu) (p : Part) : (p.modCsu f).ptu = p.ptu := rfl
@[simp] theorem Part.modCsu_sbc (f : Csu → Csu) (p : Part) : (p.modCsu f).sbc = p.sbc := rfl
@[simp] theorem Part.modCsu_stu (f : Csu → Csu) (p : Part) : (p.modCsu f).stu = p.stu := rfl
@[simp] theorem Part.modCsu_vau (f : Csu → Csu) (p : Part) : (p.modCsu f).vau = p.vau := rfl
@[simp] theorem Part.modCsu_vcl (f : Csu → Csu) (p : Part) : (p.modCsu f).vcl = p.vcl := rfl
@[simp] theorem Part.modCsu_tou (f : Csu → Csu) (p : Part) : (p.modCsu f).tou = p.tou := rfl
@[simp] theorem Part.modCsu_csu (f : Csu → Csu) (p : Part) : (p.modCsu f).csu = f p.csu := rfl

/-! ## modTotals -/

@[simp] theorem Part.modTotals_rstLow (f : Totals → Totals) (p : Part) :
    (p.modTotals f).rstLow = p.rstLow := rfl
@[simp] theorem Part.modTotals_clock (f : Totals → Totals) (p : Part) :
    (p.modTotals f).clock = p.clock := rfl
@[simp] theorem Part.modTotals_lcu (f : Totals → Totals) (p : Part) :
    (p.modTotals f).lcu = p.lcu := rfl
@[simp] theorem Part.modTotals_pse (f : Totals → Totals) (p : Part) :
    (p.modTotals f).pse = p.pse := rfl
@[simp] theorem Part.modTotals_ptu (f : Totals → Totals) (p : Part) :
    (p.modTotals f).ptu = p.ptu := rfl
@[simp] theorem Part.modTotals_sbc (f : Totals → Totals) (p : Part) :
    (p.modTotals f).sbc = p.sbc := rfl
@[simp] theorem Part.modTotals_stu (f : Totals → Totals) (p : Part) :
    (p.modTotals f).stu = p.stu := rfl
@[simp] theorem Part.modTotals_vau (f : Totals → Totals) (p : Part) :
    (p.modTotals f).vau = p.vau := rfl
@[simp] theorem Part.modTotals_vcl (f : Totals → Totals) (p : Part) :
    (p.modTotals f).vcl = { p.vcl with totals := f p.vcl.totals } := rfl
@[simp] theorem Part.modTotals_tou (f : Totals → Totals) (p : Part) :
    (p.modTotals f).tou = p.tou := rfl
@[simp] theorem Part.modTotals_csu (f : Totals → Totals) (p : Part) :
    (p.modTotals f).csu = p.csu := rfl

/-! ## modChannel -/

@[simp] theorem Part.modChannel_rstLow (c : Channel) (f : ChannelRecord → ChannelRecord) (p : Part) :
    (p.modChannel c f).rstLow = p.rstLow := rfl
@[simp] theorem Part.modChannel_clock (c : Channel) (f : ChannelRecord → ChannelRecord) (p : Part) :
    (p.modChannel c f).clock = p.clock := rfl
@[simp] theorem Part.modChannel_lcu (c : Channel) (f : ChannelRecord → ChannelRecord) (p : Part) :
    (p.modChannel c f).lcu = { p.lcu with channels := p.lcu.channels.set c (f (p.lcu.channels.get c)) } := rfl
@[simp] theorem Part.modChannel_pse (c : Channel) (f : ChannelRecord → ChannelRecord) (p : Part) :
    (p.modChannel c f).pse = p.pse := rfl
@[simp] theorem Part.modChannel_ptu (c : Channel) (f : ChannelRecord → ChannelRecord) (p : Part) :
    (p.modChannel c f).ptu = p.ptu := rfl
@[simp] theorem Part.modChannel_sbc (c : Channel) (f : ChannelRecord → ChannelRecord) (p : Part) :
    (p.modChannel c f).sbc = p.sbc := rfl
@[simp] theorem Part.modChannel_stu (c : Channel) (f : ChannelRecord → ChannelRecord) (p : Part) :
    (p.modChannel c f).stu = p.stu := rfl
@[simp] theorem Part.modChannel_vau (c : Channel) (f : ChannelRecord → ChannelRecord) (p : Part) :
    (p.modChannel c f).vau = p.vau := rfl
@[simp] theorem Part.modChannel_vcl (c : Channel) (f : ChannelRecord → ChannelRecord) (p : Part) :
    (p.modChannel c f).vcl = p.vcl := rfl
@[simp] theorem Part.modChannel_tou (c : Channel) (f : ChannelRecord → ChannelRecord) (p : Part) :
    (p.modChannel c f).tou = p.tou := rfl
@[simp] theorem Part.modChannel_csu (c : Channel) (f : ChannelRecord → ChannelRecord) (p : Part) :
    (p.modChannel c f).csu = p.csu := rfl

/-! ## modProbe -/

@[simp] theorem Part.modProbe_rstLow (c : Probe) (f : ProbeState → ProbeState) (p : Part) :
    (p.modProbe c f).rstLow = p.rstLow := rfl
@[simp] theorem Part.modProbe_clock (c : Probe) (f : ProbeState → ProbeState) (p : Part) :
    (p.modProbe c f).clock = p.clock := rfl
@[simp] theorem Part.modProbe_lcu (c : Probe) (f : ProbeState → ProbeState) (p : Part) :
    (p.modProbe c f).lcu = p.lcu := rfl
@[simp] theorem Part.modProbe_pse (c : Probe) (f : ProbeState → ProbeState) (p : Part) :
    (p.modProbe c f).pse = p.pse := rfl
@[simp] theorem Part.modProbe_ptu (c : Probe) (f : ProbeState → ProbeState) (p : Part) :
    (p.modProbe c f).ptu = { p.ptu with probes := p.ptu.probes.set c (f (p.ptu.probes.get c)) } := rfl
@[simp] theorem Part.modProbe_sbc (c : Probe) (f : ProbeState → ProbeState) (p : Part) :
    (p.modProbe c f).sbc = p.sbc := rfl
@[simp] theorem Part.modProbe_stu (c : Probe) (f : ProbeState → ProbeState) (p : Part) :
    (p.modProbe c f).stu = p.stu := rfl
@[simp] theorem Part.modProbe_vau (c : Probe) (f : ProbeState → ProbeState) (p : Part) :
    (p.modProbe c f).vau = p.vau := rfl
@[simp] theorem Part.modProbe_vcl (c : Probe) (f : ProbeState → ProbeState) (p : Part) :
    (p.modProbe c f).vcl = p.vcl := rfl
@[simp] theorem Part.modProbe_tou (c : Probe) (f : ProbeState → ProbeState) (p : Part) :
    (p.modProbe c f).tou = p.tou := rfl
@[simp] theorem Part.modProbe_csu (c : Probe) (f : ProbeState → ProbeState) (p : Part) :
    (p.modProbe c f).csu = p.csu := rfl

/-! ## modOutput -/

@[simp] theorem Part.modOutput_rstLow (c : Output) (f : OutputState → OutputState) (p : Part) :
    (p.modOutput c f).rstLow = p.rstLow := rfl
@[simp] theorem Part.modOutput_clock (c : Output) (f : OutputState → OutputState) (p : Part) :
    (p.modOutput c f).clock = p.clock := rfl
@[simp] theorem Part.modOutput_lcu (c : Output) (f : OutputState → OutputState) (p : Part) :
    (p.modOutput c f).lcu = p.lcu := rfl
@[simp] theorem Part.modOutput_pse (c : Output) (f : OutputState → OutputState) (p : Part) :
    (p.modOutput c f).pse = p.pse := rfl
@[simp] theorem Part.modOutput_ptu (c : Output) (f : OutputState → OutputState) (p : Part) :
    (p.modOutput c f).ptu = p.ptu := rfl
@[simp] theorem Part.modOutput_sbc (c : Output) (f : OutputState → OutputState) (p : Part) :
    (p.modOutput c f).sbc = p.sbc := rfl
@[simp] theorem Part.modOutput_stu (c : Output) (f : OutputState → OutputState) (p : Part) :
    (p.modOutput c f).stu = p.stu := rfl
@[simp] theorem Part.modOutput_vau (c : Output) (f : OutputState → OutputState) (p : Part) :
    (p.modOutput c f).vau = p.vau := rfl
@[simp] theorem Part.modOutput_vcl (c : Output) (f : OutputState → OutputState) (p : Part) :
    (p.modOutput c f).vcl = p.vcl := rfl
@[simp] theorem Part.modOutput_tou (c : Output) (f : OutputState → OutputState) (p : Part) :
    (p.modOutput c f).tou = { p.tou with outputs := p.tou.outputs.set c (f (p.tou.outputs.get c)) } := rfl
@[simp] theorem Part.modOutput_csu (c : Output) (f : OutputState → OutputState) (p : Part) :
    (p.modOutput c f).csu = p.csu := rfl

end Sys2Proof.Machine
end

