-- ==== Sys2Proof/Laws/Ops.lean ====
section
/-! SUPPORT. What the shared operations do: one lemma for each thing a proof needs to know of them. -/

namespace Sys2Proof

/-! ## One value per channel, side, probe, output -/

@[simp] theorem PerChannel.get_set_same {α : Type} (q : PerChannel α) (c : Channel) (a : α) : (q.set c a).get c = a := by
  cases c <;> rfl

theorem PerChannel.get_set_other {α : Type} (q : PerChannel α) {c d : Channel} (a : α) (h : d ≠ c) :
    (q.set c a).get d = q.get d := by
  cases c <;> cases d <;> first | rfl | exact absurd rfl h

@[simp] theorem PerProbe.get_set_same {α : Type} (q : PerProbe α) (c : Probe) (a : α) : (q.set c a).get c = a := by
  cases c <;> rfl

@[simp] theorem PerOutput.get_set_same {α : Type} (q : PerOutput α) (c : Output) (a : α) : (q.set c a).get c = a := by
  cases c <;> rfl

theorem PerOutput.get_set_other {α : Type} (q : PerOutput α) {c d : Output} (a : α) (h : d ≠ c) :
    (q.set c a).get d = q.get d := by
  cases c <;> cases d <;> first | rfl | exact absurd rfl h

@[simp] theorem PerSide.get_set_same {α : Type} (q : PerSide α) (c : Machine.Side) (a : α) : (q.set c a).get c = a := by
  cases c <;> rfl

namespace Machine

/-! ## Commands act on the part alone -/

/-- Everything `act` can do: always a next state, the queue kept, the part changed by `f` unless RST_N is low. -/
theorem act_eq (f : Part → Part) (s : State) :
    act f s = .next { s with part := if s.part.rstLow then s.part else f s.part } := by
  unfold act
  split <;> simp_all

/-- `act` on a part that is not held in reset. -/
theorem act_running (f : Part → Part) {s : State} (h : s.part.rstLow = false) :
    act f s = .next { s with part := f s.part } := by
  simp [act_eq, h]

/-! ## Counters -/

theorem satInc_toNat {w : Nat} (x : BitVec w) : (satInc x).toNat = min (x.toNat + 1) (2 ^ w - 1) := by
  have hx := x.isLt
  unfold satInc
  split
  · rename_i h
    rw [h, BitVec.toNat_allOnes]
    omega
  · rename_i h
    have hne : x.toNat ≠ 2 ^ w - 1 := by
      intro hn
      exact h (BitVec.eq_of_toNat_eq (by rw [BitVec.toNat_allOnes, hn]))
    have h1 : (1 : BitVec w).toNat = 1 % 2 ^ w := by simp
    rw [BitVec.toNat_add, h1, Nat.add_mod_mod, Nat.mod_eq_of_lt (by omega)]
    omega

/-! ## Lists -/

theorem insertBefore_length {α : Type} (f : α → Bool) (x : α) (l : List α) : (insertBefore f x l).length = l.length + 1 := by
  induction l with
  | nil => rfl
  | cons y ys ih => simp only [insertBefore]; split <;> simp_all

theorem dropFirst_length_le {α : Type} (f : α → Bool) (l : List α) : (dropFirst f l).length ≤ l.length := by
  induction l with
  | nil => simp [dropFirst]
  | cons y ys ih => simp only [dropFirst]; split <;> simp <;> omega

theorem dropFirst_length {α : Type} {f : α → Bool} {l : List α} (h : l.any f = true) :
    (dropFirst f l).length + 1 = l.length := by
  induction l with
  | nil => simp at h
  | cons y ys ih =>
    simp only [dropFirst]
    split
    · simp
    · rename_i hy
      simp only [List.any_cons, Bool.or_eq_true] at h
      rcases h with h | h
      · exact absurd h hy
      · simp [ih h]

theorem dropNewest_length_le {α : Type} (f : α → Bool) (l : List α) : (dropNewest f l).length ≤ l.length := by
  simpa [dropNewest] using dropFirst_length_le f l.reverse

theorem dropNewest_length {α : Type} {f : α → Bool} {l : List α} (h : l.any f = true) :
    (dropNewest f l).length + 1 = l.length := by
  simpa [dropNewest] using dropFirst_length (l := l.reverse) (f := f) (by simpa using h)

@[simp] theorem changeFirst_length {α : Type} (f : α → Bool) (g : α → α) (l : List α) :
    (changeFirst f g l).length = l.length := by
  induction l with
  | nil => rfl
  | cons y ys ih => simp only [changeFirst]; split <;> simp_all

theorem appendCapped_length {α : Type} (n : Nat) (l : List α) (x : α) : (appendCapped n l x).length ≤ n := by
  simp only [appendCapped, List.length_drop]
  omega

/-! ## The record memory port -/

/-- A request on a free port is granted at once (R90). -/
theorem Port.request_free (now : Nat) (r : Requester) (q : Port) (h : q.holder = none) :
    q.request now r = { q with holder := some r, freshAt := some now } := by simp [Port.request, h]

/-- A request of the instant at which the holder asked for the free port goes before it in the grant order (R90). -/
theorem Port.request_first {now : Nat} {r x : Requester} {q : Port} (h : q.holder = some x) (hf : q.freshAt = some now)
    (hr : r.rank < x.rank) : q.request now r = { q.waitFor x with holder := some r } := by simp [Port.request, h, hf, hr]

/-- Any other request on a held port waits (R90). -/
theorem Port.request_held {now : Nat} {r x : Requester} {q : Port} (h : q.holder = some x)
    (hn : q.freshAt = some now → x.rank ≤ r.rank) : q.request now r = q.waitFor r := by
  simp only [Port.request, h, Bool.and_eq_true, decide_eq_true_eq]
  exact if_neg fun k => absurd (hn k.1) (by omega)

@[simp] theorem Port.waitFor_holder (r : Requester) (q : Port) : (q.waitFor r).holder = q.holder := by cases r <;> rfl
@[simp] theorem Port.waitFor_freshAt (r : Requester) (q : Port) : (q.waitFor r).freshAt = q.freshAt := by cases r <;> rfl
@[simp] theorem Port.grantNext_freshAt (q : Port) : q.grantNext.freshAt = none := by unfold Port.grantNext; (repeat' split) <;> rfl

@[simp] theorem Part.requestPort_rstLow (r : Requester) (p : Part) : (p.requestPort r).rstLow = p.rstLow := by
  unfold Part.requestPort; split <;> rfl
@[simp] theorem Part.requestPort_clock (r : Requester) (p : Part) : (p.requestPort r).clock = p.clock := by
  unfold Part.requestPort; split <;> rfl
@[simp] theorem Part.requestPort_lcu (r : Requester) (p : Part) : (p.requestPort r).lcu = p.lcu := by
  unfold Part.requestPort; split <;> rfl
@[simp] theorem Part.requestPort_pse (r : Requester) (p : Part) : (p.requestPort r).pse = p.pse := by
  unfold Part.requestPort; split <;> rfl
@[simp] theorem Part.requestPort_ptu (r : Requester) (p : Part) : (p.requestPort r).ptu = p.ptu := by
  unfold Part.requestPort; split <;> rfl
@[simp] theorem Part.requestPort_sbc (r : Requester) (p : Part) : (p.requestPort r).sbc = p.sbc := by
  unfold Part.requestPort; split <;> rfl
@[simp] theorem Part.requestPort_stu (r : Requester) (p : Part) : (p.requestPort r).stu = p.stu := by
  unfold Part.requestPort; split <;> rfl
@[simp] theorem Part.requestPort_vcl (r : Requester) (p : Part) : (p.requestPort r).vcl = p.vcl := by
  unfold Part.requestPort; split <;> rfl
@[simp] theorem Part.requestPort_tou (r : Requester) (p : Part) : (p.requestPort r).tou = p.tou := by
  unfold Part.requestPort; split <;> rfl
@[simp] theorem Part.requestPort_csu (r : Requester) (p : Part) : (p.requestPort r).csu = p.csu := by
  unfold Part.requestPort; split <;> rfl

/-- A request changes nothing of the VAU but its port. -/
theorem Part.requestPort_vau (r : Requester) (p : Part) : ∃ q, (p.requestPort r).vau = { p.vau with port := q } := by
  unfold Part.requestPort
  split
  · exact ⟨p.vau.port, rfl⟩
  · exact ⟨p.vau.port.request p.clock r, rfl⟩

end Machine

end Sys2Proof
end

