-- ==== Sys2Proof/Laws/Frames.lean ====
section
/-! SUPPORT. What each operation leaves alone: one lemma per operation and per block of the part it does not touch. -/

set_option Elab.async false

namespace Sys2Proof.Machine

/-! ## countDrop -/

@[simp] theorem Part.countDrop_rstLow (p : Part) : (p.countDrop).rstLow = p.rstLow := by
  rfl
@[simp] theorem Part.countDrop_clock (p : Part) : (p.countDrop).clock = p.clock := by
  rfl
@[simp] theorem Part.countDrop_lcu (p : Part) : (p.countDrop).lcu = p.lcu := by
  rfl
@[simp] theorem Part.countDrop_pse (p : Part) : (p.countDrop).pse = p.pse := by
  rfl
@[simp] theorem Part.countDrop_ptu (p : Part) : (p.countDrop).ptu = p.ptu := by
  rfl
@[simp] theorem Part.countDrop_stu (p : Part) : (p.countDrop).stu = p.stu := by
  rfl
@[simp] theorem Part.countDrop_vau (p : Part) : (p.countDrop).vau = p.vau := by
  rfl
@[simp] theorem Part.countDrop_vcl (p : Part) : (p.countDrop).vcl = p.vcl := by
  rfl
@[simp] theorem Part.countDrop_tou (p : Part) : (p.countDrop).tou = p.tou := by
  rfl
@[simp] theorem Part.countDrop_csu (p : Part) : (p.countDrop).csu = p.csu := by
  rfl

/-! ## countStaleWheel -/

@[simp] theorem Part.countStaleWheel_rstLow (p : Part) : (p.countStaleWheel).rstLow = p.rstLow := by
  rfl
@[simp] theorem Part.countStaleWheel_clock (p : Part) : (p.countStaleWheel).clock = p.clock := by
  rfl
@[simp] theorem Part.countStaleWheel_lcu (p : Part) : (p.countStaleWheel).lcu = p.lcu := by
  rfl
@[simp] theorem Part.countStaleWheel_pse (p : Part) : (p.countStaleWheel).pse = p.pse := by
  rfl
@[simp] theorem Part.countStaleWheel_ptu (p : Part) : (p.countStaleWheel).ptu = p.ptu := by
  rfl
@[simp] theorem Part.countStaleWheel_sbc (p : Part) : (p.countStaleWheel).sbc = p.sbc := by
  rfl
@[simp] theorem Part.countStaleWheel_stu (p : Part) : (p.countStaleWheel).stu = p.stu := by
  rfl
@[simp] theorem Part.countStaleWheel_vau (p : Part) : (p.countStaleWheel).vau = p.vau := by
  rfl
@[simp] theorem Part.countStaleWheel_tou (p : Part) : (p.countStaleWheel).tou = p.tou := by
  rfl
@[simp] theorem Part.countStaleWheel_csu (p : Part) : (p.countStaleWheel).csu = p.csu := by
  rfl

/-! ## handBack -/

@[simp] theorem Part.handBack_rstLow (seq : Count16) (p : Part) : (p.handBack seq).rstLow = p.rstLow := by
  rfl
@[simp] theorem Part.handBack_clock (seq : Count16) (p : Part) : (p.handBack seq).clock = p.clock := by
  rfl
@[simp] theorem Part.handBack_lcu (seq : Count16) (p : Part) : (p.handBack seq).lcu = p.lcu := by
  rfl
@[simp] theorem Part.handBack_pse (seq : Count16) (p : Part) : (p.handBack seq).pse = p.pse := by
  rfl
@[simp] theorem Part.handBack_ptu (seq : Count16) (p : Part) : (p.handBack seq).ptu = p.ptu := by
  rfl
@[simp] theorem Part.handBack_sbc (seq : Count16) (p : Part) : (p.handBack seq).sbc = p.sbc := by
  rfl
@[simp] theorem Part.handBack_stu (seq : Count16) (p : Part) : (p.handBack seq).stu = p.stu := by
  rfl
@[simp] theorem Part.handBack_vau (seq : Count16) (p : Part) : (p.handBack seq).vau = p.vau := by
  rfl
@[simp] theorem Part.handBack_tou (seq : Count16) (p : Part) : (p.handBack seq).tou = p.tou := by
  rfl
@[simp] theorem Part.handBack_csu (seq : Count16) (p : Part) : (p.handBack seq).csu = p.csu := by
  rfl

/-! ## leftUnsent -/

@[simp] theorem Part.leftUnsent_rstLow (e : TxEntry) (p : Part) : (p.leftUnsent e).rstLow = p.rstLow := by
  unfold Part.leftUnsent; (repeat' split) <;> simp
@[simp] theorem Part.leftUnsent_clock (e : TxEntry) (p : Part) : (p.leftUnsent e).clock = p.clock := by
  unfold Part.leftUnsent; (repeat' split) <;> simp
@[simp] theorem Part.leftUnsent_lcu (e : TxEntry) (p : Part) : (p.leftUnsent e).lcu = p.lcu := by
  unfold Part.leftUnsent; (repeat' split) <;> simp
@[simp] theorem Part.leftUnsent_pse (e : TxEntry) (p : Part) : (p.leftUnsent e).pse = p.pse := by
  unfold Part.leftUnsent; (repeat' split) <;> simp
@[simp] theorem Part.leftUnsent_ptu (e : TxEntry) (p : Part) : (p.leftUnsent e).ptu = p.ptu := by
  unfold Part.leftUnsent; (repeat' split) <;> simp
@[simp] theorem Part.leftUnsent_sbc (e : TxEntry) (p : Part) : (p.leftUnsent e).sbc = p.sbc := by
  unfold Part.leftUnsent; (repeat' split) <;> simp
@[simp] theorem Part.leftUnsent_stu (e : TxEntry) (p : Part) : (p.leftUnsent e).stu = p.stu := by
  unfold Part.leftUnsent; (repeat' split) <;> simp
@[simp] theorem Part.leftUnsent_vau (e : TxEntry) (p : Part) : (p.leftUnsent e).vau = p.vau := by
  unfold Part.leftUnsent; (repeat' split) <;> simp
@[simp] theorem Part.leftUnsent_tou (e : TxEntry) (p : Part) : (p.leftUnsent e).tou = p.tou := by
  unfold Part.leftUnsent; (repeat' split) <;> simp
@[simp] theorem Part.leftUnsent_csu (e : TxEntry) (p : Part) : (p.leftUnsent e).csu = p.csu := by
  unfold Part.leftUnsent; (repeat' split) <;> simp

/-! ## placeEntry -/

@[simp] theorem Part.placeEntry_rstLow (e : TxEntry) (p : Part) : (p.placeEntry e).rstLow = p.rstLow := by
  unfold Part.placeEntry; (repeat' split) <;> simp
@[simp] theorem Part.placeEntry_clock (e : TxEntry) (p : Part) : (p.placeEntry e).clock = p.clock := by
  unfold Part.placeEntry; (repeat' split) <;> simp
@[simp] theorem Part.placeEntry_lcu (e : TxEntry) (p : Part) : (p.placeEntry e).lcu = p.lcu := by
  unfold Part.placeEntry; (repeat' split) <;> simp
@[simp] theorem Part.placeEntry_pse (e : TxEntry) (p : Part) : (p.placeEntry e).pse = p.pse := by
  unfold Part.placeEntry; (repeat' split) <;> simp
@[simp] theorem Part.placeEntry_ptu (e : TxEntry) (p : Part) : (p.placeEntry e).ptu = p.ptu := by
  unfold Part.placeEntry; (repeat' split) <;> simp
@[simp] theorem Part.placeEntry_stu (e : TxEntry) (p : Part) : (p.placeEntry e).stu = p.stu := by
  unfold Part.placeEntry; (repeat' split) <;> simp
@[simp] theorem Part.placeEntry_vau (e : TxEntry) (p : Part) : (p.placeEntry e).vau = p.vau := by
  unfold Part.placeEntry; (repeat' split) <;> simp
@[simp] theorem Part.placeEntry_tou (e : TxEntry) (p : Part) : (p.placeEntry e).tou = p.tou := by
  unfold Part.placeEntry; (repeat' split) <;> simp
@[simp] theorem Part.placeEntry_csu (e : TxEntry) (p : Part) : (p.placeEntry e).csu = p.csu := by
  unfold Part.placeEntry; (repeat' split) <;> simp

/-! ## enterList -/

@[simp] theorem Part.enterList_rstLow (c : TxContent) (p : Part) (t : SiteTime) : (p.enterList c t).rstLow = p.rstLow := by
  unfold Part.enterList; (repeat' split) <;> simp
@[simp] theorem Part.enterList_clock (c : TxContent) (p : Part) (t : SiteTime) : (p.enterList c t).clock = p.clock := by
  unfold Part.enterList; (repeat' split) <;> simp
@[simp] theorem Part.enterList_lcu (c : TxContent) (p : Part) (t : SiteTime) : (p.enterList c t).lcu = p.lcu := by
  unfold Part.enterList; (repeat' split) <;> simp
@[simp] theorem Part.enterList_pse (c : TxContent) (p : Part) (t : SiteTime) : (p.enterList c t).pse = p.pse := by
  unfold Part.enterList; (repeat' split) <;> simp
@[simp] theorem Part.enterList_ptu (c : TxContent) (p : Part) (t : SiteTime) : (p.enterList c t).ptu = p.ptu := by
  unfold Part.enterList; (repeat' split) <;> simp
@[simp] theorem Part.enterList_stu (c : TxContent) (p : Part) (t : SiteTime) : (p.enterList c t).stu = p.stu := by
  unfold Part.enterList; (repeat' split) <;> simp
@[simp] theorem Part.enterList_vau (c : TxContent) (p : Part) (t : SiteTime) : (p.enterList c t).vau = p.vau := by
  unfold Part.enterList; (repeat' split) <;> simp
@[simp] theorem Part.enterList_tou (c : TxContent) (p : Part) (t : SiteTime) : (p.enterList c t).tou = p.tou := by
  unfold Part.enterList; (repeat' split) <;> simp
@[simp] theorem Part.enterList_csu (c : TxContent) (p : Part) (t : SiteTime) : (p.enterList c t).csu = p.csu := by
  unfold Part.enterList; (repeat' split) <;> simp

/-! ## offerVehicle -/

@[simp] theorem Part.offerVehicle_rstLow (p : Part) : (p.offerVehicle).rstLow = p.rstLow := by
  unfold Part.offerVehicle; (repeat' split) <;> simp
@[simp] theorem Part.offerVehicle_clock (p : Part) : (p.offerVehicle).clock = p.clock := by
  unfold Part.offerVehicle; (repeat' split) <;> simp
@[simp] theorem Part.offerVehicle_lcu (p : Part) : (p.offerVehicle).lcu = p.lcu := by
  unfold Part.offerVehicle; (repeat' split) <;> simp
@[simp] theorem Part.offerVehicle_pse (p : Part) : (p.offerVehicle).pse = p.pse := by
  unfold Part.offerVehicle; (repeat' split) <;> simp
@[simp] theorem Part.offerVehicle_ptu (p : Part) : (p.offerVehicle).ptu = p.ptu := by
  unfold Part.offerVehicle; (repeat' split) <;> simp
@[simp] theorem Part.offerVehicle_stu (p : Part) : (p.offerVehicle).stu = p.stu := by
  unfold Part.offerVehicle; (repeat' split) <;> simp
@[simp] theorem Part.offerVehicle_vau (p : Part) : (p.offerVehicle).vau = p.vau := by
  unfold Part.offerVehicle; (repeat' split) <;> simp
@[simp] theorem Part.offerVehicle_tou (p : Part) : (p.offerVehicle).tou = p.tou := by
  unfold Part.offerVehicle; (repeat' split) <;> simp
@[simp] theorem Part.offerVehicle_csu (p : Part) : (p.offerVehicle).csu = p.csu := by
  unfold Part.offerVehicle; (repeat' split) <;> simp

/-! ## handFrame -/

@[simp] theorem Part.handFrame_rstLow (c : TxContent) (p : Part) : (p.handFrame c).rstLow = p.rstLow := by
  simp [Part.handFrame]
@[simp] theorem Part.handFrame_clock (c : TxContent) (p : Part) : (p.handFrame c).clock = p.clock := by
  simp [Part.handFrame]
@[simp] theorem Part.handFrame_lcu (c : TxContent) (p : Part) : (p.handFrame c).lcu = p.lcu := by
  simp [Part.handFrame]
@[simp] theorem Part.handFrame_pse (c : TxContent) (p : Part) : (p.handFrame c).pse = p.pse := by
  simp [Part.handFrame]
@[simp] theorem Part.handFrame_ptu (c : TxContent) (p : Part) : (p.handFrame c).ptu = p.ptu := by
  simp [Part.handFrame]
@[simp] theorem Part.handFrame_stu (c : TxContent) (p : Part) : (p.handFrame c).stu = p.stu := by
  simp [Part.handFrame]
@[simp] theorem Part.handFrame_vau (c : TxContent) (p : Part) : (p.handFrame c).vau = p.vau := by
  simp [Part.handFrame]
@[simp] theorem Part.handFrame_tou (c : TxContent) (p : Part) : (p.handFrame c).tou = p.tou := by
  simp [Part.handFrame]
@[simp] theorem Part.handFrame_csu (c : TxContent) (p : Part) : (p.handFrame c).csu = p.csu := by
  simp [Part.handFrame]

/-! ## stopSending -/

@[simp] theorem Part.stopSending_rstLow (p : Part) : (p.stopSending).rstLow = p.rstLow := by
  simp [Part.stopSending]
@[simp] theorem Part.stopSending_clock (p : Part) : (p.stopSending).clock = p.clock := by
  simp [Part.stopSending]
@[simp] theorem Part.stopSending_lcu (p : Part) : (p.stopSending).lcu = p.lcu := by
  simp [Part.stopSending]
@[simp] theorem Part.stopSending_pse (p : Part) : (p.stopSending).pse = p.pse := by
  simp [Part.stopSending]
@[simp] theorem Part.stopSending_ptu (p : Part) : (p.stopSending).ptu = p.ptu := by
  simp [Part.stopSending]
@[simp] theorem Part.stopSending_stu (p : Part) : (p.stopSending).stu = p.stu := by
  simp [Part.stopSending]
@[simp] theorem Part.stopSending_vau (p : Part) : (p.stopSending).vau = p.vau := by
  simp [Part.stopSending]
@[simp] theorem Part.stopSending_vcl (p : Part) : (p.stopSending).vcl = p.vcl := by
  simp [Part.stopSending]
@[simp] theorem Part.stopSending_tou (p : Part) : (p.stopSending).tou = p.tou := by
  simp [Part.stopSending]
@[simp] theorem Part.stopSending_csu (p : Part) : (p.stopSending).csu = p.csu := by
  simp [Part.stopSending]

/-! ## requestStatus -/

@[simp] theorem Part.requestStatus_rstLow (p : Part) : (p.requestStatus).rstLow = p.rstLow := by
  simp [Part.requestStatus]
@[simp] theorem Part.requestStatus_clock (p : Part) : (p.requestStatus).clock = p.clock := by
  simp [Part.requestStatus]
@[simp] theorem Part.requestStatus_lcu (p : Part) : (p.requestStatus).lcu = p.lcu := by
  simp [Part.requestStatus]
@[simp] theorem Part.requestStatus_pse (p : Part) : (p.requestStatus).pse = p.pse := by
  simp [Part.requestStatus]
@[simp] theorem Part.requestStatus_ptu (p : Part) : (p.requestStatus).ptu = p.ptu := by
  simp [Part.requestStatus]
@[simp] theorem Part.requestStatus_stu (p : Part) : (p.requestStatus).stu = p.stu := by
  simp [Part.requestStatus]
@[simp] theorem Part.requestStatus_vau (p : Part) : (p.requestStatus).vau = p.vau := by
  simp [Part.requestStatus]
@[simp] theorem Part.requestStatus_tou (p : Part) : (p.requestStatus).tou = p.tou := by
  simp [Part.requestStatus]
@[simp] theorem Part.requestStatus_csu (p : Part) : (p.requestStatus).csu = p.csu := by
  simp [Part.requestStatus]

/-! ## requestForMarks -/

@[simp] theorem Part.requestForMarks_rstLow (p : Part) : (p.requestForMarks).rstLow = p.rstLow := by
  simp [Part.requestForMarks]
@[simp] theorem Part.requestForMarks_clock (p : Part) : (p.requestForMarks).clock = p.clock := by
  simp [Part.requestForMarks]
@[simp] theorem Part.requestForMarks_lcu (p : Part) : (p.requestForMarks).lcu = p.lcu := by
  simp [Part.requestForMarks]
@[simp] theorem Part.requestForMarks_pse (p : Part) : (p.requestForMarks).pse = p.pse := by
  simp [Part.requestForMarks]
@[simp] theorem Part.requestForMarks_ptu (p : Part) : (p.requestForMarks).ptu = p.ptu := by
  simp [Part.requestForMarks]
@[simp] theorem Part.requestForMarks_stu (p : Part) : (p.requestForMarks).stu = p.stu := by
  simp [Part.requestForMarks]
@[simp] theorem Part.requestForMarks_vau (p : Part) : (p.requestForMarks).vau = p.vau := by
  simp [Part.requestForMarks]
@[simp] theorem Part.requestForMarks_tou (p : Part) : (p.requestForMarks).tou = p.tou := by
  simp [Part.requestForMarks]

/-! ## markNewlySet -/

@[simp] theorem Part.markNewlySet_rstLow (p : Part) : (p.markNewlySet).rstLow = p.rstLow := by
  unfold Part.markNewlySet; (repeat' split) <;> simp
@[simp] theorem Part.markNewlySet_clock (p : Part) : (p.markNewlySet).clock = p.clock := by
  unfold Part.markNewlySet; (repeat' split) <;> simp
@[simp] theorem Part.markNewlySet_lcu (p : Part) : (p.markNewlySet).lcu = p.lcu := by
  unfold Part.markNewlySet; (repeat' split) <;> simp
@[simp] theorem Part.markNewlySet_pse (p : Part) : (p.markNewlySet).pse = p.pse := by
  unfold Part.markNewlySet; (repeat' split) <;> simp
@[simp] theorem Part.markNewlySet_ptu (p : Part) : (p.markNewlySet).ptu = p.ptu := by
  unfold Part.markNewlySet; (repeat' split) <;> simp
@[simp] theorem Part.markNewlySet_stu (p : Part) : (p.markNewlySet).stu = p.stu := by
  unfold Part.markNewlySet; (repeat' split) <;> simp
@[simp] theorem Part.markNewlySet_vau (p : Part) : (p.markNewlySet).vau = p.vau := by
  unfold Part.markNewlySet; (repeat' split) <;> simp
@[simp] theorem Part.markNewlySet_tou (p : Part) : (p.markNewlySet).tou = p.tou := by
  unfold Part.markNewlySet; (repeat' split) <;> simp

/-! ## setMark -/

@[simp] theorem Part.setMark_rstLow (m : ChangeMark) (p : Part) : (p.setMark m).rstLow = p.rstLow := by
  unfold Part.setMark; (repeat' split) <;> simp
@[simp] theorem Part.setMark_clock (m : ChangeMark) (p : Part) : (p.setMark m).clock = p.clock := by
  unfold Part.setMark; (repeat' split) <;> simp
@[simp] theorem Part.setMark_lcu (m : ChangeMark) (p : Part) : (p.setMark m).lcu = p.lcu := by
  unfold Part.setMark; (repeat' split) <;> simp
@[simp] theorem Part.setMark_pse (m : ChangeMark) (p : Part) : (p.setMark m).pse = p.pse := by
  unfold Part.setMark; (repeat' split) <;> simp
@[simp] theorem Part.setMark_ptu (m : ChangeMark) (p : Part) : (p.setMark m).ptu = p.ptu := by
  unfold Part.setMark; (repeat' split) <;> simp
@[simp] theorem Part.setMark_stu (m : ChangeMark) (p : Part) : (p.setMark m).stu = p.stu := by
  unfold Part.setMark; (repeat' split) <;> simp
@[simp] theorem Part.setMark_vau (m : ChangeMark) (p : Part) : (p.setMark m).vau = p.vau := by
  unfold Part.setMark; (repeat' split) <;> simp
@[simp] theorem Part.setMark_tou (m : ChangeMark) (p : Part) : (p.setMark m).tou = p.tou := by
  unfold Part.setMark; (repeat' split) <;> simp

/-! ## faultMark -/

@[simp] theorem Part.faultMark_rstLow (ch : Channel) (x : ChannelMark) (p : Part) : (p.faultMark ch x).rstLow = p.rstLow := by
  unfold Part.faultMark; (repeat' split) <;> simp
@[simp] theorem Part.faultMark_clock (ch : Channel) (x : ChannelMark) (p : Part) : (p.faultMark ch x).clock = p.clock := by
  unfold Part.faultMark; (repeat' split) <;> simp
@[simp] theorem Part.faultMark_pse (ch : Channel) (x : ChannelMark) (p : Part) : (p.faultMark ch x).pse = p.pse := by
  unfold Part.faultMark; (repeat' split) <;> simp
@[simp] theorem Part.faultMark_ptu (ch : Channel) (x : ChannelMark) (p : Part) : (p.faultMark ch x).ptu = p.ptu := by
  unfold Part.faultMark; (repeat' split) <;> simp
@[simp] theorem Part.faultMark_stu (ch : Channel) (x : ChannelMark) (p : Part) : (p.faultMark ch x).stu = p.stu := by
  unfold Part.faultMark; (repeat' split) <;> simp
@[simp] theorem Part.faultMark_vau (ch : Channel) (x : ChannelMark) (p : Part) : (p.faultMark ch x).vau = p.vau := by
  unfold Part.faultMark; (repeat' split) <;> simp
@[simp] theorem Part.faultMark_tou (ch : Channel) (x : ChannelMark) (p : Part) : (p.faultMark ch x).tou = p.tou := by
  unfold Part.faultMark; (repeat' split) <;> simp

/-! ## reportTrig -/

@[simp] theorem Part.reportTrig_rstLow (x : TrigFlag) (tag : Count16) (p : Part) : (p.reportTrig x tag).rstLow = p.rstLow := by
  unfold Part.reportTrig; (repeat' split) <;> simp
@[simp] theorem Part.reportTrig_clock (x : TrigFlag) (tag : Count16) (p : Part) : (p.reportTrig x tag).clock = p.clock := by
  unfold Part.reportTrig; (repeat' split) <;> simp
@[simp] theorem Part.reportTrig_lcu (x : TrigFlag) (tag : Count16) (p : Part) : (p.reportTrig x tag).lcu = p.lcu := by
  unfold Part.reportTrig; (repeat' split) <;> simp
@[simp] theorem Part.reportTrig_pse (x : TrigFlag) (tag : Count16) (p : Part) : (p.reportTrig x tag).pse = p.pse := by
  unfold Part.reportTrig; (repeat' split) <;> simp
@[simp] theorem Part.reportTrig_ptu (x : TrigFlag) (tag : Count16) (p : Part) : (p.reportTrig x tag).ptu = p.ptu := by
  unfold Part.reportTrig; (repeat' split) <;> simp
@[simp] theorem Part.reportTrig_sbc (x : TrigFlag) (tag : Count16) (p : Part) : (p.reportTrig x tag).sbc = p.sbc := by
  unfold Part.reportTrig; (repeat' split) <;> simp
@[simp] theorem Part.reportTrig_stu (x : TrigFlag) (tag : Count16) (p : Part) : (p.reportTrig x tag).stu = p.stu := by
  unfold Part.reportTrig; (repeat' split) <;> simp
@[simp] theorem Part.reportTrig_tou (x : TrigFlag) (tag : Count16) (p : Part) : (p.reportTrig x tag).tou = p.tou := by
  unfold Part.reportTrig; (repeat' split) <;> simp
@[simp] theorem Part.reportTrig_csu (x : TrigFlag) (tag : Count16) (p : Part) : (p.reportTrig x tag).csu = p.csu := by
  unfold Part.reportTrig; (repeat' split) <;> simp

/-! ## seenNotice -/

@[simp] theorem Part.seenNotice_rstLow (ch : Channel) (p : Part) : (p.seenNotice ch).rstLow = p.rstLow := by
  rfl
@[simp] theorem Part.seenNotice_clock (ch : Channel) (p : Part) : (p.seenNotice ch).clock = p.clock := by
  rfl
@[simp] theorem Part.seenNotice_pse (ch : Channel) (p : Part) : (p.seenNotice ch).pse = p.pse := by
  rfl
@[simp] theorem Part.seenNotice_ptu (ch : Channel) (p : Part) : (p.seenNotice ch).ptu = p.ptu := by
  rfl
@[simp] theorem Part.seenNotice_sbc (ch : Channel) (p : Part) : (p.seenNotice ch).sbc = p.sbc := by
  rfl
@[simp] theorem Part.seenNotice_stu (ch : Channel) (p : Part) : (p.seenNotice ch).stu = p.stu := by
  rfl
@[simp] theorem Part.seenNotice_vau (ch : Channel) (p : Part) : (p.seenNotice ch).vau = p.vau := by
  rfl
@[simp] theorem Part.seenNotice_vcl (ch : Channel) (p : Part) : (p.seenNotice ch).vcl = p.vcl := by
  rfl
@[simp] theorem Part.seenNotice_tou (ch : Channel) (p : Part) : (p.seenNotice ch).tou = p.tou := by
  rfl
@[simp] theorem Part.seenNotice_csu (ch : Channel) (p : Part) : (p.seenNotice ch).csu = p.csu := by
  rfl

/-! ## missedNotice -/

@[simp] theorem Part.missedNotice_rstLow (ch : Channel) (p : Part) : (p.missedNotice ch).rstLow = p.rstLow := by
  simp only [Part.missedNotice]; (repeat' split) <;> simp
@[simp] theorem Part.missedNotice_clock (ch : Channel) (p : Part) : (p.missedNotice ch).clock = p.clock := by
  simp only [Part.missedNotice]; (repeat' split) <;> simp
@[simp] theorem Part.missedNotice_pse (ch : Channel) (p : Part) : (p.missedNotice ch).pse = p.pse := by
  simp only [Part.missedNotice]; (repeat' split) <;> simp
@[simp] theorem Part.missedNotice_ptu (ch : Channel) (p : Part) : (p.missedNotice ch).ptu = p.ptu := by
  simp only [Part.missedNotice]; (repeat' split) <;> simp
@[simp] theorem Part.missedNotice_stu (ch : Channel) (p : Part) : (p.missedNotice ch).stu = p.stu := by
  simp only [Part.missedNotice]; (repeat' split) <;> simp
@[simp] theorem Part.missedNotice_vau (ch : Channel) (p : Part) : (p.missedNotice ch).vau = p.vau := by
  simp only [Part.missedNotice]; (repeat' split) <;> simp
@[simp] theorem Part.missedNotice_tou (ch : Channel) (p : Part) : (p.missedNotice ch).tou = p.tou := by
  simp only [Part.missedNotice]; (repeat' split) <;> simp

/-! ## performCheck -/

@[simp] theorem Part.performCheck_rstLow (c : Check) (p : Part) : (p.performCheck c).rstLow = p.rstLow := by
  simp only [Part.performCheck]; (repeat' split) <;> simp
@[simp] theorem Part.performCheck_clock (c : Check) (p : Part) : (p.performCheck c).clock = p.clock := by
  simp only [Part.performCheck]; (repeat' split) <;> simp
@[simp] theorem Part.performCheck_pse (c : Check) (p : Part) : (p.performCheck c).pse = p.pse := by
  simp only [Part.performCheck]; (repeat' split) <;> simp
@[simp] theorem Part.performCheck_ptu (c : Check) (p : Part) : (p.performCheck c).ptu = p.ptu := by
  simp only [Part.performCheck]; (repeat' split) <;> simp
@[simp] theorem Part.performCheck_stu (c : Check) (p : Part) : (p.performCheck c).stu = p.stu := by
  simp only [Part.performCheck]; (repeat' split) <;> simp
@[simp] theorem Part.performCheck_vau (c : Check) (p : Part) : (p.performCheck c).vau = p.vau := by
  simp only [Part.performCheck]; (repeat' split) <;> simp
@[simp] theorem Part.performCheck_tou (c : Check) (p : Part) : (p.performCheck c).tou = p.tou := by
  simp only [Part.performCheck]; (repeat' split) <;> simp

/-! ## startInterval -/

@[simp] theorem Part.startInterval_rstLow (t : Nat) (p : Part) : (p.startInterval t).rstLow = p.rstLow := by
  rfl
@[simp] theorem Part.startInterval_clock (t : Nat) (p : Part) : (p.startInterval t).clock = p.clock := by
  rfl
@[simp] theorem Part.startInterval_lcu (t : Nat) (p : Part) : (p.startInterval t).lcu = p.lcu := by
  rfl
@[simp] theorem Part.startInterval_pse (t : Nat) (p : Part) : (p.startInterval t).pse = p.pse := by
  rfl
@[simp] theorem Part.startInterval_sbc (t : Nat) (p : Part) : (p.startInterval t).sbc = p.sbc := by
  rfl
@[simp] theorem Part.startInterval_stu (t : Nat) (p : Part) : (p.startInterval t).stu = p.stu := by
  rfl
@[simp] theorem Part.startInterval_vau (t : Nat) (p : Part) : (p.startInterval t).vau = p.vau := by
  rfl
@[simp] theorem Part.startInterval_vcl (t : Nat) (p : Part) : (p.startInterval t).vcl = p.vcl := by
  rfl
@[simp] theorem Part.startInterval_tou (t : Nat) (p : Part) : (p.startInterval t).tou = p.tou := by
  rfl
@[simp] theorem Part.startInterval_csu (t : Nat) (p : Part) : (p.startInterval t).csu = p.csu := by
  rfl

/-! ## beginTemperature -/

@[simp] theorem Part.beginTemperature_rstLow (p : Part) : (p.beginTemperature).rstLow = p.rstLow := by
  rfl
@[simp] theorem Part.beginTemperature_clock (p : Part) : (p.beginTemperature).clock = p.clock := by
  rfl
@[simp] theorem Part.beginTemperature_lcu (p : Part) : (p.beginTemperature).lcu = p.lcu := by
  rfl
@[simp] theorem Part.beginTemperature_pse (p : Part) : (p.beginTemperature).pse = p.pse := by
  rfl
@[simp] theorem Part.beginTemperature_sbc (p : Part) : (p.beginTemperature).sbc = p.sbc := by
  rfl
@[simp] theorem Part.beginTemperature_stu (p : Part) : (p.beginTemperature).stu = p.stu := by
  rfl
@[simp] theorem Part.beginTemperature_vau (p : Part) : (p.beginTemperature).vau = p.vau := by
  rfl
@[simp] theorem Part.beginTemperature_vcl (p : Part) : (p.beginTemperature).vcl = p.vcl := by
  rfl
@[simp] theorem Part.beginTemperature_tou (p : Part) : (p.beginTemperature).tou = p.tou := by
  rfl
@[simp] theorem Part.beginTemperature_csu (p : Part) : (p.beginTemperature).csu = p.csu := by
  rfl

/-! ## requestTemp -/

@[simp] theorem Part.requestTemp_rstLow (pr : Probe) (p : Part) : (p.requestTemp pr).rstLow = p.rstLow := by
  unfold Part.requestTemp; (repeat' split) <;> simp
@[simp] theorem Part.requestTemp_clock (pr : Probe) (p : Part) : (p.requestTemp pr).clock = p.clock := by
  unfold Part.requestTemp; (repeat' split) <;> simp
@[simp] theorem Part.requestTemp_lcu (pr : Probe) (p : Part) : (p.requestTemp pr).lcu = p.lcu := by
  unfold Part.requestTemp; (repeat' split) <;> simp
@[simp] theorem Part.requestTemp_pse (pr : Probe) (p : Part) : (p.requestTemp pr).pse = p.pse := by
  unfold Part.requestTemp; (repeat' split) <;> simp
@[simp] theorem Part.requestTemp_stu (pr : Probe) (p : Part) : (p.requestTemp pr).stu = p.stu := by
  unfold Part.requestTemp; (repeat' split) <;> simp
@[simp] theorem Part.requestTemp_vau (pr : Probe) (p : Part) : (p.requestTemp pr).vau = p.vau := by
  unfold Part.requestTemp; (repeat' split) <;> simp
@[simp] theorem Part.requestTemp_tou (pr : Probe) (p : Part) : (p.requestTemp pr).tou = p.tou := by
  unfold Part.requestTemp; (repeat' split) <;> simp
@[simp] theorem Part.requestTemp_csu (pr : Probe) (p : Part) : (p.requestTemp pr).csu = p.csu := by
  unfold Part.requestTemp; (repeat' split) <;> simp

/-! ## takeTempFrame -/

@[simp] theorem Part.takeTempFrame_rstLow (n : Nat) (pr : Probe) (c : TempContent) (p : Part) : (p.takeTempFrame n pr c).rstLow = p.rstLow := by
  simp only [Part.takeTempFrame]; (repeat' split) <;> simp
@[simp] theorem Part.takeTempFrame_clock (n : Nat) (pr : Probe) (c : TempContent) (p : Part) : (p.takeTempFrame n pr c).clock = p.clock := by
  simp only [Part.takeTempFrame]; (repeat' split) <;> simp
@[simp] theorem Part.takeTempFrame_lcu (n : Nat) (pr : Probe) (c : TempContent) (p : Part) : (p.takeTempFrame n pr c).lcu = p.lcu := by
  simp only [Part.takeTempFrame]; (repeat' split) <;> simp
@[simp] theorem Part.takeTempFrame_pse (n : Nat) (pr : Probe) (c : TempContent) (p : Part) : (p.takeTempFrame n pr c).pse = p.pse := by
  simp only [Part.takeTempFrame]; (repeat' split) <;> simp
@[simp] theorem Part.takeTempFrame_sbc (n : Nat) (pr : Probe) (c : TempContent) (p : Part) : (p.takeTempFrame n pr c).sbc = p.sbc := by
  simp only [Part.takeTempFrame]; (repeat' split) <;> simp
@[simp] theorem Part.takeTempFrame_stu (n : Nat) (pr : Probe) (c : TempContent) (p : Part) : (p.takeTempFrame n pr c).stu = p.stu := by
  simp only [Part.takeTempFrame]; (repeat' split) <;> simp
@[simp] theorem Part.takeTempFrame_vau (n : Nat) (pr : Probe) (c : TempContent) (p : Part) : (p.takeTempFrame n pr c).vau = p.vau := by
  simp only [Part.takeTempFrame]; (repeat' split) <;> simp
@[simp] theorem Part.takeTempFrame_vcl (n : Nat) (pr : Probe) (c : TempContent) (p : Part) : (p.takeTempFrame n pr c).vcl = p.vcl := by
  simp only [Part.takeTempFrame]; (repeat' split) <;> simp
@[simp] theorem Part.takeTempFrame_tou (n : Nat) (pr : Probe) (c : TempContent) (p : Part) : (p.takeTempFrame n pr c).tou = p.tou := by
  simp only [Part.takeTempFrame]; (repeat' split) <;> simp
@[simp] theorem Part.takeTempFrame_csu (n : Nat) (pr : Probe) (c : TempContent) (p : Part) : (p.takeTempFrame n pr c).csu = p.csu := by
  simp only [Part.takeTempFrame]; (repeat' split) <;> simp

/-! ## keepEffective -/

@[simp] theorem Part.keepEffective_rstLow (a : Int × TempSource) (p : Part) : (p.keepEffective a).rstLow = p.rstLow := by
  unfold Part.keepEffective; (repeat' split) <;> simp
@[simp] theorem Part.keepEffective_clock (a : Int × TempSource) (p : Part) : (p.keepEffective a).clock = p.clock := by
  unfold Part.keepEffective; (repeat' split) <;> simp
@[simp] theorem Part.keepEffective_lcu (a : Int × TempSource) (p : Part) : (p.keepEffective a).lcu = p.lcu := by
  unfold Part.keepEffective; (repeat' split) <;> simp
@[simp] theorem Part.keepEffective_pse (a : Int × TempSource) (p : Part) : (p.keepEffective a).pse = p.pse := by
  unfold Part.keepEffective; (repeat' split) <;> simp
@[simp] theorem Part.keepEffective_sbc (a : Int × TempSource) (p : Part) : (p.keepEffective a).sbc = p.sbc := by
  unfold Part.keepEffective; (repeat' split) <;> simp
@[simp] theorem Part.keepEffective_stu (a : Int × TempSource) (p : Part) : (p.keepEffective a).stu = p.stu := by
  unfold Part.keepEffective; (repeat' split) <;> simp
@[simp] theorem Part.keepEffective_vau (a : Int × TempSource) (p : Part) : (p.keepEffective a).vau = p.vau := by
  unfold Part.keepEffective; (repeat' split) <;> simp
@[simp] theorem Part.keepEffective_vcl (a : Int × TempSource) (p : Part) : (p.keepEffective a).vcl = p.vcl := by
  unfold Part.keepEffective; (repeat' split) <;> simp
@[simp] theorem Part.keepEffective_tou (a : Int × TempSource) (p : Part) : (p.keepEffective a).tou = p.tou := by
  unfold Part.keepEffective; (repeat' split) <;> simp
@[simp] theorem Part.keepEffective_csu (a : Int × TempSource) (p : Part) : (p.keepEffective a).csu = p.csu := by
  unfold Part.keepEffective; (repeat' split) <;> simp

/-! ## handTime -/

@[simp] theorem Part.handTime_rstLow (p : Part) : (p.handTime).rstLow = p.rstLow := by
  simp [Part.handTime]
@[simp] theorem Part.handTime_clock (p : Part) : (p.handTime).clock = p.clock := by
  simp [Part.handTime]
@[simp] theorem Part.handTime_lcu (p : Part) : (p.handTime).lcu = p.lcu := by
  simp [Part.handTime]
@[simp] theorem Part.handTime_pse (p : Part) : (p.handTime).pse = p.pse := by
  simp [Part.handTime]
@[simp] theorem Part.handTime_ptu (p : Part) : (p.handTime).ptu = p.ptu := by
  simp [Part.handTime]
@[simp] theorem Part.handTime_stu (p : Part) : (p.handTime).stu = p.stu := by
  simp [Part.handTime]
@[simp] theorem Part.handTime_vau (p : Part) : (p.handTime).vau = p.vau := by
  simp [Part.handTime]
@[simp] theorem Part.handTime_tou (p : Part) : (p.handTime).tou = p.tou := by
  simp [Part.handTime]
@[simp] theorem Part.handTime_csu (p : Part) : (p.handTime).csu = p.csu := by
  simp [Part.handTime]

/-! ## noticeStep -/

@[simp] theorem Part.noticeStep_rstLow (p : Part) : (p.noticeStep).rstLow = p.rstLow := by
  rfl
@[simp] theorem Part.noticeStep_clock (p : Part) : (p.noticeStep).clock = p.clock := by
  rfl
@[simp] theorem Part.noticeStep_lcu (p : Part) : (p.noticeStep).lcu = p.lcu := by
  rfl
@[simp] theorem Part.noticeStep_pse (p : Part) : (p.noticeStep).pse = p.pse := by
  rfl
@[simp] theorem Part.noticeStep_ptu (p : Part) : (p.noticeStep).ptu = p.ptu := by
  rfl
@[simp] theorem Part.noticeStep_sbc (p : Part) : (p.noticeStep).sbc = p.sbc := by
  rfl
@[simp] theorem Part.noticeStep_stu (p : Part) : (p.noticeStep).stu = p.stu := by
  rfl
@[simp] theorem Part.noticeStep_vcl (p : Part) : (p.noticeStep).vcl = p.vcl := by
  rfl
@[simp] theorem Part.noticeStep_tou (p : Part) : (p.noticeStep).tou = p.tou := by
  rfl
@[simp] theorem Part.noticeStep_csu (p : Part) : (p.noticeStep).csu = p.csu := by
  rfl

/-! ## catchDue -/

@[simp] theorem Part.catchDue_rstLow (p : Part) : (p.catchDue).rstLow = p.rstLow := by
  simp only [Part.catchDue, Part.actOnDue]; (repeat' split) <;> simp
@[simp] theorem Part.catchDue_clock (p : Part) : (p.catchDue).clock = p.clock := by
  simp only [Part.catchDue, Part.actOnDue]; (repeat' split) <;> simp
@[simp] theorem Part.catchDue_lcu (p : Part) : (p.catchDue).lcu = p.lcu := by
  simp only [Part.catchDue, Part.actOnDue]; (repeat' split) <;> simp
@[simp] theorem Part.catchDue_pse (p : Part) : (p.catchDue).pse = p.pse := by
  simp only [Part.catchDue, Part.actOnDue]; (repeat' split) <;> simp
@[simp] theorem Part.catchDue_ptu (p : Part) : (p.catchDue).ptu = p.ptu := by
  simp only [Part.catchDue, Part.actOnDue]; (repeat' split) <;> simp
@[simp] theorem Part.catchDue_vau (p : Part) : (p.catchDue).vau = p.vau := by
  simp only [Part.catchDue, Part.actOnDue]; (repeat' split) <;> simp
@[simp] theorem Part.catchDue_tou (p : Part) : (p.catchDue).tou = p.tou := by
  simp only [Part.catchDue, Part.actOnDue]; (repeat' split) <;> simp
@[simp] theorem Part.catchDue_csu (p : Part) : (p.catchDue).csu = p.csu := by
  simp only [Part.catchDue, Part.actOnDue]; (repeat' split) <;> simp

/-! ## takeStep -/

@[simp] theorem Part.takeStep_rstLow (d : Nat) (p : Part) : (p.takeStep d).rstLow = p.rstLow := by
  simp only [Part.takeStep]; (repeat' split) <;> simp
@[simp] theorem Part.takeStep_clock (d : Nat) (p : Part) : (p.takeStep d).clock = p.clock := by
  simp only [Part.takeStep]; (repeat' split) <;> simp
@[simp] theorem Part.takeStep_lcu (d : Nat) (p : Part) : (p.takeStep d).lcu = p.lcu := by
  simp only [Part.takeStep]; (repeat' split) <;> simp
@[simp] theorem Part.takeStep_pse (d : Nat) (p : Part) : (p.takeStep d).pse = p.pse := by
  simp only [Part.takeStep]; (repeat' split) <;> simp
@[simp] theorem Part.takeStep_ptu (d : Nat) (p : Part) : (p.takeStep d).ptu = p.ptu := by
  simp only [Part.takeStep]; (repeat' split) <;> simp
@[simp] theorem Part.takeStep_tou (d : Nat) (p : Part) : (p.takeStep d).tou = p.tou := by
  simp only [Part.takeStep]; (repeat' split) <;> simp
@[simp] theorem Part.takeStep_csu (d : Nat) (p : Part) : (p.takeStep d).csu = p.csu := by
  simp only [Part.takeStep]; (repeat' split) <;> simp

/-! ## setSplit -/

@[simp] theorem Part.setSplit_rstLow (i : Fin 14) (x : Fin 3) (p : Part) : (p.setSplit i x).rstLow = p.rstLow := by
  unfold Part.setSplit; (repeat' split) <;> simp
@[simp] theorem Part.setSplit_clock (i : Fin 14) (x : Fin 3) (p : Part) : (p.setSplit i x).clock = p.clock := by
  unfold Part.setSplit; (repeat' split) <;> simp
@[simp] theorem Part.setSplit_lcu (i : Fin 14) (x : Fin 3) (p : Part) : (p.setSplit i x).lcu = p.lcu := by
  unfold Part.setSplit; (repeat' split) <;> simp
@[simp] theorem Part.setSplit_pse (i : Fin 14) (x : Fin 3) (p : Part) : (p.setSplit i x).pse = p.pse := by
  unfold Part.setSplit; (repeat' split) <;> simp
@[simp] theorem Part.setSplit_ptu (i : Fin 14) (x : Fin 3) (p : Part) : (p.setSplit i x).ptu = p.ptu := by
  unfold Part.setSplit; (repeat' split) <;> simp
@[simp] theorem Part.setSplit_vau (i : Fin 14) (x : Fin 3) (p : Part) : (p.setSplit i x).vau = p.vau := by
  unfold Part.setSplit; (repeat' split) <;> simp
@[simp] theorem Part.setSplit_tou (i : Fin 14) (x : Fin 3) (p : Part) : (p.setSplit i x).tou = p.tou := by
  unfold Part.setSplit; (repeat' split) <;> simp

/-! ## followInJoin -/

@[simp] theorem Part.followInJoin_rstLow (i : Fin 14) (d : Int) (p : Part) : (p.followInJoin i d).rstLow = p.rstLow := by
  unfold Part.followInJoin; (repeat' split) <;> simp
@[simp] theorem Part.followInJoin_clock (i : Fin 14) (d : Int) (p : Part) : (p.followInJoin i d).clock = p.clock := by
  unfold Part.followInJoin; (repeat' split) <;> simp
@[simp] theorem Part.followInJoin_lcu (i : Fin 14) (d : Int) (p : Part) : (p.followInJoin i d).lcu = p.lcu := by
  unfold Part.followInJoin; (repeat' split) <;> simp
@[simp] theorem Part.followInJoin_pse (i : Fin 14) (d : Int) (p : Part) : (p.followInJoin i d).pse = p.pse := by
  unfold Part.followInJoin; (repeat' split) <;> simp
@[simp] theorem Part.followInJoin_ptu (i : Fin 14) (d : Int) (p : Part) : (p.followInJoin i d).ptu = p.ptu := by
  unfold Part.followInJoin; (repeat' split) <;> simp
@[simp] theorem Part.followInJoin_tou (i : Fin 14) (d : Int) (p : Part) : (p.followInJoin i d).tou = p.tou := by
  unfold Part.followInJoin; (repeat' split) <;> simp

/-! ## followInRun -/

@[simp] theorem Part.followInRun_rstLow (i : Fin 14) (d : Int) (p : Part) : (p.followInRun i d).rstLow = p.rstLow := by
  simp only [Part.followInRun]; (repeat' split) <;> simp
@[simp] theorem Part.followInRun_clock (i : Fin 14) (d : Int) (p : Part) : (p.followInRun i d).clock = p.clock := by
  simp only [Part.followInRun]; (repeat' split) <;> simp
@[simp] theorem Part.followInRun_lcu (i : Fin 14) (d : Int) (p : Part) : (p.followInRun i d).lcu = p.lcu := by
  simp only [Part.followInRun]; (repeat' split) <;> simp
@[simp] theorem Part.followInRun_pse (i : Fin 14) (d : Int) (p : Part) : (p.followInRun i d).pse = p.pse := by
  simp only [Part.followInRun]; (repeat' split) <;> simp
@[simp] theorem Part.followInRun_ptu (i : Fin 14) (d : Int) (p : Part) : (p.followInRun i d).ptu = p.ptu := by
  simp only [Part.followInRun]; (repeat' split) <;> simp
@[simp] theorem Part.followInRun_tou (i : Fin 14) (d : Int) (p : Part) : (p.followInRun i d).tou = p.tou := by
  simp only [Part.followInRun]; (repeat' split) <;> simp

/-! ## takeTimeFrame -/

@[simp] theorem Part.takeTimeFrame_rstLow (n : Nat) (t : SiteTime) (c : Capture) (p : Part) : (p.takeTimeFrame n t c).rstLow = p.rstLow := by
  simp only [Part.takeTimeFrame]; (repeat' split) <;> simp
@[simp] theorem Part.takeTimeFrame_clock (n : Nat) (t : SiteTime) (c : Capture) (p : Part) : (p.takeTimeFrame n t c).clock = p.clock := by
  simp only [Part.takeTimeFrame]; (repeat' split) <;> simp
@[simp] theorem Part.takeTimeFrame_lcu (n : Nat) (t : SiteTime) (c : Capture) (p : Part) : (p.takeTimeFrame n t c).lcu = p.lcu := by
  simp only [Part.takeTimeFrame]; (repeat' split) <;> simp
@[simp] theorem Part.takeTimeFrame_pse (n : Nat) (t : SiteTime) (c : Capture) (p : Part) : (p.takeTimeFrame n t c).pse = p.pse := by
  simp only [Part.takeTimeFrame]; (repeat' split) <;> simp
@[simp] theorem Part.takeTimeFrame_ptu (n : Nat) (t : SiteTime) (c : Capture) (p : Part) : (p.takeTimeFrame n t c).ptu = p.ptu := by
  simp only [Part.takeTimeFrame]; (repeat' split) <;> simp
@[simp] theorem Part.takeTimeFrame_tou (n : Nat) (t : SiteTime) (c : Capture) (p : Part) : (p.takeTimeFrame n t c).tou = p.tou := by
  simp only [Part.takeTimeFrame]; (repeat' split) <;> simp

/-! ## closeRecord -/

@[simp] theorem Part.closeRecord_rstLow (n : Count16) (p : Part) : (p.closeRecord n).rstLow = p.rstLow := by
  rfl
@[simp] theorem Part.closeRecord_clock (n : Count16) (p : Part) : (p.closeRecord n).clock = p.clock := by
  rfl
@[simp] theorem Part.closeRecord_lcu (n : Count16) (p : Part) : (p.closeRecord n).lcu = p.lcu := by
  rfl
@[simp] theorem Part.closeRecord_ptu (n : Count16) (p : Part) : (p.closeRecord n).ptu = p.ptu := by
  rfl
@[simp] theorem Part.closeRecord_sbc (n : Count16) (p : Part) : (p.closeRecord n).sbc = p.sbc := by
  rfl
@[simp] theorem Part.closeRecord_stu (n : Count16) (p : Part) : (p.closeRecord n).stu = p.stu := by
  rfl
@[simp] theorem Part.closeRecord_vau (n : Count16) (p : Part) : (p.closeRecord n).vau = p.vau := by
  rfl
@[simp] theorem Part.closeRecord_vcl (n : Count16) (p : Part) : (p.closeRecord n).vcl = p.vcl := by
  rfl
@[simp] theorem Part.closeRecord_tou (n : Count16) (p : Part) : (p.closeRecord n).tou = p.tou := by
  rfl
@[simp] theorem Part.closeRecord_csu (n : Count16) (p : Part) : (p.closeRecord n).csu = p.csu := by
  rfl

/-! ## forceDecision -/

@[simp] theorem Part.forceDecision_rstLow (n : Count16) (p : Part) : (p.forceDecision n).rstLow = p.rstLow := by
  simp [Part.forceDecision]
@[simp] theorem Part.forceDecision_clock (n : Count16) (p : Part) : (p.forceDecision n).clock = p.clock := by
  simp [Part.forceDecision]
@[simp] theorem Part.forceDecision_lcu (n : Count16) (p : Part) : (p.forceDecision n).lcu = p.lcu := by
  simp [Part.forceDecision]
@[simp] theorem Part.forceDecision_ptu (n : Count16) (p : Part) : (p.forceDecision n).ptu = p.ptu := by
  simp [Part.forceDecision]
@[simp] theorem Part.forceDecision_sbc (n : Count16) (p : Part) : (p.forceDecision n).sbc = p.sbc := by
  simp [Part.forceDecision]
@[simp] theorem Part.forceDecision_stu (n : Count16) (p : Part) : (p.forceDecision n).stu = p.stu := by
  simp [Part.forceDecision]
@[simp] theorem Part.forceDecision_vcl (n : Count16) (p : Part) : (p.forceDecision n).vcl = p.vcl := by
  simp [Part.forceDecision]
@[simp] theorem Part.forceDecision_tou (n : Count16) (p : Part) : (p.forceDecision n).tou = p.tou := by
  simp [Part.forceDecision]
@[simp] theorem Part.forceDecision_csu (n : Count16) (p : Part) : (p.forceDecision n).csu = p.csu := by
  simp [Part.forceDecision]

/-! ## enterStore -/

@[simp] theorem Part.enterStore_rstLow (w : Wheel) (p : Part) : (p.enterStore w).rstLow = p.rstLow := by
  simp only [Part.enterStore]; (repeat' split) <;> simp
@[simp] theorem Part.enterStore_clock (w : Wheel) (p : Part) : (p.enterStore w).clock = p.clock := by
  simp only [Part.enterStore]; (repeat' split) <;> simp
@[simp] theorem Part.enterStore_lcu (w : Wheel) (p : Part) : (p.enterStore w).lcu = p.lcu := by
  simp only [Part.enterStore]; (repeat' split) <;> simp
@[simp] theorem Part.enterStore_ptu (w : Wheel) (p : Part) : (p.enterStore w).ptu = p.ptu := by
  simp only [Part.enterStore]; (repeat' split) <;> simp
@[simp] theorem Part.enterStore_sbc (w : Wheel) (p : Part) : (p.enterStore w).sbc = p.sbc := by
  simp only [Part.enterStore]; (repeat' split) <;> simp
@[simp] theorem Part.enterStore_stu (w : Wheel) (p : Part) : (p.enterStore w).stu = p.stu := by
  simp only [Part.enterStore]; (repeat' split) <;> simp
@[simp] theorem Part.enterStore_vcl (w : Wheel) (p : Part) : (p.enterStore w).vcl = p.vcl := by
  simp only [Part.enterStore]; (repeat' split) <;> simp
@[simp] theorem Part.enterStore_tou (w : Wheel) (p : Part) : (p.enterStore w).tou = p.tou := by
  simp only [Part.enterStore]; (repeat' split) <;> simp
@[simp] theorem Part.enterStore_csu (w : Wheel) (p : Part) : (p.enterStore w).csu = p.csu := by
  simp only [Part.enterStore]; (repeat' split) <;> simp

/-! ## enterIntake -/

@[simp] theorem Part.enterIntake_rstLow (w : Wheel) (t : SiteTime) (p : Part) : (p.enterIntake w t).rstLow = p.rstLow := by
  simp only [Part.enterIntake]; (repeat' split) <;> simp
@[simp] theorem Part.enterIntake_clock (w : Wheel) (t : SiteTime) (p : Part) : (p.enterIntake w t).clock = p.clock := by
  simp only [Part.enterIntake]; (repeat' split) <;> simp
@[simp] theorem Part.enterIntake_lcu (w : Wheel) (t : SiteTime) (p : Part) : (p.enterIntake w t).lcu = p.lcu := by
  simp only [Part.enterIntake]; (repeat' split) <;> simp
@[simp] theorem Part.enterIntake_ptu (w : Wheel) (t : SiteTime) (p : Part) : (p.enterIntake w t).ptu = p.ptu := by
  simp only [Part.enterIntake]; (repeat' split) <;> simp
@[simp] theorem Part.enterIntake_sbc (w : Wheel) (t : SiteTime) (p : Part) : (p.enterIntake w t).sbc = p.sbc := by
  simp only [Part.enterIntake]; (repeat' split) <;> simp
@[simp] theorem Part.enterIntake_stu (w : Wheel) (t : SiteTime) (p : Part) : (p.enterIntake w t).stu = p.stu := by
  simp only [Part.enterIntake]; (repeat' split) <;> simp
@[simp] theorem Part.enterIntake_vcl (w : Wheel) (t : SiteTime) (p : Part) : (p.enterIntake w t).vcl = p.vcl := by
  simp only [Part.enterIntake]; (repeat' split) <;> simp
@[simp] theorem Part.enterIntake_tou (w : Wheel) (t : SiteTime) (p : Part) : (p.enterIntake w t).tou = p.tou := by
  simp only [Part.enterIntake]; (repeat' split) <;> simp
@[simp] theorem Part.enterIntake_csu (w : Wheel) (t : SiteTime) (p : Part) : (p.enterIntake w t).csu = p.csu := by
  simp only [Part.enterIntake]; (repeat' split) <;> simp

/-! ## placeCheck -/

@[simp] theorem Part.placeCheck_rstLow (c : Check) (p : Part) : (p.placeCheck c).rstLow = p.rstLow := by
  simp only [Part.placeCheck]; (repeat' split) <;> simp
@[simp] theorem Part.placeCheck_clock (c : Check) (p : Part) : (p.placeCheck c).clock = p.clock := by
  simp only [Part.placeCheck]; (repeat' split) <;> simp
@[simp] theorem Part.placeCheck_ptu (c : Check) (p : Part) : (p.placeCheck c).ptu = p.ptu := by
  simp only [Part.placeCheck]; (repeat' split) <;> simp
@[simp] theorem Part.placeCheck_stu (c : Check) (p : Part) : (p.placeCheck c).stu = p.stu := by
  simp only [Part.placeCheck]; (repeat' split) <;> simp
@[simp] theorem Part.placeCheck_vau (c : Check) (p : Part) : (p.placeCheck c).vau = p.vau := by
  simp only [Part.placeCheck]; (repeat' split) <;> simp
@[simp] theorem Part.placeCheck_tou (c : Check) (p : Part) : (p.placeCheck c).tou = p.tou := by
  simp only [Part.placeCheck]; (repeat' split) <;> simp

/-! ## fire -/

@[simp] theorem Part.fire_rstLow (o : Output) (tag : Count16) (p : Part) : (p.fire o tag).rstLow = p.rstLow := by
  simp only [Part.fire]; (repeat' split) <;> simp
@[simp] theorem Part.fire_clock (o : Output) (tag : Count16) (p : Part) : (p.fire o tag).clock = p.clock := by
  simp only [Part.fire]; (repeat' split) <;> simp
@[simp] theorem Part.fire_lcu (o : Output) (tag : Count16) (p : Part) : (p.fire o tag).lcu = p.lcu := by
  simp only [Part.fire]; (repeat' split) <;> simp
@[simp] theorem Part.fire_pse (o : Output) (tag : Count16) (p : Part) : (p.fire o tag).pse = p.pse := by
  simp only [Part.fire]; (repeat' split) <;> simp
@[simp] theorem Part.fire_ptu (o : Output) (tag : Count16) (p : Part) : (p.fire o tag).ptu = p.ptu := by
  simp only [Part.fire]; (repeat' split) <;> simp
@[simp] theorem Part.fire_sbc (o : Output) (tag : Count16) (p : Part) : (p.fire o tag).sbc = p.sbc := by
  simp only [Part.fire]; (repeat' split) <;> simp
@[simp] theorem Part.fire_stu (o : Output) (tag : Count16) (p : Part) : (p.fire o tag).stu = p.stu := by
  simp only [Part.fire]; (repeat' split) <;> simp
@[simp] theorem Part.fire_csu (o : Output) (tag : Count16) (p : Part) : (p.fire o tag).csu = p.csu := by
  simp only [Part.fire]; (repeat' split) <;> simp

/-! ## makeFiring -/

@[simp] theorem Part.makeFiring_rstLow (o : Output) (r : Timing) (p : Part) : (p.makeFiring o r).rstLow = p.rstLow := by
  simp only [Part.makeFiring]; (repeat' split) <;> simp
@[simp] theorem Part.makeFiring_clock (o : Output) (r : Timing) (p : Part) : (p.makeFiring o r).clock = p.clock := by
  simp only [Part.makeFiring]; (repeat' split) <;> simp
@[simp] theorem Part.makeFiring_lcu (o : Output) (r : Timing) (p : Part) : (p.makeFiring o r).lcu = p.lcu := by
  simp only [Part.makeFiring]; (repeat' split) <;> simp
@[simp] theorem Part.makeFiring_pse (o : Output) (r : Timing) (p : Part) : (p.makeFiring o r).pse = p.pse := by
  simp only [Part.makeFiring]; (repeat' split) <;> simp
@[simp] theorem Part.makeFiring_ptu (o : Output) (r : Timing) (p : Part) : (p.makeFiring o r).ptu = p.ptu := by
  simp only [Part.makeFiring]; (repeat' split) <;> simp
@[simp] theorem Part.makeFiring_sbc (o : Output) (r : Timing) (p : Part) : (p.makeFiring o r).sbc = p.sbc := by
  simp only [Part.makeFiring]; (repeat' split) <;> simp
@[simp] theorem Part.makeFiring_stu (o : Output) (r : Timing) (p : Part) : (p.makeFiring o r).stu = p.stu := by
  simp only [Part.makeFiring]; (repeat' split) <;> simp
@[simp] theorem Part.makeFiring_csu (o : Output) (r : Timing) (p : Part) : (p.makeFiring o r).csu = p.csu := by
  simp only [Part.makeFiring]; (repeat' split) <;> simp

/-! ## frontOn -/

@[simp] theorem Part.frontOn_rstLow (r : Timing) (o : Output) (p : Part) : (p.frontOn r o).rstLow = p.rstLow := by
  simp only [Part.frontOn]; (repeat' split) <;> simp
@[simp] theorem Part.frontOn_clock (r : Timing) (o : Output) (p : Part) : (p.frontOn r o).clock = p.clock := by
  simp only [Part.frontOn]; (repeat' split) <;> simp
@[simp] theorem Part.frontOn_lcu (r : Timing) (o : Output) (p : Part) : (p.frontOn r o).lcu = p.lcu := by
  simp only [Part.frontOn]; (repeat' split) <;> simp
@[simp] theorem Part.frontOn_pse (r : Timing) (o : Output) (p : Part) : (p.frontOn r o).pse = p.pse := by
  simp only [Part.frontOn]; (repeat' split) <;> simp
@[simp] theorem Part.frontOn_ptu (r : Timing) (o : Output) (p : Part) : (p.frontOn r o).ptu = p.ptu := by
  simp only [Part.frontOn]; (repeat' split) <;> simp
@[simp] theorem Part.frontOn_sbc (r : Timing) (o : Output) (p : Part) : (p.frontOn r o).sbc = p.sbc := by
  simp only [Part.frontOn]; (repeat' split) <;> simp
@[simp] theorem Part.frontOn_stu (r : Timing) (o : Output) (p : Part) : (p.frontOn r o).stu = p.stu := by
  simp only [Part.frontOn]; (repeat' split) <;> simp
@[simp] theorem Part.frontOn_csu (r : Timing) (o : Output) (p : Part) : (p.frontOn r o).csu = p.csu := by
  simp only [Part.frontOn]; (repeat' split) <;> simp

/-! ## grossOn -/

@[simp] theorem Part.grossOn_rstLow (r : Timing) (g : Nat) (o : Output) (p : Part) : (p.grossOn r g o).rstLow = p.rstLow := by
  simp only [Part.grossOn]; (repeat' split) <;> simp
@[simp] theorem Part.grossOn_clock (r : Timing) (g : Nat) (o : Output) (p : Part) : (p.grossOn r g o).clock = p.clock := by
  simp only [Part.grossOn]; (repeat' split) <;> simp
@[simp] theorem Part.grossOn_lcu (r : Timing) (g : Nat) (o : Output) (p : Part) : (p.grossOn r g o).lcu = p.lcu := by
  simp only [Part.grossOn]; (repeat' split) <;> simp
@[simp] theorem Part.grossOn_pse (r : Timing) (g : Nat) (o : Output) (p : Part) : (p.grossOn r g o).pse = p.pse := by
  simp only [Part.grossOn]; (repeat' split) <;> simp
@[simp] theorem Part.grossOn_ptu (r : Timing) (g : Nat) (o : Output) (p : Part) : (p.grossOn r g o).ptu = p.ptu := by
  simp only [Part.grossOn]; (repeat' split) <;> simp
@[simp] theorem Part.grossOn_sbc (r : Timing) (g : Nat) (o : Output) (p : Part) : (p.grossOn r g o).sbc = p.sbc := by
  simp only [Part.grossOn]; (repeat' split) <;> simp
@[simp] theorem Part.grossOn_stu (r : Timing) (g : Nat) (o : Output) (p : Part) : (p.grossOn r g o).stu = p.stu := by
  simp only [Part.grossOn]; (repeat' split) <;> simp
@[simp] theorem Part.grossOn_csu (r : Timing) (g : Nat) (o : Output) (p : Part) : (p.grossOn r g o).csu = p.csu := by
  simp only [Part.grossOn]; (repeat' split) <;> simp

/-! ## classOn -/

@[simp] theorem Part.classOn_rstLow (r : Timing) (c : Fin 32) (o : Output) (p : Part) : (p.classOn r c o).rstLow = p.rstLow := by
  simp only [Part.classOn]; (repeat' split) <;> simp
@[simp] theorem Part.classOn_clock (r : Timing) (c : Fin 32) (o : Output) (p : Part) : (p.classOn r c o).clock = p.clock := by
  simp only [Part.classOn]; (repeat' split) <;> simp
@[simp] theorem Part.classOn_lcu (r : Timing) (c : Fin 32) (o : Output) (p : Part) : (p.classOn r c o).lcu = p.lcu := by
  simp only [Part.classOn]; (repeat' split) <;> simp
@[simp] theorem Part.classOn_pse (r : Timing) (c : Fin 32) (o : Output) (p : Part) : (p.classOn r c o).pse = p.pse := by
  simp only [Part.classOn]; (repeat' split) <;> simp
@[simp] theorem Part.classOn_ptu (r : Timing) (c : Fin 32) (o : Output) (p : Part) : (p.classOn r c o).ptu = p.ptu := by
  simp only [Part.classOn]; (repeat' split) <;> simp
@[simp] theorem Part.classOn_sbc (r : Timing) (c : Fin 32) (o : Output) (p : Part) : (p.classOn r c o).sbc = p.sbc := by
  simp only [Part.classOn]; (repeat' split) <;> simp
@[simp] theorem Part.classOn_stu (r : Timing) (c : Fin 32) (o : Output) (p : Part) : (p.classOn r c o).stu = p.stu := by
  simp only [Part.classOn]; (repeat' split) <;> simp
@[simp] theorem Part.classOn_csu (r : Timing) (c : Fin 32) (o : Output) (p : Part) : (p.classOn r c o).csu = p.csu := by
  simp only [Part.classOn]; (repeat' split) <;> simp

/-! ## frontReport -/

@[simp] theorem Part.frontReport_rstLow (r : Timing) (p : Part) : (p.frontReport r).rstLow = p.rstLow := by
  simp only [Part.frontReport, Part.toOutputs]; (repeat' split) <;> simp
@[simp] theorem Part.frontReport_clock (r : Timing) (p : Part) : (p.frontReport r).clock = p.clock := by
  simp only [Part.frontReport, Part.toOutputs]; (repeat' split) <;> simp
@[simp] theorem Part.frontReport_lcu (r : Timing) (p : Part) : (p.frontReport r).lcu = p.lcu := by
  simp only [Part.frontReport, Part.toOutputs]; (repeat' split) <;> simp
@[simp] theorem Part.frontReport_pse (r : Timing) (p : Part) : (p.frontReport r).pse = p.pse := by
  simp only [Part.frontReport, Part.toOutputs]; (repeat' split) <;> simp
@[simp] theorem Part.frontReport_ptu (r : Timing) (p : Part) : (p.frontReport r).ptu = p.ptu := by
  simp only [Part.frontReport, Part.toOutputs]; (repeat' split) <;> simp
@[simp] theorem Part.frontReport_sbc (r : Timing) (p : Part) : (p.frontReport r).sbc = p.sbc := by
  simp only [Part.frontReport, Part.toOutputs]; (repeat' split) <;> simp
@[simp] theorem Part.frontReport_stu (r : Timing) (p : Part) : (p.frontReport r).stu = p.stu := by
  simp only [Part.frontReport, Part.toOutputs]; (repeat' split) <;> simp
@[simp] theorem Part.frontReport_csu (r : Timing) (p : Part) : (p.frontReport r).csu = p.csu := by
  simp only [Part.frontReport, Part.toOutputs]; (repeat' split) <;> simp

/-! ## grossReport -/

@[simp] theorem Part.grossReport_rstLow (r : Timing) (g : Nat) (p : Part) : (p.grossReport r g).rstLow = p.rstLow := by
  simp only [Part.grossReport, Part.toOutputs]; (repeat' split) <;> simp
@[simp] theorem Part.grossReport_clock (r : Timing) (g : Nat) (p : Part) : (p.grossReport r g).clock = p.clock := by
  simp only [Part.grossReport, Part.toOutputs]; (repeat' split) <;> simp
@[simp] theorem Part.grossReport_lcu (r : Timing) (g : Nat) (p : Part) : (p.grossReport r g).lcu = p.lcu := by
  simp only [Part.grossReport, Part.toOutputs]; (repeat' split) <;> simp
@[simp] theorem Part.grossReport_pse (r : Timing) (g : Nat) (p : Part) : (p.grossReport r g).pse = p.pse := by
  simp only [Part.grossReport, Part.toOutputs]; (repeat' split) <;> simp
@[simp] theorem Part.grossReport_ptu (r : Timing) (g : Nat) (p : Part) : (p.grossReport r g).ptu = p.ptu := by
  simp only [Part.grossReport, Part.toOutputs]; (repeat' split) <;> simp
@[simp] theorem Part.grossReport_sbc (r : Timing) (g : Nat) (p : Part) : (p.grossReport r g).sbc = p.sbc := by
  simp only [Part.grossReport, Part.toOutputs]; (repeat' split) <;> simp
@[simp] theorem Part.grossReport_stu (r : Timing) (g : Nat) (p : Part) : (p.grossReport r g).stu = p.stu := by
  simp only [Part.grossReport, Part.toOutputs]; (repeat' split) <;> simp
@[simp] theorem Part.grossReport_csu (r : Timing) (g : Nat) (p : Part) : (p.grossReport r g).csu = p.csu := by
  simp only [Part.grossReport, Part.toOutputs]; (repeat' split) <;> simp

/-! ## classReport -/

@[simp] theorem Part.classReport_rstLow (r : Timing) (c : Fin 32) (p : Part) : (p.classReport r c).rstLow = p.rstLow := by
  simp only [Part.classReport, Part.toOutputs]; (repeat' split) <;> simp
@[simp] theorem Part.classReport_clock (r : Timing) (c : Fin 32) (p : Part) : (p.classReport r c).clock = p.clock := by
  simp only [Part.classReport, Part.toOutputs]; (repeat' split) <;> simp
@[simp] theorem Part.classReport_lcu (r : Timing) (c : Fin 32) (p : Part) : (p.classReport r c).lcu = p.lcu := by
  simp only [Part.classReport, Part.toOutputs]; (repeat' split) <;> simp
@[simp] theorem Part.classReport_pse (r : Timing) (c : Fin 32) (p : Part) : (p.classReport r c).pse = p.pse := by
  simp only [Part.classReport, Part.toOutputs]; (repeat' split) <;> simp
@[simp] theorem Part.classReport_ptu (r : Timing) (c : Fin 32) (p : Part) : (p.classReport r c).ptu = p.ptu := by
  simp only [Part.classReport, Part.toOutputs]; (repeat' split) <;> simp
@[simp] theorem Part.classReport_sbc (r : Timing) (c : Fin 32) (p : Part) : (p.classReport r c).sbc = p.sbc := by
  simp only [Part.classReport, Part.toOutputs]; (repeat' split) <;> simp
@[simp] theorem Part.classReport_stu (r : Timing) (c : Fin 32) (p : Part) : (p.classReport r c).stu = p.stu := by
  simp only [Part.classReport, Part.toOutputs]; (repeat' split) <;> simp
@[simp] theorem Part.classReport_csu (r : Timing) (c : Fin 32) (p : Part) : (p.classReport r c).csu = p.csu := by
  simp only [Part.classReport, Part.toOutputs]; (repeat' split) <;> simp

/-! ## askWalk -/

@[simp] theorem Part.askWalk_rstLow (p : Part) : (p.askWalk).rstLow = p.rstLow := by
  unfold Part.askWalk; (repeat' split) <;> simp
@[simp] theorem Part.askWalk_clock (p : Part) : (p.askWalk).clock = p.clock := by
  unfold Part.askWalk; (repeat' split) <;> simp
@[simp] theorem Part.askWalk_lcu (p : Part) : (p.askWalk).lcu = p.lcu := by
  unfold Part.askWalk; (repeat' split) <;> simp
@[simp] theorem Part.askWalk_pse (p : Part) : (p.askWalk).pse = p.pse := by
  unfold Part.askWalk; (repeat' split) <;> simp
@[simp] theorem Part.askWalk_ptu (p : Part) : (p.askWalk).ptu = p.ptu := by
  unfold Part.askWalk; (repeat' split) <;> simp
@[simp] theorem Part.askWalk_sbc (p : Part) : (p.askWalk).sbc = p.sbc := by
  unfold Part.askWalk; (repeat' split) <;> simp
@[simp] theorem Part.askWalk_stu (p : Part) : (p.askWalk).stu = p.stu := by
  unfold Part.askWalk; (repeat' split) <;> simp
@[simp] theorem Part.askWalk_tou (p : Part) : (p.askWalk).tou = p.tou := by
  unfold Part.askWalk; (repeat' split) <;> simp
@[simp] theorem Part.askWalk_csu (p : Part) : (p.askWalk).csu = p.csu := by
  unfold Part.askWalk; (repeat' split) <;> simp

/-! ## reportGross -/

@[simp] theorem Part.reportGross_rstLow (p : Part) : (p.reportGross).rstLow = p.rstLow := by
  unfold Part.reportGross; (repeat' split) <;> simp
@[simp] theorem Part.reportGross_clock (p : Part) : (p.reportGross).clock = p.clock := by
  unfold Part.reportGross; (repeat' split) <;> simp
@[simp] theorem Part.reportGross_lcu (p : Part) : (p.reportGross).lcu = p.lcu := by
  unfold Part.reportGross; (repeat' split) <;> simp
@[simp] theorem Part.reportGross_pse (p : Part) : (p.reportGross).pse = p.pse := by
  unfold Part.reportGross; (repeat' split) <;> simp
@[simp] theorem Part.reportGross_ptu (p : Part) : (p.reportGross).ptu = p.ptu := by
  unfold Part.reportGross; (repeat' split) <;> simp
@[simp] theorem Part.reportGross_sbc (p : Part) : (p.reportGross).sbc = p.sbc := by
  unfold Part.reportGross; (repeat' split) <;> simp
@[simp] theorem Part.reportGross_stu (p : Part) : (p.reportGross).stu = p.stu := by
  unfold Part.reportGross; (repeat' split) <;> simp
@[simp] theorem Part.reportGross_csu (p : Part) : (p.reportGross).csu = p.csu := by
  unfold Part.reportGross; (repeat' split) <;> simp

/-! ## weighVehicle -/

@[simp] theorem Part.weighVehicle_rstLow (p : Part) : (p.weighVehicle).rstLow = p.rstLow := by
  simp only [Part.weighVehicle]; (repeat' split) <;> simp
@[simp] theorem Part.weighVehicle_clock (p : Part) : (p.weighVehicle).clock = p.clock := by
  simp only [Part.weighVehicle]; (repeat' split) <;> simp
@[simp] theorem Part.weighVehicle_lcu (p : Part) : (p.weighVehicle).lcu = p.lcu := by
  simp only [Part.weighVehicle]; (repeat' split) <;> simp
@[simp] theorem Part.weighVehicle_pse (p : Part) : (p.weighVehicle).pse = p.pse := by
  simp only [Part.weighVehicle]; (repeat' split) <;> simp
@[simp] theorem Part.weighVehicle_ptu (p : Part) : (p.weighVehicle).ptu = p.ptu := by
  simp only [Part.weighVehicle]; (repeat' split) <;> simp
@[simp] theorem Part.weighVehicle_sbc (p : Part) : (p.weighVehicle).sbc = p.sbc := by
  simp only [Part.weighVehicle]; (repeat' split) <;> simp
@[simp] theorem Part.weighVehicle_stu (p : Part) : (p.weighVehicle).stu = p.stu := by
  simp only [Part.weighVehicle]; (repeat' split) <;> simp
@[simp] theorem Part.weighVehicle_csu (p : Part) : (p.weighVehicle).csu = p.csu := by
  simp only [Part.weighVehicle]; (repeat' split) <;> simp

/-! ## handOver -/

@[simp] theorem Part.handOver_rstLow (f : Count16 → Count16 → Count16 → VehicleRecord) (p : Part) : (p.handOver f).rstLow = p.rstLow := by
  simp only [Part.handOver]; (repeat' split) <;> simp
@[simp] theorem Part.handOver_clock (f : Count16 → Count16 → Count16 → VehicleRecord) (p : Part) : (p.handOver f).clock = p.clock := by
  simp only [Part.handOver]; (repeat' split) <;> simp
@[simp] theorem Part.handOver_lcu (f : Count16 → Count16 → Count16 → VehicleRecord) (p : Part) : (p.handOver f).lcu = p.lcu := by
  simp only [Part.handOver]; (repeat' split) <;> simp
@[simp] theorem Part.handOver_pse (f : Count16 → Count16 → Count16 → VehicleRecord) (p : Part) : (p.handOver f).pse = p.pse := by
  simp only [Part.handOver]; (repeat' split) <;> simp
@[simp] theorem Part.handOver_ptu (f : Count16 → Count16 → Count16 → VehicleRecord) (p : Part) : (p.handOver f).ptu = p.ptu := by
  simp only [Part.handOver]; (repeat' split) <;> simp
@[simp] theorem Part.handOver_sbc (f : Count16 → Count16 → Count16 → VehicleRecord) (p : Part) : (p.handOver f).sbc = p.sbc := by
  simp only [Part.handOver]; (repeat' split) <;> simp
@[simp] theorem Part.handOver_stu (f : Count16 → Count16 → Count16 → VehicleRecord) (p : Part) : (p.handOver f).stu = p.stu := by
  simp only [Part.handOver]; (repeat' split) <;> simp
@[simp] theorem Part.handOver_tou (f : Count16 → Count16 → Count16 → VehicleRecord) (p : Part) : (p.handOver f).tou = p.tou := by
  simp only [Part.handOver]; (repeat' split) <;> simp
@[simp] theorem Part.handOver_csu (f : Count16 → Count16 → Count16 → VehicleRecord) (p : Part) : (p.handOver f).csu = p.csu := by
  simp only [Part.handOver]; (repeat' split) <;> simp

/-! ## closeVehicle -/

@[simp] theorem Part.closeVehicle_rstLow (c : CloseCause) (p : Part) : (p.closeVehicle c).rstLow = p.rstLow := by
  simp only [Part.closeVehicle]; (repeat' split) <;> simp
@[simp] theorem Part.closeVehicle_clock (c : CloseCause) (p : Part) : (p.closeVehicle c).clock = p.clock := by
  simp only [Part.closeVehicle]; (repeat' split) <;> simp
@[simp] theorem Part.closeVehicle_lcu (c : CloseCause) (p : Part) : (p.closeVehicle c).lcu = p.lcu := by
  simp only [Part.closeVehicle]; (repeat' split) <;> simp
@[simp] theorem Part.closeVehicle_pse (c : CloseCause) (p : Part) : (p.closeVehicle c).pse = p.pse := by
  simp only [Part.closeVehicle]; (repeat' split) <;> simp
@[simp] theorem Part.closeVehicle_ptu (c : CloseCause) (p : Part) : (p.closeVehicle c).ptu = p.ptu := by
  simp only [Part.closeVehicle]; (repeat' split) <;> simp
@[simp] theorem Part.closeVehicle_sbc (c : CloseCause) (p : Part) : (p.closeVehicle c).sbc = p.sbc := by
  simp only [Part.closeVehicle]; (repeat' split) <;> simp
@[simp] theorem Part.closeVehicle_stu (c : CloseCause) (p : Part) : (p.closeVehicle c).stu = p.stu := by
  simp only [Part.closeVehicle]; (repeat' split) <;> simp
@[simp] theorem Part.closeVehicle_csu (c : CloseCause) (p : Part) : (p.closeVehicle c).csu = p.csu := by
  simp only [Part.closeVehicle]; (repeat' split) <;> simp

/-! ## closeIfDue -/

@[simp] theorem Part.closeIfDue_rstLow (p : Part) : (p.closeIfDue).rstLow = p.rstLow := by
  unfold Part.closeIfDue; (repeat' split) <;> simp
@[simp] theorem Part.closeIfDue_clock (p : Part) : (p.closeIfDue).clock = p.clock := by
  unfold Part.closeIfDue; (repeat' split) <;> simp
@[simp] theorem Part.closeIfDue_lcu (p : Part) : (p.closeIfDue).lcu = p.lcu := by
  unfold Part.closeIfDue; (repeat' split) <;> simp
@[simp] theorem Part.closeIfDue_pse (p : Part) : (p.closeIfDue).pse = p.pse := by
  unfold Part.closeIfDue; (repeat' split) <;> simp
@[simp] theorem Part.closeIfDue_ptu (p : Part) : (p.closeIfDue).ptu = p.ptu := by
  unfold Part.closeIfDue; (repeat' split) <;> simp
@[simp] theorem Part.closeIfDue_sbc (p : Part) : (p.closeIfDue).sbc = p.sbc := by
  unfold Part.closeIfDue; (repeat' split) <;> simp
@[simp] theorem Part.closeIfDue_stu (p : Part) : (p.closeIfDue).stu = p.stu := by
  unfold Part.closeIfDue; (repeat' split) <;> simp
@[simp] theorem Part.closeIfDue_csu (p : Part) : (p.closeIfDue).csu = p.csu := by
  unfold Part.closeIfDue; (repeat' split) <;> simp

/-! ## openVehicle -/

@[simp] theorem Part.openVehicle_rstLow (b : Bool) (a : Axle) (p : Part) : (p.openVehicle b a).rstLow = p.rstLow := by
  simp [Part.openVehicle]
@[simp] theorem Part.openVehicle_clock (b : Bool) (a : Axle) (p : Part) : (p.openVehicle b a).clock = p.clock := by
  simp [Part.openVehicle]
@[simp] theorem Part.openVehicle_lcu (b : Bool) (a : Axle) (p : Part) : (p.openVehicle b a).lcu = p.lcu := by
  simp [Part.openVehicle]
@[simp] theorem Part.openVehicle_pse (b : Bool) (a : Axle) (p : Part) : (p.openVehicle b a).pse = p.pse := by
  simp [Part.openVehicle]
@[simp] theorem Part.openVehicle_ptu (b : Bool) (a : Axle) (p : Part) : (p.openVehicle b a).ptu = p.ptu := by
  simp [Part.openVehicle]
@[simp] theorem Part.openVehicle_sbc (b : Bool) (a : Axle) (p : Part) : (p.openVehicle b a).sbc = p.sbc := by
  simp [Part.openVehicle]
@[simp] theorem Part.openVehicle_stu (b : Bool) (a : Axle) (p : Part) : (p.openVehicle b a).stu = p.stu := by
  simp [Part.openVehicle]
@[simp] theorem Part.openVehicle_csu (b : Bool) (a : Axle) (p : Part) : (p.openVehicle b a).csu = p.csu := by
  simp [Part.openVehicle]

/-! ## joinAxle -/

@[simp] theorem Part.joinAxle_rstLow (a : Axle) (v : Vehicle) (p : Part) : (p.joinAxle a v).rstLow = p.rstLow := by
  simp [Part.joinAxle]
@[simp] theorem Part.joinAxle_clock (a : Axle) (v : Vehicle) (p : Part) : (p.joinAxle a v).clock = p.clock := by
  simp [Part.joinAxle]
@[simp] theorem Part.joinAxle_lcu (a : Axle) (v : Vehicle) (p : Part) : (p.joinAxle a v).lcu = p.lcu := by
  simp [Part.joinAxle]
@[simp] theorem Part.joinAxle_pse (a : Axle) (v : Vehicle) (p : Part) : (p.joinAxle a v).pse = p.pse := by
  simp [Part.joinAxle]
@[simp] theorem Part.joinAxle_ptu (a : Axle) (v : Vehicle) (p : Part) : (p.joinAxle a v).ptu = p.ptu := by
  simp [Part.joinAxle]
@[simp] theorem Part.joinAxle_sbc (a : Axle) (v : Vehicle) (p : Part) : (p.joinAxle a v).sbc = p.sbc := by
  simp [Part.joinAxle]
@[simp] theorem Part.joinAxle_stu (a : Axle) (v : Vehicle) (p : Part) : (p.joinAxle a v).stu = p.stu := by
  simp [Part.joinAxle]
@[simp] theorem Part.joinAxle_csu (a : Axle) (v : Vehicle) (p : Part) : (p.joinAxle a v).csu = p.csu := by
  simp [Part.joinAxle]

/-! ## handAxle -/

@[simp] theorem Part.handAxle_rstLow (a : Axle) (p : Part) : (p.handAxle a).rstLow = p.rstLow := by
  simp only [Part.handAxle]; (repeat' split) <;> simp
@[simp] theorem Part.handAxle_clock (a : Axle) (p : Part) : (p.handAxle a).clock = p.clock := by
  simp only [Part.handAxle]; (repeat' split) <;> simp
@[simp] theorem Part.handAxle_lcu (a : Axle) (p : Part) : (p.handAxle a).lcu = p.lcu := by
  simp only [Part.handAxle]; (repeat' split) <;> simp
@[simp] theorem Part.handAxle_pse (a : Axle) (p : Part) : (p.handAxle a).pse = p.pse := by
  simp only [Part.handAxle]; (repeat' split) <;> simp
@[simp] theorem Part.handAxle_ptu (a : Axle) (p : Part) : (p.handAxle a).ptu = p.ptu := by
  simp only [Part.handAxle]; (repeat' split) <;> simp
@[simp] theorem Part.handAxle_sbc (a : Axle) (p : Part) : (p.handAxle a).sbc = p.sbc := by
  simp only [Part.handAxle]; (repeat' split) <;> simp
@[simp] theorem Part.handAxle_stu (a : Axle) (p : Part) : (p.handAxle a).stu = p.stu := by
  simp only [Part.handAxle]; (repeat' split) <;> simp
@[simp] theorem Part.handAxle_csu (a : Axle) (p : Part) : (p.handAxle a).csu = p.csu := by
  simp only [Part.handAxle]; (repeat' split) <;> simp

/-! ## cedeAxle -/

@[simp] theorem Part.cedeAxle_rstLow (p : Part) : (p.cedeAxle).rstLow = p.rstLow := by
  simp only [Part.cedeAxle]; (repeat' split) <;> simp
@[simp] theorem Part.cedeAxle_clock (p : Part) : (p.cedeAxle).clock = p.clock := by
  simp only [Part.cedeAxle]; (repeat' split) <;> simp
@[simp] theorem Part.cedeAxle_lcu (p : Part) : (p.cedeAxle).lcu = p.lcu := by
  simp only [Part.cedeAxle]; (repeat' split) <;> simp
@[simp] theorem Part.cedeAxle_pse (p : Part) : (p.cedeAxle).pse = p.pse := by
  simp only [Part.cedeAxle]; (repeat' split) <;> simp
@[simp] theorem Part.cedeAxle_ptu (p : Part) : (p.cedeAxle).ptu = p.ptu := by
  simp only [Part.cedeAxle]; (repeat' split) <;> simp
@[simp] theorem Part.cedeAxle_sbc (p : Part) : (p.cedeAxle).sbc = p.sbc := by
  simp only [Part.cedeAxle]; (repeat' split) <;> simp
@[simp] theorem Part.cedeAxle_stu (p : Part) : (p.cedeAxle).stu = p.stu := by
  simp only [Part.cedeAxle]; (repeat' split) <;> simp
@[simp] theorem Part.cedeAxle_csu (p : Part) : (p.cedeAxle).csu = p.csu := by
  simp only [Part.cedeAxle]; (repeat' split) <;> simp

/-! ## takePending -/

@[simp] theorem Part.takePending_rstLow (n : Count16) (p : Part) : (p.takePending n).rstLow = p.rstLow := by
  rfl
@[simp] theorem Part.takePending_clock (n : Count16) (p : Part) : (p.takePending n).clock = p.clock := by
  rfl
@[simp] theorem Part.takePending_lcu (n : Count16) (p : Part) : (p.takePending n).lcu = p.lcu := by
  rfl
@[simp] theorem Part.takePending_ptu (n : Count16) (p : Part) : (p.takePending n).ptu = p.ptu := by
  rfl
@[simp] theorem Part.takePending_sbc (n : Count16) (p : Part) : (p.takePending n).sbc = p.sbc := by
  rfl
@[simp] theorem Part.takePending_stu (n : Count16) (p : Part) : (p.takePending n).stu = p.stu := by
  rfl
@[simp] theorem Part.takePending_vcl (n : Count16) (p : Part) : (p.takePending n).vcl = p.vcl := by
  rfl
@[simp] theorem Part.takePending_tou (n : Count16) (p : Part) : (p.takePending n).tou = p.tou := by
  rfl
@[simp] theorem Part.takePending_csu (n : Count16) (p : Part) : (p.takePending n).csu = p.csu := by
  rfl

/-! ## formStraddle -/

@[simp] theorem Part.formStraddle_rstLow (d q : Wheel) (n : Nat) (p : Part) : (p.formStraddle d q n).rstLow = p.rstLow := by
  simp only [Part.formStraddle]; (repeat' split) <;> simp
@[simp] theorem Part.formStraddle_clock (d q : Wheel) (n : Nat) (p : Part) : (p.formStraddle d q n).clock = p.clock := by
  simp only [Part.formStraddle]; (repeat' split) <;> simp
@[simp] theorem Part.formStraddle_lcu (d q : Wheel) (n : Nat) (p : Part) : (p.formStraddle d q n).lcu = p.lcu := by
  simp only [Part.formStraddle]; (repeat' split) <;> simp
@[simp] theorem Part.formStraddle_pse (d q : Wheel) (n : Nat) (p : Part) : (p.formStraddle d q n).pse = p.pse := by
  simp only [Part.formStraddle]; (repeat' split) <;> simp
@[simp] theorem Part.formStraddle_ptu (d q : Wheel) (n : Nat) (p : Part) : (p.formStraddle d q n).ptu = p.ptu := by
  simp only [Part.formStraddle]; (repeat' split) <;> simp
@[simp] theorem Part.formStraddle_sbc (d q : Wheel) (n : Nat) (p : Part) : (p.formStraddle d q n).sbc = p.sbc := by
  simp only [Part.formStraddle]; (repeat' split) <;> simp
@[simp] theorem Part.formStraddle_stu (d q : Wheel) (n : Nat) (p : Part) : (p.formStraddle d q n).stu = p.stu := by
  simp only [Part.formStraddle]; (repeat' split) <;> simp
@[simp] theorem Part.formStraddle_csu (d q : Wheel) (n : Nat) (p : Part) : (p.formStraddle d q n).csu = p.csu := by
  simp only [Part.formStraddle]; (repeat' split) <;> simp

/-! ## formSingle -/

@[simp] theorem Part.formSingle_rstLow (d : Wheel) (p : Part) : (p.formSingle d).rstLow = p.rstLow := by
  simp only [Part.formSingle]; (repeat' split) <;> simp
@[simp] theorem Part.formSingle_clock (d : Wheel) (p : Part) : (p.formSingle d).clock = p.clock := by
  simp only [Part.formSingle]; (repeat' split) <;> simp
@[simp] theorem Part.formSingle_lcu (d : Wheel) (p : Part) : (p.formSingle d).lcu = p.lcu := by
  simp only [Part.formSingle]; (repeat' split) <;> simp
@[simp] theorem Part.formSingle_pse (d : Wheel) (p : Part) : (p.formSingle d).pse = p.pse := by
  simp only [Part.formSingle]; (repeat' split) <;> simp
@[simp] theorem Part.formSingle_ptu (d : Wheel) (p : Part) : (p.formSingle d).ptu = p.ptu := by
  simp only [Part.formSingle]; (repeat' split) <;> simp
@[simp] theorem Part.formSingle_sbc (d : Wheel) (p : Part) : (p.formSingle d).sbc = p.sbc := by
  simp only [Part.formSingle]; (repeat' split) <;> simp
@[simp] theorem Part.formSingle_stu (d : Wheel) (p : Part) : (p.formSingle d).stu = p.stu := by
  simp only [Part.formSingle]; (repeat' split) <;> simp
@[simp] theorem Part.formSingle_csu (d : Wheel) (p : Part) : (p.formSingle d).csu = p.csu := by
  simp only [Part.formSingle]; (repeat' split) <;> simp

/-! ## formInLane -/

@[simp] theorem Part.formInLane_rstLow (d k : Wheel) (p : Part) : (p.formInLane d k).rstLow = p.rstLow := by
  simp only [Part.formInLane]; (repeat' split) <;> simp
@[simp] theorem Part.formInLane_clock (d k : Wheel) (p : Part) : (p.formInLane d k).clock = p.clock := by
  simp only [Part.formInLane]; (repeat' split) <;> simp
@[simp] theorem Part.formInLane_lcu (d k : Wheel) (p : Part) : (p.formInLane d k).lcu = p.lcu := by
  simp only [Part.formInLane]; (repeat' split) <;> simp
@[simp] theorem Part.formInLane_pse (d k : Wheel) (p : Part) : (p.formInLane d k).pse = p.pse := by
  simp only [Part.formInLane]; (repeat' split) <;> simp
@[simp] theorem Part.formInLane_ptu (d k : Wheel) (p : Part) : (p.formInLane d k).ptu = p.ptu := by
  simp only [Part.formInLane]; (repeat' split) <;> simp
@[simp] theorem Part.formInLane_sbc (d k : Wheel) (p : Part) : (p.formInLane d k).sbc = p.sbc := by
  simp only [Part.formInLane]; (repeat' split) <;> simp
@[simp] theorem Part.formInLane_stu (d k : Wheel) (p : Part) : (p.formInLane d k).stu = p.stu := by
  simp only [Part.formInLane]; (repeat' split) <;> simp
@[simp] theorem Part.formInLane_csu (d k : Wheel) (p : Part) : (p.formInLane d k).csu = p.csu := by
  simp only [Part.formInLane]; (repeat' split) <;> simp

/-! ## decideWheel -/

@[simp] theorem Part.decideWheel_rstLow (d : Wheel) (p : Part) : (p.decideWheel d).rstLow = p.rstLow := by
  simp only [Part.decideWheel]; (repeat' split) <;> simp
@[simp] theorem Part.decideWheel_clock (d : Wheel) (p : Part) : (p.decideWheel d).clock = p.clock := by
  simp only [Part.decideWheel]; (repeat' split) <;> simp
@[simp] theorem Part.decideWheel_lcu (d : Wheel) (p : Part) : (p.decideWheel d).lcu = p.lcu := by
  simp only [Part.decideWheel]; (repeat' split) <;> simp
@[simp] theorem Part.decideWheel_ptu (d : Wheel) (p : Part) : (p.decideWheel d).ptu = p.ptu := by
  simp only [Part.decideWheel]; (repeat' split) <;> simp
@[simp] theorem Part.decideWheel_sbc (d : Wheel) (p : Part) : (p.decideWheel d).sbc = p.sbc := by
  simp only [Part.decideWheel]; (repeat' split) <;> simp
@[simp] theorem Part.decideWheel_stu (d : Wheel) (p : Part) : (p.decideWheel d).stu = p.stu := by
  simp only [Part.decideWheel]; (repeat' split) <;> simp
@[simp] theorem Part.decideWheel_csu (d : Wheel) (p : Part) : (p.decideWheel d).csu = p.csu := by
  simp only [Part.decideWheel]; (repeat' split) <;> simp

/-! ## removeAged -/

@[simp] theorem Part.removeAged_rstLow (p : Part) : (p.removeAged).rstLow = p.rstLow := by
  rfl
@[simp] theorem Part.removeAged_clock (p : Part) : (p.removeAged).clock = p.clock := by
  rfl
@[simp] theorem Part.removeAged_lcu (p : Part) : (p.removeAged).lcu = p.lcu := by
  rfl
@[simp] theorem Part.removeAged_pse (p : Part) : (p.removeAged).pse = p.pse := by
  rfl
@[simp] theorem Part.removeAged_ptu (p : Part) : (p.removeAged).ptu = p.ptu := by
  rfl
@[simp] theorem Part.removeAged_sbc (p : Part) : (p.removeAged).sbc = p.sbc := by
  rfl
@[simp] theorem Part.removeAged_stu (p : Part) : (p.removeAged).stu = p.stu := by
  rfl
@[simp] theorem Part.removeAged_vcl (p : Part) : (p.removeAged).vcl = p.vcl := by
  rfl
@[simp] theorem Part.removeAged_tou (p : Part) : (p.removeAged).tou = p.tou := by
  rfl
@[simp] theorem Part.removeAged_csu (p : Part) : (p.removeAged).csu = p.csu := by
  rfl

end Sys2Proof.Machine
end

