-- ==== Sys2Proof/Laws/Fields.lean ====
section
/-! SUPPORT. What the transmit list's operations and the change marks leave alone within the SBC, the VCL and the CSU: one lemma
per operation and field. -/

set_option Elab.async false

namespace Sys2Proof.Machine

/-! ## countDrop -/

@[simp] theorem Part.countDrop_onLine (p : Part) : (p.countDrop).sbc.onLine = p.sbc.onLine := by
  rfl
@[simp] theorem Part.countDrop_txCapture (p : Part) : (p.countDrop).sbc.txCapture = p.sbc.txCapture := by
  rfl
@[simp] theorem Part.countDrop_following (p : Part) : (p.countDrop).sbc.following = p.sbc.following := by
  rfl
@[simp] theorem Part.countDrop_line (p : Part) : (p.countDrop).sbc.line = p.sbc.line := by
  rfl
@[simp] theorem Part.countDrop_rx (p : Part) : (p.countDrop).sbc.rx = p.sbc.rx := by
  rfl
@[simp] theorem Part.countDrop_deaf (p : Part) : (p.countDrop).sbc.deaf = p.sbc.deaf := by
  rfl
@[simp] theorem Part.countDrop_blind (p : Part) : (p.countDrop).sbc.blind = p.sbc.blind := by
  rfl
@[simp] theorem Part.countDrop_mismatches (p : Part) : (p.countDrop).sbc.mismatches = p.sbc.mismatches := by
  rfl
@[simp] theorem Part.countDrop_formatErrors (p : Part) : (p.countDrop).sbc.formatErrors = p.sbc.formatErrors := by
  rfl
@[simp] theorem Part.countDrop_deafDiscards (p : Part) : (p.countDrop).sbc.deafDiscards = p.sbc.deafDiscards := by
  rfl
@[simp] theorem Part.countDrop_lastMismatch (p : Part) : (p.countDrop).sbc.lastMismatch = p.sbc.lastMismatch := by
  rfl

/-! ## leftUnsent -/

@[simp] theorem Part.leftUnsent_seqCounter (e : TxEntry) (p : Part) : (p.leftUnsent e).vcl.seqCounter = p.vcl.seqCounter := by
  unfold Part.leftUnsent; (repeat' split) <;> rfl
@[simp] theorem Part.leftUnsent_lostCarry (e : TxEntry) (p : Part) : (p.leftUnsent e).vcl.lostCarry = p.vcl.lostCarry := by
  unfold Part.leftUnsent; (repeat' split) <;> rfl
@[simp] theorem Part.leftUnsent_cededCarry (e : TxEntry) (p : Part) : (p.leftUnsent e).vcl.cededCarry = p.vcl.cededCarry := by
  unfold Part.leftUnsent; (repeat' split) <;> rfl
@[simp] theorem Part.leftUnsent_walk (e : TxEntry) (p : Part) : (p.leftUnsent e).vcl.walk = p.vcl.walk := by
  unfold Part.leftUnsent; (repeat' split) <;> rfl

/-! ## countStaleWheel -/

@[simp] theorem Part.countStaleWheel_seqCounter (p : Part) : (p.countStaleWheel).vcl.seqCounter = p.vcl.seqCounter := by
  rfl
@[simp] theorem Part.countStaleWheel_lostCarry (p : Part) : (p.countStaleWheel).vcl.lostCarry = p.vcl.lostCarry := by
  rfl
@[simp] theorem Part.countStaleWheel_cededCarry (p : Part) : (p.countStaleWheel).vcl.cededCarry = p.vcl.cededCarry := by
  rfl
@[simp] theorem Part.countStaleWheel_walk (p : Part) : (p.countStaleWheel).vcl.walk = p.vcl.walk := by
  rfl

/-! ## placeEntry -/

@[simp] theorem Part.placeEntry_onLine (e : TxEntry) (p : Part) : (p.placeEntry e).sbc.onLine = p.sbc.onLine := by
  unfold Part.placeEntry; (repeat' split) <;> simp
@[simp] theorem Part.placeEntry_txCapture (e : TxEntry) (p : Part) : (p.placeEntry e).sbc.txCapture = p.sbc.txCapture := by
  unfold Part.placeEntry; (repeat' split) <;> simp
@[simp] theorem Part.placeEntry_following (e : TxEntry) (p : Part) : (p.placeEntry e).sbc.following = p.sbc.following := by
  unfold Part.placeEntry; (repeat' split) <;> simp
@[simp] theorem Part.placeEntry_line (e : TxEntry) (p : Part) : (p.placeEntry e).sbc.line = p.sbc.line := by
  unfold Part.placeEntry; (repeat' split) <;> simp
@[simp] theorem Part.placeEntry_rx (e : TxEntry) (p : Part) : (p.placeEntry e).sbc.rx = p.sbc.rx := by
  unfold Part.placeEntry; (repeat' split) <;> simp
@[simp] theorem Part.placeEntry_deaf (e : TxEntry) (p : Part) : (p.placeEntry e).sbc.deaf = p.sbc.deaf := by
  unfold Part.placeEntry; (repeat' split) <;> simp
@[simp] theorem Part.placeEntry_blind (e : TxEntry) (p : Part) : (p.placeEntry e).sbc.blind = p.sbc.blind := by
  unfold Part.placeEntry; (repeat' split) <;> simp
@[simp] theorem Part.placeEntry_mismatches (e : TxEntry) (p : Part) : (p.placeEntry e).sbc.mismatches = p.sbc.mismatches := by
  unfold Part.placeEntry; (repeat' split) <;> simp
@[simp] theorem Part.placeEntry_formatErrors (e : TxEntry) (p : Part) : (p.placeEntry e).sbc.formatErrors = p.sbc.formatErrors := by
  unfold Part.placeEntry; (repeat' split) <;> simp
@[simp] theorem Part.placeEntry_deafDiscards (e : TxEntry) (p : Part) : (p.placeEntry e).sbc.deafDiscards = p.sbc.deafDiscards := by
  unfold Part.placeEntry; (repeat' split) <;> simp
@[simp] theorem Part.placeEntry_lastMismatch (e : TxEntry) (p : Part) : (p.placeEntry e).sbc.lastMismatch = p.sbc.lastMismatch := by
  unfold Part.placeEntry; (repeat' split) <;> simp
@[simp] theorem Part.placeEntry_seqCounter (e : TxEntry) (p : Part) : (p.placeEntry e).vcl.seqCounter = p.vcl.seqCounter := by
  unfold Part.placeEntry; (repeat' split) <;> simp
@[simp] theorem Part.placeEntry_lostCarry (e : TxEntry) (p : Part) : (p.placeEntry e).vcl.lostCarry = p.vcl.lostCarry := by
  unfold Part.placeEntry; (repeat' split) <;> simp
@[simp] theorem Part.placeEntry_cededCarry (e : TxEntry) (p : Part) : (p.placeEntry e).vcl.cededCarry = p.vcl.cededCarry := by
  unfold Part.placeEntry; (repeat' split) <;> simp
@[simp] theorem Part.placeEntry_walk (e : TxEntry) (p : Part) : (p.placeEntry e).vcl.walk = p.vcl.walk := by
  unfold Part.placeEntry; (repeat' split) <;> simp

/-! ## enterList -/

@[simp] theorem Part.enterList_onLine (c : TxContent) (t : SiteTime) (p : Part) : (p.enterList c t).sbc.onLine = p.sbc.onLine := by
  unfold Part.enterList; (repeat' split) <;> simp
@[simp] theorem Part.enterList_txCapture (c : TxContent) (t : SiteTime) (p : Part) : (p.enterList c t).sbc.txCapture = p.sbc.txCapture := by
  unfold Part.enterList; (repeat' split) <;> simp
@[simp] theorem Part.enterList_following (c : TxContent) (t : SiteTime) (p : Part) : (p.enterList c t).sbc.following = p.sbc.following := by
  unfold Part.enterList; (repeat' split) <;> simp
@[simp] theorem Part.enterList_line (c : TxContent) (t : SiteTime) (p : Part) : (p.enterList c t).sbc.line = p.sbc.line := by
  unfold Part.enterList; (repeat' split) <;> simp
@[simp] theorem Part.enterList_rx (c : TxContent) (t : SiteTime) (p : Part) : (p.enterList c t).sbc.rx = p.sbc.rx := by
  unfold Part.enterList; (repeat' split) <;> simp
@[simp] theorem Part.enterList_deaf (c : TxContent) (t : SiteTime) (p : Part) : (p.enterList c t).sbc.deaf = p.sbc.deaf := by
  unfold Part.enterList; (repeat' split) <;> simp
@[simp] theorem Part.enterList_blind (c : TxContent) (t : SiteTime) (p : Part) : (p.enterList c t).sbc.blind = p.sbc.blind := by
  unfold Part.enterList; (repeat' split) <;> simp
@[simp] theorem Part.enterList_mismatches (c : TxContent) (t : SiteTime) (p : Part) : (p.enterList c t).sbc.mismatches = p.sbc.mismatches := by
  unfold Part.enterList; (repeat' split) <;> simp
@[simp] theorem Part.enterList_formatErrors (c : TxContent) (t : SiteTime) (p : Part) : (p.enterList c t).sbc.formatErrors = p.sbc.formatErrors := by
  unfold Part.enterList; (repeat' split) <;> simp
@[simp] theorem Part.enterList_deafDiscards (c : TxContent) (t : SiteTime) (p : Part) : (p.enterList c t).sbc.deafDiscards = p.sbc.deafDiscards := by
  unfold Part.enterList; (repeat' split) <;> simp
@[simp] theorem Part.enterList_lastMismatch (c : TxContent) (t : SiteTime) (p : Part) : (p.enterList c t).sbc.lastMismatch = p.sbc.lastMismatch := by
  unfold Part.enterList; (repeat' split) <;> simp
@[simp] theorem Part.enterList_seqCounter (c : TxContent) (t : SiteTime) (p : Part) : (p.enterList c t).vcl.seqCounter = p.vcl.seqCounter := by
  unfold Part.enterList; (repeat' split) <;> simp
@[simp] theorem Part.enterList_lostCarry (c : TxContent) (t : SiteTime) (p : Part) : (p.enterList c t).vcl.lostCarry = p.vcl.lostCarry := by
  unfold Part.enterList; (repeat' split) <;> simp
@[simp] theorem Part.enterList_cededCarry (c : TxContent) (t : SiteTime) (p : Part) : (p.enterList c t).vcl.cededCarry = p.vcl.cededCarry := by
  unfold Part.enterList; (repeat' split) <;> simp
@[simp] theorem Part.enterList_walk (c : TxContent) (t : SiteTime) (p : Part) : (p.enterList c t).vcl.walk = p.vcl.walk := by
  unfold Part.enterList; (repeat' split) <;> simp

/-! ## offerVehicle -/

@[simp] theorem Part.offerVehicle_onLine (p : Part) : (p.offerVehicle).sbc.onLine = p.sbc.onLine := by
  unfold Part.offerVehicle; (repeat' split) <;> simp
@[simp] theorem Part.offerVehicle_txCapture (p : Part) : (p.offerVehicle).sbc.txCapture = p.sbc.txCapture := by
  unfold Part.offerVehicle; (repeat' split) <;> simp
@[simp] theorem Part.offerVehicle_following (p : Part) : (p.offerVehicle).sbc.following = p.sbc.following := by
  unfold Part.offerVehicle; (repeat' split) <;> simp
@[simp] theorem Part.offerVehicle_line (p : Part) : (p.offerVehicle).sbc.line = p.sbc.line := by
  unfold Part.offerVehicle; (repeat' split) <;> simp
@[simp] theorem Part.offerVehicle_rx (p : Part) : (p.offerVehicle).sbc.rx = p.sbc.rx := by
  unfold Part.offerVehicle; (repeat' split) <;> simp
@[simp] theorem Part.offerVehicle_deaf (p : Part) : (p.offerVehicle).sbc.deaf = p.sbc.deaf := by
  unfold Part.offerVehicle; (repeat' split) <;> simp
@[simp] theorem Part.offerVehicle_blind (p : Part) : (p.offerVehicle).sbc.blind = p.sbc.blind := by
  unfold Part.offerVehicle; (repeat' split) <;> simp
@[simp] theorem Part.offerVehicle_mismatches (p : Part) : (p.offerVehicle).sbc.mismatches = p.sbc.mismatches := by
  unfold Part.offerVehicle; (repeat' split) <;> simp
@[simp] theorem Part.offerVehicle_formatErrors (p : Part) : (p.offerVehicle).sbc.formatErrors = p.sbc.formatErrors := by
  unfold Part.offerVehicle; (repeat' split) <;> simp
@[simp] theorem Part.offerVehicle_deafDiscards (p : Part) : (p.offerVehicle).sbc.deafDiscards = p.sbc.deafDiscards := by
  unfold Part.offerVehicle; (repeat' split) <;> simp
@[simp] theorem Part.offerVehicle_lastMismatch (p : Part) : (p.offerVehicle).sbc.lastMismatch = p.sbc.lastMismatch := by
  unfold Part.offerVehicle; (repeat' split) <;> simp
@[simp] theorem Part.offerVehicle_seqCounter (p : Part) : (p.offerVehicle).vcl.seqCounter = p.vcl.seqCounter := by
  unfold Part.offerVehicle; (repeat' split) <;> simp
@[simp] theorem Part.offerVehicle_lostCarry (p : Part) : (p.offerVehicle).vcl.lostCarry = p.vcl.lostCarry := by
  unfold Part.offerVehicle; (repeat' split) <;> simp
@[simp] theorem Part.offerVehicle_cededCarry (p : Part) : (p.offerVehicle).vcl.cededCarry = p.vcl.cededCarry := by
  unfold Part.offerVehicle; (repeat' split) <;> simp
@[simp] theorem Part.offerVehicle_walk (p : Part) : (p.offerVehicle).vcl.walk = p.vcl.walk := by
  unfold Part.offerVehicle; (repeat' split) <;> simp

/-! ## handFrame -/

@[simp] theorem Part.handFrame_onLine (c : TxContent) (p : Part) : (p.handFrame c).sbc.onLine = p.sbc.onLine := by
  simp [Part.handFrame]
@[simp] theorem Part.handFrame_txCapture (c : TxContent) (p : Part) : (p.handFrame c).sbc.txCapture = p.sbc.txCapture := by
  simp [Part.handFrame]
@[simp] theorem Part.handFrame_following (c : TxContent) (p : Part) : (p.handFrame c).sbc.following = p.sbc.following := by
  simp [Part.handFrame]
@[simp] theorem Part.handFrame_line (c : TxContent) (p : Part) : (p.handFrame c).sbc.line = p.sbc.line := by
  simp [Part.handFrame]
@[simp] theorem Part.handFrame_rx (c : TxContent) (p : Part) : (p.handFrame c).sbc.rx = p.sbc.rx := by
  simp [Part.handFrame]
@[simp] theorem Part.handFrame_deaf (c : TxContent) (p : Part) : (p.handFrame c).sbc.deaf = p.sbc.deaf := by
  simp [Part.handFrame]
@[simp] theorem Part.handFrame_blind (c : TxContent) (p : Part) : (p.handFrame c).sbc.blind = p.sbc.blind := by
  simp [Part.handFrame]
@[simp] theorem Part.handFrame_mismatches (c : TxContent) (p : Part) : (p.handFrame c).sbc.mismatches = p.sbc.mismatches := by
  simp [Part.handFrame]
@[simp] theorem Part.handFrame_formatErrors (c : TxContent) (p : Part) : (p.handFrame c).sbc.formatErrors = p.sbc.formatErrors := by
  simp [Part.handFrame]
@[simp] theorem Part.handFrame_deafDiscards (c : TxContent) (p : Part) : (p.handFrame c).sbc.deafDiscards = p.sbc.deafDiscards := by
  simp [Part.handFrame]
@[simp] theorem Part.handFrame_lastMismatch (c : TxContent) (p : Part) : (p.handFrame c).sbc.lastMismatch = p.sbc.lastMismatch := by
  simp [Part.handFrame]
@[simp] theorem Part.handFrame_seqCounter (c : TxContent) (p : Part) : (p.handFrame c).vcl.seqCounter = p.vcl.seqCounter := by
  simp [Part.handFrame]
@[simp] theorem Part.handFrame_lostCarry (c : TxContent) (p : Part) : (p.handFrame c).vcl.lostCarry = p.vcl.lostCarry := by
  simp [Part.handFrame]
@[simp] theorem Part.handFrame_cededCarry (c : TxContent) (p : Part) : (p.handFrame c).vcl.cededCarry = p.vcl.cededCarry := by
  simp [Part.handFrame]
@[simp] theorem Part.handFrame_walk (c : TxContent) (p : Part) : (p.handFrame c).vcl.walk = p.vcl.walk := by
  simp [Part.handFrame]

/-! ## handTime -/

@[simp] theorem Part.handTime_onLine (p : Part) : (p.handTime).sbc.onLine = p.sbc.onLine := by
  simp [Part.handTime]
@[simp] theorem Part.handTime_txCapture (p : Part) : (p.handTime).sbc.txCapture = p.sbc.txCapture := by
  simp [Part.handTime]
@[simp] theorem Part.handTime_following (p : Part) : (p.handTime).sbc.following = p.sbc.following := by
  simp [Part.handTime]
@[simp] theorem Part.handTime_line (p : Part) : (p.handTime).sbc.line = p.sbc.line := by
  simp [Part.handTime]
@[simp] theorem Part.handTime_rx (p : Part) : (p.handTime).sbc.rx = p.sbc.rx := by
  simp [Part.handTime]
@[simp] theorem Part.handTime_deaf (p : Part) : (p.handTime).sbc.deaf = p.sbc.deaf := by
  simp [Part.handTime]
@[simp] theorem Part.handTime_blind (p : Part) : (p.handTime).sbc.blind = p.sbc.blind := by
  simp [Part.handTime]
@[simp] theorem Part.handTime_mismatches (p : Part) : (p.handTime).sbc.mismatches = p.sbc.mismatches := by
  simp [Part.handTime]
@[simp] theorem Part.handTime_formatErrors (p : Part) : (p.handTime).sbc.formatErrors = p.sbc.formatErrors := by
  simp [Part.handTime]
@[simp] theorem Part.handTime_deafDiscards (p : Part) : (p.handTime).sbc.deafDiscards = p.sbc.deafDiscards := by
  simp [Part.handTime]
@[simp] theorem Part.handTime_lastMismatch (p : Part) : (p.handTime).sbc.lastMismatch = p.sbc.lastMismatch := by
  simp [Part.handTime]
@[simp] theorem Part.handTime_seqCounter (p : Part) : (p.handTime).vcl.seqCounter = p.vcl.seqCounter := by
  simp [Part.handTime]
@[simp] theorem Part.handTime_lostCarry (p : Part) : (p.handTime).vcl.lostCarry = p.vcl.lostCarry := by
  simp [Part.handTime]
@[simp] theorem Part.handTime_cededCarry (p : Part) : (p.handTime).vcl.cededCarry = p.vcl.cededCarry := by
  simp [Part.handTime]
@[simp] theorem Part.handTime_walk (p : Part) : (p.handTime).vcl.walk = p.vcl.walk := by
  simp [Part.handTime]

/-! ## requestStatus -/

@[simp] theorem Part.requestStatus_onLine (p : Part) : (p.requestStatus).sbc.onLine = p.sbc.onLine := by
  simp [Part.requestStatus]
@[simp] theorem Part.requestStatus_txCapture (p : Part) : (p.requestStatus).sbc.txCapture = p.sbc.txCapture := by
  simp [Part.requestStatus]
@[simp] theorem Part.requestStatus_following (p : Part) : (p.requestStatus).sbc.following = p.sbc.following := by
  simp [Part.requestStatus]
@[simp] theorem Part.requestStatus_line (p : Part) : (p.requestStatus).sbc.line = p.sbc.line := by
  simp [Part.requestStatus]
@[simp] theorem Part.requestStatus_rx (p : Part) : (p.requestStatus).sbc.rx = p.sbc.rx := by
  simp [Part.requestStatus]
@[simp] theorem Part.requestStatus_deaf (p : Part) : (p.requestStatus).sbc.deaf = p.sbc.deaf := by
  simp [Part.requestStatus]
@[simp] theorem Part.requestStatus_blind (p : Part) : (p.requestStatus).sbc.blind = p.sbc.blind := by
  simp [Part.requestStatus]
@[simp] theorem Part.requestStatus_mismatches (p : Part) : (p.requestStatus).sbc.mismatches = p.sbc.mismatches := by
  simp [Part.requestStatus]
@[simp] theorem Part.requestStatus_formatErrors (p : Part) : (p.requestStatus).sbc.formatErrors = p.sbc.formatErrors := by
  simp [Part.requestStatus]
@[simp] theorem Part.requestStatus_deafDiscards (p : Part) : (p.requestStatus).sbc.deafDiscards = p.sbc.deafDiscards := by
  simp [Part.requestStatus]
@[simp] theorem Part.requestStatus_lastMismatch (p : Part) : (p.requestStatus).sbc.lastMismatch = p.sbc.lastMismatch := by
  simp [Part.requestStatus]
@[simp] theorem Part.requestStatus_seqCounter (p : Part) : (p.requestStatus).vcl.seqCounter = p.vcl.seqCounter := by
  simp [Part.requestStatus]
@[simp] theorem Part.requestStatus_lostCarry (p : Part) : (p.requestStatus).vcl.lostCarry = p.vcl.lostCarry := by
  simp [Part.requestStatus]
@[simp] theorem Part.requestStatus_cededCarry (p : Part) : (p.requestStatus).vcl.cededCarry = p.vcl.cededCarry := by
  simp [Part.requestStatus]
@[simp] theorem Part.requestStatus_walk (p : Part) : (p.requestStatus).vcl.walk = p.vcl.walk := by
  simp [Part.requestStatus]

/-! ## requestForMarks -/

@[simp] theorem Part.requestForMarks_onLine (p : Part) : (p.requestForMarks).sbc.onLine = p.sbc.onLine := by
  simp [Part.requestForMarks]
@[simp] theorem Part.requestForMarks_txCapture (p : Part) : (p.requestForMarks).sbc.txCapture = p.sbc.txCapture := by
  simp [Part.requestForMarks]
@[simp] theorem Part.requestForMarks_following (p : Part) : (p.requestForMarks).sbc.following = p.sbc.following := by
  simp [Part.requestForMarks]
@[simp] theorem Part.requestForMarks_line (p : Part) : (p.requestForMarks).sbc.line = p.sbc.line := by
  simp [Part.requestForMarks]
@[simp] theorem Part.requestForMarks_rx (p : Part) : (p.requestForMarks).sbc.rx = p.sbc.rx := by
  simp [Part.requestForMarks]
@[simp] theorem Part.requestForMarks_deaf (p : Part) : (p.requestForMarks).sbc.deaf = p.sbc.deaf := by
  simp [Part.requestForMarks]
@[simp] theorem Part.requestForMarks_blind (p : Part) : (p.requestForMarks).sbc.blind = p.sbc.blind := by
  simp [Part.requestForMarks]
@[simp] theorem Part.requestForMarks_mismatches (p : Part) : (p.requestForMarks).sbc.mismatches = p.sbc.mismatches := by
  simp [Part.requestForMarks]
@[simp] theorem Part.requestForMarks_formatErrors (p : Part) : (p.requestForMarks).sbc.formatErrors = p.sbc.formatErrors := by
  simp [Part.requestForMarks]
@[simp] theorem Part.requestForMarks_deafDiscards (p : Part) : (p.requestForMarks).sbc.deafDiscards = p.sbc.deafDiscards := by
  simp [Part.requestForMarks]
@[simp] theorem Part.requestForMarks_lastMismatch (p : Part) : (p.requestForMarks).sbc.lastMismatch = p.sbc.lastMismatch := by
  simp [Part.requestForMarks]
@[simp] theorem Part.requestForMarks_seqCounter (p : Part) : (p.requestForMarks).vcl.seqCounter = p.vcl.seqCounter := by
  simp [Part.requestForMarks]
@[simp] theorem Part.requestForMarks_lostCarry (p : Part) : (p.requestForMarks).vcl.lostCarry = p.vcl.lostCarry := by
  simp [Part.requestForMarks]
@[simp] theorem Part.requestForMarks_cededCarry (p : Part) : (p.requestForMarks).vcl.cededCarry = p.vcl.cededCarry := by
  simp [Part.requestForMarks]
@[simp] theorem Part.requestForMarks_walk (p : Part) : (p.requestForMarks).vcl.walk = p.vcl.walk := by
  simp [Part.requestForMarks]
@[simp] theorem Part.requestForMarks_station (p : Part) : (p.requestForMarks).csu.station = p.csu.station := by
  simp [Part.requestForMarks]
@[simp] theorem Part.requestForMarks_block (p : Part) : (p.requestForMarks).csu.block = p.csu.block := by
  simp [Part.requestForMarks]
@[simp] theorem Part.requestForMarks_image (p : Part) : (p.requestForMarks).csu.image = p.csu.image := by
  simp [Part.requestForMarks]
@[simp] theorem Part.requestForMarks_loadFault (p : Part) : (p.requestForMarks).csu.loadFault = p.csu.loadFault := by
  simp [Part.requestForMarks]
@[simp] theorem Part.requestForMarks_pinActive (p : Part) : (p.requestForMarks).csu.pinActive = p.csu.pinActive := by
  simp [Part.requestForMarks]
@[simp] theorem Part.requestForMarks_commandHold (p : Part) : (p.requestForMarks).csu.commandHold = p.csu.commandHold := by
  simp [Part.requestForMarks]
@[simp] theorem Part.requestForMarks_lastResult (p : Part) : (p.requestForMarks).csu.lastResult = p.csu.lastResult := by
  simp [Part.requestForMarks]
@[simp] theorem Part.requestForMarks_commandCount (p : Part) : (p.requestForMarks).csu.commandCount = p.csu.commandCount := by
  simp [Part.requestForMarks]
@[simp] theorem Part.requestForMarks_periodicSince (p : Part) : (p.requestForMarks).csu.periodicSince = p.csu.periodicSince := by
  simp [Part.requestForMarks]
@[simp] theorem Part.requestForMarks_load (p : Part) : (p.requestForMarks).csu.load = p.csu.load := by
  simp [Part.requestForMarks]

/-! ## markNewlySet -/

@[simp] theorem Part.markNewlySet_onLine (p : Part) : (p.markNewlySet).sbc.onLine = p.sbc.onLine := by
  unfold Part.markNewlySet; (repeat' split) <;> simp
@[simp] theorem Part.markNewlySet_txCapture (p : Part) : (p.markNewlySet).sbc.txCapture = p.sbc.txCapture := by
  unfold Part.markNewlySet; (repeat' split) <;> simp
@[simp] theorem Part.markNewlySet_following (p : Part) : (p.markNewlySet).sbc.following = p.sbc.following := by
  unfold Part.markNewlySet; (repeat' split) <;> simp
@[simp] theorem Part.markNewlySet_line (p : Part) : (p.markNewlySet).sbc.line = p.sbc.line := by
  unfold Part.markNewlySet; (repeat' split) <;> simp
@[simp] theorem Part.markNewlySet_rx (p : Part) : (p.markNewlySet).sbc.rx = p.sbc.rx := by
  unfold Part.markNewlySet; (repeat' split) <;> simp
@[simp] theorem Part.markNewlySet_deaf (p : Part) : (p.markNewlySet).sbc.deaf = p.sbc.deaf := by
  unfold Part.markNewlySet; (repeat' split) <;> simp
@[simp] theorem Part.markNewlySet_blind (p : Part) : (p.markNewlySet).sbc.blind = p.sbc.blind := by
  unfold Part.markNewlySet; (repeat' split) <;> simp
@[simp] theorem Part.markNewlySet_mismatches (p : Part) : (p.markNewlySet).sbc.mismatches = p.sbc.mismatches := by
  unfold Part.markNewlySet; (repeat' split) <;> simp
@[simp] theorem Part.markNewlySet_formatErrors (p : Part) : (p.markNewlySet).sbc.formatErrors = p.sbc.formatErrors := by
  unfold Part.markNewlySet; (repeat' split) <;> simp
@[simp] theorem Part.markNewlySet_deafDiscards (p : Part) : (p.markNewlySet).sbc.deafDiscards = p.sbc.deafDiscards := by
  unfold Part.markNewlySet; (repeat' split) <;> simp
@[simp] theorem Part.markNewlySet_lastMismatch (p : Part) : (p.markNewlySet).sbc.lastMismatch = p.sbc.lastMismatch := by
  unfold Part.markNewlySet; (repeat' split) <;> simp
@[simp] theorem Part.markNewlySet_seqCounter (p : Part) : (p.markNewlySet).vcl.seqCounter = p.vcl.seqCounter := by
  unfold Part.markNewlySet; (repeat' split) <;> simp
@[simp] theorem Part.markNewlySet_lostCarry (p : Part) : (p.markNewlySet).vcl.lostCarry = p.vcl.lostCarry := by
  unfold Part.markNewlySet; (repeat' split) <;> simp
@[simp] theorem Part.markNewlySet_cededCarry (p : Part) : (p.markNewlySet).vcl.cededCarry = p.vcl.cededCarry := by
  unfold Part.markNewlySet; (repeat' split) <;> simp
@[simp] theorem Part.markNewlySet_walk (p : Part) : (p.markNewlySet).vcl.walk = p.vcl.walk := by
  unfold Part.markNewlySet; (repeat' split) <;> simp
@[simp] theorem Part.markNewlySet_station (p : Part) : (p.markNewlySet).csu.station = p.csu.station := by
  unfold Part.markNewlySet; (repeat' split) <;> simp
@[simp] theorem Part.markNewlySet_block (p : Part) : (p.markNewlySet).csu.block = p.csu.block := by
  unfold Part.markNewlySet; (repeat' split) <;> simp
@[simp] theorem Part.markNewlySet_image (p : Part) : (p.markNewlySet).csu.image = p.csu.image := by
  unfold Part.markNewlySet; (repeat' split) <;> simp
@[simp] theorem Part.markNewlySet_loadFault (p : Part) : (p.markNewlySet).csu.loadFault = p.csu.loadFault := by
  unfold Part.markNewlySet; (repeat' split) <;> simp
@[simp] theorem Part.markNewlySet_pinActive (p : Part) : (p.markNewlySet).csu.pinActive = p.csu.pinActive := by
  unfold Part.markNewlySet; (repeat' split) <;> simp
@[simp] theorem Part.markNewlySet_commandHold (p : Part) : (p.markNewlySet).csu.commandHold = p.csu.commandHold := by
  unfold Part.markNewlySet; (repeat' split) <;> simp
@[simp] theorem Part.markNewlySet_lastResult (p : Part) : (p.markNewlySet).csu.lastResult = p.csu.lastResult := by
  unfold Part.markNewlySet; (repeat' split) <;> simp
@[simp] theorem Part.markNewlySet_commandCount (p : Part) : (p.markNewlySet).csu.commandCount = p.csu.commandCount := by
  unfold Part.markNewlySet; (repeat' split) <;> simp
@[simp] theorem Part.markNewlySet_periodicSince (p : Part) : (p.markNewlySet).csu.periodicSince = p.csu.periodicSince := by
  unfold Part.markNewlySet; (repeat' split) <;> simp
@[simp] theorem Part.markNewlySet_load (p : Part) : (p.markNewlySet).csu.load = p.csu.load := by
  unfold Part.markNewlySet; (repeat' split) <;> simp

/-! ## setMark -/

@[simp] theorem Part.setMark_onLine (m : ChangeMark) (p : Part) : (p.setMark m).sbc.onLine = p.sbc.onLine := by
  unfold Part.setMark; (repeat' split) <;> simp
@[simp] theorem Part.setMark_txCapture (m : ChangeMark) (p : Part) : (p.setMark m).sbc.txCapture = p.sbc.txCapture := by
  unfold Part.setMark; (repeat' split) <;> simp
@[simp] theorem Part.setMark_following (m : ChangeMark) (p : Part) : (p.setMark m).sbc.following = p.sbc.following := by
  unfold Part.setMark; (repeat' split) <;> simp
@[simp] theorem Part.setMark_line (m : ChangeMark) (p : Part) : (p.setMark m).sbc.line = p.sbc.line := by
  unfold Part.setMark; (repeat' split) <;> simp
@[simp] theorem Part.setMark_rx (m : ChangeMark) (p : Part) : (p.setMark m).sbc.rx = p.sbc.rx := by
  unfold Part.setMark; (repeat' split) <;> simp
@[simp] theorem Part.setMark_deaf (m : ChangeMark) (p : Part) : (p.setMark m).sbc.deaf = p.sbc.deaf := by
  unfold Part.setMark; (repeat' split) <;> simp
@[simp] theorem Part.setMark_blind (m : ChangeMark) (p : Part) : (p.setMark m).sbc.blind = p.sbc.blind := by
  unfold Part.setMark; (repeat' split) <;> simp
@[simp] theorem Part.setMark_mismatches (m : ChangeMark) (p : Part) : (p.setMark m).sbc.mismatches = p.sbc.mismatches := by
  unfold Part.setMark; (repeat' split) <;> simp
@[simp] theorem Part.setMark_formatErrors (m : ChangeMark) (p : Part) : (p.setMark m).sbc.formatErrors = p.sbc.formatErrors := by
  unfold Part.setMark; (repeat' split) <;> simp
@[simp] theorem Part.setMark_deafDiscards (m : ChangeMark) (p : Part) : (p.setMark m).sbc.deafDiscards = p.sbc.deafDiscards := by
  unfold Part.setMark; (repeat' split) <;> simp
@[simp] theorem Part.setMark_lastMismatch (m : ChangeMark) (p : Part) : (p.setMark m).sbc.lastMismatch = p.sbc.lastMismatch := by
  unfold Part.setMark; (repeat' split) <;> simp
@[simp] theorem Part.setMark_seqCounter (m : ChangeMark) (p : Part) : (p.setMark m).vcl.seqCounter = p.vcl.seqCounter := by
  unfold Part.setMark; (repeat' split) <;> simp
@[simp] theorem Part.setMark_lostCarry (m : ChangeMark) (p : Part) : (p.setMark m).vcl.lostCarry = p.vcl.lostCarry := by
  unfold Part.setMark; (repeat' split) <;> simp
@[simp] theorem Part.setMark_cededCarry (m : ChangeMark) (p : Part) : (p.setMark m).vcl.cededCarry = p.vcl.cededCarry := by
  unfold Part.setMark; (repeat' split) <;> simp
@[simp] theorem Part.setMark_walk (m : ChangeMark) (p : Part) : (p.setMark m).vcl.walk = p.vcl.walk := by
  unfold Part.setMark; (repeat' split) <;> simp
@[simp] theorem Part.setMark_station (m : ChangeMark) (p : Part) : (p.setMark m).csu.station = p.csu.station := by
  unfold Part.setMark; (repeat' split) <;> simp
@[simp] theorem Part.setMark_block (m : ChangeMark) (p : Part) : (p.setMark m).csu.block = p.csu.block := by
  unfold Part.setMark; (repeat' split) <;> simp
@[simp] theorem Part.setMark_image (m : ChangeMark) (p : Part) : (p.setMark m).csu.image = p.csu.image := by
  unfold Part.setMark; (repeat' split) <;> simp
@[simp] theorem Part.setMark_loadFault (m : ChangeMark) (p : Part) : (p.setMark m).csu.loadFault = p.csu.loadFault := by
  unfold Part.setMark; (repeat' split) <;> simp
@[simp] theorem Part.setMark_pinActive (m : ChangeMark) (p : Part) : (p.setMark m).csu.pinActive = p.csu.pinActive := by
  unfold Part.setMark; (repeat' split) <;> simp
@[simp] theorem Part.setMark_commandHold (m : ChangeMark) (p : Part) : (p.setMark m).csu.commandHold = p.csu.commandHold := by
  unfold Part.setMark; (repeat' split) <;> simp
@[simp] theorem Part.setMark_lastResult (m : ChangeMark) (p : Part) : (p.setMark m).csu.lastResult = p.csu.lastResult := by
  unfold Part.setMark; (repeat' split) <;> simp
@[simp] theorem Part.setMark_commandCount (m : ChangeMark) (p : Part) : (p.setMark m).csu.commandCount = p.csu.commandCount := by
  unfold Part.setMark; (repeat' split) <;> simp
@[simp] theorem Part.setMark_periodicSince (m : ChangeMark) (p : Part) : (p.setMark m).csu.periodicSince = p.csu.periodicSince := by
  unfold Part.setMark; (repeat' split) <;> simp
@[simp] theorem Part.setMark_load (m : ChangeMark) (p : Part) : (p.setMark m).csu.load = p.csu.load := by
  unfold Part.setMark; (repeat' split) <;> simp

/-! ## faultMark -/

@[simp] theorem Part.faultMark_onLine (ch : Channel) (x : ChannelMark) (p : Part) : (p.faultMark ch x).sbc.onLine = p.sbc.onLine := by
  unfold Part.faultMark; (repeat' split) <;> simp
@[simp] theorem Part.faultMark_txCapture (ch : Channel) (x : ChannelMark) (p : Part) : (p.faultMark ch x).sbc.txCapture = p.sbc.txCapture := by
  unfold Part.faultMark; (repeat' split) <;> simp
@[simp] theorem Part.faultMark_following (ch : Channel) (x : ChannelMark) (p : Part) : (p.faultMark ch x).sbc.following = p.sbc.following := by
  unfold Part.faultMark; (repeat' split) <;> simp
@[simp] theorem Part.faultMark_line (ch : Channel) (x : ChannelMark) (p : Part) : (p.faultMark ch x).sbc.line = p.sbc.line := by
  unfold Part.faultMark; (repeat' split) <;> simp
@[simp] theorem Part.faultMark_rx (ch : Channel) (x : ChannelMark) (p : Part) : (p.faultMark ch x).sbc.rx = p.sbc.rx := by
  unfold Part.faultMark; (repeat' split) <;> simp
@[simp] theorem Part.faultMark_deaf (ch : Channel) (x : ChannelMark) (p : Part) : (p.faultMark ch x).sbc.deaf = p.sbc.deaf := by
  unfold Part.faultMark; (repeat' split) <;> simp
@[simp] theorem Part.faultMark_blind (ch : Channel) (x : ChannelMark) (p : Part) : (p.faultMark ch x).sbc.blind = p.sbc.blind := by
  unfold Part.faultMark; (repeat' split) <;> simp
@[simp] theorem Part.faultMark_mismatches (ch : Channel) (x : ChannelMark) (p : Part) : (p.faultMark ch x).sbc.mismatches = p.sbc.mismatches := by
  unfold Part.faultMark; (repeat' split) <;> simp
@[simp] theorem Part.faultMark_formatErrors (ch : Channel) (x : ChannelMark) (p : Part) : (p.faultMark ch x).sbc.formatErrors = p.sbc.formatErrors := by
  unfold Part.faultMark; (repeat' split) <;> simp
@[simp] theorem Part.faultMark_deafDiscards (ch : Channel) (x : ChannelMark) (p : Part) : (p.faultMark ch x).sbc.deafDiscards = p.sbc.deafDiscards := by
  unfold Part.faultMark; (repeat' split) <;> simp
@[simp] theorem Part.faultMark_lastMismatch (ch : Channel) (x : ChannelMark) (p : Part) : (p.faultMark ch x).sbc.lastMismatch = p.sbc.lastMismatch := by
  unfold Part.faultMark; (repeat' split) <;> simp
@[simp] theorem Part.faultMark_seqCounter (ch : Channel) (x : ChannelMark) (p : Part) : (p.faultMark ch x).vcl.seqCounter = p.vcl.seqCounter := by
  unfold Part.faultMark; (repeat' split) <;> simp
@[simp] theorem Part.faultMark_lostCarry (ch : Channel) (x : ChannelMark) (p : Part) : (p.faultMark ch x).vcl.lostCarry = p.vcl.lostCarry := by
  unfold Part.faultMark; (repeat' split) <;> simp
@[simp] theorem Part.faultMark_cededCarry (ch : Channel) (x : ChannelMark) (p : Part) : (p.faultMark ch x).vcl.cededCarry = p.vcl.cededCarry := by
  unfold Part.faultMark; (repeat' split) <;> simp
@[simp] theorem Part.faultMark_walk (ch : Channel) (x : ChannelMark) (p : Part) : (p.faultMark ch x).vcl.walk = p.vcl.walk := by
  unfold Part.faultMark; (repeat' split) <;> simp
@[simp] theorem Part.faultMark_station (ch : Channel) (x : ChannelMark) (p : Part) : (p.faultMark ch x).csu.station = p.csu.station := by
  unfold Part.faultMark; (repeat' split) <;> simp
@[simp] theorem Part.faultMark_block (ch : Channel) (x : ChannelMark) (p : Part) : (p.faultMark ch x).csu.block = p.csu.block := by
  unfold Part.faultMark; (repeat' split) <;> simp
@[simp] theorem Part.faultMark_image (ch : Channel) (x : ChannelMark) (p : Part) : (p.faultMark ch x).csu.image = p.csu.image := by
  unfold Part.faultMark; (repeat' split) <;> simp
@[simp] theorem Part.faultMark_loadFault (ch : Channel) (x : ChannelMark) (p : Part) : (p.faultMark ch x).csu.loadFault = p.csu.loadFault := by
  unfold Part.faultMark; (repeat' split) <;> simp
@[simp] theorem Part.faultMark_pinActive (ch : Channel) (x : ChannelMark) (p : Part) : (p.faultMark ch x).csu.pinActive = p.csu.pinActive := by
  unfold Part.faultMark; (repeat' split) <;> simp
@[simp] theorem Part.faultMark_commandHold (ch : Channel) (x : ChannelMark) (p : Part) : (p.faultMark ch x).csu.commandHold = p.csu.commandHold := by
  unfold Part.faultMark; (repeat' split) <;> simp
@[simp] theorem Part.faultMark_lastResult (ch : Channel) (x : ChannelMark) (p : Part) : (p.faultMark ch x).csu.lastResult = p.csu.lastResult := by
  unfold Part.faultMark; (repeat' split) <;> simp
@[simp] theorem Part.faultMark_commandCount (ch : Channel) (x : ChannelMark) (p : Part) : (p.faultMark ch x).csu.commandCount = p.csu.commandCount := by
  unfold Part.faultMark; (repeat' split) <;> simp
@[simp] theorem Part.faultMark_periodicSince (ch : Channel) (x : ChannelMark) (p : Part) : (p.faultMark ch x).csu.periodicSince = p.csu.periodicSince := by
  unfold Part.faultMark; (repeat' split) <;> simp
@[simp] theorem Part.faultMark_load (ch : Channel) (x : ChannelMark) (p : Part) : (p.faultMark ch x).csu.load = p.csu.load := by
  unfold Part.faultMark; (repeat' split) <;> simp

/-! ## The marks -/

@[simp] theorem Part.requestForMarks_marks (p : Part) : p.requestForMarks.csu.marks = p.csu.marks := by
  simp [Part.requestForMarks]
@[simp] theorem Part.markNewlySet_marks (p : Part) : p.markNewlySet.csu.marks = p.csu.marks := by
  unfold Part.markNewlySet; (repeat' split) <;> simp

theorem addMark_of_has {m : MarkSet} {x : ChangeMark} (h : hasMark m x = true) : addMark m x = m := by
  cases m; cases x <;> simp_all [hasMark, addMark]

/-- Setting a mark leaves the marks with it added (R181). -/
@[simp] theorem Part.setMark_marks (m : ChangeMark) (p : Part) : (p.setMark m).csu.marks = addMark p.csu.marks m := by
  unfold Part.setMark
  split
  · rename_i h; exact (addMark_of_has h).symm
  · simp

/-! ## The totals: only a WHEEL frame that is dropped counts there (R64, R157) -/

theorem Part.leftUnsent_totals (e : TxEntry) (p : Part) : (p.leftUnsent e).vcl.totals = p.vcl.totals := by
  unfold Part.leftUnsent; (repeat' split) <;> rfl

theorem Part.placeEntry_totals {e : TxEntry} (h : e.content.kind ≠ .wheel) (p : Part) :
    (p.placeEntry e).vcl.totals = p.vcl.totals := by
  unfold Part.placeEntry
  repeat' split
  all_goals simp_all [Part.leftUnsent_totals]

theorem Part.enterList_totals {c : TxContent} (h : c.kind ≠ .wheel) (p : Part) (t : SiteTime) :
    (p.enterList c t).vcl.totals = p.vcl.totals := by
  unfold Part.enterList
  split
  · rfl
  · cases c <;> simp only <;> (repeat' split) <;>
      first | exact absurd rfl h | exact Part.placeEntry_totals h _ | simp

@[simp] theorem Part.offerVehicle_totals (p : Part) : p.offerVehicle.vcl.totals = p.vcl.totals := by
  unfold Part.offerVehicle
  repeat' split
  · rfl
  · rfl
  · rw [Part.enterList_totals (by simp [TxContent.kind])]; rfl

theorem Part.handFrame_totals {c : TxContent} (h : c.kind ≠ .wheel) (p : Part) : (p.handFrame c).vcl.totals = p.vcl.totals := by
  simp [Part.handFrame, Part.enterList_totals h]

@[simp] theorem Part.handTime_totals (p : Part) : p.handTime.vcl.totals = p.vcl.totals := Part.handFrame_totals (by decide) p
@[simp] theorem Part.requestStatus_totals (p : Part) : p.requestStatus.vcl.totals = p.vcl.totals :=
  Part.handFrame_totals (by decide) p
@[simp] theorem Part.requestForMarks_totals (p : Part) : p.requestForMarks.vcl.totals = p.vcl.totals := by
  simp [Part.requestForMarks]
@[simp] theorem Part.markNewlySet_totals (p : Part) : p.markNewlySet.vcl.totals = p.vcl.totals := by
  unfold Part.markNewlySet; (repeat' split) <;> simp
@[simp] theorem Part.setMark_totals (m : ChangeMark) (p : Part) : (p.setMark m).vcl.totals = p.vcl.totals := by
  unfold Part.setMark; (repeat' split) <;> simp
@[simp] theorem Part.faultMark_totals (ch : Channel) (x : ChannelMark) (p : Part) :
    (p.faultMark ch x).vcl.totals = p.vcl.totals := by
  unfold Part.faultMark; (repeat' split) <;> simp

/-! ## The frame of an operation -/

theorem Part.changedOnly_refl (l : List Block) (p : Part) : p.changedOnly l p :=
  ⟨rfl, rfl, fun k _ => by cases k <;> rfl⟩

theorem Part.changedOnly.trans {l : List Block} {a b c : Part} (h1 : a.changedOnly l b) (h2 : b.changedOnly l c) :
    a.changedOnly l c := by
  obtain ⟨x1, y1, z1⟩ := h1
  obtain ⟨x2, y2, z2⟩ := h2
  refine ⟨x2.trans x1, y2.trans y1, fun k hk => ?_⟩
  have u := z1 k hk
  have v := z2 k hk
  cases k <;> exact Eq.trans v u

theorem Part.changedOnly.mono {l m : List Block} {a b : Part} (h : a.changedOnly l b) (hm : ∀ k ∈ l, k ∈ m) :
    a.changedOnly m b :=
  ⟨h.1, h.2.1, fun k hk => h.2.2 k fun hl => hk (hm k hl)⟩

end Sys2Proof.Machine
end

