-- ==== Sys2Proof/Laws/Reports.lean ====
section
/-! SUPPORT. What a report to the outputs can change beside them, said once for every operation of the TOU that a report reaches:
TRIG flags, in the open vehicle when it has the report's tag, else in a record. -/

set_option Elab.async false

namespace Sys2Proof.Machine

/-- The frame of a report: of the VAU the open vehicle alone, of the VCL the records alone. -/
structure Part.ReportFrame (a b : Part) : Prop where
  vau : b.vau = { a.vau with vehicle := b.vau.vehicle }
  vcl : b.vcl = { a.vcl with records := b.vcl.records }

/-- Flags that differ in TRIG flags alone. -/
def trigApart (f g : VehicleFlags) : Prop :=
  g = { f with trigLate := g.trigLate, trigMerged := g.trigMerged, trigMissed := g.trigMissed }

theorem trigApart_refl (f : VehicleFlags) : trigApart f f := rfl

theorem trigApart.trans {f g h : VehicleFlags} (x : trigApart f g) (y : trigApart g h) : trigApart f h := by
  unfold trigApart at *; rw [y, x]

theorem addTrig_apart (f : VehicleFlags) (x : TrigFlag) : trigApart f (addTrig f x) := by cases x <;> rfl

/-- The frame of a report that carries the open vehicle's tag: of the VAU that vehicle's TRIG flags alone, of the VCL nothing. -/
def Part.OwnReportFrame (tag : Count16) (a b : Part) : Prop :=
  ∀ v, a.vau.vehicle = some v → v.tag = tag →
    (∃ f, trigApart v.flags f ∧ b.vau = { a.vau with vehicle := some { v with flags := f } }) ∧ b.vcl = a.vcl

namespace Part.ReportFrame

variable {a b c : Part}

theorem refl (p : Part) : p.ReportFrame p := ⟨rfl, rfl⟩

theorem trans (h : a.ReportFrame b) (k : b.ReportFrame c) : a.ReportFrame c :=
  ⟨by rw [k.vau, h.vau], by rw [k.vcl, h.vcl]⟩

theorem port (h : a.ReportFrame b) : b.vau.port = a.vau.port := by rw [h.vau]

theorem walk (h : a.ReportFrame b) : b.vcl.walk = a.vcl.walk := by rw [h.vcl]

theorem totals (h : a.ReportFrame b) : b.vcl.totals = a.vcl.totals := by rw [h.vcl]

theorem modOutput (o : Output) (f : OutputState → OutputState) (p : Part) : p.ReportFrame (p.modOutput o f) := ⟨rfl, rfl⟩

theorem reportTrig (x : TrigFlag) (tag : Count16) (p : Part) : p.ReportFrame (p.reportTrig x tag) := by
  unfold Part.reportTrig
  repeat' split
  all_goals exact ⟨rfl, rfl⟩

theorem fire (o : Output) (tag : Count16) (p : Part) : p.ReportFrame (p.fire o tag) := by
  simp only [Part.fire]
  split
  · exact (modOutput o _ p).trans (reportTrig _ _ _)
  · exact modOutput o _ p

theorem makeFiring (o : Output) (r : Timing) (p : Part) : p.ReportFrame (p.makeFiring o r) := by
  simp only [Part.makeFiring]
  repeat' split
  all_goals
    first
    | exact reportTrig _ _ p
    | exact (reportTrig _ _ p).trans (fire _ _ _)
    | exact fire _ _ p
    | exact modOutput _ _ p

theorem toOutputs {f : Output → Part → Part} (h : ∀ (o : Output) (p : Part), p.ReportFrame (f o p)) (p : Part) :
    p.ReportFrame (p.toOutputs f) := by
  unfold Part.toOutputs
  split
  · exact ((h _ _).trans (h _ _)).trans (h _ _)
  · exact refl p

theorem frontReport (r : Timing) (p : Part) : p.ReportFrame (p.frontReport r) :=
  Part.ReportFrame.toOutputs (fun o p => by
    simp only [Part.frontOn]
    repeat' split
    all_goals first | exact refl p | exact makeFiring _ _ p | exact modOutput _ _ p) p

theorem grossReport (r : Timing) (gross : Nat) (p : Part) : p.ReportFrame (p.grossReport r gross) :=
  Part.ReportFrame.toOutputs (fun o p => by
    simp only [Part.grossOn]
    repeat' split
    all_goals first | exact refl p | exact (modOutput _ _ p).trans (makeFiring _ _ _)) p

theorem classReport (r : Timing) (cls : Fin 32) (p : Part) : p.ReportFrame (p.classReport r cls) :=
  Part.ReportFrame.toOutputs (fun o p => by
    simp only [Part.classOn]
    repeat' split
    all_goals first | exact refl p | exact makeFiring _ _ p) p

end Part.ReportFrame

namespace Part.OwnReportFrame

variable {a b c : Part} {tag : Count16}

theorem refl (tag : Count16) (p : Part) : p.OwnReportFrame tag p := fun v hv _ =>
  ⟨⟨v.flags, rfl, by rw [← hv]⟩, rfl⟩

theorem trans (h : a.OwnReportFrame tag b) (k : b.OwnReportFrame tag c) : a.OwnReportFrame tag c := by
  intro v hv ht
  obtain ⟨⟨f, hf, e1⟩, e2⟩ := h v hv ht
  obtain ⟨⟨g, hg, e3⟩, e4⟩ := k { v with flags := f } (by rw [e1]) ht
  exact ⟨⟨g, hf.trans hg, by rw [e3, e1]⟩, e4.trans e2⟩

theorem modOutput (o : Output) (f : OutputState → OutputState) (p : Part) : p.OwnReportFrame tag (p.modOutput o f) :=
  refl tag p

theorem reportTrig (x : TrigFlag) (p : Part) : p.OwnReportFrame tag (p.reportTrig x tag) := by
  intro v hv ht
  simp only [Part.reportTrig, hv, ht, if_true]
  exact ⟨⟨_, addTrig_apart _ _, rfl⟩, rfl⟩

theorem fire (o : Output) (p : Part) : p.OwnReportFrame tag (p.fire o tag) := by
  simp only [Part.fire]
  split
  · exact (modOutput o _ p).trans (reportTrig _ _)
  · exact modOutput o _ p

theorem makeFiring (o : Output) (r : Timing) (p : Part) : p.OwnReportFrame r.tag (p.makeFiring o r) := by
  simp only [Part.makeFiring]
  repeat' split
  all_goals
    first
    | exact reportTrig _ p
    | exact (reportTrig _ p).trans (fire _ _)
    | exact fire _ p
    | exact modOutput _ _ p

theorem toOutputs {f : Output → Part → Part} (h : ∀ (o : Output) (p : Part), p.OwnReportFrame tag (f o p)) (p : Part) :
    p.OwnReportFrame tag (p.toOutputs f) := by
  unfold Part.toOutputs
  split
  · exact ((h _ _).trans (h _ _)).trans (h _ _)
  · exact refl tag p

theorem grossReport (r : Timing) (gross : Nat) (p : Part) : p.OwnReportFrame r.tag (p.grossReport r gross) :=
  Part.OwnReportFrame.toOutputs (fun o p => by
    simp only [Part.grossOn]
    repeat' split
    all_goals first | exact refl _ p | exact (modOutput _ _ p).trans (makeFiring _ _ _)) p

theorem frontReport (r : Timing) (p : Part) : p.OwnReportFrame r.tag (p.frontReport r) :=
  Part.OwnReportFrame.toOutputs (fun o p => by
    simp only [Part.frontOn]
    repeat' split
    all_goals first | exact refl _ p | exact makeFiring _ _ p) p

end Part.OwnReportFrame

end Sys2Proof.Machine
end

