-- ==== Sys2Proof/Laws/Sampling.lean ====
section
/-! SUPPORT. What the work of a sampling instant leaves alone, said once for every operation of the LCU and the PSE: the reset pin,
the own clock, site time, the outputs, the station state with what is loaded, and the instant itself. At the end, when a conversion completes, and when a frame starts, of itself. -/

set_option Elab.async false

namespace Sys2Proof.Machine

/-- The frame of the work of a sampling instant. -/
structure Part.SampleFrame (a b : Part) : Prop where
  rstLow : b.rstLow = a.rstLow
  clock : b.clock = a.clock
  stu : b.stu = a.stu
  tou : b.tou = a.tou
  station : b.csu.station = a.csu.station
  image : b.csu.image = a.csu.image
  block : b.csu.block = a.csu.block
  load : b.csu.load = a.csu.load
  lastSample : b.lcu.lastSample = a.lcu.lastSample
  stamp : b.lcu.stamp = a.lcu.stamp
  inputs : b.lcu.inputs = a.lcu.inputs

namespace Part.SampleFrame

variable {a b p : Part}

theorem refl (p : Part) : p.SampleFrame p := ⟨rfl, rfl, rfl, rfl, rfl, rfl, rfl, rfl, rfl, rfl, rfl⟩

theorem trans {c : Part} (h : a.SampleFrame b) (k : b.SampleFrame c) : a.SampleFrame c :=
  ⟨k.1.trans h.1, k.2.trans h.2, k.3.trans h.3, k.4.trans h.4, k.5.trans h.5, k.6.trans h.6, k.7.trans h.7, k.8.trans h.8,
    k.9.trans h.9, k.10.trans h.10, k.11.trans h.11⟩

/-- The station works after it exactly when it worked before. -/
theorem working (h : a.SampleFrame b) : b.working = a.working := by
  unfold Part.working
  rw [h.station, h.image]

/-- The sample time is one throughout it (R1). -/
theorem sampleTime (h : a.SampleFrame b) : b.sampleTime = a.sampleTime := by
  unfold Part.sampleTime Part.now
  rw [h.stamp, h.clock, h.stu]

theorem modChannel (ch : Channel) (f : ChannelRecord → ChannelRecord) (p : Part) : p.SampleFrame (p.modChannel ch f) :=
  ⟨rfl, rfl, rfl, rfl, rfl, rfl, rfl, rfl, rfl, rfl, rfl⟩

theorem modPse (f : Pse → Pse) (p : Part) : p.SampleFrame (p.modPse f) := ⟨rfl, rfl, rfl, rfl, rfl, rfl, rfl, rfl, rfl, rfl, rfl⟩

theorem modTotals (f : Totals → Totals) (p : Part) : p.SampleFrame (p.modTotals f) :=
  ⟨rfl, rfl, rfl, rfl, rfl, rfl, rfl, rfl, rfl, rfl, rfl⟩

theorem setMark (m : ChangeMark) (p : Part) : p.SampleFrame (p.setMark m) := by constructor <;> simp

theorem faultMark (ch : Channel) (x : ChannelMark) (p : Part) : p.SampleFrame (p.faultMark ch x) := by
  unfold Part.faultMark
  split
  · exact refl p
  · exact (modChannel ch _ p).trans (setMark _ _)

theorem seenNotice (ch : Channel) (p : Part) : p.SampleFrame (p.seenNotice ch) := modChannel ch _ p

theorem missedNotice (ch : Channel) (p : Part) : p.SampleFrame (p.missedNotice ch) := by
  simp only [Part.missedNotice]
  repeat' split
  · exact (modChannel ch _ p).trans (faultMark ch _ _)
  · exact modChannel ch _ p
  · exact refl p

theorem performCheck (c : Check) (p : Part) : p.SampleFrame (p.performCheck c) := by
  simp only [Part.performCheck]
  split
  · exact (seenNotice _ p).trans (seenNotice _ _)
  · exact (seenNotice _ p).trans (missedNotice _ _)
  · exact (missedNotice _ p).trans (seenNotice _ _)
  · exact refl p

theorem placeCheck (c : Check) (p : Part) : p.SampleFrame (p.placeCheck c) := by
  unfold Part.placeCheck
  refine trans ?_ (modPse _ _)
  repeat' split
  · exact refl p
  · exact refl p
  · exact (modPse _ p).trans (performCheck _ _)

theorem performDue (now : SiteTime) (n : Nat) : ∀ p : Part, p.SampleFrame (p.performDue now n) := by
  induction n with
  | zero => exact refl
  | succ n ih =>
    intro p
    simp only [Part.performDue]
    repeat' split
    · exact refl p
    · exact ((modPse _ p).trans (performCheck _ _)).trans (ih _)
    · exact refl p

theorem dueChecks (now : SiteTime) (p : Part) : p.SampleFrame (p.dueChecks now) := performDue now _ p

theorem completeWheel (side : Side) (lead trail : Option Hit) (v : Option Nat) (now : SiteTime) (p : Part) :
    p.SampleFrame (p.completeWheel side lead trail v now) := by
  have h (w : Wheel) : p.SampleFrame (((((p.keepEffective p.effective).modPse fun u =>
      { u with wheelCounter := u.wheelCounter + 1 }).enterStore w).enterList (.wheel w) now).offerVehicle.enterIntake w now) := by
    constructor <;> simp
  unfold Part.completeWheel
  cases lead
  · exact h _
  · cases trail
    · exact h _
    · cases v
      · exact h _
      · exact (h _).trans (placeCheck _ _)

theorem orphanLead (side : Side) (now : SiteTime) (p : Part) (x : Hit) : p.SampleFrame (p.orphanLead side now x) :=
  completeWheel _ _ _ _ _ p

theorem foldl_orphanLead (side : Side) (now : SiteTime) (l : List Hit) :
    ∀ p : Part, p.SampleFrame (l.foldl (Part.orphanLead side now) p) := by
  induction l with
  | nil => exact refl
  | cons x xs ih => exact fun p => (orphanLead side now p x).trans (ih _)

theorem expireSide (side : Side) (now : SiteTime) (p : Part) : p.SampleFrame (p.expireSide side now) :=
  (modPse _ p).trans (foldl_orphanLead side now _ _)

theorem expireBoth (now : SiteTime) (p : Part) : p.SampleFrame (p.expireBoth now) :=
  (expireSide .left now p).trans (expireSide .right now _)

theorem takeLeading (x : Hit) (now : SiteTime) (p : Part) : p.SampleFrame (p.takeLeading x now) := by
  have h1 : p.SampleFrame (p.recordStart x) := modPse _ p
  simp only [Part.takeLeading]
  repeat' split
  · exact h1.trans (modPse _ _)
  · exact h1.trans (modPse _ _)
  · exact h1.trans (((modPse _ _).trans (orphanLead _ _ _ _)).trans (modPse _ _))

theorem takeTrailing (x : Hit) (now : SiteTime) (p : Part) : p.SampleFrame (p.takeTrailing x now) := by
  have h1 : p.SampleFrame (p.recordStart x) := modPse _ p
  have h2 := h1.trans (expireSide (channelSide x.channel) now _)
  simp only [Part.takeTrailing]
  split
  · exact h2.trans (((modPse _ _).trans (foldl_orphanLead _ _ _ _)).trans (completeWheel _ _ _ _ _ _))
  · exact h2.trans (((modPse _ _).trans (foldl_orphanLead _ _ _ _)).trans (completeWheel _ _ _ _ _ _))

theorem takeHit (x : Hit) (now : SiteTime) (p : Part) : p.SampleFrame (p.takeHit x now) := by
  unfold Part.takeHit
  split
  · exact takeLeading _ _ _
  · exact takeTrailing _ _ _

theorem disposeHit (x : Hit) (now : SiteTime) (p : Part) : p.SampleFrame (p.disposeHit x now) := by
  simp only [Part.disposeHit]
  repeat' split
  all_goals first | exact refl p | exact modTotals _ p | exact takeHit _ _ p

theorem sampleChannel (ch : Channel) (x : Sample) (p : Part) : p.SampleFrame (p.sampleChannel ch x) := by
  have h1 := modChannel ch (fun _ => (p.preview ch x).record) p
  have h2 := fun y => h1.trans (disposeHit y p.sampleTime _)
  simp only [Part.sampleChannel]
  repeat' split
  all_goals
    first
    | exact h1
    | exact h2 _
    | exact h1.trans (faultMark _ _ _)
    | exact (h2 _).trans (faultMark _ _ _)
    | exact (h1.trans (faultMark _ _ _)).trans (faultMark _ _ _)
    | exact ((h2 _).trans (faultMark _ _ _)).trans (faultMark _ _ _)

theorem sampleFour (x : PerChannel Sample) (p : Part) : p.SampleFrame (p.sampleFour x) :=
  (((sampleChannel .ll x.ll p).trans (sampleChannel .lr x.lr _)).trans (sampleChannel .tl x.tl _)).trans (sampleChannel .tr x.tr _)

theorem instantWork (p : Part) : p.SampleFrame p.instantWork := by
  unfold Part.instantWork
  split
  · exact (expireBoth _ p).trans (dueChecks _ _)
  · exact refl p

/-- A whole sampling instant, but for the instant and the inputs that it notes (R1). -/
theorem sampleAll (x : PerChannel Sample) (p : Part) : (p.markInstant x).SampleFrame (p.sampleAll x) :=
  (sampleFour x _).trans (instantWork _)

end Part.SampleFrame

/-! ## The sample time of an instant (R1; log 7) -/

/-- All that reading the sample time does. -/
theorem Part.readTime_eq (p : Part) :
    p.readTime = { p with lcu := { p.lcu with stamp := some { instant := p.clock, time := p.sampleTime } } } := rfl

/-- Reading the sample time does not change it. -/
@[simp] theorem Part.readTime_sampleTime (p : Part) : p.readTime.sampleTime = p.sampleTime := by
  simp [Part.readTime, Part.sampleTime, Part.modLcu]

/-- Until it is read for this instant, the sample time is the site time. -/
theorem Part.sampleTime_of_unread {p : Part} (h : ∀ x, p.lcu.stamp = some x → x.instant ≠ p.clock) : p.sampleTime = p.now := by
  unfold Part.sampleTime
  split <;> rename_i hs
  · rw [if_neg (h _ hs)]
  · rfl

/-- Once read, it stays for this instant, however site time is stepped. -/
theorem Part.sampleTime_of_read {p : Part} {x : SampleStamp} (hs : p.lcu.stamp = some x) (h : x.instant = p.clock) :
    p.sampleTime = x.time := by
  simp [Part.sampleTime, hs, h]

/-- The PSE's work on its own, where something is due at an instant in RUN. -/
theorem Part.workAt_due {p : Part} {due : SiteTime → Part → Bool} (work : SiteTime → Part → Part) (hr : p.inRun = true)
    (hi : p.atInstant = true) (hd : due p.sampleTime p = true) : p.workAt due work = work p.sampleTime p.readTime := by
  simp [Part.workAt, hr, hi, hd]

/-- The PSE's work on its own, outside RUN, outside an instant, or with nothing due. -/
theorem Part.workAt_idle {p : Part} {due : SiteTime → Part → Bool} (work : SiteTime → Part → Part)
    (h : p.inRun = false ∨ p.atInstant = false ∨ due p.sampleTime p = false) : p.workAt due work = p := by
  rcases h with h | h | h <;> simp [Part.workAt, h]

/-! ## Conversions that complete of themselves (R43; log 43) -/

@[simp] theorem Part.noteCode_ptu (pr : Probe) (code : BitVec 16) (p : Part) :
    (p.noteCode pr code).ptu = { p.ptu with codes := p.ptu.codes.set pr code } := rfl

/-- When the part has a result code to take, and which. -/
theorem Part.codeDue_eq_some {p : Part} {code : BitVec 16} :
    p.codeDue = some code ↔ ∃ pr t, p.ptu.converter = .convert pr t ∧ p.working = true ∧ t + convertTime ≤ p.clock ∧
      p.ptu.codes.get pr = code := by
  unfold Part.codeDue
  split <;> rename_i hc <;> simp [hc, elapsed, and_assoc]

/-- Where no event of the part is due, no conversion has reached its 80 ms: the own clock never passes the end of one. -/
theorem Part.convert_clock_lt {p : Part} {pr : Probe} {t : Nat} (hr : p.rstLow = false) (hd : p.dueCommand = none)
    (hw : p.working = true) (hc : p.ptu.converter = .convert pr t) : p.clock < t + convertTime := by
  by_contra h
  have hs : p.codeDue = some (p.ptu.codes.get pr) := Part.codeDue_eq_some.2 ⟨pr, t, hc, hw, by omega, rfl⟩
  simp [Part.dueCommand, hr, Part.ownEvents, hs] at hd

/-! ## When a frame starts (R59, R65, R69) -/

@[simp] theorem LineState.usedUntil_since (t : Nat) (l : LineState) : (l.usedUntil t).since = t := by cases l <;> rfl

theorem Part.lineRested_iff {p : Part} :
    p.lineRested = true ↔ p.sbc.line.since + quietInterval p.block.bitRate ≤ p.clock := by
  simp [Part.lineRested, elapsed]

theorem Part.mayStart_iff {p : Part} :
    p.mayStart = true ↔ p.usesLine = true ∧ p.sending = none ∧ p.sbc.following = none ∧
      p.sbc.line.since + quietInterval p.block.bitRate ≤ p.clock := by
  simp [Part.mayStart, Part.lineRested_iff, and_assoc]

/-- The receiver ignores the line exactly while the quiet interval since a length byte above 120 has not passed. -/
theorem Part.lineIgnored_iff {p : Part} :
    p.lineIgnored = true ↔ ∃ t, p.sbc.line = .ignored t ∧ p.clock < t + quietInterval p.block.bitRate := by
  unfold Part.lineIgnored
  split <;> rename_i hl <;> simp [hl, Part.lineRested, elapsed, LineState.since]

/-- A sign of use leaves the SBC a whole quiet interval to wait. -/
theorem Part.hearUse_not_rested (p : Part) : p.hearUse.lineRested = false := by
  have h : 0 < quietInterval p.block.bitRate := by cases p.block.bitRate <;> decide
  have hw : p.hearUse.lineRested = elapsed p.clock p.clock (quietInterval p.block.bitRate) := by
    show elapsed p.clock (p.sbc.line.usedUntil p.clock).since _ = _
    rw [LineState.usedUntil_since]
    rfl
  rw [hw]
  exact decide_eq_false (by omega)

/-- Where no event of the part is due, no frame that could start waits: the own clock never passes a would-be start. -/
theorem Part.rest_clock_lt {p : Part} (hr : p.rstLow = false) (hd : p.dueCommand = none) (hu : p.usesLine = true)
    (hs : p.sending = none) (hf : p.sbc.following = none) (hl : p.sbc.list ≠ []) :
    p.clock < p.sbc.line.since + quietInterval p.block.bitRate := by
  by_contra h
  have hm : p.startDue = true := by simp [Part.startDue, Part.mayStart_iff.2 ⟨hu, hs, hf, by omega⟩, hl]
  simp [Part.dueCommand, hr, Part.ownEvents, hm] at hd

end Sys2Proof.Machine
end

