-- ==== Sys2Proof/Laws/Sound.lean ====
section
/-! SUPPORT. Soundness (Safety.lean) is kept by the operations that change one block, and by those of the transmit list and the
marks that every other operation goes through. -/

set_option Elab.async false

namespace Sys2Proof.Machine

/-! ## One block at a time -/

namespace Part.Sound

variable {p : Part}

theorem modLcu (h : p.Sound) {f : Lcu → Lcu} (hf : (f p.lcu).Sound p.csu.image p.clock) : (p.modLcu f).Sound :=
  { h with lcu := hf }
theorem modPse (h : p.Sound) {f : Pse → Pse} (hf : (f p.pse).Fits) : (p.modPse f).Sound := { h with pse := hf }
theorem modPtu (h : p.Sound) {f : Ptu → Ptu} (hf : (f p.ptu).Sound p.csu) : (p.modPtu f).Sound := { h with ptu := hf }
theorem modSbc (h : p.Sound) {f : Sbc → Sbc} (hf : (f p.sbc).Fits) : (p.modSbc f).Sound := { h with sbc := hf }
theorem modStu (h : p.Sound) {f : Stu → Stu} (hf : (f p.stu).Fits) : (p.modStu f).Sound := { h with stu := hf }
theorem modVau (h : p.Sound) {f : Vau → Vau} (hf : (f p.vau).Fits) : (p.modVau f).Sound := { h with vau := hf }
theorem modVcl (h : p.Sound) {f : Vcl → Vcl} (hf : (f p.vcl).Fits) : (p.modVcl f).Sound := { h with vcl := hf }
theorem modTou (h : p.Sound) {f : Tou → Tou} (hf : (f p.tou).Fits) : (p.modTou f).Sound := { h with tou := hf }
theorem modTotals (h : p.Sound) {f : Totals → Totals} : (p.modTotals f).Sound := { h with vcl := { h.vcl with } }

/-- The CSU changes, the image and the STATION block in use stay. -/
theorem modCsu (h : p.Sound) {f : Csu → Csu} (hf : (f p.csu).Sound) (hi : (f p.csu).image = p.csu.image)
    (hb : (f p.csu).block = p.csu.block) : (p.modCsu f).Sound :=
  { h with
    csu := hf
    lcu := by simpa only [Part.modCsu_csu, Part.modCsu_lcu, Part.modCsu_clock, hi] using h.lcu
    ptu := { h.ptu with others := by simpa only [Part.modCsu_csu, Part.modCsu_ptu, hi, hb] using h.ptu.others } }

theorem modProbe (h : p.Sound) {pr : Probe} {f : ProbeState → ProbeState}
    (hf : (p.ptu.probes.get pr).InRange → (f (p.ptu.probes.get pr)).InRange) : (p.modProbe pr f).Sound :=
  h.modPtu { h.ptu with
    probes := fun x => by
      have := h.ptu.probes x
      cases pr <;> cases x <;> first | exact hf this | exact this }

/-- One channel's record changes. -/
theorem modChannel (h : p.Sound) {ch : Channel} {f : ChannelRecord → ChannelRecord}
    (hf : (p.lcu.channels.get ch).Sound p.csu.image → (f (p.lcu.channels.get ch)).Sound p.csu.image) :
    (p.modChannel ch f).Sound :=
  h.modLcu { h.lcu with
    channels := fun x => by
      have := h.lcu.channels x
      cases ch <;> cases x <;> first | exact hf this | exact this }

theorem modOutput (h : p.Sound) {o : Output} {f : OutputState → OutputState}
    (hf : (p.tou.outputs.get o).schedule.length ≤ 4 → (f (p.tou.outputs.get o)).schedule.length ≤ 4) :
    (p.modOutput o f).Sound := by
  obtain ⟨a, b, c⟩ := h.tou
  cases o <;> exact { h with tou := ⟨by first | exact hf a | exact a, by first | exact hf b | exact b,
    by first | exact hf c | exact c⟩ }

theorem requestPort (h : p.Sound) (r : Requester) : (p.requestPort r).Sound := by
  unfold Part.requestPort
  split
  · exact h
  · exact h.modVau { h.vau with }

theorem releasePort (h : p.Sound) : p.releasePort.Sound := h.modVau { h.vau with }

/-! ## The transmit list -/

theorem countDrop (h : p.Sound) : p.countDrop.Sound := h.modSbc { h.sbc with }
theorem countStaleWheel (h : p.Sound) : p.countStaleWheel.Sound := h.modTotals

theorem handBack (h : p.Sound) (seq : Count16) : (p.handBack seq).Sound :=
  h.modVcl { h.vcl with
    records := by simpa using h.vcl.records
    axles := fun r hr => by
      obtain ⟨x, hx, rfl⟩ := List.mem_map.mp hr
      have := h.vcl.axles x hx
      split <;> exact this }

theorem leftUnsent (h : p.Sound) (e : TxEntry) : (p.leftUnsent e).Sound := by
  unfold Part.leftUnsent
  split <;> first | exact h | exact h.handBack _

/-- A kind code above 0 that is less than the least urgent one belongs to a waiting entry. -/
theorem waiting_of_lt {l : List TxEntry} {k : Nat} (h : k < leastUrgent l) : l.any (waitingOfKind (leastUrgent l)) = true := by
  have aux : ∀ l : List TxEntry, leastUrgent l ≠ 0 → ∃ e ∈ l, e.inTransmission = false ∧ e.code = leastUrgent l := by
    intro l
    induction l with
    | nil => intro h; exact absurd rfl h
    | cons e es ih =>
      intro hne
      simp only [leastUrgent] at hne ⊢
      split
      · rename_i ht
        simp only [ht, if_true] at hne
        obtain ⟨x, hx, h1, h2⟩ := ih hne
        exact ⟨x, List.mem_cons_of_mem _ hx, h1, h2⟩
      · rename_i ht
        by_cases hm : leastUrgent es ≤ e.code
        · exact ⟨e, List.mem_cons_self .., by simpa using ht, by omega⟩
        · have : leastUrgent es ≠ 0 := by omega
          obtain ⟨x, hx, h1, h2⟩ := ih this
          exact ⟨x, List.mem_cons_of_mem _ hx, h1, by omega⟩
  obtain ⟨e, he, h1, h2⟩ := aux l (by omega)
  exact List.any_eq_true.mpr ⟨e, he, by simp [waitingOfKind, h1, h2]⟩

end Part.Sound

/-! ## The order of the transmit list -/

theorem insertBefore_perm {α : Type} (f : α → Bool) (x : α) (l : List α) : (insertBefore f x l).Perm (x :: l) := by
  induction l with
  | nil => exact .refl _
  | cons y ys ih =>
    simp only [insertBefore]
    split
    · exact .refl _
    · exact (ih.cons y).trans (.swap x y ys)

theorem mem_insertBefore {α : Type} {f : α → Bool} {x y : α} {l : List α} : y ∈ insertBefore f x l ↔ y = x ∨ y ∈ l := by
  rw [(insertBefore_perm f x l).mem_iff, List.mem_cons]

theorem dropFirst_sublist {α : Type} (f : α → Bool) (l : List α) : (dropFirst f l).Sublist l := by
  induction l with
  | nil => exact .refl _
  | cons y ys ih =>
    simp only [dropFirst]
    split
    · exact List.sublist_cons_self _ _
    · exact ih.cons_cons y

theorem dropNewest_sublist {α : Type} (f : α → Bool) (l : List α) : (dropNewest f l).Sublist l := by
  have := (dropFirst_sublist f l.reverse).reverse
  rwa [List.reverse_reverse] at this

/-- A new entry takes its place in order when its place is free and it is not in transmission (R63). -/
theorem insertByKind_order {e : TxEntry} {l : List TxEntry} (hl : l.Pairwise TxEntry.Before) (ht : e.inTransmission = false)
    (hs : ∀ x ∈ l, e.content.slot = none ∨ e.content.slot ≠ x.content.slot) : (insertByKind e l).Pairwise TxEntry.Before := by
  induction l with
  | nil => simp [insertByKind, insertBefore]
  | cons y ys ih =>
    have hy : ∀ {x}, x ∈ ys → TxEntry.Before y x := fun hx => List.rel_of_pairwise_cons hl hx
    simp only [insertByKind, insertBefore]
    split
    · rename_i hlt
      have hlt : e.code < y.code := by simpa using hlt
      refine List.Pairwise.cons (fun x hx => ⟨?_, hs x hx, by simp [ht]⟩) hl
      rcases List.mem_cons.mp hx with rfl | hx
      · exact hlt.le
      · exact hlt.le.trans (hy hx).urgent
    · rename_i hlt
      have hle : y.code ≤ e.code := by simpa using hlt
      refine List.Pairwise.cons (fun x hx => ?_) (ih hl.of_cons fun x hx => hs x (List.mem_cons_of_mem _ hx))
      rcases mem_insertBefore.mp hx with rfl | hx
      · refine ⟨hle, ?_, by simp [ht]⟩
        rcases hs y List.mem_cons_self with h | h
        · by_cases hy0 : y.content.slot = none
          · exact .inl hy0
          · exact .inr (by rw [h]; exact hy0)
        · exact .inr (Ne.symm h)
      · exact hy hx

/-- An element of a list one of whose elements was changed. -/
theorem mem_changeFirst {α : Type} {f : α → Bool} {g : α → α} {l : List α} {x : α} (hx : x ∈ changeFirst f g l) :
    x ∈ l ∨ ∃ e ∈ l, f e = true ∧ x = g e := by
  induction l with
  | nil => exact .inl hx
  | cons y ys ih =>
    simp only [changeFirst] at hx
    split at hx
    · rename_i hf
      rcases List.mem_cons.mp hx with rfl | hx
      · exact .inr ⟨y, List.mem_cons_self, hf, rfl⟩
      · exact .inl (List.mem_cons_of_mem _ hx)
    · rcases List.mem_cons.mp hx with rfl | hx
      · exact .inl List.mem_cons_self
      · rcases ih hx with h | ⟨e, he, h1, h2⟩
        · exact .inl (List.mem_cons_of_mem _ h)
        · exact .inr ⟨e, List.mem_cons_of_mem _ he, h1, h2⟩

/-- A change of one entry that keeps its kind and its place, and does not start it, keeps the order. -/
theorem changeFirst_order {f : TxEntry → Bool} {g : TxEntry → TxEntry} {l : List TxEntry} (hl : l.Pairwise TxEntry.Before)
    (hc : ∀ e, f e = true → (g e).code = e.code) (hs : ∀ e, f e = true → (g e).content.slot = e.content.slot)
    (ht : ∀ e, f e = true → (g e).inTransmission = true → e.inTransmission = true) :
    (changeFirst f g l).Pairwise TxEntry.Before := by
  induction l with
  | nil => exact hl
  | cons y ys ih =>
    have hy : ∀ {x}, x ∈ ys → TxEntry.Before y x := fun hx => List.rel_of_pairwise_cons hl hx
    simp only [changeFirst]
    split
    · rename_i hf
      refine List.Pairwise.cons (fun x hx => ?_) hl.of_cons
      obtain ⟨a, b, c⟩ := hy hx
      exact ⟨by rwa [hc y hf], by rwa [hs y hf], fun h => c ⟨ht y hf h.1, h.2⟩⟩
    · refine List.Pairwise.cons (fun x hx => ?_) (ih hl.of_cons)
      rcases mem_changeFirst hx with h | ⟨e, he, hf, rfl⟩
      · exact hy h
      · obtain ⟨a, b, c⟩ := hy he
        exact ⟨by rwa [hc e hf], by rwa [hs e hf], fun h => c ⟨h.1, ht e hf h.2⟩⟩

theorem isTempOf_slot {probe : Probe} {e : TxEntry} : isTempOf probe e = true ↔ e.content.slot = some (.temp, some probe) := by
  cases hc : e.content <;> simp [isTempOf, hc, TxContent.slot]

theorem isTempOf_code {probe : Probe} {e : TxEntry} (h : isTempOf probe e = true) : e.code = 5 := by
  cases hc : e.content <;> simp [isTempOf, hc] at h ⊢
  simp [TxEntry.code, hc, TxContent.kind, FrameKind.code]

theorem stopEntry_slot (e : TxEntry) : (stopEntry e).content.slot = e.content.slot := by
  cases hc : e.content <;> cases hr : e.repeatTemp <;> simp [stopEntry, hc, hr, TxContent.slot]

theorem stopEntry_code (e : TxEntry) : (stopEntry e).code = e.code := by
  cases hc : e.content <;> cases hr : e.repeatTemp <;> simp [stopEntry, hc, hr, TxEntry.code, TxContent.kind]

/-- The list after a stop is the list with one entry stopped, or without it (R67, R68). -/
theorem stopList_cases (l : List TxEntry) :
    stopList l = changeFirst TxEntry.inTransmission stopEntry l ∨ (stopList l).Sublist l := by
  induction l with
  | nil => exact .inl rfl
  | cons e es ih =>
    simp only [stopList, changeFirst]
    split
    · split
      · exact .inr (List.sublist_cons_self _ _)
      · exact .inl rfl
    · rcases ih with h | h
      · exact .inl (by rw [h])
      · exact .inr (h.cons_cons e)

theorem stopList_length_le (l : List TxEntry) : (stopList l).length ≤ l.length := by
  rcases stopList_cases l with h | h
  · rw [h, changeFirst_length]
  · exact h.length_le

theorem stopList_order {l : List TxEntry} (hl : l.Pairwise TxEntry.Before) : (stopList l).Pairwise TxEntry.Before := by
  rcases stopList_cases l with h | h
  · rw [h]
    exact changeFirst_order hl (fun e _ => stopEntry_code e) (fun e _ => stopEntry_slot e)
      (fun e _ ht => by simp [stopEntry] at ht)
  · exact hl.sublist h

/-- An entry of a kind's own place is of that kind. -/
theorem slot_of_kind {e : TxEntry} {k : FrameKind} (hk : k = .time ∨ k = .vehicle ∨ k = .status ∨ k = .totals) :
    e.content.slot = some (k, none) ↔ e.content.kind = k := by
  rcases hk with rfl | rfl | rfl | rfl <;> cases hc : e.content <;> simp [TxContent.slot, TxContent.kind]

namespace Part.Sound

variable {p : Part}

theorem placeEntry (h : p.Sound) (e : TxEntry) (ht : e.inTransmission = false)
    (hs : ∀ x ∈ p.sbc.list, e.content.slot = none ∨ e.content.slot ≠ x.content.slot) : (p.placeEntry e).Sound := by
  unfold Part.placeEntry
  split
  · rename_i hl
    exact h.modSbc { h.sbc with
      list := by simp only [insertByKind, insertBefore_length]; omega
      order := insertByKind_order h.sbc.order ht hs }
  · split
    · rename_i hl hk
      have hw := waiting_of_lt hk
      have hd := dropNewest_length hw
      have hsub := dropNewest_sublist (waitingOfKind (leastUrgent p.sbc.list)) p.sbc.list
      have hfit : ∀ q : Part, q.Sound → q.sbc = p.sbc → (q.modSbc fun b =>
          { b with list := insertByKind e (dropNewest (waitingOfKind (leastUrgent b.list)) b.list) }).Sound := by
        intro q hq he
        have hlen := h.sbc.list
        refine hq.modSbc { hq.sbc with list := ?_, order := ?_ }
        · simp only [he, insertByKind, insertBefore_length]; omega
        · simp only [he]
          exact insertByKind_order (h.sbc.order.sublist hsub) ht fun x hx => hs x (hsub.subset hx)
      split <;> rename_i x hx
      · exact countDrop (hfit _ (h.leftUnsent _) (by simp))
      · exact countDrop (hfit _ h rfl)
    · have := (h.leftUnsent e).countDrop
      simp only
      split
      · exact this.countStaleWheel
      · exact this

/-- The list takes a frame or request; a VEHICLE frame only while it holds none (R63). -/
theorem enterList (h : p.Sound) (c : TxContent) (t : SiteTime)
    (hv : c.kind = .vehicle → ∀ x ∈ p.sbc.list, x.content.kind ≠ .vehicle) : (p.enterList c t).Sound := by
  unfold Part.enterList
  split
  · exact h
  · cases c with
    | wheel w => exact h.placeEntry _ rfl fun _ _ => .inl rfl
    | vehicle seq =>
      exact h.placeEntry _ rfl fun x hx => .inr fun he =>
        hv rfl x hx ((slot_of_kind (.inr (.inl rfl))).mp (he.symm.trans rfl))
    | time =>
      simp only
      split
      · exact h.countDrop
      · rename_i hn
        exact h.placeEntry _ rfl fun x hx => .inr fun he => hn
          (List.any_eq_true.mpr ⟨x, hx, by simpa using (slot_of_kind (.inl rfl)).mp (he.symm.trans rfl)⟩)
    | status =>
      simp only
      split
      · refine h.modSbc { h.sbc with list := by simpa using h.sbc.list, order := ?_ }
        exact changeFirst_order h.sbc.order (by intros; unfold mergeRequest; split <;> rfl)
          (by intros; unfold mergeRequest; split <;> rfl) (by intro e _; unfold mergeRequest; split <;> exact id)
      · rename_i hn
        exact h.placeEntry _ rfl fun x hx => .inr fun he => hn
          (List.any_eq_true.mpr ⟨x, hx, by simpa using (slot_of_kind (.inr (.inr (.inl rfl)))).mp (he.symm.trans rfl)⟩)
    | totals =>
      simp only
      split
      · refine h.modSbc { h.sbc with list := by simpa using h.sbc.list, order := ?_ }
        exact changeFirst_order h.sbc.order (by intros; unfold mergeRequest; split <;> rfl)
          (by intros; unfold mergeRequest; split <;> rfl) (by intro e _; unfold mergeRequest; split <;> exact id)
      · rename_i hn
        exact h.placeEntry _ rfl fun x hx => .inr fun he => hn
          (List.any_eq_true.mpr ⟨x, hx, by simpa using (slot_of_kind (.inr (.inr (.inr rfl)))).mp (he.symm.trans rfl)⟩)
    | temp probe c =>
      simp only
      split
      · refine h.modSbc { h.sbc with list := by simpa using h.sbc.list, order := ?_ }
        refine changeFirst_order h.sbc.order (fun e he => ?_) (fun e he => ?_) (fun e _ => ?_)
        · unfold mergeTemp; split
          · rfl
          · exact (isTempOf_code he).symm
        · unfold mergeTemp; split
          · rfl
          · exact (isTempOf_slot.mp he).symm
        · unfold mergeTemp; split <;> exact id
      · rename_i hn
        exact h.placeEntry _ rfl fun x hx => .inr fun he => hn
          (List.any_eq_true.mpr ⟨x, hx, isTempOf_slot.mpr (he.symm.trans rfl)⟩)

theorem offerVehicle (h : p.Sound) : p.offerVehicle.Sound := by
  unfold Part.offerVehicle
  split
  · exact h
  · rename_i hi
    split
    · exact h
    · refine Part.Sound.enterList (h.modVcl { h.vcl with
        records := by simpa using h.vcl.records
        axles := fun r hr => by
          rcases mem_changeFirst hr with hr | ⟨x, hx, -, rfl⟩
          · exact h.vcl.axles r hr
          · exact h.vcl.axles x hx }) _ _ fun _ x hx hk => ?_
      have hn : p.sbc.list.any (fun e => decide (e.content.kind = .vehicle)) = true :=
        List.any_eq_true.mpr ⟨x, hx, by simpa using hk⟩
      simp [Part.invitation, hn] at hi

theorem handFrame (h : p.Sound) (c : TxContent) (hv : c.kind ≠ .vehicle) : (p.handFrame c).Sound :=
  (h.enterList c _ fun he => absurd he hv).offerVehicle

theorem stopSending (h : p.Sound) : p.stopSending.Sound :=
  h.modSbc { h.sbc with
    list := (stopList_length_le _).trans h.sbc.list
    order := stopList_order h.sbc.order }

theorem foldl_leftUnsent (l : List TxEntry) : ∀ {p : Part}, p.Sound → (l.foldl (fun q e => q.leftUnsent e) p).Sound := by
  induction l with
  | nil => intro p h; exact h
  | cons e es ih => intro p h; exact ih (h.leftUnsent e)

theorem flushList (h : p.Sound) : p.flushList.Sound := by
  have h1 := foldl_leftUnsent p.sbc.list h
  exact h1.modSbc (f := fun b => { b with list := [], onLine := none, txCapture := none })
    { h1.sbc with list := Nat.zero_le _, order := .nil }

theorem dropWaitingWheels (h : p.Sound) : p.dropWaitingWheels.Sound :=
  Part.Sound.offerVehicle (h.modSbc { h.sbc with
    list := by
      have := List.length_filter_le (fun e => e.inTransmission || decide (e.content.kind ≠ .wheel)) p.sbc.list
      have := h.sbc.list
      simp only [holdList, List.length_map]
      omega
    order := List.pairwise_map.mpr ((h.sbc.order.sublist List.filter_sublist).imp fun hab => ⟨hab.urgent, hab.slot, hab.single⟩) })

/-! ## Marks -/

theorem requestStatus (h : p.Sound) : p.requestStatus.Sound := h.handFrame _ (by decide)

/-- The CSU stays sound while its station state, image, STATION block and read stand. -/
theorem modCsu_same (h : p.Sound) {f : Csu → Csu} (h1 : (f p.csu).station = p.csu.station) (h2 : (f p.csu).image = p.csu.image)
    (h3 : (f p.csu).block = p.csu.block) (h4 : (f p.csu).load = p.csu.load) : (p.modCsu f).Sound :=
  h.modCsu
    { legal := by have := h.csu.legal; simp only [Csu.legal, h1, h2, h3, h4] at this ⊢; exact this
      image := by simpa only [h2] using h.csu.image
      block := by simpa only [h3] using h.csu.block
      load := by simpa only [h4] using h.csu.load } h2 h3

theorem requestForMarks (h : p.Sound) : p.requestForMarks.Sound := (h.modCsu_same rfl rfl rfl rfl).requestStatus

theorem markNewlySet (h : p.Sound) : p.markNewlySet.Sound := by
  unfold Part.markNewlySet
  repeat' split
  all_goals first | exact h | exact h.requestForMarks | exact h.modCsu_same rfl rfl rfl rfl

theorem setMark (h : p.Sound) (m : ChangeMark) : (p.setMark m).Sound := by
  unfold Part.setMark
  split
  · exact h
  · exact (h.modCsu_same rfl rfl rfl rfl).markNewlySet

theorem faultMark (h : p.Sound) (ch : Channel) (x : ChannelMark) : (p.faultMark ch x).Sound := by
  unfold Part.faultMark
  split
  · exact h
  · exact Part.Sound.setMark (h.modChannel fun hc => { hc with
      range := { hc.range with }
      unended := fun i hi => { hc.unended i hi with }
      rest := fun hn => { hc.rest hn with } }) _

theorem reportTrig (h : p.Sound) (x : TrigFlag) (tag : Count16) : (p.reportTrig x tag).Sound := by
  have hrec : (p.modVcl fun v =>
      { v with records := changeNewest tag (fun r => { r with slotFlags := addTrig r.slotFlags x }) v.records }).Sound :=
    h.modVcl { h.vcl with
      records := by simpa [changeNewest] using h.vcl.records
      axles := fun r hr => by
        rcases mem_changeFirst (List.mem_reverse.mp hr) with hr | ⟨x, hx, -, rfl⟩
        · exact h.vcl.axles r (List.mem_reverse.mp hr)
        · exact h.vcl.axles x (List.mem_reverse.mp hx) }
  unfold Part.reportTrig
  repeat' split
  · rename_i veh hv _
    exact h.modVau { h.vau with axles := by rintro _ ⟨⟩; exact h.vau.axles veh hv }
  · exact hrec
  · exact hrec

end Part.Sound

end Sys2Proof.Machine
end

