-- ==== Sys2Proof/Laws/SoundImage.lean ====
section
/-! SUPPORT. A block of the image that passes its checks (R177) holds values within the ranges of Safety.lean. -/

set_option Elab.async false

namespace Sys2Proof.Machine

/-- A payload has no field out of range exactly when every check holds. -/
theorem firstBad_none {l : List FieldCheck} : firstBad l = none ↔ ∀ f ∈ l, f.2 = true := by
  simp [firstBad, List.find?_eq_none]

theorem byteAt_lt (b : List Byte) (i : Nat) : byteAt b i < 256 := by
  simp only [byteAt]
  exact BitVec.isLt _

theorem stationValues_inRange {b : List Byte} (h : firstBad (stationChecks b) = none) : (stationValues b).InRange := by
  have h := firstBad_none.mp h
  simp only [stationChecks, List.forall_mem_cons, within, Bool.and_eq_true, Bool.or_eq_true, Bool.not_eq_true',
    decide_eq_true_eq, Bool.and_eq_false_iff] at h
  obtain ⟨h0, h1, h2, h3, h4, h5, h6, -⟩ := h
  refine ⟨h0, ?_, ?_, ?_, h4, h6⟩
  · intro n hn
    simp only [stationValues] at hn
    split at hn
    · rename_i ht
      cases hn
      simpa [stationNumber, stationValues, ht] using h2
    · cases hn
  · intro n hn
    simp only [stationValues] at hn
    split at hn
    · rename_i ht
      cases hn
      have := h3.resolve_left (by simp [ht])
      exact ⟨this.1.1, this.1.2⟩
    · cases hn
  · intro n hl hr
    simp only [stationValues] at hl hr
    split at hl
    · rename_i htl
      split at hr
      · rename_i htr
        cases hl
        have := (h3.resolve_left (by simp [htr])).2
        simp only [Option.some.injEq] at hr
        simp [htl, hr] at this
      · cases hr
    · cases hl

theorem stripsValues_inRange {b : List Byte} (h : firstBad (stripsChecks b) = none) : (stripsValues b).InRange := by
  have h := firstBad_none.mp h
  simp only [stripsChecks, List.forall_mem_cons, within, Bool.and_eq_true, decide_eq_true_eq] at h
  obtain ⟨h0, h1, h2, h3, h4, h5, h6, h7, -⟩ := h
  exact ⟨h0, h1, h2, h3, h4, h5, h6, h7⟩

theorem limitValue_inRange {b : List Byte} {bit offset : Nat} (h : (limitCheck b bit offset).2 = true) :
    limitInRange (limitValue b bit offset) := by
  intro n hn
  simp only [limitValue] at hn
  split at hn
  · rename_i ht
    cases hn
    simpa [limitCheck, ht, within] using h
  · cases hn

theorem assemblyValues_inRange {b : List Byte} (h : firstBad (assemblyChecks b) = none) : (assemblyValues b).InRange := by
  have h := firstBad_none.mp h
  simp only [assemblyChecks, List.forall_mem_cons, within, Bool.and_eq_true, decide_eq_true_eq] at h
  obtain ⟨h0, h1, h2, h3, h4, -, h6, h7, h8, h9, -⟩ := h
  exact ⟨h0, h1, h2, h3, h4, limitValue_inRange h6, limitValue_inRange h7, limitValue_inRange h8, limitValue_inRange h9⟩

theorem probesValues_inRange {b : List Byte} (h : firstBad (probesChecks b) = none) : (probesValues b).InRange := by
  have h := firstBad_none.mp h
  simp only [probesChecks, probeChecks, List.forall_mem_append, List.forall_mem_cons, within, withinInt, Bool.and_eq_true,
    decide_eq_true_eq] at h
  obtain ⟨⟨⟨-, g0, o0, -⟩, -, g1, o1, -⟩, i, r, -⟩ := h
  refine ⟨?_, ?_, i, r⟩
  · intro pr; cases pr
    · exact g0
    · exact g1
  · intro pr; cases pr
    · exact o0
    · exact o1

theorem keysIncrease_pairwise {l : List FactorPoint} (h : keysIncrease l = true) : l.Pairwise fun a b => a.key < b.key := by
  induction l with
  | nil => exact .nil
  | cons a rest ih =>
    cases rest with
    | nil => exact .cons (by simp) .nil
    | cons b rest =>
      simp only [keysIncrease, Bool.and_eq_true, decide_eq_true_eq] at h
      have hb := ih h.2
      refine .cons (fun x hx => ?_) hb
      rcases List.mem_cons.mp hx with rfl | hx
      · exact h.1
      · exact h.1.trans (List.rel_of_pairwise_cons hb hx)

theorem pointChecks_inRange {first size keySize : Nat} {lo hi : Int} {l : List FactorPoint} (hl : l.length ≤ 8)
    (hk : keysIncrease l = true) (h : ∀ f ∈ pointChecks first size keySize lo hi l, f.2 = true) : tableInRange lo hi l := by
  have hp : ∀ a ∈ l, (lo ≤ a.key ∧ a.key ≤ hi) ∧ 16384 ≤ a.factor ∧ a.factor ≤ 65535 := by
    intro a ha
    obtain ⟨i, hi', rfl⟩ := List.getElem_of_mem ha
    have hm : (l[i], i) ∈ l.zipIdx := List.mem_zipIdx_iff_getElem?.mpr (by simp [hi'])
    have h1 := h (first + size * i, withinInt lo hi l[i].key) (by
      simp only [pointChecks, List.mem_flatten, List.mem_map]
      exact ⟨_, ⟨_, hm, rfl⟩, by simp⟩)
    have h2 := h (first + size * i + keySize, within 16384 65535 l[i].factor) (by
      simp only [pointChecks, List.mem_flatten, List.mem_map]
      exact ⟨_, ⟨_, hm, rfl⟩, by simp⟩)
    simpa [withinInt, within] using And.intro h1 h2
  exact ⟨hl, keysIncrease_pairwise hk, fun a ha => (hp a ha).1, fun a ha => (hp a ha).2⟩

theorem tableSize_le (n : Nat) : tableSize n ≤ 8 := by
  unfold tableSize
  split <;> omega

theorem factorsValues_inRange {b : List Byte} (h : firstBad (factorsChecks b) = none)
    (hk : (keysIncrease (temperaturePoints b) && keysIncrease (speedPoints b)) = true) : (factorsValues b).InRange := by
  have h := firstBad_none.mp h
  simp only [factorsChecks, List.forall_mem_append] at h
  rw [Bool.and_eq_true] at hk
  exact ⟨pointChecks_inRange (by simp [factorsValues, temperaturePoints, tableSize_le]) hk.1 h.1.2,
    pointChecks_inRange (by simp [factorsValues, speedPoints, tableSize_le]) hk.2 h.2⟩

theorem triggersValues_inRange {b : List Byte} (h : firstBad (triggersChecks b) = none) : triggersInRange (triggersValues b) := by
  have h := firstBad_none.mp h
  simp only [triggersChecks, triggerChecks, List.forall_mem_append, List.forall_mem_cons, within, Bool.and_eq_true,
    decide_eq_true_eq] at h
  obtain ⟨⟨⟨-, t0, d0, w0, -⟩, -, t1, d1, w1, -⟩, -, t2, d2, w2, -⟩ := h
  intro o
  cases o
  · exact ⟨t0, d0, w0⟩
  · exact ⟨t1, d1, w1⟩
  · exact ⟨t2, d2, w2⟩

/-- One rule of a CLASS payload (R177, R197). -/
theorem ruleValues_inRange {b : List Byte} {o : Nat} (h : ∀ f ∈ ruleChecks b (rulePlan b) o, f.2 = true)
    (ho : ruleOrdered (ruleValues b (rulePlan b)) = true) : (ruleValues b (rulePlan b)).InRange := by
  simp only [ruleChecks, List.forall_mem_append, List.forall_mem_cons] at h
  obtain ⟨⟨⟨⟨hc, hmin, hmax, -⟩, hp⟩, hg⟩, hl⟩ := h
  simp only [ruleOrdered, Bool.and_eq_true, decide_eq_true_eq, List.all_eq_true] at ho
  obtain ⟨⟨hax, hgaps⟩, hgross⟩ := ho
  simp only [within, Bool.and_eq_true, decide_eq_true_eq] at hc hmin hmax
  refine ⟨?_, ⟨hmin.1, hax, hmax.2⟩, ?_, ?_, ?_, ?_⟩
  · simp only [ruleValues, Fin.ofNat]
    have := hc.2
    omega
  · intro l hl'
    simp only [ruleValues] at hl'
    split at hl'
    · rename_i ht
      cases hl'
      simp only [ht, if_true, List.forall_mem_cons] at hp
      obtain ⟨hn, hs⟩ := hp
      refine ⟨by simpa [patternSizes, within] using hn, fun n hn' => ?_⟩
      obtain ⟨i, hi, rfl⟩ := List.getElem_of_mem hn'
      have hm : ((patternSizes b (rulePlan b))[i], i) ∈ (patternSizes b (rulePlan b)).zipIdx :=
        List.mem_zipIdx_iff_getElem?.mpr (by simp [hi])
      have := hs _ (List.mem_map.mpr ⟨_, hm, rfl⟩)
      simpa [within] using this
    · cases hl'
  · intro l hl'
    simp only [ruleValues] at hl' hgaps
    split at hl'
    · rename_i ht
      cases hl'
      simp only [ht, if_true, List.forall_mem_cons] at hg
      refine ⟨by simpa [gapPairs, within] using hg.1, fun g hgm => ⟨?_, ?_⟩⟩
      · exact hgaps g (by simpa [ht] using hgm)
      · obtain ⟨i, -, rfl⟩ := List.mem_map.mp hgm
        have := byteAt_lt b ((rulePlan b).gapsAt + 2 + 2 * i)
        simp only
        omega
    · cases hl'
  · intro g hgm
    simp only [hgm] at hgross
    simpa using hgross
  · intro n hn
    simp only [ruleValues] at hn
    split at hn
    · rename_i ht
      cases hn
      simp only [ht, if_true, List.forall_mem_cons] at hl
      simpa using hl.1
    · cases hn

/-- Every rule that a CLASS payload parses into is one of `ruleValues` with its own checks. -/
theorem parseRules_spec (n : Nat) : ∀ {o : Nat} {b : List Byte} {rules : List ParsedRule}, parseRules n o b = some rules →
    ∀ r ∈ rules, ∃ (b' : List Byte) (o' : Nat), r.rule = ruleValues b' (rulePlan b') ∧ r.checks = ruleChecks b' (rulePlan b') o' := by
  induction n with
  | zero =>
    intro o b rules h r hr
    cases b with
    | nil => simp only [parseRules, Option.some.injEq] at h; subst h; cases hr
    | cons x xs => simp [parseRules] at h
  | succ n ih =>
    intro o b rules h r hr
    cases b with
    | nil => simp only [parseRules, Option.some.injEq] at h; subst h; cases hr
    | cons x xs =>
      simp only [parseRules] at h
      split at h
      · cases h
      · obtain ⟨rest, hrest, rfl⟩ := Option.map_eq_some_iff.mp h
        rcases List.mem_cons.mp hr with rfl | hr
        · exact ⟨_, _, rfl, rfl⟩
        · exact ih hrest r hr

theorem classRules_inRange {b : List Byte} {rules : List ParsedRule} (hr : classRules b = some rules)
    (h : firstBad (blockChecks .classes b) = none) (ho : (rules.any fun r => !ruleOrdered r.rule) = false) :
    ∀ r ∈ rules, r.rule.InRange := by
  intro r hm
  obtain ⟨b', o', h1, h2⟩ := parseRules_spec _ hr r hm
  have hc := firstBad_none.mp h
  simp only [blockChecks, hr, Option.getD_some, List.mem_flatten, List.mem_map] at hc
  have ho' : ruleOrdered r.rule = true := by
    have := List.any_eq_false.mp ho r hm
    simpa using this
  rw [h1] at ho' ⊢
  exact ruleValues_inRange (fun f hf => hc f ⟨r.checks, ⟨r, hm, rfl⟩, by rw [h2]; exact hf⟩) ho'

/-! ## A block that passes -/

/-- The tests that a block which passes has passed (R177). -/
theorem pass_of_fault_none {l : Load} {k : BlockKind} {r : BlockRead} (h : knownBlockFault l k r = none) :
    sizeFault l k r = false ∧ orderFault l k r.payload = false ∧ firstBad (blockChecks k r.payload) = none ∧
      (k = .ending → l.strips.isSome = true ∧ l.assembly.isSome = true) := by
  unfold knownBlockFault at h
  repeat' split at h
  all_goals try cases h
  rename_i h1 _ h3 _ _ _ h6 h7
  refine ⟨by simpa using h1, by simpa using h3, h6, fun hk => ?_⟩
  simp only [hk, decide_true, Bool.true_and, Bool.or_eq_true, Option.isNone_iff_eq_none, not_or] at h7
  exact ⟨Option.isSome_iff_ne_none.mpr h7.1, Option.isSome_iff_ne_none.mpr h7.2⟩

/-- What a read holds aside stays in range when a block passes (R176, R177). -/
theorem holdAside_inRange {l : Load} {k : BlockKind} {r : BlockRead} (hl : l.InRange) (h : knownBlockFault l k r = none) :
    (holdAside l k r).InRange := by
  obtain ⟨hs, ho, hr, -⟩ := pass_of_fault_none h
  cases k with
  | station => exact { hl with station := by rintro _ ⟨⟩; exact stationValues_inRange hr }
  | strips => exact { hl with strips := by rintro _ ⟨⟩; exact stripsValues_inRange hr }
  | assembly => exact { hl with assembly := by rintro _ ⟨⟩; exact assemblyValues_inRange hr }
  | probes => exact { hl with probes := by rintro _ ⟨⟩; exact probesValues_inRange hr }
  | factors =>
    refine { hl with factors := ?_ }
    rintro _ ⟨⟩
    refine factorsValues_inRange hr ?_
    simp only [orderFault, Bool.or_eq_false_iff, Bool.not_eq_false'] at ho
    exact ho.2
  | triggers => exact { hl with triggers := by rintro _ ⟨⟩; exact triggersValues_inRange hr }
  | ending => exact { hl with }
  | classes =>
    cases hc : classRules r.payload with
    | none => simp [sizeFault, BlockKind.payloadLength, hc] at hs
    | some rules =>
      have hlen : l.rules.length + rules.length ≤ 32 := by
        simp [sizeFault, BlockKind.payloadLength, hc] at hs
        omega
      have ho' : (rules.any fun r => !ruleOrdered r.rule) = false := by
        simp only [orderFault, hc, Option.getD_some, Bool.or_eq_false_iff] at ho
        exact ho.2
      refine { hl with rules := ⟨?_, fun x hx => ?_⟩ }
      · simpa [holdAside, hc] using hlen
      · simp only [holdAside, hc, Option.getD_some, List.mem_append, List.mem_map] at hx
        rcases hx with hx | ⟨y, hy, rfl⟩
        · exact hl.rules.each x hx
        · exact classRules_inRange hc hr ho' y hy

theorem standardTriggers_inRange : triggersInRange standardTriggers := by
  intro o
  cases o <;> exact ⟨by decide, by decide, by decide⟩

/-- An accepted image is in range (R178). -/
theorem imageOf_inRange {l : Load} (hl : l.InRange) (hs : l.strips.isSome = true) (ha : l.assembly.isSome = true) :
    (imageOf l).InRange := by
  obtain ⟨st, hst⟩ := Option.isSome_iff_exists.mp hs
  obtain ⟨as, has⟩ := Option.isSome_iff_exists.mp ha
  refine ⟨?_, ?_, ?_, ?_, hl.rules, ?_⟩
  · simpa [imageOf, hst] using hl.strips st hst
  · simpa [imageOf, has] using hl.assembly as has
  · cases hp : l.probes with
    | none =>
      simp only [imageOf, hp, Option.getD_none]
      exact ⟨fun pr => by cases pr <;> decide, fun pr => by cases pr <;> decide, by decide, by decide⟩
    | some b => simpa [imageOf, hp] using hl.probes b hp
  · cases hp : l.factors with
    | none =>
      simp only [imageOf, hp, Option.getD_none]
      exact ⟨⟨by decide, .nil, nofun, nofun⟩, ⟨by decide, .nil, nofun, nofun⟩⟩
    | some b => simpa [imageOf, hp] using hl.factors b hp
  · cases hp : l.triggers with
    | none => simpa [imageOf, hp] using standardTriggers_inRange
    | some b => simpa [imageOf, hp] using hl.triggers b hp

end Sys2Proof.Machine
end

