-- ==== Sys2Proof/Laws/SoundUnits.lean ====
section
/-! SUPPORT. Soundness is kept by the load channels, the temperature unit, the time unit, the pairing engine and the outputs. -/

set_option Elab.async false

namespace Sys2Proof.Machine

/-! ## LCU -/

theorem Sample.toInt_bounds (x : Sample) : -32768 ≤ x.toInt ∧ x.toInt ≤ 32767 := by
  have h1 := BitVec.le_toInt (x := x)
  have h2 := BitVec.toInt_lt (x := x)
  norm_num at h1 h2
  omega

/-- The baseline value of a channel in range (R3). -/
theorem ChannelRecord.InRange.b_bounds {c : ChannelRecord} (h : c.InRange) : -32768 ≤ c.b ∧ c.b ≤ 32767 := by
  have := h.baseline
  simp only [ChannelRecord.b, Int.fdiv_eq_ediv_of_nonneg _ (by norm_num : (0 : Int) ≤ 64)]
  omega

theorem ChannelRecord.InRange.update {c : ChannelRecord} (h : c.InRange) {x : Int} (h1 : -32768 ≤ x) (h2 : x ≤ 32767) :
    -2097152 ≤ c.baseline + x - c.b ∧ c.baseline + x - c.b ≤ 2097151 := by
  have := h.baseline
  simp only [ChannelRecord.b, Int.fdiv_eq_ediv_of_nonneg _ (by norm_num : (0 : Int) ≤ 64)]
  omega

theorem accumulate_inRange {c : ChannelRecord} {x d : Int} (h : c.InRange) (hl : c.lengthCount < 16000) (hd : d ≤ 65535) :
    (accumulate c x d).InRange :=
  { h with
    area := by
      simp only [accumulate, clampTo, areaCap]
      by_cases ha : 4294967295 < c.area + d.toNat <;> simp only [ha, if_true, if_false] <;> omega
    peak := by have := h.peak; simp only [accumulate]; split <;> omega
    length := by simp only [accumulate]; omega }

/-- A sample of a hit in progress, after it has been accumulated, leaves the counts in range and the hit unended or the
channel in IDLE or STUCK (R6 to R8). -/
theorem hitSample_fit {st : StripsBlock} (hst : st.InRange) (ch : Channel) (now : SiteTime) (d : Int) {c : ChannelRecord}
    (h : c.InRange) (ht : c.state = .tail → c.tailCount < st.ntail) :
    (hitSample st ch now d c).record.InRange ∧ (hitSample st ch now d c).record.Unended st := by
  have hn := hst.ntail
  have hs := hst.stuckLimit
  obtain ⟨r1, r2, r3, r4, r5, r6, r7, r8, r9⟩ := h
  simp only [hitSample]
  split_ifs with h1 h2 <;> refine ⟨⟨?_, ?_, ?_, ?_, ?_, ?_, ?_, ?_, ?_⟩, ⟨?_, ?_, ?_⟩⟩ <;>
    simp_all [endByTail, endByCount, plainResult] <;> omega

/-- A sample in STUCK (R9). -/
theorem stuckSample_fit {st : StripsBlock} (hst : st.InRange) {x d : Int} {c : ChannelRecord} (h : c.InRange)
    (hx : -32768 ≤ x ∧ x ≤ 32767) (hq : c.stuckCount ≤ st.stuckLimit * 8000 ∧ c.quietCount < st.ntail) (hc : c.state = .stuck) :
    (stuckSample st x d c).record.InRange ∧ (stuckSample st x d c).record.Unended st := by
  have hn := hst.ntail
  have hs := hst.stuckLimit
  obtain ⟨r1, r2, r3, r4, r5, r6, r7, r8, r9⟩ := h
  simp only [stuckSample, samplesPerSecond]
  split_ifs with h1 h2 <;> refine ⟨⟨?_, ?_, ?_, ?_, ?_, ?_, ?_, ?_, ?_⟩, ⟨?_, ?_, ?_⟩⟩ <;>
    simp_all [plainResult] <;> omega

/-- A sample of a channel in its state, its seed not pending (R3, R5 to R9). -/
theorem stateSample_fit {st : StripsBlock} (hst : st.InRange) (ch : Channel) (now : SiteTime) {x : Int} {c : ChannelRecord}
    (h : c.InRange) (hu : c.Unended st) (hx : -32768 ≤ x ∧ x ≤ 32767) :
    (stateSample st ch now x c).record.InRange ∧ (stateSample st ch now x c).record.Unended st := by
  have hb := h.b_bounds
  have hl := hst.lmax
  simp only [stateSample]
  split
  · split
    · rename_i hs _
      exact ⟨{ h with baseline := h.update hx.1 hx.2 }, by constructor <;> simp [plainResult, hs]⟩
    · exact ⟨{ h with
        area := by simp only [plainResult, startHit]; omega
        peak := by simp only [plainResult, startHit]; omega
        length := by simp [plainResult, startHit]
        tail := by simp [plainResult, startHit] }, by
          constructor <;> simp [plainResult, startHit]; omega⟩
  · rename_i hs
    exact hitSample_fit hst _ _ _ (accumulate_inRange h (by have := hu.pulse hs; omega) (by omega))
      (by simp [accumulate, hs])
  · rename_i hs
    exact hitSample_fit hst _ _ _ (accumulate_inRange h (by have := hu.tail hs; omega) (by omega))
      (fun _ => (hu.tail hs).2)
  · rename_i hs
    exact stuckSample_fit hst h hx (hu.stuck hs) hs

theorem driftSample_sound {st : StripsBlock} {c : ChannelRecord} (h : c.InRange ∧ c.Unended st) :
    (driftSample st c).InRange ∧ (driftSample st c).Unended st := by
  unfold driftSample
  split
  · exact ⟨{ h.1 with drift := Nat.min_le_right _ _ }, { h.2 with }⟩
  · exact ⟨{ h.1 with drift := Nat.zero_le _ }, { h.2 with }⟩

/-- One sample of one channel keeps it sound under an image (R3 to R9, R15). -/
theorem evalSample_sound {i : Image} (hi : i.strips.InRange) (ch : Channel) (now : SiteTime) (x : Sample) {c : ChannelRecord}
    (h : c.Sound (some i)) : (evalSample i.strips ch now x.toInt c).record.Sound (some i) := by
  have hx := Sample.toInt_bounds x
  have hc : (evalSample i.strips ch now x.toInt c).record.InRange ∧
      (evalSample i.strips ch now x.toInt c).record.Unended i.strips := by
    simp only [evalSample]
    split
    · exact ⟨{ h.range with baseline := by simp only [plainResult]; omega }, { h.unended i rfl with }⟩
    · exact driftSample_sound (stateSample_fit hi ch now h.range (h.unended i rfl) hx)
  exact ⟨hc.1, by rintro _ ⟨⟩; exact hc.2, nofun⟩

/-- The channel brought to IDLE (R13, R19) and a changed mark keep a channel sound. -/
theorem ChannelRecord.Sound.toIdle {img : Option Image} {c : ChannelRecord} (h : c.Sound img) : c.toIdle.Sound img := by
  unfold ChannelRecord.toIdle
  split
  · exact h
  · rename_i hs
    exact ⟨{ h.range with
        area := Nat.zero_le _, peak := Nat.zero_le _, length := Nat.zero_le _, tail := Nat.zero_le _ },
      fun _ _ => ⟨nofun, nofun, nofun⟩, fun hn => by have := (h.rest hn).state; simp [hs] at this⟩
  · rename_i hs
    exact ⟨{ h.range with
        area := Nat.zero_le _, peak := Nat.zero_le _, length := Nat.zero_le _, tail := Nat.zero_le _ },
      fun _ _ => ⟨nofun, nofun, nofun⟩, fun hn => by have := (h.rest hn).state; simp [hs] at this⟩
  · rename_i hs
    exact ⟨{ h.range with stuck := Nat.zero_le _, quiet := Nat.zero_le _ },
      fun _ _ => ⟨nofun, nofun, nofun⟩, fun hn => by have := (h.rest hn).state; simp [hs] at this⟩

theorem ChannelRecord.Sound.clearMark {img : Option Image} {c : ChannelRecord} (h : c.Sound img) : c.clearMark.Sound img :=
  ⟨{ h.range with drift := Nat.zero_le _, miss := Nat.zero_le _ }, fun i hi => { h.unended i hi with },
    fun hn => { h.rest hn with }⟩

theorem ChannelRecord.Sound.rebaseline {img : Option Image} {c : ChannelRecord} (h : c.Sound img) : c.rebaseline.Sound img :=
  ⟨{ h.toIdle.range with }, fun i hi => { h.toIdle.unended i hi with }, fun hn => { h.toIdle.rest hn with seed := rfl }⟩

theorem ChannelRecord.Sound.warmRestart {img : Option Image} {c : ChannelRecord} (h : c.Sound img) (keep : Bool) :
    (c.warmRestart keep).Sound img := by
  unfold ChannelRecord.warmRestart
  split
  · exact h.toIdle
  · exact h.toIdle.clearMark

theorem ChannelRecord.Sound.missCounter {img : Option Image} {c : ChannelRecord} (h : c.Sound img) {n : Nat} (hn : n ≤ 15) :
    ({ c with missCounter := n } : ChannelRecord).Sound img :=
  ⟨{ h.range with miss := hn }, fun i hi => { h.unended i hi with }, fun hn => { h.rest hn with }⟩

namespace Part.Sound

variable {p : Part}

/-- The dead count in force is at most 15. -/
theorem deadCount (h : p.Sound) : p.image.strips.deadCount ≤ 15 := by
  unfold Part.image
  cases hi : p.csu.image with
  | none => decide
  | some i => exact (h.csu.image i hi).strips.deadCount.2

/-- An image is in use exactly in the working states (R2). -/
theorem working_iff (h : p.Sound) : p.working = true ↔ p.csu.image.isSome = true := by
  have := h.csu.legal
  unfold Csu.legal at this
  unfold Part.working
  split <;> rename_i hs <;> simp_all

theorem seenNotice (h : p.Sound) (ch : Channel) : (p.seenNotice ch).Sound :=
  h.modChannel fun hc => hc.missCounter (Nat.zero_le _)

theorem missedNotice (h : p.Sound) (ch : Channel) : (p.missedNotice ch).Sound := by
  have hd := h.deadCount
  simp only [Part.missedNotice]
  repeat' split
  · exact Part.Sound.faultMark (h.modChannel fun hc => hc.missCounter (by omega)) _ _
  · exact h.modChannel fun hc => hc.missCounter (by omega)
  · exact h

end Part.Sound

/-! ## PTU -/

/-- A valid reading is a temperature in range (R44). -/
theorem readCode_inRange {params : ProbeParams} {code : Nat} {t : Int} (h : readCode params code = .valid t) :
    temperatureInRange t := by
  simp only [readCode] at h
  repeat' split at h
  all_goals try cases h
  rename_i hv
  simpa [validTemp, temperatureInRange] using hv

/-- A reading keeps its probe in range (R44 to R48). -/
theorem takeReading_inRange {r : Reading} {s : ProbeState} (h : s.InRange) (hr : ∀ t, r = .valid t → temperatureInRange t) :
    (takeReading r s).1.InRange := by
  have hstale := h.stale
  have hreject := h.reject
  cases r with
  | fault kind =>
    exact { h with
      reject := Nat.zero_le _, stale := Nat.min_le_right _ _
      good := by cases kind <;> simp [takeReading, faultReading, faultQuality] }
  | valid t =>
    have ht := hr t rfl
    simp only [takeReading]
    split
    · exact { h with filtered := fun _ => ht, reject := Nat.zero_le _, stale := Nat.zero_le _, good := fun _ => rfl }
    · rename_i hs
      have hf := h.filtered (by simpa using hs)
      split
      · rename_i hd
        refine { h with filtered := fun _ => ?_, reject := Nat.zero_le _, stale := Nat.zero_le _, good := fun _ => rfl }
        simp only [temperatureInRange, acceptReading] at *
        rcases Int.le_total 0 (t - s.filtered) with h0 | h0
        · rw [Int.tdiv_eq_ediv_of_nonneg h0]; omega
        · rw [show t - s.filtered = -(s.filtered - t) by omega, Int.neg_tdiv, Int.tdiv_eq_ediv_of_nonneg (by omega)]; omega
      · split
        · exact { h with filtered := fun _ => ht, reject := Nat.zero_le _, stale := Nat.zero_le _, good := fun _ => rfl }
        · exact { h with
            reject := by simp only [rejectReading]; omega
            stale := Nat.min_le_right _ _
            good := fun _ => by simpa [rejectReading] using hs }

/-- The own entry follows its probe (R49). -/
theorem updateOwn_inRange {now : SiteTime} {s : ProbeState} (h : s.InRange) : (updateOwn now s).InRange :=
  { h with
    value := fun t ht => by
      simp only [updateOwn] at ht
      split at ht
      · rename_i hs
        cases ht
        exact h.filtered hs
      · cases ht
    own := fun hq => by
      have := h.good hq
      simp [updateOwn, this] }

/-- A mean of temperatures in range is in range (R54). -/
theorem meanOf_inRange {l : List Int} (hl : l ≠ []) (h : ∀ t ∈ l, temperatureInRange t) : temperatureInRange (meanOf l) := by
  have aux : ∀ l : List Int, (∀ t ∈ l, temperatureInRange t) → -400 * (l.length : Int) ≤ l.sum ∧ l.sum ≤ 800 * (l.length : Int) := by
    intro l
    induction l with
    | nil => intro _; simp
    | cons a as ih =>
      intro h
      have ha := h a List.mem_cons_self
      have := ih fun t ht => h t (List.mem_cons_of_mem _ ht)
      simp only [temperatureInRange] at ha
      simp only [List.sum_cons, List.length_cons]
      push_cast
      omega
  have hb := aux l h
  have hn : 0 < (l.length : Int) := by exact_mod_cast List.length_pos_iff.mpr hl
  simp only [temperatureInRange, meanOf]
  rcases Int.le_total 0 l.sum with h0 | h0
  · rw [Int.tdiv_eq_ediv_of_nonneg h0]
    exact ⟨le_trans (by omega) (Int.ediv_nonneg h0 hn.le), Int.ediv_le_of_le_mul hn (by linarith)⟩
  · rw [show l.sum = -(-l.sum) by omega, Int.neg_tdiv, Int.tdiv_eq_ediv_of_nonneg (by omega)]
    have h1 : -l.sum / (l.length : Int) ≤ 400 := Int.ediv_le_of_le_mul hn (by linarith)
    have h2 : 0 ≤ -l.sum / (l.length : Int) := Int.ediv_nonneg (by omega) hn.le
    omega

/-- An answer from sources 1 to 4 is a temperature in range (R54). -/
theorem Part.Sound.effective {p : Part} (h : p.Sound) (h5 : p.effective.2 ≠ .held) (h6 : p.effective.2 ≠ .reference) :
    temperatureInRange p.effective.1 := by
  have own : ∀ pr t, (if (p.ptu.probes.get pr).own.quality = .good then (p.ptu.probes.get pr).own.value else none) = some t →
      temperatureInRange t := by
    intro pr t ht
    split at ht
    · exact (h.ptu.probes pr).value t ht
    · cases ht
  have peers : ∀ pr, ∀ t ∈ p.peerValues pr, temperatureInRange t := by
    intro pr t ht
    obtain ⟨e, he, hv⟩ := List.mem_filterMap.mp ht
    obtain ⟨hm, hg⟩ := List.mem_filter.mp he
    simp only [Bool.and_eq_true, decide_eq_true_eq] at hg
    obtain ⟨u, hu, hr⟩ := (h.ptu.peers e hm).good hg.1.1.2
    rw [hu] at hv
    cases hv
    exact hr
  unfold Part.effective at h5 h6 ⊢
  simp only at h5 h6 ⊢
  repeat' split at h5
  all_goals simp only [*] at h5 h6 ⊢
  all_goals first
    | exact own _ _ (by assumption)
    | exact absurd rfl h5
    | exact absurd rfl h6
    | skip
  · rename_i x xs hs
    exact meanOf_inRange (by simp) (by rw [← hs]; exact peers _)
  · rename_i x xs hs
    exact meanOf_inRange (by simp) (by rw [← hs]; exact peers _)

/-- Refreshing the entry of a key leaves one entry for each key (R50). -/
theorem changeFirst_pairwise_key {f : PeerTemp → Bool} {e : PeerTemp} {l : List PeerTemp}
    (hl : l.Pairwise fun a b => a.station ≠ b.station ∨ a.probe ≠ b.probe)
    (hf : ∀ x, f x = true → x.station = e.station ∧ x.probe = e.probe) :
    (changeFirst f (fun _ => e) l).Pairwise fun a b => a.station ≠ b.station ∨ a.probe ≠ b.probe := by
  induction l with
  | nil => exact hl
  | cons y ys ih =>
    simp only [changeFirst]
    split
    · rename_i hy
      obtain ⟨h1, h2⟩ := hf y hy
      refine .cons (fun x hx => ?_) hl.of_cons
      rw [← h1, ← h2]
      exact List.rel_of_pairwise_cons hl hx
    · refine .cons (fun x hx => ?_) (ih hl.of_cons)
      rcases mem_changeFirst hx with hx | ⟨z, hz, hfz, rfl⟩
      · exact List.rel_of_pairwise_cons hl hx
      · obtain ⟨h1, h2⟩ := hf z hfz
        rw [← h1, ← h2]
        exact List.rel_of_pairwise_cons hl hz

namespace Part.Sound

variable {p : Part}

theorem startInterval (h : p.Sound) (t : Nat) : (p.startInterval t).Sound := h.modPtu { h.ptu with }

theorem beginTemperature (h : p.Sound) : p.beginTemperature.Sound :=
  Part.Sound.startInterval (Part.Sound.modProbe (h.modProbe fun hs => { hs with }) fun hs => { hs with }) _

theorem requestTemp (h : p.Sound) (pr : Probe) : (p.requestTemp pr).Sound := by
  unfold Part.requestTemp
  split
  · exact h
  · exact Part.Sound.handFrame (h.modProbe fun hs => { hs with }) _ (by simp [TxContent.kind])

theorem noteCode (h : p.Sound) (pr : Probe) (code : BitVec 16) : (p.noteCode pr code).Sound := h.modPtu { h.ptu with }

theorem finishConversion (h : p.Sound) (pr : Probe) (code : Nat) : (p.finishConversion pr code).Sound := by
  have h1 : (p.modProbe pr fun _ => updateOwn p.now
      (takeReading (readCode (p.probeParams pr) code) (p.ptu.probes.get pr)).1).Sound :=
    h.modProbe fun hs => updateOwn_inRange (takeReading_inRange hs fun t => readCode_inRange)
  have key : ∀ (q : Part) (c : Converter), q.Sound → (q.modPtu fun u => { u with converter := c }).Sound :=
    fun q c hq => hq.modPtu { hq.ptu with }
  simp only [Part.finishConversion]
  refine key _ _ ?_
  repeat' split
  all_goals first
    | exact h1
    | exact h1.setMark _
    | exact h1.requestTemp pr
    | exact (h1.setMark _).requestTemp pr

theorem takeTempFrame (h : p.Sound) (n : Nat) (pr : Probe) {c : TempContent} (hc : 1 ≤ c.group ∧ c.group ≤ 3) :
    (p.takeTempFrame n pr c).Sound := by
  simp only [Part.takeTempFrame]
  refine iteInduction (motive := Part.Sound) (fun _ => h) fun hn => ?_
  · simp only [Bool.or_eq_true, Bool.not_eq_true', decide_eq_true_eq, not_or, Bool.not_eq_false, Bool.and_eq_true, not_and] at hn
    obtain ⟨⟨⟨⟨hw, h1⟩, h14⟩, hown⟩, hgood⟩ := hn
    have hi := h.working_iff.mp hw
    let e : PeerTemp :=
      { station := n, probe := pr, value := c.value, quality := c.quality, group := c.group, receiveTime := p.now }
    have he : e.InRange := by
      refine ⟨⟨by show 1 ≤ n; omega, by show n ≤ 14; omega⟩, hc, fun hq => ?_⟩
      have := hgood hq
      cases hv : c.value with
      | none => simp [hv] at this
      | some t => exact ⟨t, hv, by simpa [hv, validTemp, temperatureInRange] using this⟩
    have ho : p.csu.image.isSome = true ∧ ∀ b, p.csu.block = some b → e.station ≠ b.number :=
      ⟨hi, fun b hb => by simpa [Part.block, hb] using hown⟩
    refine h.modPtu ?_
    split
    · refine { h.ptu with peers := ?_, distinct := ?_, others := ?_ }
      · intro x hx
        rcases mem_changeFirst hx with hx | ⟨_, -, -, rfl⟩
        · exact h.ptu.peers x hx
        · exact he
      · exact changeFirst_pairwise_key h.ptu.distinct fun x hx => by simpa [e] using hx
      · intro x hx
        rcases mem_changeFirst hx with hx | ⟨_, -, -, rfl⟩
        · exact h.ptu.others x hx
        · exact ho
    · rename_i hnone
      refine { h.ptu with peers := ?_, distinct := ?_, others := ?_ }
      · intro x hx
        rcases List.mem_append.mp hx with hx | hx
        · exact h.ptu.peers x hx
        · exact List.mem_singleton.mp hx ▸ he
      · refine List.pairwise_append.mpr ⟨h.ptu.distinct, List.pairwise_singleton _ _, fun a ha b hb => ?_⟩
        rw [List.mem_singleton.mp hb]
        have : ¬(a.station = n ∧ a.probe = pr) := fun hk => hnone (List.any_eq_true.mpr ⟨a, ha, by simpa using hk⟩)
        simp only
        tauto
      · intro x hx
        rcases List.mem_append.mp hx with hx | hx
        · exact h.ptu.others x hx
        · exact List.mem_singleton.mp hx ▸ ho

theorem keepEffective (h : p.Sound) : (p.keepEffective p.effective).Sound := by
  have he := h.effective
  unfold Part.keepEffective
  split <;> rename_i hs
  · exact h
  · exact h
  all_goals exact h.modPtu { h.ptu with held := by rintro _ ⟨⟩; exact he (by rw [hs]; nofun) (by rw [hs]; nofun) }

theorem clearProbeMarks (h : p.Sound) (m : Nat) : (p.clearProbeMarks m).Sound :=
  Part.Sound.modProbe (h.modProbe fun hs => by dsimp only; split <;> exact { hs with }) fun hs => by
    dsimp only; split <;> exact { hs with }

end Part.Sound

namespace Part.Sound

variable {p : Part}

/-! ## STU -/

theorem handTime (h : p.Sound) : p.handTime.Sound := h.handFrame _ (by decide)

end Part.Sound

theorem mergeNewest_length (t : SiteTime) (l : List StepSpan) : (mergeNewest t l).length = l.length := by
  induction l with
  | nil => rfl
  | cons x rest ih => cases rest <;> simp_all [mergeNewest]

/-- The log keeps its capacity (R86). -/
theorem logStep_length (now t : SiteTime) {l : List StepSpan} (h : l.length ≤ 8) : (logStep now t l).length ≤ 8 := by
  have := List.length_filter_le (fun e => !stepOld now e) l
  simp only [logStep]
  split
  · simp only [List.length_append, List.length_cons, List.length_nil]; omega
  · rw [mergeNewest_length]; omega

namespace Part.Sound

variable {p : Part}

theorem noticeStep (h : p.Sound) : p.noticeStep.Sound :=
  h.modVau { h.vau with
    axles := fun x hx => by
      obtain ⟨y, hy, rfl⟩ := Option.map_eq_some_iff.mp hx
      exact h.vau.axles y hy }

theorem catchDue (h : p.Sound) : p.catchDue.Sound := by
  unfold Part.catchDue
  split
  · exact Part.Sound.handTime (h.modStu h.stu)
  · exact h

theorem takeStep (h : p.Sound) (d : Nat) : (p.takeStep d).Sound := by
  have h0 := h.catchDue
  have h1 : (p.catchDue.modStu (Stu.step d)).noticeStep.Sound :=
    Part.Sound.noticeStep (h0.modStu (f := Stu.step d) (logStep_length _ _ h0.stu))
  simp only [Part.takeStep]
  split
  · exact Part.Sound.handTime (h1.modStu h1.stu)
  · exact h1.modStu h1.stu

theorem setSplit (h : p.Sound) (i : Fin 14) (x : Fin 3) : (p.setSplit i x).Sound := by
  unfold Part.setSplit
  split
  · exact h
  · exact Part.Sound.setMark (h.modStu h.stu) _

theorem followInJoin (h : p.Sound) (i : Fin 14) (d : Int) : (p.followInJoin i d).Sound := by
  unfold Part.followInJoin
  split
  · exact (h.takeStep _).setSplit _ _
  · exact h

theorem followInRun (h : p.Sound) (i : Fin 14) (d : Int) : (p.followInRun i d).Sound := by
  simp only [Part.followInRun]
  repeat' split
  · exact h
  · exact (h.takeStep _).setSplit _ _
  · exact Part.Sound.setSplit ((h.takeStep _).modStu (h.takeStep _).stu) _ _
  · exact h.setSplit _ _

theorem takeTimeFrame (h : p.Sound) (n : Nat) (t : SiteTime) (c : Capture) : (p.takeTimeFrame n t c).Sound := by
  simp only [Part.takeTimeFrame]
  repeat' split
  · exact h
  · exact h.followInJoin _ _
  · exact h.followInRun _ _
  · exact h

/-! ## PSE -/

theorem closeRecord (h : p.Sound) (n : Count16) : (p.closeRecord n).Sound :=
  h.modPse { h.pse with store := by simpa [closeStored] using h.pse.store }

theorem forceDecision (h : p.Sound) (n : Count16) : (p.forceDecision n).Sound := by
  refine Part.Sound.requestPort (modVau (h.closeRecord n) ?_) _
  have hv := (h.closeRecord n).vau
  exact { hv with intake := by simpa using hv.intake, waiting := by simpa using hv.waiting }

end Part.Sound

/-- A forced decision keeps the store's length and the other lists of the PSE (R97). -/
theorem Part.forceDecision_pse (p : Part) (n : Count16) :
    (p.forceDecision n).pse = { p.pse with store := closeStored n p.pse.store } := by
  simp [Part.forceDecision, Part.closeRecord, Part.modPse]

namespace Part.Sound

variable {p : Part}

theorem enterStore (h : p.Sound) (w : Wheel) : (p.enterStore w).Sound := by
  simp only [Part.enterStore]
  repeat' split
  · rename_i hl
    exact h.modPse { h.pse with store := by simp; omega }
  · rename_i hs
    exact h.modPse { h.pse with store := by simp [hs] }
  · rename_i oldest rest hs _
    have h1 := h.forceDecision oldest.wheel.number
    refine Part.Sound.modPse (Part.Sound.modPse h1 { h1.pse with store := ?_ }) { h1.pse with store := ?_ }
    · have := h1.pse.store; simp only [List.length_drop]; omega
    · have := h1.pse.store
      have h2 : 1 ≤ (p.forceDecision oldest.wheel.number).pse.store.length := by
        simp [Part.forceDecision_pse, closeStored, hs]
      simp only [Part.modPse_pse, List.length_append, List.length_drop, List.length_cons, List.length_nil]
      omega
  · rename_i oldest rest hs _
    have := h.pse.store
    refine Part.Sound.modPse (Part.Sound.modPse h { h.pse with store := ?_ }) { h.pse with store := ?_ }
    · simp only [List.length_drop]; omega
    · have h2 : 1 ≤ p.pse.store.length := by simp [hs]
      simp only [Part.modPse_pse, List.length_append, List.length_drop, List.length_cons, List.length_nil]
      omega

theorem enterIntake (h : p.Sound) (w : Wheel) (t : SiteTime) : (p.enterIntake w t).Sound := by
  simp only [Part.enterIntake]
  refine Part.Sound.requestPort ?_ _
  repeat' split
  · rename_i hl
    exact h.modVau { h.vau with intake := by simp; omega }
  · rename_i hs
    exact h.modVau { h.vau with intake := by simp [hs] }
  · rename_i oldest rest hs
    have h1 := h.closeRecord oldest.wheel.number
    have hi := h.vau.intake
    refine Part.Sound.modVau (Part.Sound.modVau h1 { h1.vau with intake := ?_ }) { h1.vau with intake := ?_ }
    · simp only [hs, List.length_cons] at hi ⊢; omega
    · simp only [hs, List.length_cons, Part.modVau_vau, List.length_append, List.length_nil] at hi ⊢; omega

theorem performCheck (h : p.Sound) (c : Check) : (p.performCheck c).Sound := by
  simp only [Part.performCheck]
  split
  · exact (h.seenNotice _).seenNotice _
  · exact (h.seenNotice _).missedNotice _
  · exact (h.missedNotice _).seenNotice _
  · exact h

theorem placeCheck (h : p.Sound) (c : Check) : (p.placeCheck c).Sound := by
  have hc := h.pse.checks
  simp only [Part.placeCheck]
  repeat' split
  · rename_i hl
    exact h.modPse { h.pse with checks := by simp only [insertBefore_length]; omega }
  · rename_i hs
    exact h.modPse { h.pse with checks := by simp [insertBefore_length, hs] }
  · rename_i oldest rest hs
    have h1 : (p.modPse fun u => { u with checks := rest }).Sound :=
      h.modPse { h.pse with checks := by simp only [hs, List.length_cons] at hc ⊢; omega }
    have h2 := h1.performCheck oldest
    refine h2.modPse { h2.pse with checks := ?_ }
    simp only [insertBefore_length, Part.performCheck_pse, Part.modPse_pse]
    simp only [hs, List.length_cons] at hc
    omega

theorem performDue (now : SiteTime) (n : Nat) : ∀ {p : Part}, p.Sound → (p.performDue now n).Sound := by
  induction n with
  | zero => intro p h; exact h
  | succ n ih =>
    intro p h
    simp only [Part.performDue]
    repeat' split
    · exact h
    · rename_i c rest hs _
      refine ih (Part.Sound.performCheck (h.modPse { h.pse with checks := ?_ }) c)
      have := h.pse.checks
      simp only [hs, List.length_cons] at this ⊢
      omega
    · exact h

theorem dueChecks (h : p.Sound) (now : SiteTime) : (p.dueChecks now).Sound := performDue now _ h

theorem completeWheel (h : p.Sound) (side : Side) (lead trail : Option Hit) (v : Option Nat) (now : SiteTime) :
    (p.completeWheel side lead trail v now).Sound := by
  have h0 := h.keepEffective
  have h1 : ((p.keepEffective p.effective).modPse fun u => { u with wheelCounter := u.wheelCounter + 1 }).Sound :=
    h0.modPse { h0.pse with }
  unfold Part.completeWheel
  generalize p.wheelRecord side lead trail v = w
  have h2 := ((((h1.enterStore w).enterList (.wheel w) now nofun).offerVehicle).enterIntake w now)
  cases lead
  · exact h2
  · cases trail
    · exact h2
    · cases v
      · exact h2
      · exact h2.placeCheck _

theorem setFifo (h : p.Sound) (side : Side) {l : List Hit} (hl : l.length ≤ 8) : (p.setFifo side l).Sound := by
  cases side
  · exact h.modPse { h.pse with fifoLeft := hl }
  · exact h.modPse { h.pse with fifoRight := hl }

theorem fifo_length (h : p.Sound) (side : Side) : (p.pse.fifo.get side).length ≤ 8 := by
  cases side
  · exact h.pse.fifoLeft
  · exact h.pse.fifoRight

theorem foldl_orphanLead (side : Side) (now : SiteTime) (l : List Hit) :
    ∀ {p : Part}, p.Sound → (l.foldl (Part.orphanLead side now) p).Sound := by
  induction l with
  | nil => intro p h; exact h
  | cons x xs ih => intro p h; exact ih (h.completeWheel _ _ _ _ _)

theorem expireSide (h : p.Sound) (side : Side) (now : SiteTime) : (p.expireSide side now).Sound :=
  foldl_orphanLead side now _ (h.setFifo side ((List.length_filter_le _ _).trans (h.fifo_length side)))

theorem expireBoth (h : p.Sound) (now : SiteTime) : (p.expireBoth now).Sound := (h.expireSide _ _).expireSide _ _

theorem recordStart (h : p.Sound) (x : Hit) : (p.recordStart x).Sound := by
  refine h.modPse ?_
  cases hc : x.channel
  · exact { h.pse with historyLL := appendCapped_length 8 _ _ }
  · exact { h.pse with historyLR := appendCapped_length 8 _ _ }
  · exact { h.pse with historyTL := appendCapped_length 8 _ _ }
  · exact { h.pse with historyTR := appendCapped_length 8 _ _ }

theorem takeLeading (h : p.Sound) (x : Hit) (now : SiteTime) : (p.takeLeading x now).Sound := by
  have h1 := h.recordStart x
  simp only [Part.takeLeading]
  split
  · exact h1.setFifo _ (by simp)
  · rename_i oldest rest hs
    have hl := h1.fifo_length (channelSide x.channel)
    rw [hs] at hl
    simp only [List.length_cons] at hl
    split
    · exact h1.setFifo _ (by simp; omega)
    · exact Part.Sound.setFifo ((h1.setFifo _ (by omega)).completeWheel _ _ _ _ _) _ (by simp; omega)

end Part.Sound

theorem scanFifo_length (spacing : Nat) (t : SiteTime) (l : List Hit) : (scanFifo spacing t l).2.2.length ≤ l.length := by
  induction l with
  | nil => simp [scanFifo]
  | cons x xs ih => simp only [scanFifo]; split <;> simp <;> omega

namespace Part.Sound

variable {p : Part}

theorem takeTrailing (h : p.Sound) (x : Hit) (now : SiteTime) : (p.takeTrailing x now).Sound := by
  have h1 := (h.recordStart x).expireSide (channelSide x.channel) now
  have h2 := foldl_orphanLead (channelSide x.channel) now
    (scanFifo ((p.recordStart x).expireSide (channelSide x.channel) now).image.strips.spacing x.startTime
      (((p.recordStart x).expireSide (channelSide x.channel) now).pse.fifo.get (channelSide x.channel))).1
    (h1.setFifo (channelSide x.channel)
      ((scanFifo_length ((p.recordStart x).expireSide (channelSide x.channel) now).image.strips.spacing x.startTime _).trans
        (h1.fifo_length (channelSide x.channel))))
  simp only [Part.takeTrailing]
  split
  · exact h2.completeWheel _ _ _ _ _
  · exact h2.completeWheel _ _ _ _ _

theorem takeHit (h : p.Sound) (x : Hit) (now : SiteTime) : (p.takeHit x now).Sound := by
  unfold Part.takeHit
  split
  · exact h.takeLeading _ _
  · exact h.takeTrailing _ _

theorem disposeHit (h : p.Sound) (x : Hit) (now : SiteTime) : (p.disposeHit x now).Sound := by
  simp only [Part.disposeHit]
  repeat' split
  all_goals first | exact h | exact h.modTotals | exact h.takeHit _ _

theorem sampleChannel (h : p.Sound) (hi : p.csu.image.isSome = true) (ch : Channel) (x : Sample) :
    (p.sampleChannel ch x).Sound := by
  obtain ⟨i, hi⟩ := Option.isSome_iff_exists.mp hi
  have h1 : (p.modChannel ch fun _ => (p.preview ch x).record).Sound :=
    h.modChannel fun hr => by
      rw [hi] at hr ⊢
      have := evalSample_sound (h.csu.image i hi).strips ch p.sampleTime x hr
      simpa [Part.preview, Part.image, hi] using this
  simp only [Part.sampleChannel]
  repeat' split
  all_goals
    first
    | exact h1
    | exact h1.faultMark _ _
    | exact (h1.faultMark _ _).faultMark _ _
    | exact h1.disposeHit _ _
    | exact (h1.disposeHit _ _).faultMark _ _
    | exact ((h1.disposeHit _ _).faultMark _ _).faultMark _ _

theorem sampleFour (h : p.Sound) (hi : p.csu.image.isSome = true) (x : PerChannel Sample) : (p.sampleFour x).Sound := by
  have f1 := Part.SampleFrame.sampleChannel .ll x.ll p
  have f2 := f1.trans (Part.SampleFrame.sampleChannel .lr x.lr _)
  have f3 := f2.trans (Part.SampleFrame.sampleChannel .tl x.tl _)
  exact (((h.sampleChannel hi _ _).sampleChannel (by rw [f1.image]; exact hi) _ _).sampleChannel (by rw [f2.image]; exact hi)
    _ _).sampleChannel (by rw [f3.image]; exact hi) _ _

theorem readTime (h : p.Sound) : p.readTime.Sound :=
  h.modLcu { h.lcu with
    read := fun t ht => ⟨_, rfl, (h.lcu.sampled t ht).1⟩
    stamped := by rintro _ ⟨⟩; exact le_rfl }

theorem markInstant (h : p.Sound) (x : PerChannel Sample) : (p.markInstant x).Sound :=
  h.readTime.modLcu { h.readTime.lcu with
    channels := h.lcu.channels
    sampled := by rintro _ ⟨⟩; exact ⟨le_rfl, fun _ => Nat.le_add_right _ _⟩
    read := by rintro _ ⟨⟩; exact ⟨_, rfl, le_rfl⟩ }

theorem workAt (h : p.Sound) (due : SiteTime → Part → Bool) {work : SiteTime → Part → Part}
    (hw : ∀ now (q : Part), q.Sound → (work now q).Sound) : (p.workAt due work).Sound := by
  unfold Part.workAt
  split
  · exact hw _ _ h.readTime
  · exact h

theorem instantWork (h : p.Sound) : p.instantWork.Sound := by
  unfold Part.instantWork
  split
  · exact (h.expireBoth _).dueChecks _
  · exact h

theorem sampleAll (h : p.Sound) (hi : p.csu.image.isSome = true) (x : PerChannel Sample) : (p.sampleAll x).Sound :=
  Part.Sound.instantWork (Part.Sound.sampleFour (h.markInstant x) hi x)

/-- At a sampling instant an image is in use. -/
theorem sampleDue_image (h : p.Sound) (hd : p.sampleDue = true) : p.csu.image.isSome = true := by
  simp only [Part.sampleDue, Bool.and_eq_true] at hd
  exact h.working_iff.mp hd.1

theorem sampleIf (h : p.Sound) (f : SampleResult → Bool) (ch : Channel) (x : PerChannel Sample) : (p.sampleIf f ch x).Sound := by
  unfold Part.sampleIf
  split
  · rename_i hd
    exact h.sampleAll (h.sampleDue_image (Bool.and_eq_true _ _ ▸ hd).1) x
  · exact h

/-! ## TOU -/

theorem fire (h : p.Sound) (o : Output) (tag : Count16) : (p.fire o tag).Sound := by
  simp only [Part.fire]
  split
  · exact Part.Sound.reportTrig (h.modOutput id) _ _
  · exact h.modOutput id

theorem makeFiring (h : p.Sound) (o : Output) (r : Timing) : (p.makeFiring o r).Sound := by
  simp only [Part.makeFiring]
  repeat' split
  · exact h.reportTrig _ _
  · exact (h.reportTrig _ _).fire _ _
  · exact h.fire _ _
  · rename_i hl
    exact h.modOutput fun _ => by simp only [scheduleFiring, insertBefore_length]; omega
  · exact h.reportTrig _ _

theorem frontOn (h : p.Sound) (r : Timing) (o : Output) : (p.frontOn r o).Sound := by
  simp only [Part.frontOn]
  repeat' split
  all_goals first | exact h | exact h.makeFiring _ _ | exact h.modOutput id

theorem grossOn (h : p.Sound) (r : Timing) (g : Nat) (o : Output) : (p.grossOn r g o).Sound := by
  simp only [Part.grossOn]
  repeat' split
  all_goals first | exact h | exact Part.Sound.makeFiring (h.modOutput id) _ _

theorem classOn (h : p.Sound) (r : Timing) (c : Fin 32) (o : Output) : (p.classOn r c o).Sound := by
  simp only [Part.classOn]
  repeat' split
  all_goals first | exact h | exact h.makeFiring _ _

theorem frontReport (h : p.Sound) (r : Timing) : (p.frontReport r).Sound := by
  simp only [Part.frontReport, Part.toOutputs]
  split
  · exact ((h.frontOn _ _).frontOn _ _).frontOn _ _
  · exact h

theorem grossReport (h : p.Sound) (r : Timing) (g : Nat) : (p.grossReport r g).Sound := by
  simp only [Part.grossReport, Part.toOutputs]
  split
  · exact ((h.grossOn _ _ _).grossOn _ _ _).grossOn _ _ _
  · exact h

theorem classReport (h : p.Sound) (r : Timing) (c : Fin 32) : (p.classReport r c).Sound := by
  simp only [Part.classReport, Part.toOutputs]
  split
  · exact ((h.classOn _ _ _).classOn _ _ _).classOn _ _ _
  · exact h

theorem restOutputs (h : p.Sound) : (p.modTou fun _ => Tou.atRest).Sound :=
  h.modTou ⟨Nat.zero_le _, Nat.zero_le _, Nat.zero_le _⟩

theorem foldl_fire (o : Output) (l : List Firing) :
    ∀ {p : Part}, p.Sound → (l.foldl (fun q f => q.fire o f.tag) p).Sound := by
  induction l with
  | nil => intro p h; exact h
  | cons x xs ih => intro p h; exact ih (h.fire _ _)

theorem fireDue (h : p.Sound) (o : Output) : (p.fireDue o).Sound :=
  foldl_fire o _ (h.modOutput fun hl => (List.length_filter_le _ _).trans hl)

end Part.Sound

end Sys2Proof.Machine
end

