-- ==== Sys2Proof/Laws/SoundVehicles.lean ====
section
/-! SUPPORT. Soundness is kept by the vehicle assembly unit and the class walk. -/

set_option Elab.async false

namespace Sys2Proof.Machine

/-! ## The pending wheel list through the work on vehicles -/

@[simp] theorem Part.reportTrig_waiting (x : TrigFlag) (tag : Count16) (p : Part) : (p.reportTrig x tag).vau.waiting = p.vau.waiting := by
  unfold Part.reportTrig; (repeat' split) <;> rfl
@[simp] theorem Part.fire_waiting (o : Output) (tag : Count16) (p : Part) : (p.fire o tag).vau.waiting = p.vau.waiting := by
  simp only [Part.fire]; (repeat' split) <;> simp
@[simp] theorem Part.makeFiring_waiting (o : Output) (r : Timing) (p : Part) : (p.makeFiring o r).vau.waiting = p.vau.waiting := by
  simp only [Part.makeFiring]; (repeat' split) <;> simp
@[simp] theorem Part.frontOn_waiting (r : Timing) (o : Output) (p : Part) : (p.frontOn r o).vau.waiting = p.vau.waiting := by
  simp only [Part.frontOn]; (repeat' split) <;> simp
@[simp] theorem Part.grossOn_waiting (r : Timing) (g : Nat) (o : Output) (p : Part) : (p.grossOn r g o).vau.waiting = p.vau.waiting := by
  simp only [Part.grossOn]; (repeat' split) <;> simp
@[simp] theorem Part.frontReport_waiting (r : Timing) (p : Part) : (p.frontReport r).vau.waiting = p.vau.waiting := by
  simp only [Part.frontReport, Part.toOutputs]; split <;> simp
@[simp] theorem Part.grossReport_waiting (r : Timing) (g : Nat) (p : Part) : (p.grossReport r g).vau.waiting = p.vau.waiting := by
  simp only [Part.grossReport, Part.toOutputs]; split <;> simp
@[simp] theorem Part.requestPort_waiting (r : Requester) (p : Part) : (p.requestPort r).vau.waiting = p.vau.waiting := by
  unfold Part.requestPort; split <;> rfl
@[simp] theorem Part.askWalk_waiting (p : Part) : (p.askWalk).vau.waiting = p.vau.waiting := by
  unfold Part.askWalk; split <;> simp
@[simp] theorem Part.reportGross_waiting (p : Part) : (p.reportGross).vau.waiting = p.vau.waiting := by
  unfold Part.reportGross; split <;> simp
@[simp] theorem Part.weighVehicle_waiting (p : Part) : (p.weighVehicle).vau.waiting = p.vau.waiting := by
  simp only [Part.weighVehicle]; split <;> simp
@[simp] theorem Part.handOver_waiting (f : Count16 → Count16 → Count16 → VehicleRecord) (p : Part) : (p.handOver f).vau.waiting = p.vau.waiting := by
  simp only [Part.handOver]; split <;> simp
@[simp] theorem Part.closeVehicle_waiting (c : CloseCause) (p : Part) : (p.closeVehicle c).vau.waiting = p.vau.waiting := by
  simp only [Part.closeVehicle]; split <;> simp
@[simp] theorem Part.closeIfDue_waiting (p : Part) : (p.closeIfDue).vau.waiting = p.vau.waiting := by
  unfold Part.closeIfDue; (repeat' split) <;> simp
@[simp] theorem Part.openVehicle_waiting (b : Bool) (a : Axle) (p : Part) : (p.openVehicle b a).vau.waiting = p.vau.waiting := by
  simp [Part.openVehicle]
@[simp] theorem Part.joinAxle_waiting (a : Axle) (v : Vehicle) (p : Part) : (p.joinAxle a v).vau.waiting = p.vau.waiting := by
  simp [Part.joinAxle]
@[simp] theorem Part.handAxle_waiting (a : Axle) (p : Part) : (p.handAxle a).vau.waiting = p.vau.waiting := by
  simp only [Part.handAxle]; (repeat' split) <;> simp
@[simp] theorem Part.cedeAxle_waiting (p : Part) : (p.cedeAxle).vau.waiting = p.vau.waiting := by
  simp only [Part.cedeAxle]; (repeat' split) <;> simp
@[simp] theorem Part.formStraddle_waiting (d q : Wheel) (n : Nat) (p : Part) : (p.formStraddle d q n).vau.waiting = p.vau.waiting := by
  simp only [Part.formStraddle]; (repeat' split) <;> simp
@[simp] theorem Part.formSingle_waiting (d : Wheel) (p : Part) : (p.formSingle d).vau.waiting = p.vau.waiting := by
  simp only [Part.formSingle]; (repeat' split) <;> simp
@[simp] theorem Part.formInLane_waiting (d k : Wheel) (p : Part) : (p.formInLane d k).vau.waiting = p.vau.waiting := by
  simp only [Part.formInLane]; (repeat' split) <;> simp
/-- Deciding a pending wheel leaves the pending wheel list shorter (R96). -/
theorem Part.decideWheel_waiting (p : Part) (d : Wheel) :
    (p.decideWheel d).vau.waiting.length ≤ (dropFirst (fun w => w.wheel.number = d.number) p.vau.waiting).length := by
  simp only [Part.decideWheel]
  (repeat' split) <;> simp [Part.takePending, Part.closeRecord, dropFirst_length_le]

/-! ## The axle list (R113 to R118) -/

theorem axles_partition (a : Axle) (l : List Axle) : (axlesBefore a l).length + (axlesAfter a l).length = l.length := by
  have := List.takeWhile_append_dropWhile (p := fun x : Axle => decide (siteDiff x.leadTime a.leadTime ≤ 0)) (l := l)
  rw [← List.length_append]
  exact congrArg List.length this

theorem insertAxle_length (a : Axle) (l : List Axle) : (insertAxle a l).length = l.length + 1 := by
  have := axles_partition a l
  simp only [insertAxle]
  split <;> rename_i hs <;> simp only [hs, List.length_nil, List.length_cons] at this <;> simp <;> omega

namespace Part.Sound

variable {p : Part}

theorem askWalk (h : p.Sound) : p.askWalk.Sound := by
  unfold Part.askWalk
  split
  · rename_i hc
    simp only [Bool.and_eq_true, decide_eq_true_eq] at hc
    have hn : p.vcl.walk.record.isSome = true → False := fun hr => by
      have := h.vcl.walk.record.mp hr
      rw [hc.1] at this
      cases this
    exact Part.Sound.requestPort (h.modVcl { h.vcl with walk := { h.vcl.walk with
      record := ⟨fun hr => (hn hr).elim, fun hs => by cases hs⟩
      groups := fun _ => h.vcl.walk.groups (by rw [hc.1]; nofun) } }) _
  · exact h

theorem reportGross (h : p.Sound) : p.reportGross.Sound := by
  unfold Part.reportGross
  split
  · exact h.grossReport _ _
  · exact h

theorem weighVehicle (h : p.Sound) : p.weighVehicle.Sound := by
  simp only [Part.weighVehicle]
  split
  · exact h
  · rename_i veh hv
    refine Part.Sound.reportGross (h.modVau { h.vau with axles := ?_ })
    rintro _ ⟨⟩
    have := h.vau.axles veh hv
    split <;> simpa using this

theorem handOver (h : p.Sound) {f : Count16 → Count16 → Count16 → VehicleRecord}
    (hf : ∀ a b c, (f a b c).axles.length ≤ 12) : (p.handOver f).Sound := by
  have h1 : ((p.modVcl fun v => { v with seqCounter := v.seqCounter + 1 }).modTotals fun t =>
    { t with vehiclesCompleted := satInc t.vehiclesCompleted }).Sound := Part.Sound.modTotals (h.modVcl { h.vcl with })
  simp only [Part.handOver]
  split
  · rename_i hl
    exact Part.Sound.askWalk (h1.modVcl { h1.vcl with
      records := by simp; omega
      axles := fun r hr => by
        rcases List.mem_append.mp hr with hr | hr
        · exact h.vcl.axles r hr
        · exact List.mem_singleton.mp hr ▸ hf _ _ _ })
  · exact Part.Sound.modTotals (h1.modVcl { h1.vcl with })

end Part.Sound

theorem settleSpacings_length (v : Nat) (l : List Axle) : ∀ a : Option Axle, (settleSpacings v a l).length = l.length := by
  induction l with
  | nil => intro a; rfl
  | cons x xs ih => intro a; simp [settleSpacings, ih]

namespace Part.Sound

variable {p : Part}

theorem closeVehicle (h : p.Sound) (c : CloseCause) : (p.closeVehicle c).Sound := by
  have h1 := h.weighVehicle
  simp only [Part.closeVehicle]
  split
  · exact h1
  · rename_i veh hv
    refine Part.Sound.handOver (h1.modVau { h1.vau with axles := by intro x hx; cases hx }) fun _ _ _ => ?_
    have := h1.vau.axles veh hv
    simpa [settleSpacings_length] using this

theorem closeIfDue (h : p.Sound) : p.closeIfDue.Sound := by
  unfold Part.closeIfDue
  repeat' split
  all_goals first | exact h | exact h.closeVehicle _

theorem openVehicle (h : p.Sound) (b : Bool) (a : Axle) : (p.openVehicle b a).Sound := by
  unfold Part.openVehicle
  refine Part.Sound.reportGross (Part.Sound.frontReport (h.modVau { h.vau with axles := ?_ }) _)
  rintro _ ⟨⟩
  simp

theorem joinAxle (h : p.Sound) (a : Axle) (v : Vehicle) (hv : v.axles.length < 12) : (p.joinAxle a v).Sound := by
  unfold Part.joinAxle
  refine Part.Sound.reportGross (h.modVau { h.vau with axles := ?_ })
  rintro _ ⟨⟩
  simp only [joinVehicle, insertAxle_length]
  omega

theorem handAxle (h : p.Sound) (a : Axle) : (p.handAxle a).Sound := by
  have h1 := h.closeIfDue
  simp only [Part.handAxle]
  repeat' split
  · exact h1.openVehicle _ _
  · rename_i hl
    exact h1.joinAxle _ _ hl
  · exact (h1.closeVehicle _).openVehicle _ _
  · exact (h1.closeVehicle _).openVehicle _ _

theorem cedeAxle (h : p.Sound) : p.cedeAxle.Sound := by
  have h1 : ((p.modTotals fun t => { t with ceded := satInc t.ceded }).modVcl fun v =>
    { v with cededCarry := satInc v.cededCarry }).Sound := Part.Sound.modVcl h.modTotals { h.vcl with }
  simp only [Part.cedeAxle]
  split
  · exact h1.closeVehicle _
  · exact h1

theorem takePending (h : p.Sound) (n : Count16) : (p.takePending n).Sound :=
  Part.Sound.closeRecord (h.modVau { h.vau with waiting := (dropFirst_length_le _ _).trans h.vau.waiting }) n

theorem formStraddle (h : p.Sound) (d q : Wheel) (n : Nat) : (p.formStraddle d q n).Sound := by
  have h1 : (p.modVau fun v => { v with peers := dropFirst (fun e => e.sender = n && e.wheel = q) v.peers }).Sound :=
    h.modVau { h.vau with
      peers := (dropFirst_length_le _ _).trans h.vau.peers
      distinct := h.vau.distinct.sublist (dropFirst_sublist _ _) }
  simp only [Part.formStraddle]
  repeat' split
  · exact h1.handAxle _
  · exact h1.handAxle _
  · exact h1.cedeAxle

theorem formSingle (h : p.Sound) (d : Wheel) : (p.formSingle d).Sound := by
  simp only [Part.formSingle]
  split <;> exact h.handAxle _

theorem formInLane (h : p.Sound) (d k : Wheel) : (p.formInLane d k).Sound := by
  simp only [Part.formInLane]
  split <;> exact h.handAxle _

theorem decideWheel (h : p.Sound) (d : Wheel) : (p.decideWheel d).Sound := by
  have h1 := h.takePending d.number
  simp only [Part.decideWheel]
  repeat' split
  · exact Part.Sound.formInLane (h1.takePending _) _ _
  · exact h1.formStraddle _ _ _
  · exact h1.formSingle _

theorem removeAged (h : p.Sound) : p.removeAged.Sound :=
  h.modVau { h.vau with
    peers := (List.length_filter_le _ _).trans h.vau.peers
    distinct := h.vau.distinct.sublist List.filter_sublist }

theorem placeWheel (h : p.Sound) (w : IntakeWheel) : (p.placeWheel w).Sound := by
  have hw := h.vau.waiting
  simp only [Part.placeWheel]
  repeat' split
  · rename_i hl
    exact h.modVau { h.vau with waiting := by simp; omega }
  · rename_i hs
    exact h.modVau { h.vau with waiting := by simp [hs] }
  · rename_i oldest rest hs
    have h1 : (p.modVau fun v => { v with forcedDecisions := satInc v.forcedDecisions }).Sound := h.modVau { h.vau with }
    have h2 := h1.decideWheel oldest.wheel
    refine h2.modVau { h2.vau with waiting := ?_ }
    have hd := Part.decideWheel_waiting (p.modVau fun v => { v with forcedDecisions := satInc v.forcedDecisions }) oldest.wheel
    simp only [Part.modVau_vau, hs, dropFirst, decide_true, if_true] at hd
    simp only [hs, List.length_cons] at hw
    simp only [List.length_append, List.length_cons, List.length_nil]
    omega

theorem foldl_placeWheel (l : List IntakeWheel) : ∀ {p : Part}, p.Sound → (l.foldl Part.placeWheel p).Sound := by
  induction l with
  | nil => intro p h; exact h
  | cons x xs ih => intro p h; exact ih (h.placeWheel x)

theorem placeIntake (h : p.Sound) : p.placeIntake.Sound :=
  foldl_placeWheel _ (h.modVau { h.vau with intake := Nat.zero_le _ })

theorem decideAll (f : PendingWheel → Bool) (n : Nat) : ∀ {p : Part}, p.Sound → (p.decideAll f n).Sound := by
  induction n with
  | zero => intro p h; exact h
  | succ n ih =>
    intro p h
    simp only [Part.decideAll]
    split
    · exact h
    · exact ih (h.decideWheel _)

theorem formerWork (h : p.Sound) : p.formerWork.Sound := by
  have h1 := h.removeAged.placeIntake
  exact Part.Sound.closeIfDue (decideAll _ _ (decideAll _ _ h1))

theorem markTimer (h : p.Sound) : p.markTimer.Sound := by
  unfold Part.markTimer
  repeat' split
  · exact h
  · rename_i v hv _
    exact Part.Sound.requestPort (h.modVau { h.vau with axles := by rintro _ ⟨⟩; exact h.vau.axles v hv }) _
  · exact h

/-! ## The class walk -/

end Part.Sound

theorem numberGroups_length (l : List (List RecordAxle)) : ∀ i j, (numberGroups i j l).length = l.length := by
  induction l with
  | nil => intro i j; rfl
  | cons x xs ih => intro i j; simp [numberGroups, ih]

theorem splitGroups_length (gmax : Nat) (l : List RecordAxle) : (splitGroups gmax l).length ≤ l.length := by
  induction l with
  | nil => simp [splitGroups]
  | cons a rest ih =>
    simp only [splitGroups]
    split
    · rename_i hg
      rw [hg] at ih
      split <;> simp only [List.length_cons] at ih ⊢ <;> omega
    · simp only [List.length_cons]; omega

/-- A record of at most 12 axles has at most 12 groups (R133). -/
theorem groupsOf_length (gmax : Nat) (l : List RecordAxle) : (groupsOf gmax l).length ≤ l.length := by
  rw [groupsOf, numberGroups_length]
  exact splitGroups_length gmax l

theorem firstMatch_lt (groups : List AxleGroup) (v : VehicleRecord) (l : List ClassRule) :
    ∀ {i : Nat} {m : Nat × ClassRule}, firstMatch groups v i l = some m → m.1 < i + l.length := by
  induction l with
  | nil => intro i m h; cases h
  | cons r rest ih =>
    intro i m h
    simp only [firstMatch] at h
    split at h
    · cases h; simp
    · have := ih h
      simp only [List.length_cons]
      omega

/-- A walk examines no more rules than there are (R132). -/
theorem rulesExamined_le (groups : List AxleGroup) (v : VehicleRecord) (rules : List ClassRule) :
    rulesExamined groups v rules ≤ rules.length := by
  unfold rulesExamined
  split
  · rename_i m hm
    have := firstMatch_lt groups v rules hm
    omega
  · exact le_rfl

/-- A resting walk (R132). -/
theorem restingWalk_fits {n t : Nat} (hn : n ≤ 32) : (restingWalk n t).Fits :=
  ⟨by simp [restingWalk], fun _ => rfl, Nat.zero_le _, hn⟩

namespace Part.Sound

variable {p : Part}

/-- At most 32 class rules are in force (section 8.1). -/
theorem rules_le (h : p.Sound) : p.image.rules.length ≤ 32 := by
  unfold Part.image
  cases hi : p.csu.image with
  | none => decide
  | some i => exact (h.csu.image i hi).rules.length

theorem startWalk (h : p.Sound) : p.startWalk.Sound := by
  unfold Part.startWalk
  split
  · exact h
  · rename_i r hr
    refine Part.Sound.modVau (h.modVcl { h.vcl with
      walk := ⟨by simp, fun hn => absurd rfl hn,
        (groupsOf_length _ _).trans (h.vcl.axles r (List.mem_of_find?_eq_some hr)), Nat.zero_le _⟩ }) { h.vau with }

theorem releaseWalk (h : p.Sound) (hw : p.vcl.walk.state = .idle) : p.releaseWalk.Sound := by
  have hf := h.vcl.walk
  unfold Part.releaseWalk
  split
  · refine Part.Sound.releasePort (Part.Sound.modVau (h.modVcl { h.vcl with walk := { hf with
      record := ⟨fun hr => ?_, fun hs => by cases hs⟩, groups := fun _ => hf.groups (by rw [hw]; nofun) } }) { h.vau with })
    have := hf.record.mp hr
    rw [hw] at this
    cases this
  · exact h.releasePort

theorem endWalk (h : p.Sound) {v : VehicleRecord} (hv : v ∈ p.vcl.records) : (p.endWalk v).Sound := by
  refine Part.Sound.offerVehicle (Part.Sound.classReport (Part.Sound.releaseWalk (Part.Sound.modTotals (h.modVcl { h.vcl with
    records := ?_, axles := ?_, walk := ?_ })) rfl) _ _)
  · simpa using h.vcl.records
  · intro r hr
    rcases mem_changeFirst hr with hr | ⟨_, -, -, rfl⟩
    · exact h.vcl.axles r hr
    · exact h.vcl.axles v hv
  · exact restingWalk_fits ((rulesExamined_le _ _ _).trans h.rules_le)

end Part.Sound

end Sys2Proof.Machine
end

