-- ==== Sys2Proof/Laws/SoundControl.lean ====
section
/-! SUPPORT. Soundness is kept by the control unit, the bus, the image load, and so by every command and every step's parts. -/

set_option Elab.async false

namespace Sys2Proof.Machine

/-! ## What the changes of station state leave alone -/

theorem foldl_closeRecord_eq (l : List Count16) :
    ∀ p : Part, ∃ u, l.foldl (fun q n => q.closeRecord n) p = { p with pse := u } ∧
      ∃ s, u = { p.pse with store := s } ∧ s.length = p.pse.store.length := by
  induction l with
  | nil => intro p; exact ⟨p.pse, rfl, p.pse.store, rfl, rfl⟩
  | cons n ns ih =>
    intro p
    obtain ⟨u, hu, s, hs, hl⟩ := ih (p.closeRecord n)
    exact ⟨u, hu, s, hs, by simpa [Part.closeRecord, closeStored] using hl⟩

/-- Clearing the pending wheels changes nothing of the CSU (R109). -/
@[simp] theorem Part.clearPending_csu (p : Part) : p.clearPending.csu = p.csu := by
  obtain ⟨u, hu, -⟩ := foldl_closeRecord_eq
    ((p.vau.intake.map fun w => w.wheel.number) ++ (p.vau.waiting.map fun w => w.wheel.number)) p
  simp only [Part.clearPending, hu]
  rfl

@[simp] theorem Part.markHoldCut_csu (p : Part) : p.markHoldCut.csu = p.csu := by
  simp only [Part.markHoldCut]
  split <;> simp

theorem foldl_leftUnsent_csu (l : List TxEntry) : ∀ p : Part, (l.foldl (fun q e => q.leftUnsent e) p).csu = p.csu := by
  induction l with
  | nil => intro p; rfl
  | cons e es ih => intro p; simp [ih]

@[simp] theorem Part.flushList_csu (p : Part) : p.flushList.csu = p.csu := by
  simp [Part.flushList, foldl_leftUnsent_csu]

@[simp] theorem Part.cutAndFlush_csu (p : Part) : p.cutAndFlush.csu = p.csu := by
  unfold Part.cutAndFlush
  split <;> simp

@[simp] theorem Part.dropWaitingWheels_csu (p : Part) : p.dropWaitingWheels.csu = p.csu := by
  simp [Part.dropWaitingWheels]

/-! ## Legal station states -/

theorem Csu.Sound.run_hold {c : Csu} (h : c.Sound) (hs : c.station = .join ∨ c.station = .run ∨ c.station = .hold)
    {st : StationState} (ht : st = .run ∨ st = .hold) : ({ c with station := st } : Csu).Sound := by
  refine { h with legal := ?_ }
  have hl := h.legal
  rcases hs with hs | hs | hs <;> rcases ht with rfl | rfl <;> simpa [Csu.legal, hs] using hl

theorem Csu.Sound.silent {c : Csu} (h : c.Sound)
    (hs : c.station = .unconfigured ∨ c.station = .join ∨ c.station = .run ∨ c.station = .hold) {d : Bool} :
    ({ c with station := .silent, deferred := d } : Csu).Sound := by
  refine { h with legal := ?_ }
  have hl := h.legal
  rcases hs with hs | hs | hs | hs <;> simp only [Csu.legal, hs, Bool.and_eq_true] at hl ⊢ <;> simp [hl]

namespace Part.Sound

variable {p : Part}

theorem clearPending (h : p.Sound) : p.clearPending.Sound := by
  obtain ⟨u, hu, s, hs, hl⟩ := foldl_closeRecord_eq
    ((p.vau.intake.map fun w => w.wheel.number) ++ (p.vau.waiting.map fun w => w.wheel.number)) p
  have hst := h.pse.store
  simp only [Part.clearPending, hu]
  exact { h with
    pse := by subst hs; exact { h.pse with store := by simp only [Part.modVau_pse]; omega }
    vau := { h.vau with intake := Nat.zero_le _, waiting := Nat.zero_le _ } }

theorem markHoldCut (h : p.Sound) : p.markHoldCut.Sound := by
  simp only [Part.markHoldCut]
  split
  · exact h
  · rename_i v hv
    exact Part.Sound.requestPort (h.modVau { h.vau with axles := by rintro _ ⟨⟩; exact h.vau.axles v hv }) _

theorem emptied (h : p.Sound) : (p.modPse Pse.emptied).Sound :=
  h.modPse ⟨Nat.zero_le _, Nat.zero_le _, Nat.zero_le _, Nat.zero_le _, Nat.zero_le _, Nat.zero_le _, Nat.zero_le _, h.pse.store⟩

theorem setStation (h : p.Sound) (hs : p.csu.station = .join ∨ p.csu.station = .run ∨ p.csu.station = .hold)
    {st : StationState} (ht : st = .run ∨ st = .hold) : (p.setStation st).Sound :=
  h.modCsu (h.csu.run_hold hs ht) rfl rfl

theorem enterHold (h : p.Sound) (hs : p.csu.station = .run) : p.enterHold.Sound := by
  have h1 : ((p.modPse Pse.emptied).clearPending.markHoldCut).restOutputs.Sound :=
    Part.Sound.restOutputs h.emptied.clearPending.markHoldCut
  refine Part.Sound.setMark (Part.Sound.dropWaitingWheels (h1.setStation ?_ (.inr rfl))) _
  simp [Part.restOutputs, hs]

theorem returnToRun (h : p.Sound) (hs : p.csu.station = .hold) : p.returnToRun.Sound :=
  Part.Sound.setMark (h.setStation (.inr (.inr hs)) (.inl rfl)) _

theorem applyHold (h : p.Sound) : p.applyHold.Sound := by
  simp only [Part.applyHold]
  split
  · rename_i hc
    simp only [Bool.and_eq_true, decide_eq_true_eq] at hc
    exact h.enterHold hc.1
  · split
    · rename_i hc
      simp only [Bool.and_eq_true, decide_eq_true_eq] at hc
      exact h.returnToRun hc.1
    · exact h

theorem takePin (h : p.Sound) (b : Bool) : (p.takePin b).Sound := by
  unfold Part.takePin
  split
  · exact h
  · exact Part.Sound.setMark (Part.Sound.applyHold (h.modCsu_same rfl rfl rfl rfl)) _

theorem takeCommandHold (h : p.Sound) (b : Bool) : (p.takeCommandHold b).Sound := by
  unfold Part.takeCommandHold
  split
  · exact h
  · exact Part.Sound.setMark (Part.Sound.applyHold (h.modCsu_same rfl rfl rfl rfl)) _

theorem cutAndFlush (h : p.Sound) : p.cutAndFlush.Sound := by
  unfold Part.cutAndFlush
  split
  · exact Part.Sound.modSbc h.flushList { h.flushList.sbc with }
  · exact h.flushList

theorem emptyReceiver (h : p.Sound) : p.emptyReceiver.Sound :=
  h.modSbc { h.sbc with
    rx := Nat.zero_le _
    frames := fun _ he => by cases he
    blind := Nat.zero_le _
    newest := .nil
    hearing := fun _ _ hx => by cases hx }

theorem openJoinWindow (h : p.Sound) : p.openJoinWindow.Sound := h.modStu h.stu

end Part.Sound

/-- Nothing is asked of what is absent. -/
theorem forall_of_none {α : Type} {q : α → Prop} : ∀ a, (none : Option α) = some a → q a := fun _ h => nomatch h

/-- Nothing is asked of the members of an empty list. -/
theorem forall_of_nil {α : Type} {q : α → Prop} : ∀ a ∈ ([] : List α), q a := fun _ h => nomatch h

/-- What holds of the value present holds of whatever is present. -/
theorem forall_of_some {α : Type} {x : α} {q : α → Prop} (h : q x) : ∀ a, some x = some a → q a :=
  fun _ e => Option.some.inj e ▸ h

/-- A read at byte 0 holds nothing aside (R176). -/
theorem Load.start_inRange : Load.start.InRange :=
  ⟨nofun, nofun, nofun, nofun, nofun, ⟨Nat.zero_le _, nofun⟩, nofun⟩

/-- The removals of a warm restart leave the list itself to be emptied (R162). -/
theorem Vcl.warmRestart_records (v : Vcl) : v.warmRestart.records = [] := rfl

/-- A warm restart keeps every channel sound (R19). -/
theorem Lcu.Sound.warmRestart {img : Option Image} {t : Nat} {l : Lcu} (h : l.Sound img t) (keep : Bool) :
    (l.warmRestart keep).Sound img t :=
  { h with
    channels := fun
      | .ll => (h.channels .ll).warmRestart keep
      | .lr => (h.channels .lr).warmRestart keep
      | .tl => (h.channels .tl).warmRestart keep
      | .tr => (h.channels .tr).warmRestart keep }

/-- A change of the channels that a mask names, when it keeps each of them sound. -/
theorem Lcu.Sound.changeMasked {img : Option Image} {t : Nat} {l : Lcu} (h : l.Sound img t) {f : ChannelRecord → ChannelRecord}
    (hf : ∀ c : ChannelRecord, c.Sound img → (f c).Sound img) (mask : Nat) :
    Lcu.Sound img t { l with channels := changeMasked mask f l.channels } :=
  { h with
    channels := fun ch => by
      cases ch <;> simp only [Machine.changeMasked, PerChannel.get] <;> split <;>
        first | exact hf _ (h.channels .ll) | exact hf _ (h.channels .lr) | exact hf _ (h.channels .tl) |
          exact hf _ (h.channels .tr) | exact h.channels .ll | exact h.channels .lr | exact h.channels .tl | exact h.channels .tr }

namespace Part.Sound

variable {p : Part}

theorem warmRestart (h : p.Sound) (hi : p.csu.image.isSome = true) (hb : p.csu.block.isSome = true)
    (hl : p.csu.load.isNone = true) : p.warmRestart.Sound := by
  have h1 := h.cutAndFlush.emptyReceiver
  have hc : p.cutAndFlush.emptyReceiver.csu = p.csu := by simp [Part.emptyReceiver]
  have h2 : (((p.cutAndFlush.emptyReceiver.modLcu (Lcu.warmRestart p.block.keepMarks)).modPse Pse.warmRestart).modVau
      Vau.warmRestart).Sound := by
    refine Part.Sound.modVau (Part.Sound.modPse (h1.modLcu ?_) ?_) ?_
    · exact h1.lcu.warmRestart _
    · exact ⟨Nat.zero_le _, Nat.zero_le _, Nat.zero_le _, Nat.zero_le _, Nat.zero_le _, Nat.zero_le _, Nat.zero_le _,
        Nat.zero_le _⟩
    · exact ⟨Nat.zero_le _, Nat.zero_le _, Nat.zero_le _, List.Pairwise.nil, by intro x hx; cases hx⟩
  have h3 := Part.Sound.restOutputs (Part.Sound.openJoinWindow (Part.Sound.modStu
    (f := Stu.warmRestart) (h2.modVcl (f := Vcl.warmRestart)
      { records := Nat.zero_le _, axles := forall_of_nil, walk := restingWalk_fits h2.vcl.walk.position }) (Nat.zero_le _)))
  refine Part.Sound.setMark (Part.Sound.beginTemperature (Part.Sound.modCsu h3 { h3.csu with legal := ?_ } rfl rfl)) _
  simp only [Part.openJoinWindow, Part.modTou_csu, Part.modStu_csu, Part.modVcl_csu, Part.modVau_csu, Part.modPse_csu,
    Part.modLcu_csu, hc, Csu.warmRestart, Csu.legal, hi, hb, hl, Bool.and_self]

theorem newLoad (h : p.Sound) (hi : p.csu.image = none) : p.newLoad.Sound := by
  have h1 := h.cutAndFlush.emptyReceiver
  have hc : p.cutAndFlush.emptyReceiver.csu = p.csu := by simp [Part.emptyReceiver]
  refine Part.Sound.setMark (Part.Sound.modCsu h1 (f := fun c => { c with station := .loading, load := some .start }) ?_ rfl rfl) _
  rw [hc]
  exact ⟨by simp [Csu.legal, hi, Load.start, Load.holdsStation], h.csu.image, h.csu.block, forall_of_some Load.start_inRange⟩

/-- A state that takes a command, or that stands in a state whose receiver is on, has a STATION block and no read. -/
theorem of_takes (h : p.Sound) {k : CommandKind} (ht : p.takesCommand k = true) :
    p.csu.block.isSome = true ∧ p.csu.load.isNone = true := by
  have hl := h.csu.legal
  unfold Part.takesCommand at ht
  unfold Csu.legal at hl
  cases hs : p.csu.station <;> simp_all

theorem restart (h : p.Sound) (ht : p.takesCommand .restart = true) : p.restart.Sound := by
  obtain ⟨hb, hl⟩ := h.of_takes ht
  unfold Part.restart
  split
  · rename_i hi
    exact h.warmRestart hi hb hl
  · rename_i hi
    exact h.newLoad (by simpa using hi)

theorem clearMarks (h : p.Sound) (a b : Byte) : (p.clearMarks a b).Sound := by
  have h1 : (p.modCsu fun c => { c with marks := removeMarks c.marks (markSetOf a.toNat) }).Sound := h.modCsu_same rfl rfl rfl rfl
  exact Part.Sound.clearProbeMarks (h1.modLcu (h1.lcu.changeMasked (fun _ => ChannelRecord.Sound.clearMark) _)) _

theorem rebaseline (h : p.Sound) (m : Byte) : (p.rebaseline m).Sound :=
  h.modLcu (h.lcu.changeMasked (fun _ => ChannelRecord.Sound.rebaseline) _)

theorem doCommand (h : p.Sound) {k : CommandKind} (ht : p.takesCommand k = true) (args : List Byte) :
    (p.doCommand k args).Sound := by
  cases k
  · exact h.takeCommandHold _
  · exact h.takeCommandHold _
  · exact h.restart ht
  · exact h.requestStatus
  · exact h.handFrame _ (by decide)
  · exact h.clearMarks _ _
  · exact h.rebaseline _

theorem recordResult (h : p.Sound) (c : Byte) (r : CommandResult) : (p.recordResult c r).Sound := h.modCsu_same rfl rfl rfl rfl

theorem judgeKnown (h : p.Sound) (k : CommandKind) (args : List Byte) : (p.judgeKnown k args).Sound := by
  simp only [Part.judgeKnown]
  split
  · exact h
  · split
    · rename_i hr
      refine Part.Sound.recordResult (h.doCommand ?_ args) _ _
      simp only [Part.judgement] at hr
      split at hr
      · cases hr
      · rename_i hn; simpa using hn
    · exact h.recordResult _ _

theorem judgeUnknown (h : p.Sound) (c : Byte) : (p.judgeUnknown c).Sound := by
  unfold Part.judgeUnknown
  split
  · exact h
  · exact h.recordResult _ _

theorem judge (h : p.Sound) (c : Byte) (args : List Byte) : (p.judge c args).Sound := by
  unfold Part.judge
  split
  · exact h.judgeKnown _ _
  · exact h.judgeUnknown _

theorem endJoin (h : p.Sound) (hs : p.csu.station = .join) : p.endJoin.Sound := by
  have h1 : (p.modStu fun u => { u with joinWindow := none }).handTime.Sound := Part.Sound.handTime (h.modStu h.stu)
  refine Part.Sound.setMark (h1.setStation (.inl (by simp [hs])) ?_) _
  split
  · exact .inr rfl
  · exact .inl rfl

/-! ## The bus -/

theorem popFrame (h : p.Sound) : p.popFrame.Sound :=
  h.modSbc { h.sbc with
    rx := by have := h.sbc.rx; simp only [List.length_drop]; omega
    frames := fun e he => h.sbc.frames e (List.mem_of_mem_drop he) }

theorem dispatchFrames (n : Nat) : ∀ {p : Part}, p.Sound → (p.dispatchFrames n).Sound := by
  induction n with
  | zero => intro p h; exact h
  | succ n ih =>
    intro p h
    simp only [Part.dispatchFrames]
    repeat' split
    · exact h
    · exact ih h.popFrame
    · exact h
    · exact ih (h.popFrame.takeTimeFrame _ _ _)
    · rename_i e _ hs _ sender probe c hf
      have := h.sbc.frames e (by rw [hs]; exact List.mem_cons_self)
      rw [hf] at this
      exact ih (h.popFrame.takeTempFrame _ _ this)
    · exact ih (h.popFrame.judge _ _)

theorem endDeaf (h : p.Sound) : p.endDeaf.Sound := by
  unfold Part.endDeaf
  split
  · have hc : ∀ x ∈ closeBlind p.now p.sbc.blind, x.close.isSome = true := fun x hx => by
      obtain ⟨y, -, rfl⟩ := List.mem_map.mp hx
      rfl
    exact h.modSbc { h.sbc with
      blind := by simpa [closeBlind] using h.sbc.blind
      newest := List.pairwise_of_forall_mem_list fun x hx _ _ => hc x hx
      hearing := fun _ => hc }
  · exact h

theorem dispatch (h : p.Sound) : p.dispatch.Sound := by
  have h1 := (dispatchFrames p.sbc.rx.length h).endDeaf
  simp only [Part.dispatch]
  split
  · exact h1.requestPort _
  · exact h1

theorem discardVehicle (h : p.Sound) : p.discardVehicle.Sound :=
  h.modVau { h.vau with axles := by intro x hx; cases hx }

theorem enterSilent (h : p.Sound) : p.enterSilent.Sound := by
  simp only [Part.enterSilent]
  split
  · exact h
  · rename_i hu
    have hs : p.csu.station = .unconfigured ∨ p.csu.station = .join ∨ p.csu.station = .run ∨ p.csu.station = .hold := by
      have := hu
      simp only [Part.usesLine, Part.onDuty, Bool.not_eq_true', Bool.not_eq_false, Bool.or_eq_true, decide_eq_true_eq] at this
      tauto
    have h1 := (Part.Sound.emptied h.cutAndFlush).clearPending.discardVehicle
    have h2 : (if p.csu.image.isSome then
        (((p.cutAndFlush.modPse Pse.emptied).clearPending).discardVehicle).restOutputs
        else ((p.cutAndFlush.modPse Pse.emptied).clearPending).discardVehicle).Sound := by
      split
      · exact Part.Sound.restOutputs h1
      · exact h1
    have hc : (if p.csu.image.isSome then
        (((p.cutAndFlush.modPse Pse.emptied).clearPending).discardVehicle).restOutputs
        else ((p.cutAndFlush.modPse Pse.emptied).clearPending).discardVehicle).csu = p.csu := by
      split <;> simp [Part.restOutputs, Part.discardVehicle]
    generalize (if p.csu.image.isSome then
        (((p.cutAndFlush.modPse Pse.emptied).clearPending).discardVehicle).restOutputs
        else ((p.cutAndFlush.modPse Pse.emptied).clearPending).discardVehicle) = q at h2 hc ⊢
    have h3 : (q.modStu fun u => { u with joinWindow := none }).Sound := h2.modStu h2.stu
    have h4 := Part.Sound.setMark (h3.modCsu (f := fun c => { c with station := .silent, deferred := false })
      (by rw [Part.modStu_csu, hc]; exact h.csu.silent hs) rfl rfl) .state
    exact Part.Sound.dispatch (h4.modVau { h4.vau with })

theorem removeStale (n : Nat) : ∀ {p : Part}, p.Sound → (p.removeStale n).Sound := by
  induction n with
  | zero => intro p h; exact h
  | succ n ih =>
    intro p h
    simp only [Part.removeStale]
    repeat' split
    · exact h
    · rename_i e rest hs _
      refine ih (Part.Sound.countStaleWheel (Part.Sound.countDrop (h.modSbc { h.sbc with list := ?_, order := ?_ })))
      · have := h.sbc.list
        simp only [hs, List.length_cons] at this ⊢
        omega
      · have := h.sbc.order
        rw [hs] at this
        exact this.of_cons
    · exact h

end Part.Sound

/-! No entry that enters the list is in transmission; only a start mark puts one there (R63, R65). -/

theorem Part.placeEntry_list {p : Part} {e x : TxEntry} (hx : x ∈ (p.placeEntry e).sbc.list) : x = e ∨ x ∈ p.sbc.list := by
  have aux : ∀ l : List TxEntry, x ∈ insertByKind e (dropNewest (waitingOfKind (leastUrgent l)) l) → x = e ∨ x ∈ l := by
    intro l hl
    rcases mem_insertBefore.mp hl with h | h
    · exact .inl h
    · exact .inr ((dropNewest_sublist _ _).subset h)
  simp only [Part.placeEntry] at hx
  repeat' split at hx
  · exact mem_insertBefore.mp hx
  · simp only [Part.countDrop, Part.modSbc_sbc, Part.leftUnsent_sbc] at hx
    exact aux _ hx
  · simp only [Part.countDrop, Part.modSbc_sbc] at hx
    exact aux _ hx
  · exact .inr (by simpa [Part.countDrop] using hx)
  · exact .inr (by simpa [Part.countDrop] using hx)

/-- No frame is in transmission. -/
def Part.AllWait (p : Part) : Prop := ∀ x ∈ p.sbc.list, x.inTransmission = false

theorem Part.AllWait.offerVehicle {p : Part} (h : p.AllWait) : p.offerVehicle.AllWait := by
  intro x hx
  unfold Part.offerVehicle at hx
  repeat' split at hx
  · exact h x hx
  · exact h x hx
  · simp only [Part.enterList] at hx
    split at hx
    · exact h x hx
    · rcases Part.placeEntry_list hx with rfl | hx
      · rfl
      · exact h x hx

theorem Part.AllWait.removeStale (n : Nat) : ∀ {p : Part}, p.AllWait → (p.removeStale n).AllWait := by
  induction n with
  | zero => intro p h; exact h
  | succ n ih =>
    intro p h
    simp only [Part.removeStale]
    repeat' split
    · exact h
    · rename_i e rest hs _
      refine ih fun x hx => h x ?_
      rw [hs]
      exact List.mem_cons_of_mem _ (by simpa [Part.countDrop] using hx)
    · exact h

theorem Part.allWait_of_sending {p : Part} (h : p.sending = none) : p.AllWait := fun x hx => by
  simpa using List.find?_eq_none.mp h x hx

namespace Part.Sound

variable {p : Part}

theorem startFrame (h : p.Sound) (hw : p.AllWait) : p.startFrame.Sound := by
  simp only [Part.startFrame]
  split
  · exact h
  · rename_i e rest hs
    have hl := h.sbc.list
    have ho := h.sbc.order
    rw [hs] at hl ho
    refine h.modSbc { h.sbc with list := by simpa using hl, order := ?_ }
    refine List.Pairwise.cons (fun x hx => ?_) ho.of_cons
    obtain ⟨a, b, -⟩ := (List.rel_of_pairwise_cons ho hx : TxEntry.Before e x)
    exact ⟨a, b, fun hc => by
      have hx' := hw x (by rw [hs]; exact List.mem_cons_of_mem _ hx)
      rw [hx'] at hc
      exact Bool.false_ne_true hc.2⟩

theorem beginFrame (h : p.Sound) (hn : p.sending = none) : p.beginFrame.Sound :=
  Part.Sound.startFrame (Part.Sound.offerVehicle (removeStale _ h)) ((Part.allWait_of_sending hn).removeStale _).offerVehicle

theorem loseContention (h : p.Sound) : p.loseContention.Sound :=
  Part.Sound.offerVehicle (Part.Sound.modSbc h.stopSending { h.stopSending.sbc with })

theorem abortFrame (h : p.Sound) : p.abortFrame.Sound := by
  have h1 := Part.Sound.offerVehicle (Part.Sound.setMark (Part.Sound.modSbc
    (f := fun b => { b with mismatches := satInc b.mismatches, lastMismatch := some p.clock, line := .quiet p.clock }) h.stopSending
    { h.stopSending.sbc with }) .bus)
  simp only [Part.abortFrame]
  split
  · exact h1.enterSilent
  · exact h1

theorem enterAsked (h : p.Sound) (c : TxContent) (hk : c.kind ≠ .vehicle) : (p.enterList c p.now).Sound :=
  h.enterList c _ fun he => absurd he hk

theorem afterFrame (h : p.Sound) (e : TxEntry) : (p.afterFrame e).Sound := by
  simp only [Part.afterFrame]
  split
  · exact h
  · exact h
  · exact h.modVcl { h.vcl with
      records := (dropFirst_length_le _ _).trans h.vcl.records
      axles := fun r hr => h.vcl.axles r ((dropFirst_sublist _ _).subset hr) }
  · split
    · exact h.enterAsked _ (by simp [TxContent.kind])
    · exact h
  · split
    · exact h.enterAsked _ (by decide)
    · exact h
  · cases e.snapshot with
    | none =>
      simp only
      split
      · exact h.enterAsked _ (by decide)
      · exact h
    | some snap =>
      have h1 : (p.modTotals fun t => reduceTotals t snap).Sound := h.modTotals
      simp only
      split
      · exact h1.enterAsked .totals (by decide)
      · exact h1

theorem completeFrame (h : p.Sound) (e : TxEntry) : (p.completeFrame e).Sound :=
  Part.Sound.offerVehicle (Part.Sound.afterFrame (Part.Sound.modSbc h
    { h.sbc with
      list := (dropFirst_length_le _ _).trans h.sbc.list
      order := h.sbc.order.sublist (dropFirst_sublist _ _) }) e)

theorem countFormat (h : p.Sound) : p.countFormat.Sound := h.modSbc { h.sbc with }
theorem countCrc (h : p.Sound) : p.countCrc.Sound := h.modTotals
theorem stopFollowing (h : p.Sound) (l : LineState) : (p.stopFollowing l).Sound := h.modSbc { h.sbc with }
theorem hearUse (h : p.Sound) : p.hearUse.Sound := h.modSbc { h.sbc with }

end Part.Sound

theorem reopenNewest_length (l : List BlindInterval) : (reopenNewest l).length = l.length := by
  induction l with
  | nil => rfl
  | cons x rest ih => cases rest <;> simp_all [reopenNewest]

theorem openBlind_length (t : SiteTime) {l : List BlindInterval} (h : l.length ≤ 4) : (openBlind t l).length ≤ 4 := by
  have := List.length_filter_le (fun b => !blindOld t b) l
  simp only [openBlind]
  split
  · simp; omega
  · rw [reopenNewest_length]; omega

/-- Only the newest blind interval is open after one has opened (R74). -/
theorem openBlind_newest (t : SiteTime) {l : List BlindInterval} (h : ∀ x ∈ l, x.close.isSome = true) :
    (openBlind t l).Pairwise fun x _ => x.close.isSome = true := by
  have hk : ∀ x ∈ l.filter fun b => !blindOld t b, x.close.isSome = true := fun x hx => h x (List.mem_filter.mp hx).1
  have aux : ∀ l : List BlindInterval, (∀ x ∈ l, x.close.isSome = true) →
      (reopenNewest l).Pairwise fun x _ => x.close.isSome = true := by
    intro l
    induction l with
    | nil => intro _; exact .nil
    | cons a rest ih =>
      intro hl
      cases rest with
      | nil => exact List.pairwise_singleton _ _
      | cons b rest =>
        exact .cons (fun _ _ => hl a List.mem_cons_self) (ih fun x hx => hl x (List.mem_cons_of_mem _ hx))
  simp only [openBlind]
  split
  · exact List.pairwise_append.mpr ⟨List.pairwise_of_forall_mem_list fun x hx _ _ => hk x hx, List.pairwise_singleton _ _, fun a ha _ _ => hk a ha⟩
  · exact aux _ hk

/-- What the content check lets through is in range (R196). -/
theorem parseContent_inRange {k : FrameKind} {n : Nat} {b : List Byte} {f : RxFrame} (h : parseContent k n b = some f) :
    f.InRange := by
  cases f with
  | temp s pr c =>
    cases k <;> simp only [parseContent, reduceCtorEq, Option.map_eq_some_iff, and_false, exists_false] at h
    · split at h <;> cases h
    · split at h <;> cases h
    · obtain ⟨x, hx, he⟩ := h
      simp only [parseTemp] at hx
      repeat' split at hx
      all_goals try cases hx
      all_goals
        rename_i hg
        cases he
        simpa [RxFrame.InRange] using hg
  | wheel _ _ => trivial
  | time _ _ => trivial
  | command _ _ => trivial

theorem takePeer_fits (e : PeerWheel) {v : Vau} (h : v.Fits) : (takePeer e v).Fits := by
  have hl : (v.peers.filter fun x => !samePeer x e).length ≤ 32 := (List.length_filter_le _ _).trans h.peers
  have hd : (insertBefore (peerAfter e.wheel.refTime) e (v.peers.filter fun x => !samePeer x e)).Pairwise
      fun a b => a.sender ≠ b.sender ∨ a.wheel.number ≠ b.wheel.number := by
    refine ((insertBefore_perm _ e _).pairwise_iff fun k => k.imp Ne.symm Ne.symm).2 ?_
    refine List.pairwise_cons.2 ⟨fun x hx => ?_, h.distinct.sublist List.filter_sublist⟩
    have hx := (List.mem_filter.1 hx).2
    simp only [samePeer, Bool.not_eq_true', Bool.and_eq_false_iff, decide_eq_false_iff_not] at hx
    exact hx.imp Ne.symm Ne.symm
  simp only [takePeer]
  split
  · exact { h with peers := by assumption, distinct := hd }
  · exact { h with peers := by simp only [List.length_drop, insertBefore_length]; omega, distinct := hd.sublist (List.drop_sublist _ _) }

namespace Part.Sound

variable {p : Part}

theorem overrun (h : p.Sound) (hd : p.sbc.deaf = false) : p.overrun.Sound :=
  Part.Sound.setMark (Part.Sound.modSbc h.modTotals { h.sbc with
    blind := openBlind_length _ h.sbc.blind
    newest := openBlind_newest _ (h.sbc.hearing hd)
    hearing := fun hd' => by cases hd' }) _

theorem offerFrame (h : p.Sound) {f : RxFrame} (hf : f.InRange) (c : Capture) : (p.offerFrame f c).Sound := by
  unfold Part.offerFrame
  repeat' split
  · exact h.modSbc { h.sbc with }
  · rename_i hl
    exact Part.Sound.dispatch (h.modSbc { h.sbc with
      rx := by simp; omega
      frames := fun e he => by
        rcases List.mem_append.mp he with he | he
        · exact h.sbc.frames e he
        · exact List.mem_singleton.mp he ▸ hf })
  · rename_i hd _
    exact h.overrun (by simpa using hd)

theorem takeFrame (h : p.Sound) (k : FrameKind) (n : Nat) (b : List Byte) (c : Capture) : (p.takeFrame k n b c).Sound := by
  unfold Part.takeFrame
  repeat' split
  · exact h.enterSilent
  · exact h
  · exact h.countFormat
  · rename_i hf
    exact h.offerFrame (parseContent_inRange hf) _

theorem receiveFrame (h : p.Sound) (b : List Byte) (c : Capture) : (p.receiveFrame b c).Sound := by
  simp only [Part.receiveFrame]
  split
  · exact (h.stopFollowing _).countCrc
  · exact (h.stopFollowing _).countCrc
  · exact (h.stopFollowing _).countFormat
  · exact (h.stopFollowing _).countFormat
  · exact (h.stopFollowing _).takeFrame _ _ _ _

theorem insertPeer (h : p.Sound) (n : Nat) (w : Wheel) : (p.insertPeer n w).Sound := by
  simp only [Part.insertPeer]
  split
  · exact h.modVau { takePeer_fits _ h.vau with }
  · exact h

theorem releaseDispatcher (h : p.Sound) : p.releaseDispatcher.Sound := by
  unfold Part.releaseDispatcher
  split
  · exact Part.Sound.releasePort (h.modVau { h.vau with })
  · exact h.releasePort

theorem serveWheel (h : p.Sound) : p.serveWheel.Sound := by
  have h1 := h.removeAged
  simp only [Part.serveWheel]
  repeat' split
  · exact h1.releaseDispatcher
  · exact Part.Sound.releaseDispatcher (Part.Sound.endDeaf (dispatchFrames _ (h1.insertPeer _ _).popFrame))
  · exact h1.releaseDispatcher
  · exact h1.releaseDispatcher
  · exact h1.releaseDispatcher

/-! ## The image load -/

end Part.Sound

/-- A channel at rest is sound under any image that comes into use (R2). -/
theorem ChannelRecord.Sound.accept {c : ChannelRecord} (h : c.Sound none) (i : Image) : c.Sound (some i) :=
  ⟨h.range, fun _ _ => by have := (h.rest rfl).state; constructor <;> simp [this], nofun⟩

namespace Part.Sound

variable {p : Part}

/-- While no image is in use, the CSU may take another STATION block. -/
theorem modCsu_unloaded (h : p.Sound) (hn : p.csu.image = none) {f : Csu → Csu} (hf : (f p.csu).Sound)
    (hi : (f p.csu).image = none) : (p.modCsu f).Sound :=
  { h with
    csu := hf
    lcu := by rw [Part.modCsu_csu, hi, ← hn]; exact h.lcu
    ptu := { h.ptu with others := fun e he => by have := (h.ptu.others e he).1; simp [hn] at this } }

theorem acceptImage (h : p.Sound) {l : Load} (hn : p.csu.image = none) (hl : l.InRange) (hs : l.station.isSome = true)
    (hst : l.strips.isSome = true) (has : l.assembly.isSome = true) : (p.acceptImage l).Sound := by
  have hc : Csu.Sound { p.csu with
      station := .join, block := l.station, image := some (imageOf l), loadFault := none, load := none,
      periodicSince := some p.clock } :=
    ⟨by simp [Csu.legal, hs], forall_of_some (imageOf_inRange hl hst has), hl.station, forall_of_none⟩
  have h1 : ((p.modCsu fun c => { c with
      station := .join, block := l.station, image := some (imageOf l), loadFault := none, load := none,
      periodicSince := some p.clock }).startBus.startSampling).Sound :=
    { h with
      csu := hc
      lcu := ⟨fun ch => ChannelRecord.Sound.accept (by have := h.lcu.channels ch; rwa [hn] at this) _, nofun, nofun, nofun⟩
      sbc := { h.sbc with }
      ptu := { h.ptu with others := fun e he => by have := (h.ptu.others e he).1; simp [hn] at this } }
  exact Part.Sound.setMark (Part.Sound.beginTemperature (Part.Sound.restOutputs (Part.Sound.openJoinWindow h1))) _

theorem refuseImage (h : p.Sound) {l : Load} (hn : p.csu.image = none) (hr : l.InRange) (hl : l.holdsStation = true)
    (c : FaultCode) (o : Option Nat) : (p.refuseImage l c o).Sound := by
  simp only [Part.refuseImage]
  split
  · exact Part.Sound.setMark (h.modCsu_unloaded hn
      ⟨by simp [Csu.legal, hn], h.csu.image, forall_of_none, forall_of_none⟩ hn) _
  · rename_i hne
    have hs : l.station.isSome = true := by simpa [Load.holdsStation, hne] using hl
    have h1 := h.modCsu_unloaded hn (f := fun c' =>
      { c' with station := .unconfigured, block := l.station, loadFault := some { index := l.index, code := c, offset := o },
                load := none, periodicSince := some p.clock })
      ⟨by simp [Csu.legal, hn, hs], h.csu.image, hr.station, forall_of_none⟩ hn
    exact Part.Sound.setMark (h1.modSbc (f := fun b => { b with line := .quiet p.clock }) { h1.sbc with }) _

end Part.Sound

/-- A block that passes at index 0 is a STATION block (R177). -/
theorem station_of_pass {l : Load} {k : BlockKind} {r : BlockRead} (h : knownBlockFault l k r = none) (hi : l.index = 0) :
    k = .station := by
  unfold knownBlockFault at h
  by_contra hk
  have ho : orderFault l k r.payload = true := by simp [orderFault, hi, hk]
  split at h
  · cases h
  · split at h
    · cases h
    · simp at h

theorem holdAside_holdsStation {l : Load} {k : BlockKind} {r : BlockRead} (h : knownBlockFault l k r = none)
    (hl : l.holdsStation = true) : (holdAside l k r).holdsStation = true := by
  by_cases hi : l.index = 0
  · have := station_of_pass h hi
    subst this
    simp [holdAside, Load.holdsStation]
  · have hs : l.station.isSome = true := by simpa [Load.holdsStation, hi] using hl
    cases k <;> simp [holdAside, Load.holdsStation, hs]

namespace Part.Sound

variable {p : Part}

theorem takeBlock (h : p.Sound) {l : Load} (hs : p.csu.station = .loading) (hl : p.csu.load = some l) (r : BlockRead) :
    (p.takeBlock l r).Sound := by
  have hc := h.csu.legal
  have hr := h.csu.load l hl
  simp only [Csu.legal, hs, hl, Option.all_some, Bool.and_eq_true, Option.isNone_iff_eq_none] at hc
  unfold Part.takeBlock
  split
  · exact h.refuseImage hc.1 hr hc.2 _ _
  · split
    · exact h.refuseImage hc.1 hr hc.2 _ _
    · rename_i k _
      split
      · exact h.refuseImage hc.1 hr hc.2 _ _
      · rename_i hf
        split
        · rename_i hk
          obtain ⟨-, -, -, he⟩ := pass_of_fault_none hf
          refine h.acceptImage hc.1 hr ?_ (he hk).1 (he hk).2
          by_cases hi : l.index = 0
          · have := station_of_pass hf hi
            rw [this] at hk
            cases hk
          · simpa [Load.holdsStation, hi] using hc.2
        · refine h.modCsu { h.csu with legal := ?_, load := ?_ } rfl rfl
          · simp only [Csu.legal, hs, hc.1, Option.isNone_none, Option.all_some, Bool.true_and]
            exact holdAside_holdsStation hf hc.2
          · exact forall_of_some (holdAside_inRange hr hf)

end Part.Sound

/-! ## The power-on state -/

theorem ChannelRecord.powerOn_sound (img : Option Image) : ChannelRecord.powerOn.Sound img :=
  ⟨by constructor <;> decide, fun _ _ => ⟨nofun, nofun, nofun⟩, fun _ => by constructor <;> rfl⟩

theorem ProbeState.powerOn_inRange : ProbeState.powerOn.InRange := by
  constructor <;> first | decide | exact forall_of_none | (intro h; simp [ProbeState.powerOn] at h)

theorem Part.powerOn_sound : Part.powerOn.Sound where
  lcu := ⟨fun ch => by cases ch <;> exact ChannelRecord.powerOn_sound _, nofun, nofun, nofun⟩
  pse := by constructor <;> exact Nat.zero_le _
  ptu := ⟨fun pr => by cases pr <;> exact ProbeState.powerOn_inRange, forall_of_nil, .nil, forall_of_nil, forall_of_none⟩
  sbc := ⟨Nat.zero_le _, .nil, Nat.zero_le _, forall_of_nil, Nat.zero_le _, .nil, fun _ => forall_of_nil⟩
  stu := Nat.zero_le _
  vau := ⟨Nat.zero_le _, Nat.zero_le _, Nat.zero_le _, List.Pairwise.nil, forall_of_none⟩
  vcl := ⟨Nat.zero_le _, forall_of_nil, by constructor <;> decide⟩
  tou := by constructor <;> exact Nat.zero_le _
  csu := ⟨rfl, forall_of_none, forall_of_none, forall_of_some Load.start_inRange⟩

theorem Part.heldInReset_sound : Part.heldInReset.Sound :=
  { Part.powerOn_sound with
    lcu := Part.powerOn_sound.lcu
    ptu := { Part.powerOn_sound.ptu with others := forall_of_nil }
    csu := ⟨rfl, forall_of_none, forall_of_none, forall_of_none⟩ }

/-! ## The bound of the temperature table -/

/-- The peers' entries of the temperature table are at most 26: one for each probe of 13 other stations (section 3.5). -/
theorem Ptu.Sound.peers_length {c : Csu} {u : Ptu} (h : u.Sound c) (hc : c.Sound) (hl : c.image.isSome = true → c.block.isSome = true) :
    u.peers.length ≤ 26 := by
  by_cases hi : c.image.isSome = true
  · obtain ⟨b, hb⟩ := Option.isSome_iff_exists.mp (hl hi)
    have hn := (hc.block b hb).number
    let key : PeerTemp → ℕ × Bool := fun e => (e.station, e.probe = .p0)
    have hnd : (u.peers.map key).Nodup := by
      rw [List.nodup_iff_pairwise_ne, List.pairwise_map]
      refine h.distinct.imp ?_
      intro x y hxy
      simp only [key, ne_eq, Prod.mk.injEq, not_and]
      intro e1
      rcases hxy with hxy | hxy
      · exact absurd e1 hxy
      · cases hx : x.probe <;> cases hy : y.probe <;> simp_all
    have hsub : (u.peers.map key).toFinset ⊆ ((Finset.Icc 1 14).erase b.number) ×ˢ Finset.univ := by
      intro x hx
      simp only [List.mem_toFinset, List.mem_map] at hx
      obtain ⟨e, he, rfl⟩ := hx
      have h1 := (h.peers e he).station
      have h2 := (h.others e he).2 b hb
      simp [key, h2]
      exact ⟨h1, em _⟩
    have := Finset.card_le_card hsub
    rw [List.toFinset_card_of_nodup hnd, List.length_map, Finset.card_product, Finset.card_erase_of_mem (Finset.mem_Icc.mpr hn)] at this
    simpa using this
  · cases hp : u.peers with
    | nil => simp
    | cons a l => exact absurd (h.others a (by simp [hp])).1 hi

/-- The temperature table of a sound part keeps its capacity. -/
theorem Part.Sound.peers_length {p : Part} (h : p.Sound) : p.ptu.peers.length ≤ 26 :=
  h.ptu.peers_length h.csu fun hi => by
    have hl := h.csu.legal
    unfold Csu.legal at hl
    cases hs : p.csu.station <;> simp_all

end Sys2Proof.Machine
end

