-- ==== Sys2Proof/WellFormed.lean ====
section
/-! DEFINITION. Which commands the outside world can form at all. The checks are on operands alone; `exec` is total
on ill-formed commands too. -/

namespace Sys2Proof

/-- A command's payload holds at most 120 bytes (R60), two of which are the target and the command code. -/
def commandArgsFit (args : List Byte) : Bool := args.length ≤ 118

/-- The code names one of the seven commands of section 12.4. -/
def knownCommandCode (code : Byte) : Bool := 1 ≤ code.toNat && code.toNat ≤ 7

/-- The well-formedness of a command:
* a block read gives at least its kind byte, and no more than kind, position, length, 255 payload bytes and the sum (R176);
* a received frame holds at most priority, length, 120 payload bytes and two CRC bytes (R60);
* a command's payload fits a frame; an unknown command's code is none of the seven (R186). -/
def WellFormed : Instr → Bool
  | .configBlockRead bytes => 1 ≤ bytes.length && bytes.length ≤ 260
  | .frameReceived bytes => bytes.length ≤ 124
  | .hold args => commandArgsFit args
  | .release args => commandArgsFit args
  | .restart args => commandArgsFit args
  | .requestStatus args => commandArgsFit args
  | .requestTotals args => commandArgsFit args
  | .clearMarks args => commandArgsFit args
  | .rebaseline args => commandArgsFit args
  | .unknownCommand code args => !knownCommandCode code && commandArgsFit args
  | .powerOn => true
  | .resetAssert => true
  | .holdNLevelTaken _ => true
  | .sampleInstant _ _ _ _ => true
  | .hitEndByTail _ _ => true
  | .hitEndByCountExpiry _ _ => true
  | .stuckQuietReturn _ _ => true
  | .forcedRebaseline _ _ => true
  | .driftMark _ _ => true
  | .leadingEntryExpiry => true
  | .coincidenceCheck => true
  | .measurementIntervalStart => true
  | .settleEnd => true
  | .conversionComplete _ => true
  | .tempTimerExpiry _ => true
  | .peerTempEntryRemoval => true
  | .heldValueExpiry => true
  | .wouldBeStart => true
  | .contentionLoss => true
  | .payloadMismatch => true
  | .frameComplete => true
  | .blindIntervalRemoval => true
  | .dispatcherPortGrant => true
  | .peerWheelAged => true
  | .decisionTimeReached => true
  | .axleFormerHold => true
  | .closeTimeReached => true
  | .stepLogEntryRemoval => true
  | .timeDuePoint => true
  | .joinWindowEnd => true
  | .classWalkStart => true
  | .classWalkEnd => true
  | .firingDue _ => true
  | .pulseEnd _ => true
  | .statusPeriodicTimer => true
  | .statusDeferredRequest => true
  | .startMarkReceived => true
  | .lengthByteOver120 => true

end Sys2Proof
end

