-- ==== Sys2Proof/Tests/Slice0.lean ====
section
/-! SUPPORT. Tests on small states: the checks of WellFormed, worked examples of the manual, and for each obligation with
hypotheses a state and operands that meet them. -/

set_option Elab.async false

namespace Sys2Proof.Tests

open Sys2Proof Sys2Proof.Machine

/-! ## A small station -/

/-- The STATION block of the worked examples: station 6, neighbours 5 and 7, group 1. -/
def block6 : StationBlock :=
  { number := 6, leftNeighbour := some 5, rightNeighbour := some 7, group := 1, bitRate := .k500, lineDelay := 20,
    keepMarks := false, attentionMask := { MarkSet.clear with time := true } }

/-- The strips of the worked examples of chapters 1 and 2. -/
def strips6 : StripsBlock :=
  { spacing := 3000, thOn := 400, thOff := 200, ntail := 8, lmax := 2400, stuckLimit := 60, bwin := 4000, deadCount := 4,
    cal := { ll := 4300, lr := 4300, tl := 4300, tr := 4300 } }

/-- The factor tables of the worked examples of chapter 2. -/
def factors6 : FactorsBlock :=
  { temperature := [{ key := 0, factor := 34406 }, { key := 200, factor := 32768 }, { key := 400, factor := 31457 }],
    speed := [{ key := 13889, factor := 33096 }, { key := 27778, factor := 32440 }] }

/-- An enabled probe with the default gain and offset. -/
def probe6 : ProbeParams := { enable := true, gain := 1200, offset := -400 }

/-- An image with both probes enabled and one rule of class 2 for two axles. -/
def image6 : Image :=
  { strips := strips6,
    assembly := { dc := 400, lp := 40, smax := 10000, tmax := 2000, gmax := 2000, singleLimit := some 10000,
                  tandemLimit := some 18000, tridemLimit := some 24000, quadLimit := none },
    probes := { standardProbes with probe := { p0 := probe6, p1 := probe6 } },
    factors := factors6,
    rules := [{ code := 2, axleMin := 2, axleMax := 2, singleWheelOnly := false, pattern := some [1, 1], gaps := none,
                grossRange := none, grossLimit := some 3500 }],
    triggers := { standardTriggers with trg0 := { standardTrigger with enable := true } } }

/-- A station in a state, at an instant of its own clock and a site time. -/
def station (st : StationState) (clock : Nat) (now : SiteTime) : Part :=
  { Part.powerOn with
    clock := clock, stu := { Stu.powerOn with siteTime := now },
    csu := { Csu.powerOn with station := st, block := some block6, image := some image6, load := none } }

/-- The station in RUN. -/
def run : Part := station .run 50000000 20000000

/-- RUN whose last sampling instant was at an own-clock time. -/
def sampledAt (t : Nat) : Part := { run with lcu := { run.lcu with lastSample := some t } }

/-- A part that has read a sample time for the instant `t` of its own clock. -/
def stampedAt (t : Nat) (time : SiteTime) (p : Part) : Part := p.modLcu fun l => { l with stamp := some { instant := t, time := time } }

/-- A part with nothing in its queue. -/
def alone (p : Part) : State := { part := p, pending := [] }

/-- The part after a command. -/
def after (c : Instr) (p : Part) : Part :=
  match exec c (alone p) with
  | .next t => t.part
  | .fault _ => p
  | .refused _ => p

/-- The part after commands in order. -/
def afterAll (l : List Instr) (p : Part) : Part := l.foldl (fun q c => after c q) p

/-- A channel in PULSE with a quiet baseline. -/
def pulsing : ChannelRecord :=
  { ChannelRecord.powerOn with state := .pulse, seedPending := false, startTime := 19900000, area := 5000, peak := 900,
                               lengthCount := 12 }

/-- The same channel in its seventh tail sample. -/
def tailing : ChannelRecord := { pulsing with state := .tail, tailTime := 19999000, tailCount := 7 }

/-- A seeded channel in IDLE. -/
def idling : ChannelRecord := { ChannelRecord.powerOn with seedPending := false }

/-- A part with one channel's record. -/
def withChannel (ch : Channel) (c : ChannelRecord) (p : Part) : Part := p.modChannel ch fun _ => c

/-- A hit that carries no flag. -/
def plainHit (ch : Channel) (start : SiteTime) (area : Nat) : Hit :=
  { channel := ch, startTime := start, endTime := start + 8000, area := area, peak := 900, flags := noHitFlags }

/-- A local wheel with both times and a PAIR speed. -/
def wheelOf (number : Count16) (side : Side) (start : SiteTime) : Wheel :=
  { number := number, side := side, leadStart := some start, trailStart := some (start + 135000), speed := some 22222,
    qLead := some 11703, qTrail := some 11547, temperature := 310, source := .ownSurface, runStart := none,
    load := some 3934, flags := noWheelFlags }

/-- A waiting entry of the transmit list. -/
def waitingEntry (c : TxContent) : TxEntry := newEntry c 19999000

/-- An entry in transmission. -/
def sentEntry (c : TxContent) : TxEntry := { newEntry c 19999000 with inTransmission := true }

/-- A part whose transmit list is given. -/
def withList (l : List TxEntry) (p : Part) : Part := p.modSbc fun b => { b with list := l }

/-- A part that follows a frame. -/
def listening (p : Part) : Part := p.modSbc fun b => { b with following := some { siteTime := 19999000, stepTotal := 0 } }

/-- An image block's bytes with its sum. -/
def imageBlock (kind position : Nat) (payload : List Byte) : List Byte :=
  let body := [BitVec.ofNat 8 kind, BitVec.ofNat 8 position, BitVec.ofNat 8 payload.length] ++ payload
  body ++ leBytes 2 (blockSum body)

/-- A STATION payload. -/
def stationPayload : List Byte := [6, 3, 5, 7, 1, 2, 20, 0, 8]

/-- The part after a power-on that has read the given blocks. -/
def reading (blocks : List (List Byte)) : Part := afterAll (blocks.map Instr.configBlockRead) Part.powerOn

/-- A record of the completed vehicle list. -/
def recordOf (seq : Count16) (st : RecordState) : VehicleRecord :=
  { seq := seq, owner := 6, firstLead := 19000000, speed := some 22222, headway := none,
    axles := [{ left := some 1900, right := some 1800, kind := .inLane, spacing := none },
      { left := some 700, right := some 650, kind := .inLane, spacing := some 2700 }],
    gross := 5050, temperature := 310, source := .ownSurface, flags := noVehicleFlags, tag := seq, state := st, lostCount := 0,
    cededCount := 0, slotFlags := noVehicleFlags, firstTrail := some 19135000, firstSpeed := some 22222, cls := none,
    ruleIndex := none, groupOver := 0 }

/-- A part with records in its list. -/
def withRecords (l : List VehicleRecord) (p : Part) : Part := p.modVcl fun v => { v with records := l }

/-- A part whose record memory port has a holder. -/
def portHeld (r : Requester) (p : Part) : Part := p.modVau fun v => { v with port := { v.port with holder := some r } }

/-! ## Well-formed commands -/

theorem test_wellFormed_block_empty : WellFormed (.configBlockRead []) = false := by decide +kernel
theorem test_wellFormed_block_long : WellFormed (.configBlockRead (List.replicate 261 0)) = false := by decide +kernel
theorem test_wellFormed_frame_long : WellFormed (.frameReceived (List.replicate 125 0)) = false := by decide +kernel
theorem test_wellFormed_arguments_long :
    ∀ k ∈ [CommandKind.hold, .release, .restart, .requestStatus, .requestTotals, .clearMarks, .rebaseline],
      WellFormed (k.instr (List.replicate 119 0)) = false := by decide +kernel
theorem test_wellFormed_unknown_known_code : WellFormed (.unknownCommand 7 []) = false := by decide +kernel
theorem test_wellFormed_unknown_arguments_long : WellFormed (.unknownCommand 8 (List.replicate 119 0)) = false := by decide +kernel
theorem test_wellFormed_accepts : [WellFormed (.configBlockRead [0xFF]), WellFormed (.frameReceived []), WellFormed (.hold []),
    WellFormed (.unknownCommand 0 []), WellFormed (.unknownCommand 8 [1]), WellFormed .powerOn] =
    [true, true, true, true, true, true] := by decide +kernel

/-! ## Worked examples of the manual -/

/-- Section 2.6: the factors at 310 and 22,222. -/
theorem test_factors : (tableFactor 310 factors6.temperature, tableFactor 22222 factors6.speed) = (32047, 32703) := by decide +kernel

/-- Section 2.6: the strips' coefficients and loads. -/
theorem test_strips :
    (stripQ 182400 4300 32047, stripQ 179950 4300 32047, stripLoad 11703 22222 32703, stripLoad 11547 22222 32703) =
      ((11703, false), (11547, false), (3960, false), (3907, false)) := by decide +kernel

/-- Section 2.6: the wheel's load, and the load of the orphan lead's strip with a borrowed speed. -/
theorem test_wheel_load :
    (finishWheel factors6.speed 22222 { wheelOf 7 .left 20000000 with load := none }).load = some 3934 ∧
    (finishWheel factors6.speed 22222
      { wheelOf 7 .right 20000250 with load := none, qLead := some 11292, qTrail := none, speed := none }).load = some 3820 := by
  decide +kernel

/-- Section 2.2: the window of rows 3,000 mm apart. -/
theorem test_standing :
    [standing 3000 0 43199, standing 3000 0 43200, standing 3000 0 2159827, standing 3000 0 2159828, standing 3000 5 5] =
      [.tooRecent, .inWindow 69444, .inWindow 1389, .tooOld, .tooRecent] := by decide +kernel

/-- Section 12.1: the check value of the CRC-16 with this generator and start value. -/
theorem test_crc : crc16 [0x31, 0x32, 0x33, 0x34, 0x35, 0x36, 0x37, 0x38, 0x39] = 0x29B1 := by decide +kernel

/-- Section 12.1: a TIME frame's bytes, and what the receiver makes of them. -/
theorem test_time_frame :
    (frameBytes .time 5 (timePayload 0x010203)).take 5 = [0x25, 6, 3, 2, 1] ∧
    judgeBytes (frameBytes .time 5 (timePayload 0x010203)) = .good .time 5 (timePayload 0x010203) := by decide +kernel

/-- Section 11.1: an image whose second block is out of sequence is refused with its index. -/
theorem test_refused_image :
    (reading [imageBlock 1 0 stationPayload, imageBlock 2 1 (List.replicate 30 0)]).csu.loadFault =
      some { index := 1, code := .sequence, offset := none } := by decide +kernel

/-- Section 8.2: the length of a walk that examines five rules. -/
theorem test_walk_length : walkLength 5 = 950 := by decide +kernel

/-- The model's empty table: no word spells a command. -/
theorem test_no_table_word : decodeTableWord 8 1 = none := rfl

/-- A start from power-on: an accepted image opens JOIN, which ends in RUN. -/
theorem test_join_to_run :
    (after .joinWindowEnd { station .join 1000000 5 with
      stu := { Stu.powerOn with siteTime := 5, joinWindow := some 0 } }).csu.station = .run := by decide +kernel

/-! ## Witnesses: steps and start-up -/

/-- A part held in reset. -/
def held : Part := after .resetAssert run

theorem witness_StepRunsFrontCommand : ∃ s : State, s.pending = [Instr.settleEnd, .powerOn] :=
  ⟨{ part := run, pending := [.settleEnd, .powerOn] }, rfl⟩

theorem witness_StepOnEmptyQueue :
    (alone run).pending = [] ∧ run.dueCommand = some (.sampleInstant 0 0 0 0) ∧
    (portHeld .dispatcher (sampledAt 50000000)).dueCommand = some .dispatcherPortGrant ∧
    (station .unconfigured 0 7).dueCommand = none ∧ held.rstLow = true := by decide +kernel

theorem witness_EveryCommandCompletes : (alone held).part.rstLow = true ∧ Instr.settleEnd ≠ .powerOn ∧
    Instr.settleEnd ≠ .resetAssert := by decide +kernel

theorem witness_StepKeepsSound : State.reset.part.Sound ∧ ∃ t, step State.reset = .next t :=
  ⟨Part.powerOn_sound, _, rfl⟩

/-- The bytes of an image block, read by the part as it stands. -/
def readFault (p : Part) (bytes : List Byte) : Option (Option (FaultCode × Option Nat)) :=
  p.csu.load.map fun l => blockFault l (readBlock bytes)

/-- What the checks find in a block. -/
def faultIn (l : Load) (bytes : List Byte) : Option (FaultCode × Option Nat) := blockFault l (readBlock bytes)

/-- A read behind its STATION block. -/
def readStation : Load := { Load.start with offset := 14, index := 1, station := some block6 }

theorem witness_FaultConditionsComeInOrder :
    ([7] : List Byte).length < 256 ∧
    readBlock [8, 0, 1, 7, 16, 0] = { kindByte := 8, position := 0, length := 1, payload := [7], sum := 16, stored := 16 } ∧
    [faultIn Load.start [0xFF], faultIn Load.start (imageBlock 0 0 []), faultIn Load.start (imageBlock 9 0 []),
      faultIn { Load.start with offset := 4083 } (imageBlock 1 0 stationPayload),
      faultIn { Load.start with offset := 4082 } (imageBlock 1 0 stationPayload),
      faultIn Load.start (imageBlock 1 0 (stationPayload.take 8)), faultIn Load.start ([1, 0, 9] ++ stationPayload ++ [63, 0]),
      faultIn Load.start ([1, 0, 9] ++ stationPayload ++ [62, 0])] =
      [some (.read, none), some (.range, none), some (.range, none), some (.size, none), none, some (.size, none),
        some (.sum, none), none] ∧
    [faultIn Load.start (imageBlock 2 0 (List.replicate 30 0)), faultIn readStation (imageBlock 6 0 [2, 3, 2, 0]),
      faultIn readStation (imageBlock 6 2 [2, 2, 2, 0]), faultIn readStation (imageBlock 6 4 [2, 2, 2, 0]),
      faultIn { readStation with classRun := .running } (imageBlock 6 2 [2, 2, 2, 0]),
      faultIn readStation (imageBlock 1 0 stationPayload), faultIn Load.start (imageBlock 1 0 (15 :: stationPayload.drop 1)),
      faultIn readStation (imageBlock 6 0 [2, 2, 13, 0]), faultIn readStation (imageBlock 8 0 [])] =
      [some (.order, none), some (.order, none), some (.sequence, none), some (.sequence, none), none, some (.duplicate, none),
        some (.range, some 0), some (.range, some 2), some (.missing, none)] := by decide +kernel

/-- A STRIPS payload with each field at the low end of its range. -/
def stripsPayload : List Byte := leBytes 2 1000 ++ leBytes 2 40 ++ leBytes 2 20 ++ leBytes 1 2 ++ leBytes 2 800 ++
  leBytes 2 10 ++ leBytes 2 500 ++ leBytes 1 2 ++ leBytes 4 0 ++ leBytes 4 0 ++ leBytes 4 0 ++ leBytes 4 0

/-- A class rule with every option: one pattern entry, one gap, a gross range and a limit. -/
def fullRule : List Byte := [2, 2, 2, 0x1F, 1, 5, 1, 7, 9] ++ leBytes 4 100 ++ leBytes 4 200 ++ leBytes 4 65536

theorem witness_PassedBlockIsHeldAside :
    (alone Part.powerOn).reads Load.start ∧
    (blockKindOf (readBlock (imageBlock 1 0 stationPayload)).kindByte = some .station ∧
      readFault Part.powerOn (imageBlock 1 0 stationPayload) = some none) ∧
    (blockKindOf (readBlock (imageBlock 6 0 [2, 2, 2, 0])).kindByte = some .classes ∧
      readFault (reading [imageBlock 1 0 stationPayload]) (imageBlock 6 0 [2, 2, 2, 0]) = some none) ∧
    ((reading [imageBlock 1 0 stationPayload]).csu.load.map Load.station = some (some block6)) ∧
    ([5] : List Byte).length < 256 ∧ ([(7, 9)] : List (Byte × Byte)).length < 256 ∧ (leBytes 4 100 ++ leBytes 4 200).length = 8 ∧
    (leBytes 4 65536).length = 4 ∧
    (classRules fullRule).map (fun l => l.map ParsedRule.rule) =
      some [{ code := 2, axleMin := 2, axleMax := 2, singleWheelOnly := true, pattern := some [5], gaps := some [(7, 9)],
              grossRange := some (100, 200), grossLimit := some 65536 }] ∧
    classRules (fullRule.take 20) = none ∧ classRules (fullRule.take 1) = none :=
  ⟨⟨rfl, rfl, rfl⟩, by decide +kernel⟩

/-- A read that has come to the END block. -/
def readToEnd : Part :=
  { Part.powerOn with csu := { Csu.powerOn with load := some { Load.start with
      offset := 80, index := 3, station := some block6, strips := some strips6, assembly := some image6.assembly } } }

theorem witness_EndBlockAcceptsTheImage :
    (∃ l, (alone readToEnd).reads l ∧ blockKindOf (readBlock (imageBlock 8 0 [])).kindByte = some .ending ∧
      blockFault l (readBlock (imageBlock 8 0 [])) = none) ∧
    (after (.configBlockRead (imageBlock 8 0 [])) readToEnd).csu.station = .join ∧
    (after (.configBlockRead (imageBlock 8 0 [])) readToEnd).sbc.line = .quiet 0 ∧
    (after (.configBlockRead (imageBlock 8 0 [])) readToEnd).sampleDue = true :=
  ⟨⟨_, ⟨rfl, rfl, rfl⟩, by decide +kernel, by decide +kernel⟩, by decide +kernel⟩

theorem witness_FaultyBlockRefusesTheImage :
    (∃ l, (alone Part.powerOn).reads l ∧ l.index = 0 ∧ blockFault l (readBlock [0xFF]) = some (.read, none)) ∧
    (∃ l, (alone readToEnd).reads l ∧ l.index ≠ 0 ∧ blockFault l (readBlock (imageBlock 9 0 [])) = some (.range, none)) ∧
    (after (.configBlockRead [0xFF]) Part.powerOn).csu.station = .mute ∧
    (after (.configBlockRead (imageBlock 9 0 [])) readToEnd).csu.station = .unconfigured :=
  ⟨⟨_, ⟨rfl, rfl, rfl⟩, rfl, by decide +kernel⟩, ⟨_, ⟨rfl, rfl, rfl⟩, by decide +kernel, by decide +kernel⟩, by decide +kernel⟩

theorem witness_BlockRanges :
    (firstBad (stationChecks [1, 3, 2, 14, 1, 0, 0, 0, 0]), firstBad (stationChecks [14, 3, 1, 13, 3, 2, 50, 1, 31]),
      firstBad (stationChecks [14, 3, 1, 1, 3, 2, 50, 1, 31]), firstBad (stationChecks [15, 0, 0, 0, 1, 0, 0, 0, 0])) =
      (none, none, some 3, some 0) ∧
    [firstBad (blockChecks .strips stripsPayload), firstBad (blockChecks .strips (leBytes 2 999 ++ stripsPayload.drop 2)),
      firstBad (blockChecks .strips (stripsPayload.take 4 ++ leBytes 2 40 ++ stripsPayload.drop 6))] =
      [none, some 0, some 4] ∧
    (temperaturePoints (8 :: 8 :: List.replicate 72 0)).length = 8 ∧ (temperaturePoints (List.replicate 74 0)) = [] ∧
    (speedPoints (List.replicate 74 0)).Pairwise (fun x y => x.key < y.key) ∧
    firstBad (blockChecks .factors (List.replicate 74 0)) = none ∧
    firstBad (blockChecks .factors (9 :: List.replicate 73 0)) = some 0 ∧
    (firstBad (blockChecks .classes ([2, 2, 2, 2, 6] ++ List.replicate 6 12)),
      firstBad (blockChecks .classes ([2, 2, 2, 2, 7] ++ List.replicate 7 12)),
      firstBad (blockChecks .classes [2, 2, 2, 4, 0]), firstBad (blockChecks .classes [2, 2, 2, 16, 0, 0, 0, 0]),
      firstBad (blockChecks .classes [31, 1, 12, 31, 1, 1, 1, 0, 0, 0, 0, 0, 0, 0, 0, 0, 0, 1, 0, 0, 0])) =
      (none, some 4, some 4, some 4, none) ∧
    (let temperature : List Byte := [1, 8] ++ leBytes 2 65536 ++ leBytes 2 16383 ++ List.replicate 28 0
     let speeds (i : Nat) : List Byte := (List.range 8).flatMap fun k => leBytes 3 (1389 + k) ++ leBytes 2 (if k = i then 16383 else 16384)
     [firstBad (blockChecks .factors (temperature ++ speeds 9)),
       firstBad (blockChecks .factors ((temperature.set 4 0).set 5 64 ++ speeds 7)),
       firstBad (blockChecks .factors ([8, 9] ++ List.replicate 72 0))] = [some 4, some 72, some 1]) ∧
    [firstBad (blockChecks .assembly (leBytes 2 50 ++ [5] ++ leBytes 2 2000 ++ leBytes 2 200 ++ leBytes 2 500 ++ [8] ++ List.replicate 16 0)),
      firstBad (blockChecks .probes (List.replicate 13 0)),
      firstBad (blockChecks .probes ([0] ++ leBytes 2 1 ++ signedBytes (-2000) ++ [1] ++ leBytes 2 1 ++ signedBytes 2001 ++ [1, 0, 0])),
      firstBad (blockChecks .triggers ([12] ++ List.replicate 38 0))] = [some 22, some 1, some 8, some 0] ∧
    (classRules [1, 1, 1, 0]).isSome = true ∧ firstBad (blockChecks .classes (fullRule ++ [1, 1, 1, 0])) = none ∧
    firstBad (blockChecks .classes (fullRule ++ [0, 1, 1, 0])) = some fullRule.length := by decide +kernel

/-! ## Witnesses: hold sources, commands, station states -/

/-- RUN with the pin source active is what the entry into HOLD leaves in HOLD. -/
def holding : Part := after (.holdNLevelTaken .low) run

/-- RUN with an open vehicle, wheels that wait, and a WHEEL frame that waits. -/
def busyRun : Part :=
  withList [waitingEntry (.wheel (wheelOf 7 .left 19900000))] (run.modVau fun v =>
    { v with
      intake := [{ wheel := wheelOf 8 .left 19900000, completion := 19999000, forced := false }]
      vehicle := some { axles := [], closeTime := 21000000, closeMark := none, tag := 3, flags := noVehicleFlags,
                        runningGross := 0 } })

theorem witness_HoldSourcesMoveTheStation :
    (alone run).running ∧ run.csu.pinActive = decide (PinLevel.high = .low) ∧ run.csu.pinActive ≠ decide (PinLevel.low = .low) ∧
    holding.csu.station = .hold ∧ (after (.holdNLevelTaken .high) holding).csu.station = .run ∧
    run.takesCommand .hold = true ∧ run.csu.commandHold ≠ decide (CommandKind.hold = .hold) ∧
    run.csu.commandHold = decide (CommandKind.release = .hold) ∧ (after (.hold []) run).csu.station = .hold ∧
    (afterAll [.hold [], .release []] run).csu.station = .run := ⟨rfl, by decide +kernel⟩

theorem witness_EnteringHoldActsOnTheBlocks :
    (alone busyRun).running ∧ busyRun.csu.station = .run ∧ busyRun.csu.pinActive = false ∧ busyRun.csu.commandHold = false ∧
    busyRun.vau.vehicle.isSome = true ∧
    ((after (.holdNLevelTaken .low) busyRun).vau.vehicle.map Vehicle.closeMark = some (some .hold)) ∧
    (after (.hold []) busyRun).csu.station = .hold ∧ (after (.holdNLevelTaken .low) busyRun).vau.intake = [] ∧
    (after (.holdNLevelTaken .low) busyRun).sbc.list.map TxEntry.content = [.status] ∧
    (after (.hold []) (withList [sentEntry (.wheel (wheelOf 7 .left 19900000))] run)).sbc.list.map TxEntry.leaving =
      [true, false] ∧
    (let entered (l : List TxEntry) : List (TxContent × SiteTime) :=
       (after (.hold []) (withRecords [recordOf 4 .ready] (withList l run))).sbc.list.map fun e => (e.content, e.queueTime)
     entered [waitingEntry (.wheel (wheelOf 7 .left 0)), waitingEntry .time, waitingEntry .status] =
       [(.time, 19999000), (.vehicle 4, 20000000), (.status, 19999000)] ∧
     entered (List.replicate 6 (waitingEntry .time)) =
       List.replicate 6 (.time, 19999000) ++ [(.vehicle 4, 20000000), (.status, 20000000)]) := ⟨rfl, by decide +kernel⟩

theorem witness_RestartIsAWarmRestart :
    (alone busyRun).running ∧ busyRun.takesCommand .restart = true ∧ busyRun.csu.image.isSome = true ∧
    (after (.restart []) busyRun).csu.station = .join ∧ (after (.restart []) busyRun).vau.vehicle = none ∧
    (after (.restart []) (withList [sentEntry .time] run)).sbc.line = .quiet 50000000 ∧
    (after (.restart []) (listening run)).sbc.line = .quiet 50000000 ∧ (after (.restart []) run).sbc.line = .quiet 0 := ⟨rfl, by decide +kernel⟩

/-- RUN with BUS set, STATE as said, a deferred request and a last one. -/
def marked (state : Bool) : Part :=
  busyRun.modCsu fun c =>
    { c with marks := { MarkSet.clear with state := state, bus := true }, deferred := true, lastMarkRequest := some 49999999 }

theorem witness_RestartIsAWarmRestart_marks :
    (let p := after (.restart []) (marked true)
     p.csu.marks = { MarkSet.clear with state := true, bus := true } ∧ p.csu.deferred = false ∧ p.csu.lastMarkRequest = none ∧
       p.sbc.list.length = 0) ∧
    (let p := after (.restart []) (marked false)
     p.csu.marks = { MarkSet.clear with state := true, bus := true } ∧ p.csu.deferred = false ∧
       p.csu.lastMarkRequest = some 50000000 ∧ p.sbc.list.map TxEntry.content = [.status] ∧
       p.sbc.list.map TxEntry.queueTime = [20000000]) := by decide +kernel

/-- A station with its STATION block alone. -/
def unconfigured : Part :=
  { station .unconfigured 50000000 20000000 with csu := { (station .unconfigured 0 0).csu with image := none } }

theorem witness_RestartReadsTheImageAgain :
    (alone unconfigured).running ∧ unconfigured.takesCommand .restart = true ∧ unconfigured.csu.image = none ∧
    (after (.restart []) unconfigured).csu.station = .loading ∧ (after (.restart []) (listening unconfigured)).sbc.line = .quiet 50000000 ∧
    (after (.restart []) unconfigured).sbc.line = .quiet 0 :=
  ⟨rfl, by decide +kernel⟩

theorem witness_ClearMarksAndRebaselineActOnTheirMasks :
    (alone run).running ∧ run.takesCommand .clearMarks = true ∧ (0x1F : Byte).toNat < 32 ∧ (0x3F : Byte).toNat < 64 ∧
    ((0x1F : Byte) ≠ 0 ∨ (0x3F : Byte) ≠ 0) ∧
    (after (.clearMarks [0x1F, 0x3F]) (withChannel .ll { idling with mark := some .drift } run)).lcu.channels.ll.mark = none ∧
    run.takesCommand .rebaseline = true ∧ (0xF : Byte).toNat < 16 ∧ (0xF : Byte) ≠ 0 ∧
    (after (.rebaseline [0xF]) (withChannel .tr tailing run)).lcu.channels.tr.seedPending = true ∧
    (after (.rebaseline [0x8]) (withChannel .tr tailing run)).lcu.channels.tr.state = .idle := ⟨rfl, by decide +kernel⟩

theorem witness_CommandsAreTakenOrRefused :
    (alone unconfigured).running ∧ unconfigured.receiverOn = true ∧ unconfigured.takesCommand .hold = false ∧
    run.takesCommand .hold = true ∧ argumentsFit .hold [0] = false ∧ argumentsFit .rebaseline [0] = false ∧
    argumentsFit .clearMarks [32, 0] = false ∧ ((0 : Byte) = 0 ∨ 8 ≤ (0 : Byte).toNat) ∧ 8 ≤ (8 : Byte).toNat ∧
    (after (.hold []) unconfigured).csu.lastResult = some { code := 1, result := .refusedState, count := 1 } ∧
    [(station .join 0 0).csu.station, run.csu.station, holding.csu.station, unconfigured.csu.station] =
      [.join, .run, .hold, .unconfigured] ∧
    (station .silent 0 0).csu.image.isSome = true ∧ argumentsFit .clearMarks [31, 0] = true ∧
    argumentsFit .rebaseline [15] = true := ⟨rfl, by decide +kernel⟩

/-- JOIN whose window opened 1,000 ms ago. -/
def joining : Part :=
  { station .join 1000000 1000000 with stu := { Stu.powerOn with siteTime := 1000000, joinWindow := some 0 } }

/-- RUN at the first due point of station 6. -/
def atDue : Part := station .run 96000 96000

theorem witness_JoinEndAndDuePointsHandTimeFrames :
    (alone joining).running ∧ joining.csu.station = .join ∧ joining.stu.joinWindow = some 0 ∧ 0 + 1000000 ≤ joining.clock ∧
    (after .joinWindowEnd joining).sbc.list.map TxEntry.content = [.time, .status] ∧
    atDue.stu.siteTime.toNat % 250000 = 16000 * atDue.block.number ∧ atDue.stu.lastDue ≠ some atDue.stu.siteTime ∧
    (after .timeDuePoint atDue).sbc.list.map TxEntry.content = [.time] ∧
    (after .timeDuePoint atDue).stu.lastDue = some atDue.stu.siteTime := ⟨rfl, by decide +kernel⟩

/-- RUN whose STATUS timers have both run out. -/
def statusDue : Part := run.modCsu fun c => { c with periodicSince := some 40000000, deferred := true, lastMarkRequest := some 49900000 }

theorem witness_RequestsReachTheListAndAttnFollows :
    ((alone statusDue).running ∧ statusDue.takesCommand .requestStatus = true ∧ statusDue.takesCommand .requestTotals = true ∧
      statusDue.usesLine = true ∧ 40000000 + 10000000 ≤ statusDue.clock ∧ 49900000 + 100000 ≤ statusDue.clock) ∧
    (statusDue.csu.deferred = true ∧ (after .statusDeferredRequest statusDue).csu.deferred = false ∧
      (after (.requestTotals []) statusDue).sbc.list.map TxEntry.content = [.totals] ∧ statusDue.rstLow = false) ∧
    (station .mute 0 0).attn = true ∧ (station .loading 0 0).attn = false ∧
    (run.modCsu fun c => { c with marks := { MarkSet.clear with time := true } }).attn = false ∧
    (run.modCsu fun c => { c with marks := { MarkSet.clear with bus := true } }).attn = true :=
  ⟨⟨rfl, by decide +kernel⟩, by decide +kernel⟩

/-! ## Witnesses: load channels -/

/-- The four channels seeded, with a FIFO entry at its expiry limit and a check a microsecond ahead. -/
def sampling : Part :=
  { run with
    lcu := { run.lcu with channels := { ll := ChannelRecord.powerOn, lr := idling, tl := idling, tr := idling } }
    pse := { Pse.powerOn with
      fifo := { left := [plainHit .ll (20000000 - 2159827) 5000], right := [] }
      checks := [{ side := .left, leadStart := 0, trailStart := 0, window := 0, checkTime := 20000001 }] } }

theorem witness_SampleInstantSeedsFollowsAndStarts :
    (alone sampling).running ∧ sampling.working = true ∧ sampling.inRun = true ∧
    (∀ ch, (sampling.lcu.channels.get ch).state = .idle ∧ (sampling.lcu.channels.get ch).driftCount ≠ 7999) ∧
    (∀ side, ∀ h ∈ sampling.pse.fifo.get side,
      siteDiff sampling.sampleTime h.startTime ≤ sampling.image.strips.spacing * 1000000 / 1389) ∧
    (∀ c ∈ sampling.pse.checks, siteDiff sampling.sampleTime c.checkTime < 0) ∧
    [sampling.sampleTime, (stampedAt 50000000 7 sampling).sampleTime, (stampedAt 49999999 7 sampling).sampleTime] =
      [20000000, 7, 20000000] ∧
    (station .mute 0 0).sampleDue = false ∧ sampling.sampleDue = true ∧ (sampledAt 49999875).sampleDue = true ∧
    (sampledAt 49999876).sampleDue = false ∧
    (after (.sampleInstant 100 399 400 32767) sampling).lcu.lastSample = some 50000000 ∧
    (after (.sampleInstant 100 399 400 32767) sampling).lcu.stamp = some { instant := 50000000, time := 20000000 } ∧
    (after (.sampleInstant 100 399 400 32767) sampling).lcu.channels =
      { ll := { idling with baseline := 6400 }, lr := { idling with baseline := 399 },
        tl := { idling with state := .pulse, startTime := 20000000, area := 400, peak := 400, lengthCount := 1 },
        tr := { idling with state := .pulse, startTime := 20000000, area := 32767, peak := 32767, lengthCount := 1,
                            flags := { noHitFlags with clipped := true } } } :=
  ⟨rfl, by decide +kernel, by decide +kernel, fun ch => by cases ch <;> decide +kernel,
    fun side => by cases side <;> decide +kernel, by decide +kernel⟩

theorem witness_HitSampleAccumulates :
    pulsing.seedPending = false ∧ pulsing.state = .pulse ∧ tailing.state = .tail ∧ pulsing.lengthCount + 1 < strips6.lmax ∧
    (199 : Int) - pulsing.b < strips6.thOff ∧ 1 < strips6.ntail ∧ ({ tailing with tailCount := 6 }).tailCount + 1 < strips6.ntail ∧
    strips6.thOff ≤ (200 : Int) - tailing.b ∧
    (evalSample strips6 .ll 5 199 pulsing).record.state = .tail ∧ (evalSample strips6 .ll 5 200 tailing).record.state = .pulse := by
  decide +kernel

/-- RUN with a marked channel in its last tail sample. -/
def markedTail : Part := withChannel .ll { tailing with mark := some .drift } run

/-- A channel one sample before its count expires. -/
def longHit : ChannelRecord := { pulsing with lengthCount := 2399 }

theorem witness_HitEndsAreDisposedOf :
    (alone markedTail).running ∧ markedTail.sampleDue = true ∧ (sampledAt 49999876).sampleDue = false ∧
    ((evalSample strips6 .ll 5 199 tailing).hit.map Prod.fst, (evalSample strips6 .ll 5 199 longHit).hit.map Prod.fst,
      (evalSample strips6 .ll 5 200 tailing).hit.map Prod.fst, (evalSample strips6 .ll 5 199 pulsing).hit.map Prod.fst) =
      (some .byTail, some .byCountExpiry, none, none) ∧
    tailing.seedPending = false ∧ (199 : Int) - tailing.b < strips6.thOff ∧ tailing.state = .tail ∧
    strips6.ntail ≤ tailing.tailCount + 1 ∧ longHit.seedPending = false ∧ strips6.lmax ≤ longHit.lengthCount + 1 ∧
    longHit.state = .pulse ∧ 1 < strips6.ntail ∧ (markedTail.lcu.channels.get .ll).mark.isSome = true ∧
    (after (.hitEndByTail .ll ⟨199, 0, 0, 0⟩) markedTail).vcl.totals.markedHits = 1 ∧
    (after (.hitEndByTail .ll ⟨199, 0, 0, 0⟩) (withChannel .ll tailing holding)).vcl.totals.holdHits = 1 ∧
    (after (.hitEndByTail .ll ⟨199, 0, 0, 0⟩) (withChannel .ll tailing (station .join 0 0))).lcu.channels.ll.state = .idle ∧
    (after (.hitEndByTail .ll ⟨199, 0, 0, 0⟩) (withChannel .ll pulsing run)) = withChannel .ll pulsing run ∧
    (after (.hitEndByCountExpiry .ll ⟨199, 0, 0, 0⟩) (withChannel .ll longHit holding)).lcu.channels.ll.state = .stuck ∧
    (after (.hitEndByCountExpiry .ll ⟨900, 0, 0, 0⟩) (withChannel .ll longHit holding)).vcl.totals.holdHits = 1 := ⟨rfl, by decide +kernel⟩

/-- Eight entries of a left FIFO. -/
def eightHits : List Hit := List.replicate 8 (plainHit .ll 19000000 5000)

/-- RUN with a left FIFO. -/
def queued (fifo : List Hit) : Part := run.modPse fun u => { u with fifo := u.fifo.set .left fifo }

theorem witness_LeadingHitJoinsTheFifo :
    (plainHit .ll 19900000 5000).channel = leadingChannel .left ∧ ((queued (eightHits.drop 1)).pse.fifo.get .left).length < 8 ∧
    ((queued eightHits).pse.fifo.get .left).length = 8 ∧
    ((queued (eightHits.drop 1)).takeHit (plainHit .ll 19900000 5000) 20000000).pse.wheelCounter = 0 ∧
    ((queued eightHits).takeHit (plainHit .ll 19900000 5000) 20000000).pse.fifo.left.length = 8 ∧
    ((queued eightHits).takeHit (plainHit .ll 19900000 5000) 20000000).pse.wheelCounter = 1 := by decide +kernel

/-- A channel in STUCK at the end of both its counts. -/
def stuckEnd : ChannelRecord := { idling with state := .stuck, stuckCount := 480000, quietCount := 7 }

/-- A channel whose baseline has drifted for 7,999 samples. -/
def drifting : ChannelRecord := { idling with baseline := 64 * 4001, driftCount := 7999 }

theorem witness_StuckEndsAndDriftMarks :
    (alone (withChannel .tl stuckEnd run)).running ∧ run.sampleDue = true ∧ stuckEnd.seedPending = false ∧ stuckEnd.state = .stuck ∧
    ((evalSample strips6 .tl 5 199 stuckEnd).quietReturn, (evalSample strips6 .tl 5 200 stuckEnd).rebased,
      (evalSample strips6 .tl 5 200 { stuckEnd with stuckCount := 479999 }).rebased) = (true, true, false) ∧
    drifting.driftCount < 8000 ∧ (evalSample strips6 .lr 0 4001 drifting).record.driftCount = 8000 ∧
    (evalSample strips6 .lr 0 4000 { drifting with baseline := 64 * 4000 }).record.driftCount = 0 ∧
    (after (.stuckQuietReturn .tl ⟨0, 0, 199, 0⟩) (withChannel .tl stuckEnd run)).lcu.channels.tl.state = .idle ∧
    (after (.forcedRebaseline .tl ⟨0, 0, 900, 0⟩) (withChannel .tl stuckEnd run)).lcu.channels.tl.mark = some .stuckLong ∧
    (after (.forcedRebaseline .tl ⟨0, 0, 900, 0⟩) (withChannel .tl stuckEnd run)).lcu.channels.tl.baseline = 57600 ∧
    (after (.forcedRebaseline .tl ⟨0, 0, 900, 0⟩) (withChannel .tl stuckEnd run)).csu.marks.channels = true ∧
    (after (.driftMark .lr ⟨0, 4001, 0, 0⟩) (withChannel .lr drifting run)).lcu.channels.lr.mark = some .drift ∧
    (after (.driftMark .lr ⟨0, 4001, 0, 0⟩) (withChannel .lr { drifting with mark := some .dead } run)).lcu.channels.lr.mark =
      some .dead := ⟨rfl, by decide +kernel⟩

theorem witness_InstantIsFourSamplesThenItsWork :
    run.csu.station = .run ∧ holding.csu.station ≠ .run ∧
    (let e := evalSample strips6 .ll 5 199 tailing
     e.hit.isSome = true ∧ ¬e.record.driftCount = 8000) ∧
    (let e := evalSample strips6 .tl 5 900 stuckEnd
     e.hit = none ∧ e.rebased = true ∧ ¬e.record.driftCount = 8000) ∧
    (let e := evalSample strips6 .lr 5 4001 drifting
     e.hit = none ∧ e.rebased = false ∧ drifting.driftCount < 8000 ∧ e.record.driftCount = 8000) ∧
    (let e := evalSample strips6 .ll 5 4001 { tailing with baseline := 64 * 4001, driftCount := 7999 }
     e.hit.isSome = true ∧ e.record.driftCount = 8000) ∧
    (let e := evalSample strips6 .tl 5 4001 { stuckEnd with driftCount := 7999 }
     e.hit = none ∧ e.rebased = true ∧ e.record.driftCount = 8000) ∧
    (let e := evalSample strips6 .tl 5 4001 { idling with baseline := 64 * 4001 }
     e.hit = none ∧ e.rebased = false ∧ ¬e.record.driftCount = 8000) := by decide +kernel

/-! ## Witnesses: pairing, speed and load -/

theorem witness_StandingFollowsTheTable :
    siteDiff 0 0 ≤ 0 ∧ 69444 < 3000 * 1000000 / (siteDiff 43199 0).toNat ∧ 3000 * 1000000 / (siteDiff 2159828 0).toNat < 1389 ∧
    3000 * 1000000 / (siteDiff 43200 0).toNat = 69444 ∧
    (scanFifo 3000 43200 [plainHit .ll 43199 0, plainHit .ll 0 0]).2.1 = some (plainHit .ll 0 0, 69444) := by decide +kernel

/-- RUN with a left FIFO of one expired entry and one at the limit. -/
def expiring : Part := run.modPse fun u =>
  { u with fifo := { left := [plainHit .ll (20000000 - 2159828) 5000, plainHit .ll (20000000 - 2159827) 5000], right := [] } }

theorem witness_LeadingEntriesExpire :
    (alone expiring).running ∧ expiring.csu.station = .run ∧ (station .hold 0 0).csu.station ≠ .run ∧
    expiring.atInstant = true ∧ hitExpired expiring.image.strips.spacing expiring.sampleTime (plainHit .ll (20000000 - 2159828) 5000) ∧
    (sampledAt 50000000).atInstant = true ∧ (sampledAt 49999999).atInstant = false ∧
    (∀ side, ∀ h ∈ run.pse.fifo.get side,
      decide (((3000 * 1000000 / 1389 : Nat) : Int) < siteDiff run.sampleTime h.startTime) = false) ∧
    (after .leadingEntryExpiry expiring).pse.fifo.left.length = 1 ∧ (after .leadingEntryExpiry expiring).pse.wheelCounter = 1 ∧
    (after .leadingEntryExpiry expiring).vau.intake.map (fun w => w.wheel.flags.orphanLead) = [true] :=
  ⟨rfl, by decide +kernel, by decide +kernel, by decide +kernel, by decide +kernel, by decide +kernel, by decide +kernel,
    fun side => by cases side <;> decide +kernel, by decide +kernel⟩

/-- An instant keeps its sample time when site time is stepped at the same own-clock time: the entry at the limit stays until the
next instant (R1, R23). -/
theorem test_expiryGoesByTheSampleTime :
    let later := (after (.sampleInstant 0 0 0 0) expiring).takeStep 1
    later.now = 20000001 ∧ later.pse.fifo.left.length = 1 ∧ (after .leadingEntryExpiry later).pse = later.pse ∧
    (after .leadingEntryExpiry { later with clock := 50000125 }).pse.fifo.left.length = 0 := by decide +kernel

/-- RUN with the trailing hit of section 2.6 about to end, its leading hit in the FIFO. -/
def weighing (fifo : List Hit) : Part :=
  ((withChannel .tl { tailing with startTime := 19900000, area := 179950 } run).modPse fun u =>
    { u with fifo := u.fifo.set .left fifo }).modProbe .p0 fun s =>
      { s with own := { value := some 310, quality := .good, receiveTime := 0 } }

theorem witness_TrailingHitCompletesAWheel :
    (plainHit .tl 20100000 0).channel = trailingChannel .left ∧
    [standing 3000 17900000 20100000, standing 3000 20099999 20100000, standing 3000 19965000 20100000] =
      [.tooOld, .tooRecent, .inWindow 22222] ∧
    siteDiff 20000000 17900000 ≤ 2159827 ∧ 2159827 < siteDiff 20000000 17840000 ∧
    (let q := (queued [plainHit .ll 17840000 1, plainHit .ll 17900000 2, plainHit .ll 20099999 3, plainHit .ll 19965000 4,
        plainHit .ll 19965000 5]).takeHit (plainHit .tl 20100000 0) 20000000
     (q.pse.fifo.left.map Hit.area, q.pse.wheelCounter, q.pse.store.map fun r => r.wheel.speed) =
       ([3, 5], 3, [none, none, some 22222])) ∧
    (let q := (queued [plainHit .ll 17900000 2, plainHit .ll 20099999 3]).takeHit (plainHit .tl 20100000 0) 20000000
     (q.pse.fifo.left.map Hit.area, q.pse.store.map fun r => r.wheel.flags.orphanTrail) = ([3], [false, true])) ∧
    (let q := (queued [plainHit .ll 20099999 3]).takeHit (plainHit .tl 20100000 0) 20000000
     (q.pse.fifo.left.map Hit.area, q.pse.wheelCounter) = ([3], 1)) ∧
    (after (.hitEndByTail .tl ⟨0, 0, 0, 0⟩) (weighing [plainHit .ll 19765000 182400])).pse.store.map
      (fun r => (r.wheel.speed, r.wheel.load)) = [(some 22222, some 3934)] := by decide +kernel

/-- RUN whose store and intake are full: the store's oldest wheel is pending, the intake's oldest is the store's second. -/
def fullStore : Part :=
  let old (n : Nat) : Wheel := wheelOf (BitVec.ofNat 16 n) .left 19900000
  { run with
    pse := { run.pse with store := (List.range 32).map fun n => { wheel := old n, isOpen := true } }
    vau := { run.vau with
      intake := (List.range 32).map fun n => { wheel := old (n + 1), completion := 19999000, forced := false }
      waiting := [{ wheel := old 0, decisionTime := 20039000, forced := false }] } }

/-- A full list of checks, each due 1 ms after the one before it. -/
def sixteenChecks : List Check := (List.range 16).map fun n =>
  { side := .left, leadStart := 19000000, trailStart := 19135000, window := 18000
    checkTime := 20218000 + BitVec.ofNat 48 (1000 * (n - 8)) }

theorem witness_CompletedWheelIsHandedOn :
    run.pse.store.length < 32 ∧ run.vau.intake.length < 32 ∧ run.onDuty = true ∧ run.sbc.list.length < 8 ∧
    ((run.completeWheel .left (some (plainHit .ll 19765000 182400)) (some (plainHit .tl 19900000 179950)) (some 22222)
      run.now).pse.checks.map Check.window = [18000]) ∧
    ((run.completeWheel .left none (some (plainHit .tl 19900000 179950)) none run.now).vau.port.holder = some .axleFormer) ∧
    (let q := fullStore.completeWheel .left none (some (plainHit .tl 19900000 179950)) none run.now
     (q.pse.store.length, q.vau.intake.length, q.vau.forcedDecisions, q.vau.droppedWheels, q.vau.waiting.map PendingWheel.forced,
       (q.pse.store.take 2).map StoreRecord.isOpen) = (32, 32, 1, 1, [true], [false, true])) ∧
    sixteenChecks.length = 16 ∧
    (let q := (run.modPse fun u => { u with checks := sixteenChecks }).completeWheel .left (some (plainHit .ll 19765000 182400))
       (some (plainHit .tl 19900000 179950)) (some 22222) run.now
     (q.pse.checks.length, (q.pse.checks.map fun c => decide (c.checkTime = 20218000)).count true) = (16, 9)) := by decide +kernel

/-- The record of the wheel of section 2.6, its leading hit's area as given. -/
def weighed (area : Nat) (p : Part) : Wheel :=
  p.wheelRecord .left (some (plainHit .ll 19765000 area)) (some (plainHit .tl 19900000 179950)) (some 22222)

/-- RUN with one entry in the step log. -/
def stepped (first last : SiteTime) : Part := run.modStu fun u => { u with log := [{ first := first, last := last }] }

/-- RUN whose LL strip has a constant that clamps p of a full area. -/
def clamping : Part := run.modCsu fun c =>
  { c with image := some { image6 with strips := { strips6 with cal := { strips6.cal with ll := 65537 } } } }

theorem witness_CompletedWheel_record :
    (weighed 182400 (weighing [])).qLead = some 11703 ∧ (weighed 182400 (weighing [])).qTrail = some 11547 ∧
    (weighed 182400 (weighing [])).load = some 3934 ∧ (weighed 182400 (weighing [])).temperature = 310 ∧
    [(weighed 182400 run).flags.qSat, (weighed 4294967295 run).flags.qSat, (weighed 4294967295 clamping).flags.qSat] =
      [false, false, true] ∧
    [(weighed 0 (stepped 19900000 19900000)).flags.timeStep, (weighed 0 (stepped 19900001 19900001)).flags.timeStep,
      (weighed 0 (stepped 0 19765000)).flags.timeStep, (weighed 0 (stepped 0 19765001)).flags.timeStep] =
      [true, false, false, true] ∧
    ((weighing []).completeWheel .left none (some (plainHit .tl 19900000 1)) none run.now).ptu.held =
      some { value := 310, obtained := run.now } ∧
    (run.completeWheel .left none (some (plainHit .tl 19900000 1)) none run.now).ptu.held = none := by decide +kernel

/-- RUN with a check due; the histories of the right side hold the given start times. -/
def checking (lr tr : List SiteTime) : Part := run.modPse fun u =>
  { u with
    history := { u.history with lr := lr, tr := tr }
    checks := [{ side := .left, leadStart := 19000000, trailStart := 19135000, window := 18000, checkTime := 20000000 },
      { side := .left, leadStart := 19000000, trailStart := 19135000, window := 18000, checkTime := 20000001 }] }

theorem witness_DueChecksSendTheirNotices :
    (alone (checking [] [])).running ∧ (checking [] []).csu.station = .run ∧ (checking [] []).atInstant = true ∧
    (sampledAt 49999999).atInstant = false ∧ 0 ≤ siteDiff (checking [] []).sampleTime 20000000 ∧
    siteDiff (checking [] []).sampleTime 20000001 < 0 ∧ after .coincidenceCheck run = run ∧
    (siteDiff 19018000 19000000).natAbs ≤ 18000 ∧ ¬(siteDiff 19153001 19135000).natAbs ≤ 18000 ∧
    (after .coincidenceCheck (checking [19018000] [19153001])).lcu.channels.tr.missCounter = 1 ∧
    (after .coincidenceCheck (checking [18981999] [19153000])).lcu.channels.lr.missCounter = 1 ∧
    (after .coincidenceCheck (checking [19018000] [19153000])).lcu.channels.tr.missCounter = 0 ∧
    (after .coincidenceCheck (checking [] [])).lcu.channels.lr.missCounter = 0 ∧
    (after .coincidenceCheck (checking [] [])).pse.checks.length = 1 ∧
    (run.lcu.channels.get .ll).missCounter + 1 < run.image.strips.deadCount ∧
    ((withChannel .ll { idling with missCounter := 3 } run).lcu.channels.get .ll).missCounter + 1 = run.image.strips.deadCount ∧
    run.image.strips.deadCount ≤ ((withChannel .ll { idling with missCounter := 4 } run).lcu.channels.get .ll).missCounter ∧
    ((withChannel .ll { idling with missCounter := 3 } run).missedNotice .ll).lcu.channels.ll.mark = some .dead :=
  ⟨rfl, by decide +kernel⟩

/-- An instant keeps its sample time when site time is stepped at the same own-clock time: the check a microsecond ahead waits for
the next instant; and the row itself, when it comes first, reads the sample time for the instant (R1, R32). -/
theorem test_checksGoByTheSampleTime :
    let later := (after (.sampleInstant 0 0 0 0) (checking [] [])).takeStep 1
    let first := after .coincidenceCheck (checking [] [])
    later.pse.checks.length = 1 ∧ (after .coincidenceCheck later).pse = later.pse ∧
    (after .coincidenceCheck { later with clock := 50000125 }).pse.checks.length = 0 ∧
    (first.takeStep 1).sampleTime = 20000000 ∧ first.lcu.lastSample = none := by decide +kernel

theorem witness_FactorTableInterpolates :
    1 ≤ factors6.temperature.length ∧ factors6.temperature.length ≤ 8 ∧
    (factors6.temperature.map FactorPoint.key).Pairwise (· < ·) ∧
    [tableFactor (-1) factors6.temperature, tableFactor 0 factors6.temperature, tableFactor 1 factors6.temperature,
      tableFactor 400 factors6.temperature, tableFactor 401 factors6.temperature] = [34406, 34406, 34398, 31457, 31457] := by
  decide +kernel

theorem witness_LoadFormula :
    noHitFlags = { stretched := false, clipped := false, areaSat := false } ∧ run.image.strips.cal.get .ll ≠ 0 ∧
    (run.lcu.channels.get .ll).mark = none ∧ run.usableQ 32047 (some (plainHit .ll 0 182400)) = some (11703, false) ∧
    (withChannel .ll { idling with mark := some .dead } run).usableQ 32047 (some (plainHit .ll 0 182400)) = none ∧
    (wheelOf 1 .left 0).load.isSome = true ∧
    finishWheel [] 1388 { wheelOf 1 .left 0 with load := none } = { wheelOf 1 .left 0 with load := none } ∧
    ((finishWheel [] 1389 { wheelOf 1 .left 0 with load := none, qTrail := none }).load,
      (finishWheel [] 69444 { wheelOf 1 .left 0 with load := none, qLead := some 4294967295 }).flags.loadSat,
      (finishWheel [] 69445 { wheelOf 1 .left 0 with load := none }).load) = (some 248, true, none) := by decide +kernel

/-! ## Witnesses: pavement temperature and site time -/

/-- RUN whose converter is in a phase since an own-clock instant. -/
def converting (c : Converter) : Part :=
  run.modPtu fun u => { u with converter := c, intervalStart := some 45000000, probes := { u.probes with
    p0 := { u.probes.p0 with tempTimer := some 40000000 } } }

theorem witness_MeasurementCycleRuns :
    (alone (converting .idle)).running ∧ run.working = true ∧ 45000000 + image6.probes.interval * 1000000 ≤ run.clock ∧
    49980000 + 20000 ≤ run.clock ∧ 49920000 + 80000 ≤ run.clock ∧ 40000000 + 10000000 ≤ run.clock ∧ run.onDuty = true ∧
    (image6.probes.probe.get .p0).enable = true ∧
    (after .measurementIntervalStart (converting .idle)).ptu.converter = .settle .p0 50000000 ∧
    (after .settleEnd (converting (.settle .p0 49980000))).ptu.converter = .convert .p0 50000000 ∧
    (after (.conversionComplete 33000) (converting (.convert .p0 49920000))).ptu.converter = .settle .p1 50000000 ∧
    (after (.conversionComplete 33000) (converting (.convert .p0 49920000))).ptu.probes.p0.own =
      { value := some 204, quality := .good, receiveTime := 20000000 } ∧
    (after (.conversionComplete 33000) (converting (.convert .p0 49920000))).sbc.list.map TxEntry.content =
      [.temp .p0 { quality := .good, group := 1, value := some 204 }, .status] ∧
    (after (.tempTimerExpiry .p0) (converting .idle)).sbc.list.map TxEntry.content =
      [.temp .p0 { quality := .none, group := 1, value := none }] ∧
    (after (.conversionComplete 33000) (converting (.convert .p0 49920000))).ptu.codes = { p0 := 33000, p1 := 0 } ∧
    (let own (start : Nat) : Option Instr := (((sampledAt 50000000).modPtu fun u =>
       { u with converter := .convert .p1 start, codes := { p0 := 7, p1 := 33000 } }) : Part).dueCommand
     (own 49920000, own 49920001) = (some (.conversionComplete 33000), none)) := ⟨rfl, by decide +kernel⟩

theorem witness_ResultCodeBecomesReading :
    [readCode probe6 0, readCode probe6 65535, readCode probe6 1, readCode probe6 65534, readCode probe6 65536] =
      [.fault .shortCircuit, .fault .openCircuit, .valid (-400), .valid 799, .valid 800] ∧
    readCode { probe6 with gain := 1202 } 65534 = .fault .range ∧ readCode { probe6 with offset := -401 } 1 = .fault .range ∧
    ProbeState.powerOn.seeded = false := by decide +kernel

/-- A seeded probe at 200. -/
def seededProbe (reject stale : Nat) : ProbeState :=
  { ProbeState.powerOn with seeded := true, filtered := 200, quality := .good, reject := reject, stale := stale }

theorem witness_ReadingIsFiltered :
    ProbeState.powerOn.seeded = false ∧ ((250 : Int) - (seededProbe 0 0).filtered).natAbs ≤ 50 ∧
    50 < ((251 : Int) - (seededProbe 0 0).filtered).natAbs ∧ (seededProbe 1 0).reject < 2 ∧ 2 ≤ (seededProbe 2 0).reject ∧
    (takeReading (.valid 250) (seededProbe 0 0)).1.filtered = 212 ∧
    (takeReading (.valid 197) (seededProbe 0 0)).1.filtered = 200 ∧
    (takeReading (.valid 251) (seededProbe 1 9)).1.quality = .stale ∧
    (takeReading (.valid 251) (seededProbe 2 9)).1.filtered = 251 := by decide +kernel

/-- RUN with one entry at its age limit and one past it in each list that removes by age. -/
def aging : Part :=
  let now : SiteTime := 2000000000
  let q : Part := station .run 0 now
  let temp (t : SiteTime) : PeerTemp :=
    { station := 5, probe := .p0, value := some 100, quality := .good, group := 1, receiveTime := t }
  { q with
    ptu := { q.ptu with peers := [temp (now - 120000000), temp (now - 120000001)],
                        held := some { value := 1, obtained := now - 1800000001 } }
    sbc := { q.sbc with blind := [{ start := 0, close := some (now - 10000001) }, { start := 0, close := none }] }
    stu := { q.stu with log := [{ first := 0, last := now - 8000001 }, { first := 0, last := now - 8000000 }] }
    vau := { q.vau with peers := [{ sender := 5, wheel := wheelOf 1 .right (now - 2040000), aged := false },
      { sender := 5, wheel := wheelOf 2 .right (now - 2040001), aged := false }] } }

theorem witness_AgedEntriesLeaveOrAreMarked :
    (alone aging).running ∧ (after .peerTempEntryRemoval aging).ptu.peers.length = 1 ∧
    (after .heldValueExpiry aging).ptu.held = none ∧ (after .blindIntervalRemoval aging).sbc.blind.length = 1 ∧
    (after .stepLogEntryRemoval aging).stu.log.length = 1 ∧
    (after .peerWheelAged aging).vau.peers.map PeerWheel.aged = [false, true] := ⟨rfl, by decide +kernel⟩

theorem witness_EffectiveTemperatureOrder :
    aging.effective = (100, .peerSurface) ∧ run.effective = (200, .reference) ∧
    (weighing []).effective = (310, .ownSurface) ∧
    (run.modPtu fun u => { u with held := some { value := 7, obtained := 0 } }).effective = (7, .held) ∧
    ((weighing []).modProbe .p0 fun s => { s with own := { s.own with quality := .stale } }).effective = (200, .reference) ∧
    (run.modProbe .p1 fun s => { s with own := { value := some 5, quality := .good, receiveTime := 0 } }).effective =
      (5, .ownDepth) ∧
    (run.modPtu fun u => { u with peers := [-15, -16].map fun v =>
      { station := 5, probe := .p1, value := some v, quality := .good, group := 1, receiveTime := 20000000 } }).effective =
      (-15, .peerDepth) := by decide +kernel

/-- The capture of a frame whose start mark stood 500 µs ago. -/
def heardAt : Capture := { siteTime := 19999500, stepTotal := 0 }

theorem witness_TimeFramesAreFollowed :
    run.working = true ∧ (5 : Nat) = (4 : Fin 14).val + 1 ∧
    (run.takeTimeFrame 5 19999480 heardAt).stu.siteTime = 20000000 ∧
    (run.takeTimeFrame 5 20000480 heardAt).stu.siteTime = 20001000 ∧
    (run.takeTimeFrame 5 20000481 heardAt).stu.split[4] = 1 ∧
    (((run.takeTimeFrame 5 20000481 heardAt).takeTimeFrame 5 20000481 heardAt).takeTimeFrame 5 20000481 heardAt).stu.siteTime =
      20001001 ∧
    ((station .join 0 20000000).takeTimeFrame 5 29999480 heardAt).stu.siteTime = 30000000 ∧
    run.inRunOrHold = true ∧ stepPassesDue 6 20000000 96000 = true ∧ stepPassesDue 6 20000000 95999 = false ∧
    (run.takeStep 96000).sbc.list.map TxEntry.content = [.time] ∧ (run.takeStep 95999).sbc.list = [] ∧
    stepPassesDue 6 (BitVec.ofNat 48 (2 ^ 48 - 1)) 96001 = true ∧ (14 : Nat) ≤ 14 ∧ 96001 < 2 ^ 48 ∧
    ((run.takeStep 96000).stu.lastDue, (run.takeStep 96001).stu.lastDue) = (some 20096000, none) ∧
    (let logged (n : Nat) (last : SiteTime) : Part := { run with stu := { run.stu with
       log := List.replicate n { first := last, last := last } } }
     (((logged 7 12000000).takeStep 5).stu.log.length, ((logged 8 12000000).takeStep 5).stu.log.length,
       ((logged 8 11999999).takeStep 5).stu.log.length,
       ((logged 8 12000000).takeStep 5).stu.log.getLast?) = (8, 8, 1, some { first := 12000000, last := 20000005 })) := by
  decide +kernel

/-! ## Witnesses: the site bus -/

/-- A full list whose least urgent waiting frames are TEMP frames. -/
def fullList : List TxEntry :=
  (List.replicate 6 (.wheel (wheelOf 1 .left 0))).map waitingEntry ++
    [waitingEntry (.temp .p0 { quality := .none, group := 1, value := none }),
      waitingEntry (.temp .p1 { quality := .none, group := 1, value := none })]

theorem witness_TransmitListTakesByKind :
    run.onDuty = true ∧ ((withList [waitingEntry .time] run).enterList .time 0).sbc.drops = 1 ∧
    ((withList [sentEntry .status] run).enterList .status 0).sbc.list.map TxEntry.repeatAsked = [true] ∧
    ((withList [waitingEntry (.temp .p0 { quality := .none, group := 1, value := none })] run).enterList
      (.temp .p0 { quality := .good, group := 1, value := some 3 }) 0).sbc.list.map TxEntry.content =
      [.temp .p0 { quality := .good, group := 1, value := some 3 }] ∧
    ((withList [waitingEntry .totals] run).enterList .time 0).sbc.list.map TxEntry.content = [.time, .totals] ∧
    fullList.length = 8 ∧
    (((withList fullList run).enterList .time 0).sbc.list.map TxEntry.code = [1, 1, 1, 1, 1, 1, 2, 5]) ∧
    ((withList fullList run).enterList .time 0).sbc.list.getLast? =
      some (waitingEntry (.temp .p0 { quality := .none, group := 1, value := none })) ∧
    ((withList fullList run).enterList .status 0).sbc.list = fullList ∧
    ((withList fullList run).enterList .status 0).sbc.drops = 1 ∧
    (∀ st ∈ [StationState.loading, .mute, .silent], (station st 0 0).enterList .status 0 = station st 0 0) ∧
    unconfigured.enterList .time 0 = unconfigured ∧
    (unconfigured.enterList .status 0).sbc.list.map TxEntry.content = [.status] ∧
    ((withList ((fullList.take 7) ++ [waitingEntry (.vehicle 4)]) (withRecords [recordOf 4 .sending] run)).enterList .time 0).vcl.records.map
      VehicleRecord.state = [.sending] ∧
    ((withList ((List.replicate 7 (waitingEntry (.wheel (wheelOf 1 .left 0)))) ++ [waitingEntry (.vehicle 4)])
      (withRecords [recordOf 4 .sending] run)).enterList .time 0).vcl.records.map VehicleRecord.state = [.ready] := by decide +kernel

/-- RUN with frames in the list and a record being sent, or two READY ones. -/
def offering (l : List TxEntry) (st : RecordState) : Part := withRecords [recordOf 4 st, recordOf 5 .ready] (withList l run)

theorem witness_VehicleOffersFollowTheInvitation :
    (let wheels (n : Nat) : List TxEntry := List.replicate n (waitingEntry (.wheel (wheelOf 1 .left 0)))
     let sent (l : List TxEntry) : List Nat × List RecordState :=
       let q := (offering l .ready).offerVehicle
       (q.sbc.list.map TxEntry.code, q.vcl.records.map VehicleRecord.state)
     [(offering (wheels 7) .ready).invitation, (offering (wheels 8) .ready).invitation,
       (offering (wheels 7 ++ [waitingEntry .status]) .ready).invitation, (offering (wheels 7 ++ [sentEntry .status]) .ready).invitation,
       (offering [sentEntry (.vehicle 4)] .sending).invitation, (station .silent 0 0).invitation] =
       [true, false, true, false, false, false] ∧
     sent (wheels 7) = ([1, 1, 1, 1, 1, 1, 1, 4], [.sending, .ready]) ∧
     sent (wheels 6 ++ [waitingEntry .totals]) = ([1, 1, 1, 1, 1, 1, 4, 7], [.sending, .ready]) ∧
     sent (wheels 7 ++ [waitingEntry .status]) = ([1, 1, 1, 1, 1, 1, 1, 4], [.sending, .ready]) ∧
     sent (wheels 8) = ([1, 1, 1, 1, 1, 1, 1, 1], [.ready, .ready])) ∧
    (offering [] .ready).vcl.records = [] ++ recordOf 4 .ready :: [recordOf 5 .ready] ∧ (recordOf 4 .ready).state = .ready ∧
    ((offering [] .ready).handFrame .time).sbc.list.map TxEntry.code = [2, 4] ∧
    ((offering [] .ready).offerVehicle).sbc.list = [newEntry (.vehicle 4) 20000000] := by decide +kernel

/-- A WHEEL frame that waits since a site time. -/
def wheelSince (t : SiteTime) : TxEntry := { waitingEntry (.wheel (wheelOf 1 .left 0)) with queueTime := t }

/-- RUN on a line quiet for 11 bit times, with frames to send. -/
def ready (l : List TxEntry) : Part :=
  (withList l run).modSbc fun b => { b with line := .quiet (50000000 - 22) }

theorem witness_FirstFrameStarts :
    (alone (ready [waitingEntry .totals])).running ∧ run.usesLine = true ∧ (ready [waitingEntry .totals]).sending = none ∧
    (ready [waitingEntry .totals]).sbc.following = none ∧ 50000000 - 22 + 11 * 2 ≤ run.clock ∧ run.clock < 50000000 - 21 + 11 * 2 ∧
    siteDiff run.now 19960000 ≤ image6.assembly.lp * 1000 ∧ image6.assembly.lp * 1000 < siteDiff run.now 19959999 ∧
    (after .wouldBeStart (ready [waitingEntry .totals])).sbc.list.map TxEntry.snapshot = [some Totals.zero] ∧
    (after .wouldBeStart (ready [wheelSince 19959999])).sbc.drops = 1 ∧ (after .wouldBeStart (ready [wheelSince 19960000])).sbc.drops = 0 ∧
    (after .wouldBeStart (ready [wheelSince 19959999, wheelSince 19959998, waitingEntry .time])).sbc.list.map TxEntry.content = [.time] ∧
    (after .wouldBeStart (ready [wheelSince 19959999, wheelSince 19959998, waitingEntry .time])).vcl.totals.staleWheelDrops = 2 ∧
    (let early : Part := (ready [waitingEntry .time]).modSbc fun b => { b with line := .ignored (50000000 - 21) }
     (after .wouldBeStart early).sending = none ∧ (after .wouldBeStart { early with clock := 50000001 }).sending.isSome = true) ∧
    ((after .wouldBeStart (ready [waitingEntry .time])).sbc.onLine.map judgeBytes = some (.good .time 6 (timePayload 20000000))) ∧
    (after .wouldBeStart (withRecords [recordOf 4 .ready] (ready [wheelSince 19959999, waitingEntry .status]))).sbc.list.map
      (fun e => (e.code, e.inTransmission)) = [(4, true), (6, false)] :=
  ⟨rfl, by decide +kernel⟩

/-- The part finds the instant of a would-be start itself: not before 11 bit times, and not past them (R65). -/
theorem test_frameStartsOfItself :
    (let own (t : Nat) : Option Instr := ({ (sampledAt 50000000).modSbc fun b =>
       { b with list := [waitingEntry .time], line := .quiet t } with clock := 50000000 } : Part).dueCommand
     (own (50000000 - 22), own (50000000 - 21)) = (some .wouldBeStart, none)) ∧
    (let begun := (after (.configBlockRead (imageBlock 8 0 [])) readToEnd)
     begun.sbc.list.length = 1 ∧ (after .wouldBeStart begun).sending = none ∧
     (after .wouldBeStart { begun with clock := 21 }).sending = none ∧
     (after .wouldBeStart { begun with clock := 22 }).sending.isSome = true) := by decide +kernel

/-- A station that sends the second of three frames. -/
def sendingSecond (c : TxContent) (p : Part) : Part :=
  withList [waitingEntry (.wheel (wheelOf 1 .left 0)), { sentEntry c with snapshot := some Totals.zero }, waitingEntry .totals] p

theorem witness_LostFramesStayInTheList :
    (alone (sendingSecond .status run)).running ∧ (sentEntry .status).inTransmission = true ∧
    (waitingEntry (.wheel (wheelOf 1 .left 0))).inTransmission = false ∧
    (after .contentionLoss (sendingSecond .status run)).sending = none ∧
    (after .contentionLoss (sendingSecond .status run)).sbc.list.map TxEntry.code = [1, 6, 7] ∧
    (after .contentionLoss (sendingSecond .status (withRecords [recordOf 4 .ready] run))).sbc.list.map TxEntry.code = [1, 4, 6, 7] ∧
    (after .contentionLoss (sendingSecond (.wheel (wheelOf 2 .left 0)) holding)).sbc.list.map TxEntry.code = [1, 1, 7] ∧
    (after .contentionLoss (withList [{ sentEntry (.wheel (wheelOf 2 .left 0)) with leaving := true }] run)).sbc.list = [] ∧
    (after .contentionLoss (withList [{ sentEntry (.temp .p0 { quality := .none, group := 1, value := none }) with
      repeatTemp := some { quality := .good, group := 1, value := some 1 } }] run)).sbc.list.map TxEntry.content =
      [.temp .p0 { quality := .good, group := 1, value := some 1 }] ∧
    (after .payloadMismatch (sendingSecond .status run)).csu.station = .run ∧
    (after .payloadMismatch (sendingSecond .status run)).sbc.lastMismatch = some 50000000 ∧
    (after .payloadMismatch ((sendingSecond .status run).modSbc fun b => { b with lastMismatch := some 40000000 })).csu.station =
      .silent ∧
    (after .payloadMismatch ((sendingSecond .status run).modSbc fun b => { b with lastMismatch := some 39999999 })).csu.station =
      .run ∧
    (after .payloadMismatch (sendingSecond .status run)).sbc.line = .quiet 50000000 := ⟨rfl, by decide +kernel⟩

theorem witness_CompletedFrameLeavesTheList :
    (alone (sendingSecond .status run)).running ∧ run.onDuty = true ∧ 1 + 1 < 8 ∧
    (after .frameComplete (sendingSecond .time run)).sbc.list.map TxEntry.code = [1, 7] ∧
    (after .frameComplete (sendingSecond (.vehicle 4) (withRecords [recordOf 4 .sending] run))).vcl.records = [] ∧
    (after .frameComplete (withList [{ sentEntry .totals with snapshot := some { Totals.zero with lost := 2 } }]
      (run.modTotals fun t => { t with lost := 3 }))).vcl.totals.lost = 1 ∧
    (after .frameComplete (withList [{ sentEntry .status with repeatAsked := true }] run)).sbc.list =
      [newEntry .status 20000000] ∧
    (after .frameComplete (withList [{ sentEntry (.temp .p0 { quality := .none, group := 1, value := none }) with
      repeatTemp := some { quality := .good, group := 1, value := some 1 } }] run)).sbc.list =
      [newEntry (.temp .p0 { quality := .good, group := 1, value := some 1 }) 20000000] ∧
    (after .frameComplete (withList [sentEntry (.vehicle 4)] (withRecords [recordOf 4 .sending, recordOf 5 .ready] run))).sbc.list.map
      TxEntry.content = [.vehicle 5] ∧
    (after .frameComplete (withList [{ sentEntry .status with repeatAsked := true }] (withRecords [recordOf 5 .ready] run))).sbc.list.map
      TxEntry.content = [.vehicle 5, .status] := ⟨rfl, by decide +kernel⟩

/-- A COMMAND frame's bytes from station 3. -/
def commandBytes (target code : Byte) (args : List Byte) : List Byte := frameBytes .command 3 (target :: code :: args)

theorem witness_ReceivedFramesAreChecked :
    (alone (listening run)).running ∧ run.receiverOn = true ∧ run.sending = none ∧ run.sbc.following = none ∧
    (listening run).sbc.following.isSome = true ∧ judgeBytes [0x25] = .endedEarly ∧ judgeBytes [0x25, 0, 0, 0] = .badCrc ∧
    judgeBytes [0x25, 121] = .tooLong ∧
    judgeBytes (let b : List Byte := [0x85, 0]; b ++ leBytes 2 (crc16 b).toNat) = .badKind ∧
    run.accepts .command 3 [6] = true ∧ run.accepts .command 3 [0x81] = true ∧ run.accepts .command 3 [0x82] = false ∧
    run.accepts .wheel 5 [] = true ∧ run.accepts .wheel 4 [] = false ∧ run.accepts .status 5 [] = false ∧
    parseContent .command 3 [6] = none ∧ (after .startMarkReceived run).sbc.following.isSome = true ∧
    (let since (t : Nat) : Part := run.modSbc fun b => { b with line := .ignored t }
     (after .startMarkReceived (since 49999978)).sbc.following.isSome = true ∧
     (after .startMarkReceived (since 49999979)).sbc.following = none ∧
     (after .startMarkReceived (since 49999979)).sbc.line = .ignored 50000000 ∧
     (after (.frameReceived [0x25]) (since 49999979)).sbc.line = .ignored 50000000 ∧
     (after (.frameReceived [0x25]) run).sbc.line = .quiet 50000000) ∧
    (after .lengthByteOver120 (listening run)).sbc.line = .ignored 50000000 ∧
    (after .lengthByteOver120 (listening run)).sbc.formatErrors = 1 ∧
    (after (.frameReceived [0x25]) (listening run)).vcl.totals.crcErrors = 1 ∧
    (after (.frameReceived (frameBytes .command 3 [6])) (listening run)).sbc.formatErrors = 1 ∧
    (after (.frameReceived (commandBytes 6 4 [])) ((listening run).modSbc fun b => { b with deaf := true })).sbc.deafDiscards = 1 :=
  ⟨rfl, by decide +kernel⟩

/-- Which payloads fail the content check, at the ends of each range (R196). -/
theorem witness_ReceivedFrames_content :
    (let fails (kind : FrameKind) (b : List Byte) : Bool := (parseContent kind 5 b).isNone
     let wheel (changes : List (Nat × Byte)) : Bool :=
       fails .wheel (changes.foldl (fun b c => b.set c.1 c.2) (wheelPayload (wheelOf 5 .right 19000000)))
     (([[], [(2, 2)], [(7, 5)], [(7, 6)], [(4, 3)], [(4, 4)], [(8, 128)], [(8, 92)]] : List (List (Nat × Byte))).map wheel =
       [false, true, false, true, false, true, true, true]) ∧
     (([[(5, 0x20), (6, 3)], [(5, 0x21), (6, 3)], [(5, 0x70), (6, 0xFE)], [(5, 0x6F), (6, 0xFE)]] : List (List (Nat × Byte))).map
       wheel = [false, true, false, true]) ∧
     (([[(21, 0x6D), (22, 5), (23, 0)], [(21, 0x6C), (22, 5), (23, 0)], [(21, 0x44), (22, 0x0F), (23, 1)],
       [(21, 0x45), (22, 0x0F), (23, 1)]] : List (List (Nat × Byte))).map wheel = [false, true, false, true]) ∧
     ([[0, 5, 3, 0], [2, 5, 3, 0], [0, 6, 3, 0], [0, 5, 0, 0], [0, 5, 4, 0], [0, 5, 3, 2], [0, 5, 3, 1], [0, 5, 3, 1, 7, 7],
       [0, 5, 3, 0, 7]].map (fails .temp) = [false, true, true, true, true, true, true, false, true]) ∧
     [fails .time (List.replicate 6 0), fails .time (List.replicate 7 0), fails .command [6], fails .command [6, 1]] =
       [false, true, true, false]) := by decide +kernel

theorem witness_FrameChecksReadTheBytes :
    ([0x25] : List Byte).length < 2 ∧ 120 < (121 : Byte).toNat ∧ (120 : Byte).toNat ≤ 120 ∧
    (List.replicate 121 (0 : Byte)).length < (120 : Byte).toNat + 2 ∧ (List.replicate 120 (0 : Byte)).length ≤ 120 ∧
    (crc16 [0x25, 0]).toNat = (crc16 [0x25, 0]).toNat % 256 + 256 * ((crc16 [0x25, 0]).toNat / 256) ∧
    judgeBytes ([0x25, 0] ++ leBytes 2 (crc16 [0x25, 0]).toNat ++ [1, 2]) = .good .time 5 [] ∧
    judgeBytes ([0x25, 0] ++ leBytes 2 ((crc16 [0x25, 0]).toNat + 1)) = .badCrc ∧
    judgeBytes ([0x05, 0] ++ leBytes 2 (crc16 [0x05, 0]).toNat) = .badKind ∧
    judgeBytes ([0x85, 0] ++ leBytes 2 (crc16 [0x85, 0]).toNat) = .badKind ∧
    judgeBytes ([0x75, 0] ++ leBytes 2 (crc16 [0x75, 0]).toNat) = .good .totals 5 [] ∧
    judgeBytes (0x25 :: 120 :: List.replicate 121 0) = .endedEarly ∧
    (15 : Nat) < 16 ∧ crc16 [] = 0xFFFF ∧ crc16 [0x31, 0x32, 0x33, 0x34, 0x35, 0x36, 0x37, 0x38, 0x39] = 0x29B1 ∧
    (frameBytes .totals 15 [1, 2]).take 4 = [0x7F, 2, 1, 2] ∧
    frameLevels [0xA0] = [.dominant, .dominant, .recessive, .dominant, .recessive, .dominant, .dominant, .dominant, .dominant,
      .dominant, .recessive, .recessive, .recessive] := by decide +kernel

theorem witness_FramesAreHandedOnAtOnce :
    (alone (listening run)).running ∧ run.sbc.rx = [] ∧ run.sbc.deaf = false ∧ (3 : Nat) ≠ run.block.number ∧
    judgeBytes (commandBytes 0 1 []) = .good .command 3 [0, 1] ∧ CommandKind.hold.code = 1 ∧
    (after (.frameReceived (commandBytes 0 1 [])) (listening run)).csu.station = .hold ∧
    (after (.frameReceived (commandBytes 0 8 [])) (listening run)).csu.lastResult.map LastResult.result = some .unknown ∧
    (after (.frameReceived (frameBytes .time 5 (timePayload 19999980))) (listening run)).stu.siteTime = 20001000 ∧
    (after (.frameReceived (frameBytes .temp 5 (tempPayload .p1 { quality := .good, group := 1, value := some 800 })))
      (listening run)).ptu.peers.map PeerTemp.value = [some 800] ∧
    (let taken (sender : Nat) (q : Quality) (v : Option Int) : List (Nat × Option Int) :=
       ((run.takeTempFrame 5 .p0 { quality := .good, group := 1, value := some 7 }).takeTempFrame sender .p0
         { quality := q, group := 1, value := v }).ptu.peers.map fun e => (e.station, e.value)
     [taken 14 .good (some (-400)), taken 5 .good (some 800), taken 5 .good (some 801), taken 5 .good none, taken 6 .good (some 1),
       taken 0 .good (some 1), taken 15 .good (some 1), taken 5 .stale none] =
       [[(5, some 7), (14, some (-400))], [(5, some 800)], [(5, some 7)], [(5, some 7)], [(5, some 7)], [(5, some 7)],
         [(5, some 7)], [(5, none)]]) := ⟨rfl, by decide +kernel⟩

/-- The bytes of a WHEEL frame from the left neighbour: its right wheel. -/
def peerBytes : List Byte := frameBytes .wheel 5 (wheelPayload (wheelOf 9 .right 19990000))

/-- An entry of the receive buffer with that wheel. -/
def peerEntry : RxEntry := { frame := .wheel 5 (wheelOf 9 .right 19990000), capture := heardAt, arrival := 20000000 }

/-- RUN with a receive buffer. -/
def buffered (l : List RxEntry) : Part := (listening run).modSbc fun b => { b with rx := l }

theorem witness_WheelFramesWaitForThePort :
    (alone (listening run)).running ∧ run.receiverOn = true ∧ run.sbc.deaf = false ∧
    judgeBytes peerBytes = .good .wheel 5 (wheelPayload (wheelOf 9 .right 19990000)) ∧
    run.accepts .wheel 5 (wheelPayload (wheelOf 9 .right 19990000)) = true ∧
    (parseContent .wheel 5 (wheelPayload (wheelOf 9 .right 19990000))).isSome = true ∧
    (after (.frameReceived peerBytes) (listening run)).vau.port.holder = some .dispatcher ∧
    (buffered (List.replicate 3 peerEntry)).csu.station ≠ .silent ∧
    (portHeld .dispatcher (buffered (List.replicate 3 peerEntry))).vau.port.standing .dispatcher = true ∧
    (after (.frameReceived (frameBytes .time 5 (timePayload 5)))
      (portHeld .dispatcher (buffered (List.replicate 3 peerEntry)))).sbc.rx.length = 4 ∧
    (after (.frameReceived peerBytes) (buffered (List.replicate 4 peerEntry))).sbc.deaf = true ∧
    (let blinded (l : List BlindInterval) : List BlindInterval := (after (.frameReceived peerBytes)
       ((buffered (List.replicate 4 peerEntry)).modSbc fun b => { b with blind := l })).sbc.blind
     let shut (c : SiteTime) : BlindInterval := { start := 5, close := some c }
     [blinded [shut 10000000, shut 11, shut 12], blinded (List.replicate 4 (shut 10000000)), blinded (List.replicate 4 (shut 9999999))] =
       [[shut 10000000, { start := 20000000, close := none }],
         List.replicate 3 (shut 10000000) ++ [{ start := 5, close := none }], [{ start := 20000000, close := none }]]) :=
  ⟨rfl, by decide +kernel⟩

/-- Peer wheels of the left neighbour, one for each number below the given one. -/
def peerWheels (n : Nat) : List PeerWheel := (List.range n).map fun k =>
  { sender := 5, wheel := wheelOf (BitVec.ofNat 16 (100 + k)) .right (19000000 + BitVec.ofNat 48 k), aged := false }

theorem witness_DispatcherServesItsGrant :
    (alone (portHeld .dispatcher (buffered [peerEntry]))).running ∧
    (portHeld .dispatcher (buffered [peerEntry])).vau.port.holder = some .dispatcher ∧
    run.vau.port.holder ≠ some .dispatcher ∧ run.neighbour (otherSide .right) = some 5 ∧ run.vau.lastPeer.get .left ≠ some 9 ∧
    (let granted (l : List RxEntry) (peers : List PeerWheel) (last : Option Count16) : Part := after .dispatcherPortGrant
       ((portHeld .dispatcher (buffered l)).modVau fun v =>
         { v with peers := peers, lastPeer := { v.lastPeer with left := last } })
     let heard (f : RxFrame) : RxEntry := { peerEntry with frame := f }
     (granted [peerEntry] [] none).vau.peers.map PeerWheel.sender = [5] ∧ (granted [peerEntry] [] none).vau.port.holder = none ∧
     (granted [peerEntry] [] (some 9)).vau.peers = [] ∧ (granted [peerEntry] (peerWheels 31) none).vau.peers.length = 32 ∧
     (granted [peerEntry] (peerWheels 31) none).vau.peerOverflows = 0 ∧
     (granted [peerEntry] (peerWheels 32) none).vau.peerOverflows = 1 ∧
     (granted [peerEntry] (peerWheels 32) none).vau.peers.head?.map (fun e => e.wheel.number) = some 101 ∧
     (granted [peerEntry, heard (.time 5 20000480), peerEntry] [] none).stu.siteTime = 20001000 ∧
     (granted [peerEntry, heard (.time 5 20000480), peerEntry] [] none).vau.port.holder = some .dispatcher ∧
     (granted [peerEntry, heard (.command 1 [])] [] none).csu.station = .hold ∧
     (granted [peerEntry, heard (.temp 5 .p1 { quality := .good, group := 1, value := some 5 })] [] none).ptu.peers.length = 1 ∧
     (granted [peerEntry, peerEntry] [] none).sbc.rx = [peerEntry]) := ⟨rfl, by decide +kernel⟩

/-- A wheel takes the place of the entry of its own number, and no entry is counted (R93; log 46). -/
theorem test_samePeerGivesWay :
    (let q := after .dispatcherPortGrant ((portHeld .dispatcher (buffered [peerEntry])).modVau fun v =>
       { v with peers := (peerWheels 32).modify 3 fun e => { e with wheel := { e.wheel with number := 9 } } })
     q.vau.peers.length = 32 ∧ q.vau.peerOverflows = 0 ∧
       (q.vau.peers.filter fun e => decide (e.wheel.number = 9)).map (fun e => e.wheel.refTime) = [19990000]) := by
  decide +kernel

/-- A part with a wheel in the intake for which the axle former asks, the port free. -/
def asking : Part := (run.requestPort .axleFormer)

/-- Requests of one instant on a free port: the grant order picks, and the others wait; a later one waits (R90; log 20). -/
theorem witness_DispatcherServes_requests :
    (let free := run.vau.port
     let at5 := free.request 5 .axleFormer
     free.holder = none ∧ free.waitDispatcher = false ∧ at5.holder = some .axleFormer ∧ at5.freshAt = some 5 ∧
     (at5.request 5 .dispatcher).holder = some .dispatcher ∧ (at5.request 5 .dispatcher).waitAxleFormer = true ∧
     (at5.request 6 .dispatcher).holder = some .axleFormer ∧ (at5.request 6 .dispatcher).waitDispatcher = true ∧
     ((at5.request 5 .classWalk).request 5 .axleFormer).holder = some .axleFormer ∧
     (at5.request 5 .dispatcher).grantNext.holder = some .axleFormer) ∧
    (let heard (p : Part) := after (.frameReceived (frameBytes .wheel 5 (wheelPayload (wheelOf 9 .right 19900000)))) (listening p)
     asking.vau.port.holder = some .axleFormer ∧ (heard asking).vau.port.holder = some .dispatcher ∧
     (heard asking).vau.port.waitAxleFormer = true ∧
     (heard { asking with clock := asking.clock + 1 }).vau.port.holder = some .axleFormer ∧
     (after .dispatcherPortGrant (heard asking)).vau.port.holder = some .axleFormer) := by decide +kernel

theorem witness_OwnNumberHeardTakesSilent :
    (alone (listening busyRun)).running ∧ (listening busyRun).sbc.following.isSome = true ∧ busyRun.sbc.rx = [] ∧
    judgeBytes (frameBytes .time 6 (timePayload 5)) = .good .time busyRun.block.number (timePayload 5) ∧ busyRun.usesLine = true ∧
    (after (.frameReceived (frameBytes .time 6 (timePayload 5))) (listening busyRun)).csu.station = .silent ∧
    (after (.frameReceived (frameBytes .time 6 (timePayload 5))) (listening busyRun)).vau.vehicle = none ∧
    (after (.frameReceived (frameBytes .time 6 (timePayload 5))) (listening (station .silent 0 0))).csu.station = .silent ∧
    (let stored (n : Count16) : StoreRecord := { wheel := wheelOf n .left 19900000, isOpen := true }
     let p := listening ((withRecords [recordOf 4 .sending, recordOf 5 .ready] (withList [waitingEntry (.vehicle 4)] busyRun)).modPse
       fun u => { u with store := [stored 7, stored 8], history := { u.history with ll := [5] } })
     let q := after (.frameReceived (frameBytes .time 6 (timePayload 5))) p
     (q.vcl.records.map VehicleRecord.state, q.pse.store.map StoreRecord.isOpen, q.pse.history.ll) =
       ([.ready, .ready], [true, false], [])) :=
  ⟨rfl, by decide +kernel⟩

/-- A wheel with every optional field absent that may be, and its other fields at the ends of their ranges. -/
def bareWheel : Wheel :=
  { wheelOf 65535 .right 0 with leadStart := none, trailStart := some 281474976710655, speed := none, qLead := none,
                                qTrail := some 4294967295, temperature := -400, source := .reference, runStart := some 1,
                                load := some 65535, flags := { noWheelFlags with timeStep := true } }

theorem witness_FramesAndPayloadsRoundTrip :
    (15 : Nat) < 16 ∧ (List.replicate 120 (0xA5 : Byte)).length ≤ 120 ∧
    judgeBytes (frameBytes .vehicle 15 (List.replicate 20 0xA5)) = .good .vehicle 15 (List.replicate 20 0xA5) ∧
    judgeBytes (frameBytes .totals 0 []) = .good .totals 0 [] ∧
    bareWheel.trailStart.isSome = true ∧ -400 ≤ bareWheel.temperature ∧ bareWheel.temperature ≤ 800 ∧
    parseContent .wheel 5 (wheelPayload bareWheel) = some (.wheel 5 bareWheel) ∧
    parseContent .wheel 5 (wheelPayload (wheelOf 9 .left 7)) = some (.wheel 5 (wheelOf 9 .left 7)) ∧
    parseContent .temp 5 (tempPayload .p1 { quality := .stale, group := 3, value := some (-32768) }) =
      some (.temp 5 .p1 { quality := .stale, group := 3, value := some (-32768) }) ∧
    parseContent .temp 5 (tempPayload .p0 { quality := .none, group := 1, value := none }) =
      some (.temp 5 .p0 { quality := .none, group := 1, value := none }) ∧
    parseContent .time 5 (timePayload 281474976710655) = some (.time 5 281474976710655) := by decide +kernel

/-- A record of three axles with every flag of its own and of its slot that the two can hold. -/
def wideRecord : VehicleRecord :=
  { recordOf 0x0104 .sending with
    axles := [{ left := some 0x0102, right := none, kind := .singleWheel, spacing := none },
      { left := some 0x0304, right := some 0x0506, kind := .inLane, spacing := some 0x010203 },
      { left := none, right := some 0x0708, kind := .straddleLeft, spacing := some 4 }]
    gross := 0x01020304, temperature := -400, cls := some 31, groupOver := 0x801, headway := some 0x0506
    flags := { noVehicleFlags with partialLoad := true, grossOver := true }
    slotFlags := { noVehicleFlags with trigMissed := true } }

theorem witness_PayloadFieldsLieAtTheirOffsets :
    (let p := withRecords [recordOf 3 .ready, wideRecord] run
     p.vcl.records = [recordOf 3 .ready] ++ wideRecord :: [] ∧ (recordOf 3 .ready).seq ≠ wideRecord.seq ∧ wideRecord.owner ≤ 14 ∧
     wideRecord.axles.length ≤ 12 ∧ -400 ≤ wideRecord.temperature ∧
     p.payloadOf (.vehicle 0x0104) = [4, 1, 6] ++ leBytes 6 19000000 ++ [3, 4, 3, 2, 1, 31, 0x01, 0x08, 0x70, 0xFE, 0, 0, 0, 0, 0, 0x01, 0x12,
       3] ++ leBytes 3 22222 ++ [6, 5, 0xC7, 0x09, 2, 1, 4, 3, 6, 5, 3, 2, 1, 8, 7, 4, 0, 0]) ∧
    (let full := { wideRecord with
       ruleIndex := some 31
       axles := List.replicate 12 { left := some 1, right := some 1, kind := .inLane, spacing := some 5 } }
     (vehiclePayload { full with axles := full.axles.modify 0 fun a => { a with spacing := none } }).length = 120) ∧
    (let p : Part := { withChannel .tr { idling with mark := some .stuckLong } unconfigured with
       stu := { Stu.powerOn with split := (Vector.replicate 14 0).set 13 2, splitSteps := 0x0102 } }
     let q := p.modCsu fun c => { c with
       commandHold := true, loadFault := some { index := 3, code := .range, offset := some 9 },
       lastResult := some { code := 7, result := .badArgument, count := 5 } }
     q.payloadOf .status = [2, 2, 0xC0, 0, 0, 0, 0, 0, 8, 2, 1] ++ List.replicate 18 0 ++ [0, 7, 3, 3, 9, 7, 2, 5] ∧
     p.payloadOf .status = [2, 0, 0xC0, 0, 0, 0, 0, 0, 8, 2, 1] ++ List.replicate 18 0 ++ [0, 0]) ∧
    (run.modTotals fun t => { t with perClass := t.perClass.set 31 0x0102, lost := 3, holdHits := 4 }).payloadOf .totals =
      List.replicate 62 0 ++ [2, 1] ++ List.replicate 8 0 ++ [3, 0] ++ List.replicate 12 0 ++ [4, 0, 0, 0] ∧
    run.payloadOf (.wheel { bareWheel with number := 0x0102 }) = [2, 1, 1, 0, 2, 0x70, 0xFE, 5, 0x72] ++ List.replicate 6 0xFF ++
      List.replicate 4 0xFF ++ [1, 0, 0, 0, 0, 0] ++ [0xFF, 0xFF] ∧
    run.payloadOf (.temp .p1 { quality := .faultRange, group := 3, value := some (-2) }) = [1, 5, 3, 1, 0xFE, 0xFF] ∧
    run.payloadOf .time = leBytes 6 20000000 := by decide +kernel

/-! ## Witnesses: axles, vehicles, classes and outputs -/

theorem witness_CandidateWheels :
    candidateOffset 400 (wheelOf 1 .left 0) (wheelOf 2 .right 18000) = some 18000 ∧
    candidateOffset 400 (wheelOf 1 .left 0) (wheelOf 2 .right 18001) = none ∧
    coincidenceWindow 400 { wheelOf 1 .left 0 with speed := none } (wheelOf 2 .right 0) = some 18000 ∧
    wheelOffset { wheelOf 1 .left 0 with leadStart := none } { wheelOf 2 .right 5 with trailStart := none } = none ∧
    (candidateOffset 400 { wheelOf 1 .left 0 with speed := some 2000 } { wheelOf 2 .right 10000 with speed := some 60000 }).isSome =
      true ∧
    candidateOffset 400 { wheelOf 2 .right 10000 with speed := some 60000 } { wheelOf 1 .left 0 with speed := some 2000 } = none := by
  decide +kernel

/-- Station 7 beside station 6. -/
def run7 : Part := run.modCsu fun c => { c with block := some { block6 with number := 7, leftNeighbour := some 6 } }

theorem witness_StationsNameOneOwner :
    run.block.number ≠ run7.block.number ∧
    siteDiff (ownerKey (wheelOf 1 .right 100)) (ownerKey (wheelOf 2 .left 101)) ≠ -(2 ^ 47) ∧
    (run.owns (wheelOf 1 .right 100) (wheelOf 2 .left 101) 7, run7.owns (wheelOf 2 .left 101) (wheelOf 1 .right 100) 6) =
      (true, false) ∧
    (run.owns (wheelOf 1 .right 100) (wheelOf 2 .left 100) 7, run7.owns (wheelOf 2 .left 100) (wheelOf 1 .right 100) 6) =
      (true, false) ∧
    run.cedeAxle.vcl.cededCarry = 1 := by decide +kernel

/-- An intake entry whose decision time is the given number of µs after now. -/
def arrived (w : Wheel) (ahead : SiteTime) : IntakeWheel :=
  { wheel := w, completion := 19960000 + ahead, forced := false }

/-- RUN whose axle former holds the port over an intake. -/
def forming (l : List IntakeWheel) : Part := (portHeld .axleFormer run).modVau fun v => { v with intake := l }

/-- RUN with left wheels that wait for their decision. -/
def pendingRun (n : Nat) : Part := run.modVau fun v => { v with
  waiting := (List.range n).map fun k =>
    { wheel := wheelOf (BitVec.ofNat 16 k) .left (19950000 + BitVec.ofNat 48 k), decisionTime := 20040000, forced := false } }

/-- RUN with a pending wheel and an open vehicle, both at their time. -/
def dueFormer : Part := run.modVau fun v =>
  { v with
    waiting := [{ wheel := wheelOf 1 .left 19900000, decisionTime := 20000000, forced := false }]
    vehicle := some { axles := [], closeTime := 20000000, closeMark := none, tag := 3, flags := noVehicleFlags, runningGross := 0 } }

theorem witness_AxleFormerDoesItsWork :
    (alone dueFormer).running ∧ 0 ≤ siteDiff dueFormer.now 20000000 ∧
    (after .decisionTimeReached dueFormer).vau.port.holder = some .axleFormer ∧
    ((after .closeTimeReached dueFormer).vau.vehicle.map Vehicle.closeMark = some (some .timer)) ∧
    (forming []).vau.port.holder = some .axleFormer ∧
    0 ≤ siteDiff run.now (19960000 + BitVec.ofNat 48 (image6.assembly.lp * 1000)) ∧
    siteDiff run.now (closeTimeOf image6.assembly [makeAxle .singleWheel (some
      { wheel := wheelOf 1 .left 19800000, borrowed := none, isLocal := true }) none false]) < 0 ∧
    ((after .axleFormerHold (forming [arrived (wheelOf 1 .left 19800000) 0])).vau.vehicle.map fun v =>
      (v.axles.map Axle.kind, v.runningGross)) = some ([.singleWheel], 3934) ∧
    (after .axleFormerHold (forming [arrived (wheelOf 1 .left 19800000) 1])).vau.waiting.length = 1 ∧
    (candidateOffset 400 (wheelOf 1 .left 19800000) (wheelOf 2 .right 19818000)).isSome = true ∧
    ((after .axleFormerHold (forming [arrived (wheelOf 1 .left 19800000) 0, arrived (wheelOf 2 .right 19818000) 1])).vau.vehicle.map
      fun v => (v.axles.map Axle.kind, v.runningGross)) = some ([.inLane], 7868) ∧
    (dueFormer.vau.waiting.find? fun w => w.forced) = none ∧ (dueFormer.vau.waiting.find? fun w => !w.forced).isSome = true ∧
    (pendingRun 8).vau.waiting.length = 8 ∧ (pendingRun 7).vau.waiting.length < 8 ∧
    (let placed (n : Nat) : Part := (pendingRun n).placeWheel (arrived (wheelOf 90 .left 19950000) 0)
     ((placed 7).vau.waiting.length, (placed 7).vau.forcedDecisions, (placed 8).vau.waiting.length, (placed 8).vau.forcedDecisions,
       (placed 8).vau.vehicle.isSome) = (8, 0, 8, 1, true)) := ⟨rfl, by decide +kernel⟩

/-- RUN with one right wheel pending, a left wheel beside it or none, and a peer wheel of the right neighbour or none. -/
def deciding (left peer : Option Wheel) : Part := run.modVau fun v => { v with
  waiting := (wheelOf 1 .right 19950000 :: left.toList).map fun w => { wheel := w, decisionTime := 20000000, forced := false }
  peers := peer.toList.map fun w => { sender := 7, wheel := w, aged := false } }

/-- The axles of the vehicle after the right wheel's decision. -/
def decided (left peer : Option Wheel) : Option (List (AxleKind × Nat × Bool)) :=
  ((deciding left peer).decideWheel (wheelOf 1 .right 19950000)).vau.vehicle.map fun v =>
    v.axles.map fun a => (a.kind, a.load, a.blind)

theorem witness_DecidedWheelFormsItsAxle :
    (candidateOffset 400 (wheelOf 1 .left 100) (wheelOf 2 .right 90) = some 10 ∧
      candidateOffset 400 (wheelOf 1 .left 100) (wheelOf 3 .right 110) = some 10 ∧
      siteDiff (wheelOf 2 .right 90).refTime (wheelOf 3 .right 110).refTime < 0) ∧
    (bestCandidate 400 (wheelOf 1 .left 100) [wheelOf 3 .right 110, wheelOf 2 .right 90]).map (fun x => x.2.number) = some 2 ∧
    decided (some (wheelOf 2 .left 19950250)) none = some [(.inLane, 7868, false)] ∧
    decided none (some (wheelOf 9 .left 19950300)) = some [(.straddleRight, 7868, false)] ∧
    decided none none = some [(.singleWheel, 3934, false)] ∧
    decided none (some { wheelOf 9 .left 19950300 with runStart := some 19000000 }) = none ∧
    ((deciding none (some { wheelOf 9 .left 19950300 with runStart := some 19000000 })).decideWheel
      (wheelOf 1 .right 19950000)).vcl.totals.ceded = 1 ∧
    (run.localCopy { wheelOf 1 .right 5 with speed := none, load := none } (some (wheelOf 2 .left 5))).borrowed = some 22222 ∧
    (withChannel .lr { idling with mark := some .dead } run).localCopy
      { wheelOf 1 .right 5 with speed := none, load := none } (some (wheelOf 2 .left 5)) =
      { wheel := finishWheel factors6.speed 22222 { wheelOf 1 .right 5 with speed := none, load := none, qLead := none },
        borrowed := some 22222, isLocal := true } ∧
    (run.peerCopy { wheelOf 9 .left 5 with speed := none } (wheelOf 1 .right 5)).borrowed = some 22222 ∧
    (((deciding none none).modSbc fun b => { b with blind := [{ start := 0, close := some 19909999 }] }).blindTest
        (wheelOf 1 .right 19950000),
      ((deciding none none).modSbc fun b => { b with blind := [{ start := 0, close := some 19910000 }] }).blindTest
        (wheelOf 1 .right 19950000)) = (false, true) ∧
    (makeAxle .singleWheel (some { wheel := { bareWheel with trailStart := some 7 }, borrowed := none, isLocal := true }) none
      false).leadTime = 7 := by decide +kernel

/-- An axle of two local wheels. -/
def axleAt (start : SiteTime) : Axle :=
  makeAxle .inLane (some { wheel := wheelOf 1 .left start, borrowed := none, isLocal := true })
    (some { wheel := wheelOf 2 .right start, borrowed := none, isLocal := true }) false

/-- An open vehicle with axles and a close mark. -/
def opened (axles : List Axle) (mark : Option CloseCause) : Vehicle :=
  { axles := axles, closeTime := 20000001, closeMark := mark, tag := 3, flags := noVehicleFlags, runningGross := 100 }

/-- RUN with an open vehicle. -/
def carrying (v : Vehicle) : Part := run.modVau fun u => { u with vehicle := some v, tagCounter := 4 }

/-- The tag and the axles' spacings of the vehicle after an axle is handed over. -/
def handed (v : Vehicle) (a : Axle) : Option (Count16 × List Spacing × Bool) :=
  ((carrying v).handAxle a).vau.vehicle.map fun u => (u.tag, u.axles.map Axle.spacing, u.flags.continuation)

theorem witness_AxleJoinsOrOpensAVehicle :
    ((run.handAxle (axleAt 19000000)).vau.vehicle.map Vehicle.tag = some 0 ∧
    ([axleAt 18000000] ++ [axleAt 19200000] : List Axle) = [axleAt 18000000, axleAt 19200000] ∧
    siteDiff (axleAt 18000000).leadTime (axleAt 19000000).leadTime ≤ 0 ∧
    0 < siteDiff (axleAt 19200000).leadTime (axleAt 19000000).leadTime ∧
    0 ≤ siteDiff (run.now + 1) (opened [] none).closeTime ∧ siteDiff run.now (opened [] none).closeTime < 0) ∧
    (handed (opened [axleAt 18900000] none) (axleAt 19350049) = some (3, [.absent, .known 10000], false) ∧
    handed (opened [axleAt 18900000] none) (axleAt 19350050) = some (4, [.absent], false) ∧
    handed (opened [axleAt 19000000] none) (axleAt 18900000) = some (3, [.absent, .known 2222], false) ∧
    handed (opened [axleAt 18000000, axleAt 18400000] none) (axleAt 18200000) =
      some (3, [.absent, .known 4444, .known 4444], false)) ∧
    (handed (opened [{ axleAt 18900000 with speed := none }] none) { axleAt 20900000 with speed := none } =
      some (3, [.absent, .pending], false) ∧
    handed (opened [{ axleAt 18900000 with speed := none }] none) { axleAt 20900001 with speed := none } =
      some (4, [.absent], false) ∧
    handed (opened [{ axleAt 18900000 with kind := .straddleLeft }] none) { axleAt 19000000 with kind := .straddleRight } =
      some (4, [.absent], false) ∧
    handed (opened [axleAt 18900000] (some .cede)) (axleAt 19000000) = some (4, [.absent], false) ∧
    handed (opened (List.replicate 12 (axleAt 18900000)) none) (axleAt 19000000) = some (4, [.absent], true) ∧
    ((carrying (opened [axleAt 18900000] none)).handAxle { axleAt 19000000 with kind := .straddleLeft }).vau.vehicle.map
      (fun u => (u.flags.laneChange, u.runningGross)) = some (true, 7968) ∧
    closeTimeOf image6.assembly [axleAt 18900000] = 18900000 + 450004 + 40000 ∧
    closeTimeOf image6.assembly [{ axleAt 18900000 with speed := none }] = 18900000 + 2040000) :=
  ⟨by decide +kernel, by decide +kernel, by decide +kernel⟩

/-- RUN whose axle former holds the port with a vehicle to close. -/
def closing : Part := (portHeld .axleFormer run).modVau fun v =>
  { v with
    headwayRef := some 18000000
    vehicle := some { axles := insertAxle (axleAt 19300000) [axleAt 19000000], closeTime := 21000000, closeMark := some .hold,
                      tag := 3, flags := noVehicleFlags, runningGross := 0 } }

theorem witness_ClosedVehicleIsHandedOver :
    (alone closing).running ∧ closing.vau.port.holder = some .axleFormer ∧ closing.vau.intake = [] ∧ closing.vau.waiting = [] ∧
    (closing.vau.vehicle.map fun v => (v.closeMark, v.axles.length)) = some (some .hold, 2) ∧
    closing.vcl.records.length < 16 ∧
    (after .axleFormerHold closing).vcl.records.map (fun r => (r.gross, r.headway, r.flags.holdCut)) = [(15736, some 1000, true)] ∧
    (after .axleFormerHold closing).vcl.records.map (fun r => r.axles.map RecordAxle.spacing) = [[none, some 6666]] ∧
    (after .axleFormerHold (withRecords (List.replicate 16 (recordOf 4 .ready)) closing)).vcl.lostCarry = 1 :=
  ⟨rfl, by decide +kernel⟩

/-- The straddle axle consumes the peer entry it was formed with, even beside another of its number (R93). -/
theorem test_straddleConsumesItsOwnEntry :
    (let entry (t : SiteTime) : PeerWheel := { sender := 2, wheel := wheelOf 5 .right t, aged := false }
     (Part.formStraddle (wheelOf 1 .left 20000000) (wheelOf 5 .right 20000000) 2
       (run.modVau fun v => { v with peers := [entry 19990000, entry 20000000] })).vau.peers.map fun e => e.wheel.refTime) =
      [19990000] := by decide +kernel

/-- That vehicle with no close mark and this close time. -/
def unmarked (t : SiteTime) : Part :=
  closing.modVau fun u => { u with vehicle := u.vehicle.map fun x => { x with closeMark := none, closeTime := t } }

/-- AXLE_LIMIT and HOLD_CUT of the records. -/
def causes (p : Part) : List (Bool × Bool) := p.vcl.records.map fun r => (r.flags.axleLimit, r.flags.holdCut)

theorem witness_ClosedVehicle_causes :
    closing.now = 20000000 ∧ causes (after .axleFormerHold (unmarked 20000000)) = [(false, false)] ∧
    causes (after .axleFormerHold (unmarked 20000001)) = [] ∧
    causes ((unmarked 20000001).closeVehicle .axleLimit) = [(true, false)] ∧
    causes ((unmarked 20000001).closeVehicle .breakTest) = [(false, false)] ∧
    causes ((unmarked 20000001).closeVehicle .cede) = [(false, false)] ∧
    causes (closing.closeVehicle .axleLimit) = [(false, true)] := by decide +kernel

/-- The record of a vehicle of these axles at its close, for a part changed as given. -/
def closedWith (axles : List Axle) (f : Part → Part) : Option VehicleRecord :=
  ((f (closing.modVau fun v => { v with vehicle := v.vehicle.map fun x => { x with axles := axles } })).closeVehicle
    .timer).vcl.records.head?

/-- An axle of one unweighed left wheel, local or not, with a speed or without. -/
def unweighed (isLocal : Bool) (speed : Option Nat) : Axle :=
  { makeAxle .singleWheel (some
      { wheel := { wheelOf 1 .left 19000000 with load := none, speed := none }, borrowed := none, isLocal := isLocal }) none
      false with speed := speed }

/-- The left loads and the spacings of that record. -/
def closedLoads (axles : List Axle) (f : Part → Part) : Option (List (Option Nat × Option Nat)) :=
  (closedWith axles f).map fun r => r.axles.map fun a => (a.left, a.spacing)

theorem witness_ClosedVehicle_record :
    [closedLoads [unweighed true (some 22222)] id, closedLoads [unweighed true none] id,
      closedLoads [unweighed true (some 22222)] (withChannel .ll { idling with mark := some .dead }),
      closedLoads [unweighed false (some 22222)] (withChannel .ll { idling with mark := some .dead }),
      closedLoads [axleAt 19000000, { axleAt 20000000 with spacing := .pending }] id,
      closedLoads [{ axleAt 19000000 with speed := none }, { axleAt 20000000 with spacing := .pending, speed := none }] id] =
      [some [(some 3934, none)], some [(none, none)], some [(some 3907, none)], some [(some 3934, none)],
        some [(some 3934, none), (some 3934, some 22222)], some [(some 3934, none), (some 3934, some 1389)]] ∧
    (let accel (v : Nat) := (closedWith [axleAt 19000000, { axleAt 19300000 with speed := some v, spacing := .known 5 }] id).map
       fun r => r.flags.accel
     (accel 24444, accel 24445, accel 20000, accel 19999) = (some false, some true, some false, some true)) ∧
    (let blind (c : SiteTime) := (closedWith [axleAt 19000000] fun p => p.modSbc fun b =>
       { b with blind := [{ start := 5, close := some c }] }).map fun r => r.flags.peerBlind
     (blind 18959999, blind 18960000) = (some false, some true)) ∧
    (closedWith [axleAt 19000000] id).map (fun r => (r.temperature, r.source, r.flags.timeStep, r.gross)) =
      some (310, .ownSurface, false, 7868) ∧
    (closedWith [{ axleAt 19000000 with left := (axleAt 19000000).left.map fun w =>
      { w with isLocal := false, wheel := { w.wheel with temperature := 5, flags := { noWheelFlags with timeStep := true } } } }] id).map
      (fun r => (r.temperature, r.flags.timeStep)) = some (310, true) ∧
    (∀ u, vehicleSpeed [axleAt 19000000] = some u → 1389 ≤ u ∧ u ≤ 69444) := by
  refine ⟨by decide +kernel, by decide +kernel, by decide +kernel, by decide +kernel, by decide +kernel, ?_⟩
  intro u h
  have : vehicleSpeed [axleAt 19000000] = some 22222 := by decide +kernel
  rw [this] at h
  cases h
  decide

/-- RUN with a walk that waits, granted the port, over a record that awaits its class behind one that is being sent. -/
def walkGranted : Part :=
  (portHeld .classWalk (withRecords [recordOf 3 .sending, recordOf 4 .awaitingClass] run)).modVcl fun v =>
    { v with walk := { v.walk with state := .waiting } }

/-- The walk 350 µs later. -/
def walkDone : Part := let q := after .classWalkStart walkGranted; { q with clock := q.clock + 350 }

theorem witness_ClassWalkClassifiesTheRecord :
    (alone walkGranted).running ∧ walkGranted.vau.port.holder = some .classWalk ∧ walkGranted.vcl.walk.state = .waiting ∧
    (recordOf 3 .sending).state ≠ .awaitingClass ∧ (recordOf 3 .sending).seq ≠ (recordOf 4 .awaitingClass).seq ∧
    walkDone.vcl.walk.state = .walking ∧ walkDone.vcl.walk.record = some 4 ∧
    walkDone.vcl.walk.groups.map (fun g => (g.axleCount, g.load)) = [(1, some 3700), (1, some 1350)] ∧
    walkDone.vcl.walk.grantedAt + (200 + 150 * 1) ≤ walkDone.clock ∧
    (after .classWalkEnd walkDone).vcl.records.map (fun r => (r.cls, r.flags.grossOver)) = [(none, false), (some 2, true)] ∧
    (after .classWalkEnd walkDone).vcl.totals.grossSum = 5050 ∧ (after .classWalkEnd walkDone).vcl.totals.perClass[2] = 1 ∧
    (after .classWalkEnd walkDone).vcl.walk.state = .idle ∧ (after .classWalkEnd walkDone).vau.port.holder = none ∧
    (let next (more : List VehicleRecord) (dispatcher former : Bool) : Part :=
       (walkDone.modVcl fun v => { v with records := v.records ++ more }).modVau fun v =>
         { v with port := { v.port with waitDispatcher := dispatcher, waitAxleFormer := former } }
     let ended (more : List VehicleRecord) (dispatcher former : Bool) := after .classWalkEnd (next more dispatcher former)
     let awaiting := [recordOf 5 .awaitingClass]
     [(ended awaiting true true).vau.port.holder, (ended awaiting false true).vau.port.holder,
       (ended awaiting false false).vau.port.holder, (ended [] false false).vau.port.holder] =
       [some .dispatcher, some .axleFormer, some .classWalk, none] ∧
     (ended awaiting true true).vcl.walk.state = .waiting ∧ (ended awaiting true true).vau.port.waitClassWalk = true ∧
     (ended awaiting false false).vcl.walk.groups = []) :=
  ⟨rfl, by decide +kernel⟩

/-- A record of axles with these spacings, each of 1,000 kg a wheel. -/
def spaced (l : List (Option Nat)) : VehicleRecord :=
  { recordOf 4 .awaitingClass with
    axles := l.map fun s => { left := some 1000, right := some 1000, kind := .inLane, spacing := s }, gross := 2000 * l.length }

/-- A rule that every record of 2 to 4 axles matches. -/
def openRule : ClassRule :=
  { code := 1, axleMin := 2, axleMax := 4, singleWheelOnly := false, pattern := none, gaps := none, grossRange := none,
    grossLimit := none }

theorem witness_GroupsLimitsAndRulesAreJudged :
    (let r := spaced [none, some 2000, some 2001, some 2000]
     let groups := groupsOf 2000 r.axles
     let lacking := { r with axles := r.axles.modify 1 fun a => { a with right := none } }
     let fits (v : VehicleRecord) (rule : ClassRule) : Bool := ruleMatches (groupsOf 2000 v.axles) v rule
     groups.map (fun g => (g.position, g.firstAxle, g.axleCount, g.load)) = [(1, 1, 2, some 4000), (2, 3, 2, some 4000)] ∧
     (groupsOf 2000 lacking.axles).map AxleGroup.load = [none, some 4000] ∧
     (groupOverMask { image6.assembly with tandemLimit := some 3999 } groups,
       groupOverMask { image6.assembly with tandemLimit := some 4000 } groups,
       groupOverMask { image6.assembly with tandemLimit := some 3999 } (groupsOf 2000 lacking.axles)) = (3, 0, 2) ∧
     (∀ a ∈ r.axles.tail, a.spacing.isSome = true) ∧
     [fits r openRule, fits r { openRule with axleMin := 4 }, fits r { openRule with axleMax := 3 },
       fits r { openRule with singleWheelOnly := true }, fits r { openRule with pattern := some [2, 2] },
       fits r { openRule with pattern := some [2, 1] }] = [true, true, false, false, true, false] ∧
     [fits r { openRule with gaps := some [(20, 20), (20, 21)] }, fits r { openRule with gaps := some [(21, 255)] },
       fits r { openRule with gaps := some [(0, 20), (0, 20)] }, fits r { openRule with gaps := some [(0, 255), (0, 255), (0, 255)] },
       fits r { openRule with gaps := some [(0, 255), (0, 255), (0, 255), (0, 255)] },
       fits { r with flags := { noVehicleFlags with noSpeed := true } } { openRule with gaps := some [(0, 255)] }] =
       [true, false, false, true, false, false] ∧
     [fits r { openRule with grossRange := some (8000, 8000) }, fits r { openRule with grossRange := some (8001, 9000) },
       fits lacking { openRule with grossRange := some (0, 9000) }] = [true, false, false]) := by decide +kernel

/-- RUN with an output that has a firing due now and one a microsecond ahead, or a pulse at its end. -/
def firing (level : OutputLevel) : Part :=
  { run with tou := { outputs := { run.tou.outputs with trg0 :=
      { level := level, pulseEnd := some 50000000, schedule := [{ tag := 1, due := 20000000 }, { tag := 2, due := 20000001 }],
        armed := none } } } }

/-- RUN with an open vehicle of tag 3, whose first output takes the reports of a source: above 5,000 kg, or of class 2. -/
def triggered (source : TriggerSource) : Part :=
  { carrying (opened [axleAt 18900000] none) with csu := { run.csu with image := some { image6 with
      triggers := { standardTriggers with trg0 := { standardTrigger with
        enable := true, source := source, threshold := 5000, classSet := 4, distance := 0, width := 50 } } } } }

/-- The timing of a report whose first axle's trail time is given. -/
def timed (trail : SiteTime) : Timing := { tag := 3, trail := some trail, axleSpeed := none, vehicleSpeed := none }

theorem witness_FiringsPulseTheOutputs :
    (alone (firing .inactive)).running ∧ run.csu.station = .run ∧ 0 ≤ siteDiff run.now 20000000 ∧
    ¬0 ≤ siteDiff run.now 20000001 ∧ ((firing .inactive).tou.outputs.get .trg0).level ≠ .active ∧
    (after (.firingDue .trg0) (firing .inactive)).tou.outputs.trg0 =
      { level := .active, pulseEnd := some 50050000, schedule := [{ tag := 2, due := 20000001 }], armed := none } ∧
    (after (.pulseEnd .trg0) (firing .active)).tou.outputs.trg0.level = .inactive ∧
    ([OutputLevel.low, .active, .inactive].map fun l => (firing l).pinHigh .trg0) = [false, true, false] ∧
    firingDueTime 5000 { tag := 1, trail := some 100, axleSpeed := none, vehicleSpeed := some 22222 } = some 225102 ∧
    holding.csu.station ≠ .run ∧ (triggered .front).image.triggers.trg0.source = .front ∧
    ((triggered .front).frontReport (timed 19999999)).tou.outputs.trg0.level = .active ∧
    ((triggered .front).frontReport (timed 20000000)).tou.outputs.trg0.level = .active ∧
    ((triggered .front).frontReport (timed 20000001)).tou.outputs.trg0.schedule = [{ tag := 3, due := 20000001 }] ∧
    ((triggered .heavy).frontReport (timed 19999999)).tou.outputs.trg0.armed = some 3 ∧
    (((triggered .heavy).frontReport (timed 19999999)).grossReport (timed 19999999) 5000).tou.outputs.trg0.armed = some 3 ∧
    (((triggered .heavy).frontReport (timed 19999999)).grossReport (timed 19999999) 5001).tou.outputs.trg0 =
      { level := .active, pulseEnd := some 50050000, schedule := [], armed := none } ∧
    ((triggered .classed).classReport (timed 19999999) 2).tou.outputs.trg0.level = .active ∧
    ((triggered .classed).classReport (timed 19999999) 3).tou.outputs.trg0.level = .low ∧
    (let full : Part := (triggered .front).modOutput .trg0 fun x =>
       { x with schedule := List.replicate 4 { tag := 1, due := 20000001 } }
     (full.frontReport (timed 20000001)).vau.vehicle.map (fun v => v.flags.trigMissed) = some true) ∧
    ((triggered .front).frontReport (timed 19999999)).vau.vehicle.map (fun v => (v.flags.trigLate, v.flags.trigMerged)) =
      some (true, false) ∧
    (((triggered .front).frontReport (timed 20000000)).frontReport (timed 20000000)).vau.vehicle.map
      (fun v => (v.flags.trigLate, v.flags.trigMerged)) = some (false, true) ∧
    ((withRecords [recordOf 5 .ready, recordOf 6 .ready, { recordOf 7 .ready with tag := 5 }, recordOf 8 .ready] run).reportTrig .late
      5).vcl.records.map (fun r => r.slotFlags.trigLate) = [false, false, true, false] ∧
    run.reportTrig .late 5 = run :=
  ⟨rfl, by decide +kernel⟩

end Sys2Proof.Tests
end

section
/-! PROOFS. The standing of a leading hit (R22) and the factor tables (R35): what `standing`, `scanFifo`, `factorFrom` and
`tableFactor` answer, each said once, and the statements about them. -/

namespace Sys2Proof.Machine

/-! ## The standing of a leading hit (R22) -/

theorem standing_of_nonpos {spacing : Nat} {lead trail : SiteTime} (h : siteDiff trail lead ≤ 0) :
    standing spacing lead trail = .tooRecent := by
  simp [standing, h]

/-- At a positive difference the candidate speed alone decides. -/
theorem standing_of_pos {spacing : Nat} {lead trail : SiteTime} (h : 0 < siteDiff trail lead) :
    standing spacing lead trail =
      if 69444 < spacing * 1000000 / (siteDiff trail lead).toNat then .tooRecent
      else if spacing * 1000000 / (siteDiff trail lead).toNat < 1389 then .tooOld
      else .inWindow (spacing * 1000000 / (siteDiff trail lead).toNat) :=
  if_neg (Int.not_le.mpr h)

theorem standing_eq_inWindow_iff {spacing : Nat} {lead trail : SiteTime} {u : Nat} :
    standing spacing lead trail = .inWindow u ↔
      0 < siteDiff trail lead ∧ u = spacing * 1000000 / (siteDiff trail lead).toNat ∧ 1389 ≤ u ∧ u ≤ 69444 := by
  by_cases h : siteDiff trail lead ≤ 0
  · simp [standing_of_nonpos h, Int.not_lt.mpr h]
  · rw [standing_of_pos (Int.not_le.mp h)]
    split_ifs <;> grind

/-- The differences that R22 states for rows 3,000 mm apart. -/
theorem speed_3000mm_inWindow_iff {d : Nat} (h : 0 < d) :
    1389 ≤ 3000 * 1000000 / d ∧ 3000 * 1000000 / d ≤ 69444 ↔ 43200 ≤ d ∧ d ≤ 2159827 := by
  have hOld : 1389 ≤ 3000 * 1000000 / d ↔ 1389 * d ≤ 3000 * 1000000 := Nat.le_div_iff_mul_le h
  have hRecent : 3000 * 1000000 / d < 69445 ↔ 3000 * 1000000 < 69445 * d := Nat.div_lt_iff_lt_mul h
  omega

theorem standing_3000mm_inWindow_iff {lead trail : SiteTime} :
    (∃ u, standing 3000 lead trail = .inWindow u) ↔
      43200 ≤ siteDiff trail lead ∧ siteDiff trail lead ≤ 2159827 := by
  simp only [standing_eq_inWindow_iff, exists_and_left, exists_eq_left]
  constructor
  · rintro ⟨hpos, hwindow⟩
    have := (speed_3000mm_inWindow_iff (by omega)).mp hwindow
    omega
  · intro hd
    exact ⟨by omega, (speed_3000mm_inWindow_iff (by omega)).mpr (by omega)⟩

/-- The entry that a scan finds is one of the FIFO's, in window with the speed it answers (R25). -/
theorem scanFifo_found {spacing : Nat} {trail : SiteTime} {l : List Hit} {h : Hit} {u : Nat}
    (hf : (scanFifo spacing trail l).2.1 = some (h, u)) : h ∈ l ∧ standing spacing h.startTime trail = .inWindow u := by
  induction l with
  | nil => simp [scanFifo] at hf
  | cons x xs ih =>
    unfold scanFifo at hf
    split at hf
    case h_1 v hx =>
      obtain ⟨rfl, rfl⟩ : x = h ∧ v = u := by simpa using hf
      exact ⟨List.mem_cons_self, hx⟩
    case h_2 | h_3 =>
      obtain ⟨hmem, hwin⟩ := ih hf
      exact ⟨List.mem_cons_of_mem _ hmem, hwin⟩

/-- Settles O26: the four rows of R22's table, from the two equations of `standing`. -/
theorem standingFollowsTheTable : Obligations.StandingFollowsTheTable := by
  intro spacing lead trail d v
  refine ⟨standing_of_nonpos, fun hd hv => ?_, fun hd hmin hmax => ?_, fun hd hv => ?_, fun u hu => ?_, ?_,
    fun l h u => scanFifo_found⟩
  · rw [standing_of_pos hd, if_pos hv]
  · exact standing_eq_inWindow_iff.mpr ⟨hd, rfl, hmin, hmax⟩
  · rw [standing_of_pos hd, if_neg (show ¬69444 < v by omega), if_pos hv]
  · exact (standing_eq_inWindow_iff.mp hu).2.2
  · rintro rfl
    exact standing_3000mm_inWindow_iff

/-! ## Factor tables (R35) -/

/-- The factor at `x` on the line through two neighbouring points, the quotient truncated toward zero (R35). -/
def interpolated (a b : FactorPoint) (x : Int) : Int :=
  a.factor + (((b.factor : Int) - a.factor) * (x - a.key)).tdiv (b.key - a.key)

theorem factorFrom_nil (a : FactorPoint) (x : Int) : factorFrom a x [] = a.factor := rfl

theorem factorFrom_cons_of_lt {a b : FactorPoint} {x : Int} {rest : List FactorPoint} (h : x < b.key) :
    factorFrom a x (b :: rest) = (interpolated a b x).toNat := if_pos h

theorem factorFrom_cons_of_le {a b : FactorPoint} {x : Int} {rest : List FactorPoint} (h : b.key ≤ x) :
    factorFrom a x (b :: rest) = factorFrom b x rest := if_neg (Int.not_lt.mpr h)

theorem tableFactor_cons_of_lt {a : FactorPoint} {x : Int} {rest : List FactorPoint} (h : x < a.key) :
    tableFactor x (a :: rest) = a.factor := if_pos h

theorem tableFactor_cons_of_le {a : FactorPoint} {x : Int} {rest : List FactorPoint} (h : a.key ≤ x) :
    tableFactor x (a :: rest) = factorFrom a x rest := if_neg (Int.not_lt.mpr h)

theorem tableFactor_singleton (x : Int) (a : FactorPoint) : tableFactor x [a] = a.factor := by
  rcases lt_or_ge x a.key with h | h
  · exact tableFactor_cons_of_lt h
  · exact tableFactor_cons_of_le h

/-- The share `u / n` of a rise `d`, truncated toward zero, lies between 0 and `d`. -/
theorem tdiv_share_le {d u n : Int} (hd : 0 ≤ d) (hu : 0 ≤ u) (hun : u < n) :
    0 ≤ (d * u).tdiv n ∧ (d * u).tdiv n ≤ d := by
  have hn : 0 < n := hu.trans_lt hun
  refine ⟨Int.tdiv_nonneg (Int.mul_nonneg hd hu) hn.le, ?_⟩
  rw [Int.tdiv_eq_ediv_of_nonneg (Int.mul_nonneg hd hu)]
  exact Int.ediv_le_of_le_mul hn (Int.mul_le_mul_of_nonneg_left hun.le hd)

/-- The interpolated factor lies between the factors of its two points, on a rising and on a falling table. -/
theorem interpolated_between {a b : FactorPoint} {x : Int} (ha : a.key ≤ x) (hb : x < b.key) :
    ((min a.factor b.factor : Nat) : Int) ≤ interpolated a b x ∧
      interpolated a b x ≤ ((max a.factor b.factor : Nat) : Int) := by
  have hu : 0 ≤ x - a.key := by omega
  have hun : x - a.key < b.key - a.key := by omega
  unfold interpolated
  rcases le_total a.factor b.factor with hab | hab
  · have := tdiv_share_le (d := (b.factor : Int) - a.factor) (by omega) hu hun
    omega
  · have := tdiv_share_le (d := (a.factor : Int) - b.factor) (by omega) hu hun
    rw [← neg_sub (a.factor : Int), neg_mul, Int.neg_tdiv]
    omega

/-- At the key of its first point, interpolation gives that point's factor. -/
theorem interpolated_own_key (a b : FactorPoint) : interpolated a b a.key = a.factor := by
  simp [interpolated]

theorem factorFrom_cons_of_between {a b : FactorPoint} {x : Int} {rest : List FactorPoint} (ha : a.key ≤ x) (hb : x < b.key) :
    (factorFrom a x (b :: rest) : Int) = interpolated a b x := by
  have := (interpolated_between ha hb).1
  rw [factorFrom_cons_of_lt hb]
  omega

/-- Points whose keys `x` has reached are passed over, up to the last of them. -/
theorem factorFrom_append {x : Int} {c : FactorPoint} {rest : List FactorPoint} (hc : c.key ≤ x) (before : List FactorPoint)
    (hbefore : ∀ p ∈ before, p.key ≤ x) (a : FactorPoint) : factorFrom a x (before ++ c :: rest) = factorFrom c x rest := by
  induction before generalizing a with
  | nil => exact factorFrom_cons_of_le hc
  | cons p ps ih =>
    obtain ⟨hp, hps⟩ := List.forall_mem_cons.mp hbefore
    exact (factorFrom_cons_of_le hp).trans (ih hps p)

theorem tableFactor_append {x : Int} {c : FactorPoint} {before rest : List FactorPoint} (hc : c.key ≤ x)
    (hbefore : ∀ p ∈ before, p.key ≤ x) : tableFactor x (before ++ c :: rest) = factorFrom c x rest := by
  cases before with
  | nil => exact tableFactor_cons_of_le hc
  | cons p ps =>
    obtain ⟨hp, hps⟩ := List.forall_mem_cons.mp hbefore
    exact (tableFactor_cons_of_le hp).trans (factorFrom_append hc ps hps p)

/-- In a table of increasing keys, the points before one have smaller keys. -/
theorem key_lt_of_pairwise_append {before rest : List FactorPoint} {c : FactorPoint}
    (h : ((before ++ c :: rest).map FactorPoint.key).Pairwise (· < ·)) : ∀ p ∈ before, p.key < c.key := by
  intro p hp
  obtain ⟨-, -, hcross⟩ := List.pairwise_append.mp (List.pairwise_map.mp h)
  exact hcross p hp c List.mem_cons_self

theorem tableFactor_own_key {l : List FactorPoint} {a : FactorPoint} (h : (l.map FactorPoint.key).Pairwise (· < ·))
    (ha : a ∈ l) : tableFactor a.key l = a.factor := by
  obtain ⟨before, rest, rfl⟩ := List.append_of_mem ha
  rw [tableFactor_append le_rfl fun p hp => (key_lt_of_pairwise_append h p hp).le]
  cases rest with
  | nil => rfl
  | cons b bs =>
    have hab : a.key < b.key := by
      obtain ⟨-, hrest, -⟩ := List.pairwise_append.mp (List.pairwise_map.mp h)
      exact List.rel_of_pairwise_cons hrest List.mem_cons_self
    rw [factorFrom_cons_of_lt hab, interpolated_own_key, Int.toNat_natCast]

theorem tableFactor_between {before after : List FactorPoint} {a b : FactorPoint} {x : Int}
    (h : ((before ++ a :: b :: after).map FactorPoint.key).Pairwise (· < ·)) (ha : a.key < x) (hb : x < b.key) :
    (tableFactor x (before ++ a :: b :: after) : Int) = interpolated a b x := by
  rw [tableFactor_append ha.le fun p hp => ((key_lt_of_pairwise_append h p hp).trans ha).le]
  exact factorFrom_cons_of_between ha.le hb

theorem tableFactor_below_first {l : List FactorPoint} {a : FactorPoint} {x : Int} (ha : l.head? = some a) (hx : x < a.key) :
    tableFactor x l = a.factor := by
  obtain ⟨rest, rfl⟩ := List.head?_eq_some_iff.mp ha
  exact tableFactor_cons_of_lt hx

theorem tableFactor_above_last {l : List FactorPoint} {a : FactorPoint} {x : Int}
    (h : (l.map FactorPoint.key).Pairwise (· < ·)) (ha : l.getLast? = some a) (hx : a.key < x) :
    tableFactor x l = a.factor := by
  obtain ⟨before, rfl⟩ := List.getLast?_eq_some_iff.mp ha
  exact tableFactor_append hx.le fun p hp => ((key_lt_of_pairwise_append h p hp).trans hx).le

/-- The factor stays within any bounds that hold every point's factor. -/
theorem factorFrom_bounds {lo hi : Nat} {x : Int} {rest : List FactorPoint}
    (hrest : ∀ p ∈ rest, lo ≤ p.factor ∧ p.factor ≤ hi) {a : FactorPoint} (ha : lo ≤ a.factor ∧ a.factor ≤ hi)
    (hx : a.key ≤ x) : lo ≤ factorFrom a x rest ∧ factorFrom a x rest ≤ hi := by
  induction rest generalizing a with
  | nil => exact ha
  | cons b bs ih =>
    obtain ⟨hb, hbs⟩ := List.forall_mem_cons.mp hrest
    rcases lt_or_ge x b.key with hlt | hge
    · have hbetween := interpolated_between hx hlt
      rw [← factorFrom_cons_of_between (rest := bs) hx hlt] at hbetween
      omega
    · rw [factorFrom_cons_of_le hge]
      exact ih hbs hb hge

theorem tableFactor_bounds {lo hi : Nat} {l : List FactorPoint} (hl : l ≠ [])
    (h : ∀ p ∈ l, lo ≤ p.factor ∧ p.factor ≤ hi) (x : Int) : lo ≤ tableFactor x l ∧ tableFactor x l ≤ hi := by
  cases l with
  | nil => exact absurd rfl hl
  | cons a rest =>
    obtain ⟨ha, hrest⟩ := List.forall_mem_cons.mp h
    rcases lt_or_ge x a.key with hlt | hge
    · rwa [tableFactor_cons_of_lt hlt]
    · rw [tableFactor_cons_of_le hge]
      exact factorFrom_bounds hrest ha hge

/-- Settles O31: a position of the key decides which point or pair of points the table reads, by `tableFactor_append`. -/
theorem factorTableInterpolates : Obligations.FactorTableInterpolates := by
  refine ⟨fun _ => rfl, tableFactor_singleton, fun l x hne _ hkeys => ⟨?_, ?_, fun a => tableFactor_below_first,
    fun a => tableFactor_above_last hkeys, fun hfactors => tableFactor_bounds (List.ne_nil_of_length_pos hne) hfactors x⟩⟩
  · rintro a ha rfl
    exact tableFactor_own_key hkeys ha
  · rintro before after a b rfl ha hb
    have heq := tableFactor_between hkeys ha hb
    have hbetween := interpolated_between ha.le hb
    rw [← heq] at hbetween
    exact ⟨heq, Int.ofNat_le.mp hbetween.1, Int.ofNat_le.mp hbetween.2⟩

end Sys2Proof.Machine
end

section
/-! PROOFS. Readings of the pavement probes (R44): what `readCode` makes of each result code and what `takeReading` makes of a
fault and of the first valid reading, each said once, and the statement about them. -/

namespace Sys2Proof.Machine

/-- The temperature that a result code other than the two fault codes stands for (R44). -/
def codeTemperature (params : ProbeParams) (code : Nat) : Int :=
  (code * params.gain / 65536 : Nat) + params.offset

theorem readCode_zero (params : ProbeParams) : readCode params 0 = .fault .shortCircuit := rfl

theorem readCode_65535 (params : ProbeParams) : readCode params 65535 = .fault .openCircuit := rfl

theorem validTemp_iff {t : Int} : validTemp t = true ↔ -400 ≤ t ∧ t ≤ 800 := by
  simp [validTemp]

/-- Between the two fault codes the range of the temperature alone decides. -/
theorem readCode_of_between {code : Nat} (hlow : 1 ≤ code) (hhigh : code ≤ 65534) (params : ProbeParams) :
    readCode params code =
      if validTemp (codeTemperature params code) then .valid (codeTemperature params code) else .fault .range := by
  rw [readCode, if_neg (show code ≠ 0 by omega), if_neg (show code ≠ 65535 by omega)]
  rfl

theorem readCode_eq_valid {params : ProbeParams} {code : Nat} (hlow : 1 ≤ code) (hhigh : code ≤ 65534)
    (hmin : -400 ≤ codeTemperature params code) (hmax : codeTemperature params code ≤ 800) :
    readCode params code = .valid (codeTemperature params code) := by
  rw [readCode_of_between hlow hhigh, if_pos (validTemp_iff.mpr ⟨hmin, hmax⟩)]

theorem readCode_eq_range {params : ProbeParams} {code : Nat} (hlow : 1 ≤ code) (hhigh : code ≤ 65534)
    (hout : codeTemperature params code < -400 ∨ 800 < codeTemperature params code) :
    readCode params code = .fault .range := by
  have hinvalid : ¬validTemp (codeTemperature params code) = true := by
    rw [validTemp_iff]
    omega
  rw [readCode_of_between hlow hhigh, if_neg hinvalid]

/-- R44's product of a 16-bit code and a 16-bit gain needs no more than 32 bits. -/
theorem code_mul_gain_lt {code gain : Nat} (hcode : code ≤ 65534) (hgain : gain ≤ 65535) : code * gain < 2 ^ 32 :=
  calc code * gain ≤ 65534 * 65535 := Nat.mul_le_mul hcode hgain
    _ < 2 ^ 32 := by decide

theorem takeReading_fault (kind : ProbeMark) (s : ProbeState) : takeReading (.fault kind) s = (faultReading kind s, false) := rfl

/-- The first valid reading seeds the filter (R46). -/
theorem takeReading_unseeded {s : ProbeState} (h : s.seeded = false) (t : Int) :
    takeReading (.valid t) s = (acceptReading t s, true) := by
  simp [takeReading, h]

/-- Settles O34: the three equations of `readCode`, and those of `takeReading` for a fault and for an unseeded probe. -/
theorem resultCodeBecomesReading : Obligations.ResultCodeBecomesReading := by
  intro params code s t
  refine ⟨?_, ?_, fun hlow hhigh => ⟨readCode_eq_valid hlow hhigh, readCode_eq_range hlow hhigh, code_mul_gain_lt hhigh⟩,
    fun v hv hs => ?_, fun kind hk => ?_⟩
  · rintro rfl
    exact readCode_zero params
  · rintro rfl
    exact readCode_65535 params
  · rw [hv, takeReading_unseeded hs]
    rfl
  · rw [hk, takeReading_fault]
    exact ⟨rfl, rfl, rfl, rfl⟩

end Sys2Proof.Machine
end

section
/-! PROOFS. Candidate wheels (R98): what `wheelOffset`, `coincidenceWindow` and `candidateOffset` answer, each said once, and the
statement about them. -/

namespace Sys2Proof.Machine

/-! ## The offset of two wheels -/

theorem wheelOffset_of_leads {d k : Wheel} {x y : SiteTime} (hd : d.leadStart = some x) (hk : k.leadStart = some y) :
    wheelOffset d k = some (siteDiff y x) := by
  simp [wheelOffset, hd, hk]

/-- The trail start times count only when one of the lead start times is absent. -/
theorem wheelOffset_of_trails {d k : Wheel} {x y : SiteTime} (hlead : d.leadStart = none ∨ k.leadStart = none)
    (hd : d.trailStart = some x) (hk : k.trailStart = some y) : wheelOffset d k = some (siteDiff y x) := by
  obtain hlead | hlead := hlead
  · simp [wheelOffset, hlead, hd, hk]
  · cases hdl : d.leadStart <;> simp [wheelOffset, hlead, hdl, hd, hk]

theorem wheelOffset_of_incomparable {d k : Wheel} (hlead : d.leadStart = none ∨ k.leadStart = none)
    (htrail : d.trailStart = none ∨ k.trailStart = none) : wheelOffset d k = none := by
  unfold wheelOffset
  split
  next x y hd hk => simp [hd, hk] at hlead
  next =>
    split
    next x y hd hk => simp [hd, hk] at htrail
    next => rfl

/-- Of two optional times one is absent, or both are held. -/
theorem absent_or_both_held (a b : Option SiteTime) : (a = none ∨ b = none) ∨ ∃ x y, a = some x ∧ b = some y := by
  cases a <;> cases b <;> simp

theorem wheelOffset_eq_none_iff {d k : Wheel} :
    wheelOffset d k = none ↔
      (d.leadStart = none ∨ k.leadStart = none) ∧ (d.trailStart = none ∨ k.trailStart = none) := by
  obtain hlead | ⟨x, y, hd, hk⟩ := absent_or_both_held d.leadStart k.leadStart
  · obtain htrail | ⟨x, y, hd, hk⟩ := absent_or_both_held d.trailStart k.trailStart
    · exact iff_of_true (wheelOffset_of_incomparable hlead htrail) ⟨hlead, htrail⟩
    · simp [wheelOffset_of_trails hlead hd hk, hd, hk]
  · simp [wheelOffset_of_leads hd hk, hd, hk]

/-! ## The coincidence window -/

theorem coincidenceWindow_of_own_speed {d : Wheel} {v : Nat} (hd : d.speed = some v) (dc : Nat) (k : Wheel) :
    coincidenceWindow dc d k = some (dc * 1000000 / v) := by
  simp [coincidenceWindow, hd]

theorem coincidenceWindow_of_candidate_speed {d k : Wheel} {v : Nat} (hd : d.speed = none) (hk : k.speed = some v) (dc : Nat) :
    coincidenceWindow dc d k = some (dc * 1000000 / v) := by
  simp [coincidenceWindow, hd, hk]

theorem coincidenceWindow_of_no_speed {d k : Wheel} (hd : d.speed = none) (hk : k.speed = none) (dc : Nat) :
    coincidenceWindow dc d k = none := by
  simp [coincidenceWindow, hd, hk]

/-! ## The candidate test -/

theorem candidateOffset_eq_some_iff {dc : Nat} {d k : Wheel} {n : Nat} :
    candidateOffset dc d k = some n ↔
      ∃ o w, wheelOffset d k = some o ∧ coincidenceWindow dc d k = some w ∧ o.natAbs ≤ w ∧ n = o.natAbs := by
  unfold candidateOffset
  split
  next o w ho hw => simp [ho, hw, eq_comm]
  next hmissing =>
    refine ⟨nofun, ?_⟩
    rintro ⟨o, w, ho, hw, -⟩
    exact absurd hw (hmissing o w ho)

theorem candidateOffset_of_no_window {dc : Nat} {d k : Wheel} (h : coincidenceWindow dc d k = none) :
    candidateOffset dc d k = none := by
  simp [Option.eq_none_iff_forall_ne_some, candidateOffset_eq_some_iff, h]

theorem candidateOffset_of_within {dc : Nat} {d k : Wheel} {o : Int} {w : Nat} (ho : wheelOffset d k = some o)
    (hw : coincidenceWindow dc d k = some w) (h : o.natAbs ≤ w) : candidateOffset dc d k = some o.natAbs :=
  candidateOffset_eq_some_iff.mpr ⟨o, w, ho, hw, h, rfl⟩

theorem candidateOffset_of_beyond {dc : Nat} {d k : Wheel} {o : Int} {w : Nat} (ho : wheelOffset d k = some o)
    (hw : coincidenceWindow dc d k = some w) (h : w < o.natAbs) : candidateOffset dc d k = none := by
  simp [candidateOffset, ho, hw, h]

/-- A wheel paired at a speed, its strips 3,000 mm apart. -/
def pairedWheel (side : Side) (start : SiteTime) (speed : Nat) : Wheel :=
  { number := 1, side := side, leadStart := some start, trailStart := some (later start (3000 * 1000000 / speed)),
    speed := some speed, qLead := none, qTrail := none, temperature := 310, source := .ownSurface, runStart := none,
    load := none, flags := noWheelFlags }

/-- The slower wheel decides with the wider window: what lies between the two windows is a candidate for it alone. -/
theorem candidate_only_for_slower {dc : Nat} {x y : SiteTime} {slow fast : Nat}
    (hfast : dc * 1000000 / fast < (siteDiff x y).natAbs) (hslow : (siteDiff y x).natAbs ≤ dc * 1000000 / slow) :
    candidateOffset dc (pairedWheel .left x slow) (pairedWheel .right y fast) = some (siteDiff y x).natAbs ∧
      candidateOffset dc (pairedWheel .right y fast) (pairedWheel .left x slow) = none :=
  ⟨candidateOffset_of_within (wheelOffset_of_leads rfl rfl) (coincidenceWindow_of_own_speed rfl dc _) hslow,
    candidateOffset_of_beyond (wheelOffset_of_leads rfl rfl) (coincidenceWindow_of_own_speed rfl dc _) hfast⟩

/-- Settles O52. Its asymmetry at Dc = 400 mm: start times 10,000 µs apart lie within the window of 200,000 µs of the wheel at
2,000 mm/s and beyond the 6,666 µs of the wheel at 60,000 mm/s. -/
theorem candidateWheels : Obligations.CandidateWheels := by
  refine ⟨fun d k => ⟨fun x y hd hk => wheelOffset_of_leads hd hk,
    fun x y hlead hd hk => wheelOffset_of_trails hlead hd hk, wheelOffset_eq_none_iff⟩, fun dc d k => ?_, ?_⟩
  · refine ⟨fun v hd => coincidenceWindow_of_own_speed hd dc k,
      fun v hd hk => coincidenceWindow_of_candidate_speed hd hk dc, fun hd hk => ?_,
      fun n => candidateOffset_eq_some_iff, ?_⟩
    · have hwindow := coincidenceWindow_of_no_speed hd hk dc
      exact ⟨hwindow, candidateOffset_of_no_window hwindow⟩
    · rintro rfl hd
      exact coincidenceWindow_of_own_speed hd 400 k
  · obtain ⟨hslow, hfast⟩ := candidate_only_for_slower (dc := 400) (x := 0) (y := 10000) (slow := 2000) (fast := 60000)
      (by decide) (by decide)
    exact ⟨400, pairedWheel .left 0 2000, pairedWheel .right 10000 60000, Option.isSome_of_eq_some hslow, hfast⟩

end Sys2Proof.Machine
end

section
/-! PROOFS. Steps and outcomes: every command completes, and every command and every passing microsecond keep the part sound. -/

namespace Sys2Proof.Machine

/-! ## What a command is to the state -/

/-- Settles O1, by the definition of `step` on a queue that is not empty. -/
theorem stepRunsFrontCommand : Obligations.StepRunsFrontCommand := by
  intro c rest s hs
  simp only [step, hs]

/-- Every command but the two of the reset pin is an action on the part. -/
theorem exec_eq_act {c : Instr} (hp : c ≠ .powerOn) (hr : c ≠ .resetAssert) : ∃ f : Part → Part, ∀ s, exec c s = act f s := by
  cases c
  case powerOn => exact absurd rfl hp
  case resetAssert => exact absurd rfl hr
  all_goals
    simp only [exec]
    exact ⟨_, fun _ => rfl⟩

theorem act_held (f : Part → Part) {s : State} (h : s.part.rstLow = true) : act f s = .next s := by
  simp [act, h]

/-- Settles O3: the two commands of the reset pin by their definitions, every other as an action on the part. -/
theorem everyCommandCompletes : Obligations.EveryCommandCompletes := by
  intro c s
  by_cases hp : c = .powerOn
  · subst hp
    exact ⟨⟨_, rfl⟩, fun _ h => absurd rfl h⟩
  by_cases hr : c = .resetAssert
  · subst hr
    exact ⟨⟨_, rfl⟩, fun _ _ h => absurd rfl h⟩
  obtain ⟨f, hf⟩ := exec_eq_act hp hr
  exact ⟨⟨_, (hf s).trans (act_eq f s)⟩, fun hs _ _ => (hf s).trans (act_held f hs)⟩

/-! ## A microsecond that passes -/

theorem Part.dueCommand_of_held {p : Part} (h : p.rstLow = true) : p.dueCommand = none := by
  simp [Part.dueCommand, h]

theorem Part.tick_running {p : Part} (h : p.rstLow = false) :
    p.tick = { p with clock := p.clock + 1, stu := { p.stu with siteTime := later p.stu.siteTime 1, lastDue := none } } := by
  simp [Part.tick, h]

theorem Part.tick_held {p : Part} (h : p.rstLow = true) : p.tick = p := by
  simp [Part.tick, h]

theorem step_due {s : State} {c : Instr} (hq : s.pending = []) (hd : s.part.dueCommand = some c) : step s = exec c s := by
  simp only [step, hq, hd]

theorem step_tick {s : State} (hq : s.pending = []) (hd : s.part.dueCommand = none) :
    step s = .next { s with part := s.part.tick } := by
  simp only [step, hq, hd]

/-- Settles O2, by the three branches of a step on an empty queue. -/
theorem stepOnEmptyQueue : Obligations.StepOnEmptyQueue := by
  intro s hq
  refine ⟨fun c hd => step_due hq hd, fun hd hr => ?_, fun hr => ?_⟩
  · rw [step_tick hq hd, Part.tick_running hr]
    rfl
  · rw [step_tick hq (Part.dueCommand_of_held hr), Part.tick_held hr]

/-- None of the part's own events is due when it gives itself no command. -/
theorem Part.not_due {p : Part} (hr : p.rstLow = false) (hd : p.dueCommand = none) {b : Bool} {c : Instr}
    (h : (b, c) ∈ p.ownEvents) : b = false := by
  simp only [Part.dueCommand, hr, Bool.false_eq_true, if_false, Option.map_eq_none_iff, List.find?_eq_none] at hd
  simpa using hd _ h

namespace Part.Sound

variable {p : Part}

/-- A microsecond passes only while no sampling instant is due, so the last one stays at most 125 µs back. -/
theorem tick (h : p.Sound) (hd : p.dueCommand = none) : p.tick.Sound := by
  rcases hr : p.rstLow with _ | _
  case true => rwa [Part.tick_held hr]
  have hsample : p.sampleDue = false := Part.not_due hr hd (c := .sampleInstant p.lcu.inputs.ll p.lcu.inputs.lr p.lcu.inputs.tl
    p.lcu.inputs.tr) (by simp [Part.ownEvents])
  rw [Part.tick_running hr]
  refine { h with stu := h.stu, lcu := { h.lcu with sampled := fun t ht => ?_, stamped := fun x hx => ?_ } }
  · obtain ⟨hpast, hlate⟩ := h.lcu.sampled t ht
    refine ⟨hpast.trans (Nat.le_succ _), fun hi => ?_⟩
    have hw := h.working_iff.mpr hi
    have hlast : p.lcu.lastSample = some t := ht
    simp only [Part.sampleDue, hw, hlast, elapsed, samplePeriod, Bool.true_and] at hsample
    exact Nat.succ_le_of_lt (Nat.lt_of_not_le (of_decide_eq_false hsample))
  · exact (h.lcu.stamped x hx).trans (Nat.le_succ _)

end Part.Sound

/-! ## What each command keeps -/

/-- An action keeps the part sound when its change of the part does. -/
theorem act_sound {f : Part → Part} {s t : State} (he : act f s = .next t) (h : s.part.Sound) (hf : (f s.part).Sound) :
    t.part.Sound := by
  rw [act_eq] at he
  cases he
  show (if s.part.rstLow then s.part else f s.part).Sound
  split
  · exact h
  · exact hf

namespace Part.Sound

variable {p : Part}

theorem ite {c : Prop} [Decidable c] {q : Part} (h : p.Sound) (hq : c → q.Sound) : (if c then q else p).Sound := by
  split
  next hc => exact hq hc
  next => exact h

theorem intervalTick (h : p.Sound) : p.intervalTick.Sound := by
  unfold Part.intervalTick
  split
  next => exact h
  next t _ => exact h.ite fun _ => h.startInterval _

theorem settleDone (h : p.Sound) : p.settleDone.Sound := by
  unfold Part.settleDone
  split
  next => exact h.ite fun _ => h.modPtu { h.ptu with }
  all_goals exact h

theorem conversionDone (h : p.Sound) (code : BitVec 16) : (p.conversionDone code).Sound := by
  unfold Part.conversionDone
  split
  next => exact h.ite fun _ => (h.noteCode _ _).finishConversion _ _
  all_goals exact h

theorem removeOldPeerTemps (h : p.Sound) (f : PeerTemp → Bool) :
    (p.modPtu fun u => { u with peers := u.peers.filter f }).Sound :=
  h.modPtu { h.ptu with
    peers := fun e he => h.ptu.peers e (List.mem_of_mem_filter he)
    distinct := h.ptu.distinct.filter f
    others := fun e he => h.ptu.others e (List.mem_of_mem_filter he) }

theorem filterHeld (h : p.Sound) (f : HeldValue → Bool) : (p.modPtu fun u => { u with held := u.held.filter f }).Sound :=
  h.modPtu { h.ptu with held := fun x hx => h.ptu.held x (Option.eq_some_of_filter_eq_some hx) }

theorem filterBlind (h : p.Sound) (f : BlindInterval → Bool) : (p.modSbc fun b => { b with blind := b.blind.filter f }).Sound :=
  h.modSbc { h.sbc with
    blind := (List.length_filter_le _ _).trans h.sbc.blind
    newest := h.sbc.newest.filter f
    hearing := fun hd x hx => h.sbc.hearing hd x (List.mem_of_mem_filter hx) }

theorem filterLog (h : p.Sound) (f : Stu → StepSpan → Bool) :
    (p.modStu fun u => { u with log := u.log.filter (f u) }).Sound :=
  h.modStu ((List.length_filter_le _ _).trans h.stu)

theorem markPeers (h : p.Sound) (f : PeerWheel → Bool) :
    (p.modVau fun v => { v with peers := v.peers.map fun e => { e with aged := f e } }).Sound :=
  h.modVau { h.vau with
    peers := by simpa using h.vau.peers
    distinct := List.pairwise_map.mpr h.vau.distinct }

theorem hearStartMark (h : p.Sound) :
    (if p.receiverOn && p.sending.isNone && p.sbc.following.isNone then
       if p.lineIgnored then p.hearUse else p.modSbc fun b => { b with following := some p.capture }
     else p).Sound := by
  refine h.ite fun _ => ?_
  split
  · exact h.hearUse
  · exact h.modSbc { h.sbc with }

theorem mem_of_walkRecord {v : VehicleRecord} (hv : p.walkRecord = some v) : v ∈ p.vcl.records := by
  unfold Part.walkRecord at hv
  split at hv
  next => exact absurd hv nofun
  next => exact List.mem_of_find?_eq_some hv

theorem endJoinIfOver (h : p.Sound) : (if p.joinOver then p.endJoin else p).Sound := by
  refine h.ite fun hj => h.endJoin ?_
  simp only [Part.joinOver, Bool.and_eq_true, decide_eq_true_eq] at hj
  exact hj.1

theorem beginIfDue (h : p.Sound) : (if p.startDue then p.beginFrame else p).Sound := by
  refine h.ite fun hs => h.beginFrame ?_
  simp only [Part.startDue, Bool.and_eq_true] at hs
  exact (Part.mayStart_iff.mp hs.1).2.1

theorem endPulse (h : p.Sound) (o : Output) :
    (if p.pulseOver o then p.modOutput o fun x => { x with level := .inactive, pulseEnd := none } else p).Sound :=
  h.ite fun _ => h.modOutput id

theorem restartPeriod (h : p.Sound) :
    (if p.periodicDue then (p.modCsu fun c => { c with periodicSince := some p.clock }).requestStatus else p).Sound :=
  h.ite fun _ => (h.modCsu_same rfl rfl rfl rfl).requestStatus

end Part.Sound

theorem execConfigBlockRead_sound {bytes : List Byte} {s t : State} (h : s.part.Sound)
    (he : execConfigBlockRead bytes s = .next t) : t.part.Sound := by
  refine act_sound he h ?_
  split
  next l hl => exact h.ite fun hs => h.takeBlock hs hl _
  next => exact h

theorem execFrameComplete_sound {s t : State} (h : s.part.Sound) (he : execFrameComplete s = .next t) : t.part.Sound := by
  refine act_sound he h ?_
  split
  next e _ => exact h.completeFrame e
  next => exact h

theorem execFrameReceived_sound {bytes : List Byte} {s t : State} (h : s.part.Sound)
    (he : execFrameReceived bytes s = .next t) : t.part.Sound := by
  refine act_sound he h ?_
  split
  · exact h
  · split
    next c _ => exact h.receiveFrame bytes c
    next => exact h.ite fun _ => h.hearUse

theorem execClassWalkEnd_sound {s t : State} (h : s.part.Sound) (he : execClassWalkEnd s = .next t) : t.part.Sound := by
  refine act_sound he h (h.ite fun _ => ?_)
  split
  next v hv => exact h.endWalk (Part.Sound.mem_of_walkRecord hv)
  next => exact h

theorem execUnknownCommand_sound {code : Byte} {args : List Byte} {s t : State} (h : s.part.Sound)
    (he : execUnknownCommand code args s = .next t) : t.part.Sound := by
  refine act_sound he h ?_
  split
  · exact h
  · exact h.judgeUnknown code

/-- Every command keeps the part sound. -/
theorem exec_sound {c : Instr} {s t : State} (h : s.part.Sound) (he : exec c s = .next t) : t.part.Sound := by
  cases c <;> simp only [exec] at he
  case powerOn => cases he; exact Part.powerOn_sound
  case resetAssert => cases he; exact Part.heldInReset_sound
  case configBlockRead bytes => exact execConfigBlockRead_sound h he
  case holdNLevelTaken level => exact act_sound he h (h.takePin _)
  case sampleInstant ll lr tl tr => exact act_sound he h (h.ite fun hd => h.sampleAll (h.sampleDue_image hd) _)
  case hitEndByTail ch x => exact act_sound he h (h.sampleIf _ ch x)
  case hitEndByCountExpiry ch x => exact act_sound he h (h.sampleIf _ ch x)
  case stuckQuietReturn ch x => exact act_sound he h (h.sampleIf _ ch x)
  case forcedRebaseline ch x => exact act_sound he h (h.sampleIf _ ch x)
  case driftMark ch x => exact act_sound he h (h.sampleIf _ ch x)
  case leadingEntryExpiry => exact act_sound he h (h.workAt _ fun now _ hq => hq.expireBoth now)
  case coincidenceCheck => exact act_sound he h (h.workAt _ fun now _ hq => hq.dueChecks now)
  case measurementIntervalStart => exact act_sound he h h.intervalTick
  case settleEnd => exact act_sound he h h.settleDone
  case conversionComplete code => exact act_sound he h (h.conversionDone code)
  case tempTimerExpiry probe => exact act_sound he h (h.ite fun _ => h.requestTemp probe)
  case peerTempEntryRemoval => exact act_sound he h (h.removeOldPeerTemps _)
  case heldValueExpiry => exact act_sound he h (h.filterHeld _)
  case wouldBeStart => exact act_sound he h h.beginIfDue
  case contentionLoss => exact act_sound he h (h.ite fun _ => h.loseContention)
  case payloadMismatch => exact act_sound he h (h.ite fun _ => h.abortFrame)
  case frameComplete => exact execFrameComplete_sound h he
  case frameReceived bytes => exact execFrameReceived_sound h he
  case blindIntervalRemoval => exact act_sound he h (h.filterBlind _)
  case dispatcherPortGrant => exact act_sound he h (h.ite fun _ => h.serveWheel)
  case peerWheelAged => exact act_sound he h (h.markPeers s.part.peerAged)
  case decisionTimeReached => exact act_sound he h (h.ite fun _ => h.requestPort _)
  case axleFormerHold => exact act_sound he h (h.ite fun _ => h.formerWork.releasePort)
  case closeTimeReached => exact act_sound he h h.markTimer
  case stepLogEntryRemoval => exact act_sound he h (h.filterLog fun u e => !stepOld u.siteTime e)
  case timeDuePoint => exact act_sound he h h.catchDue
  case joinWindowEnd => exact act_sound he h h.endJoinIfOver
  case classWalkStart => exact act_sound he h (h.ite fun _ => h.startWalk)
  case classWalkEnd => exact execClassWalkEnd_sound h he
  case firingDue out => exact act_sound he h (h.ite fun _ => h.fireDue out)
  case pulseEnd out => exact act_sound he h (h.endPulse out)
  case hold args => exact act_sound he h (h.judgeKnown .hold args)
  case release args => exact act_sound he h (h.judgeKnown .release args)
  case restart args => exact act_sound he h (h.judgeKnown .restart args)
  case requestStatus args => exact act_sound he h (h.judgeKnown .requestStatus args)
  case requestTotals args => exact act_sound he h (h.judgeKnown .requestTotals args)
  case clearMarks args => exact act_sound he h (h.judgeKnown .clearMarks args)
  case rebaseline args => exact act_sound he h (h.judgeKnown .rebaseline args)
  case unknownCommand code args => exact execUnknownCommand_sound h he
  case statusPeriodicTimer => exact act_sound he h h.restartPeriod
  case statusDeferredRequest => exact act_sound he h (h.ite fun _ => h.requestForMarks)
  case startMarkReceived => exact act_sound he h h.hearStartMark
  case lengthByteOver120 => exact act_sound he h (h.ite fun _ => (h.stopFollowing _).countFormat)

/-- A step from a sound part, by what stands at the front of its queue. -/
theorem step_sound {s t : State} (h : s.part.Sound) (he : step s = .next t) : t.part.Sound := by
  rcases hq : s.pending with _ | ⟨c, rest⟩
  case cons =>
    rw [stepRunsFrontCommand c rest s hq] at he
    exact exec_sound (s := { s with pending := rest }) h he
  rcases hd : s.part.dueCommand with _ | c
  case some => exact exec_sound h ((step_due hq hd).symm.trans he)
  case none =>
    cases (step_tick hq hd).symm.trans he
    exact h.tick hd

/-- Settles O4. -/
theorem resetStateIsSound : Obligations.ResetStateIsSound := Part.powerOn_sound

/-- Settles O5: every command keeps soundness, and so does a microsecond that passes; a sound temperature table holds at most 26
peer entries. -/
theorem stepKeepsSound : Obligations.StepKeepsSound := by
  intro s t h he
  have ht := step_sound h he
  exact ⟨ht, ht.peers_length⟩

end Sys2Proof.Machine
end

section
/-! PROOFS. Power-on and RESET_ASSERT (R179), the filter of a probe (R45 to R48), the removals by age (R51, R55, R74, R86, R93) and
the effective temperature (R54, R55). -/

namespace Sys2Proof.Machine

/-! ## Power-on -/

@[simp] theorem Lcu.powerOn_channel (ch : Channel) : Lcu.powerOn.channels.get ch = .powerOn := by cases ch <;> rfl

@[simp] theorem Ptu.powerOn_probe (pr : Probe) : Ptu.powerOn.probes.get pr = .powerOn := by cases pr <;> rfl

@[simp] theorem Tou.powerOn_output (o : Output) : Tou.powerOn.outputs.get o = .powerOn := by cases o <;> rfl

theorem Stu.powerOn_split (i : Fin 14) : Stu.powerOn.split[i] = 0 := by simp [Stu.powerOn]

theorem Part.pinHigh_of_low {p : Part} {o : Output} (h : (p.tou.outputs.get o).level = .low) : p.pinHigh o = false := by
  simp [Part.pinHigh, h]

theorem Tou.powerOn_low (o : Output) : (Tou.powerOn.outputs.get o).level = .low := by simp [OutputState.powerOn]

/-- Settles O6: the power-on value of every block, by its definition. -/
theorem powerOnAndResetSetEveryValue : Obligations.PowerOnAndResetSetEveryValue := by
  refine ⟨fun s => ⟨.powerOn, rfl, rfl, ?csu, ?stu, ?sampling, fun ch => ?channel, ?pse, ?ptu, ?sbc, ?vau, ?vcl,
    fun o => ?output⟩, fun s => ⟨.heldInReset, rfl, rfl, rfl, rfl, rfl, rfl, rfl, rfl, rfl, rfl, rfl, rfl, rfl, rfl,
    fun o => Part.pinHigh_of_low (Tou.powerOn_low o)⟩⟩
  case stu => exact ⟨rfl, rfl, Stu.powerOn_split, rfl, rfl, rfl, rfl⟩
  case channel =>
    simp only [Part.powerOn, Lcu.powerOn_channel]
    and_intros <;> rfl
  case ptu =>
    refine ⟨rfl, rfl, rfl, rfl, rfl, rfl, fun pr => ?_⟩
    simp only [Part.powerOn, Ptu.powerOn_probe]
    and_intros <;> rfl
  case output => exact ⟨Tou.powerOn_output o, Part.pinHigh_of_low (Tou.powerOn_low o)⟩
  all_goals and_intros <;> rfl

/-! ## The filter of a probe (R45 to R48) -/

theorem takeReading_near {t : Int} {s : ProbeState} (hs : s.seeded = true) (h : (t - s.filtered).natAbs ≤ 50) :
    takeReading (.valid t) s = (acceptReading (s.filtered + (t - s.filtered).tdiv 4) s, true) := by
  simp [takeReading, hs, h]

theorem takeReading_rejected {t : Int} {s : ProbeState} (hs : s.seeded = true) (h : 50 < (t - s.filtered).natAbs)
    (hr : s.reject < 2) : takeReading (.valid t) s = (rejectReading s, false) := by
  simp [takeReading, hs, Nat.not_le.mpr h, Nat.not_le.mpr hr]

/-- The third rejection in a row seeds the filter anew (R47). -/
theorem takeReading_reseeded {t : Int} {s : ProbeState} (hs : s.seeded = true) (h : 50 < (t - s.filtered).natAbs)
    (hr : 2 ≤ s.reject) : takeReading (.valid t) s = (acceptReading t { s with jumps := satInc s.jumps }, true) := by
  simp [takeReading, hs, Nat.not_le.mpr h, hr]

/-- Settles O35, by the five equations of `takeReading`. -/
theorem readingIsFiltered : Obligations.ReadingIsFiltered := by
  intro t s
  refine ⟨fun hs => takeReading_unseeded hs t, takeReading_near, takeReading_rejected, takeReading_reseeded, fun kind => ?_⟩
  rw [takeReading_fault]
  cases kind <;> rfl

/-! ## Entries past their age -/

theorem not_decide_lt (a b : Int) : (!decide (a < b)) = decide (b ≤ a) := by
  rw [← decide_not]
  simp only [Int.not_lt]

theorem not_peerTempOld (now : SiteTime) (e : PeerTemp) :
    (!peerTempOld now e) = decide (siteDiff now e.receiveTime ≤ 120000000) :=
  not_decide_lt _ _

theorem not_heldOld (now : SiteTime) (h : HeldValue) : (!heldOld now h) = decide (siteDiff now h.obtained ≤ 1800000000) :=
  not_decide_lt _ _

theorem not_blindOld (now : SiteTime) (b : BlindInterval) :
    (!blindOld now b) = b.close.all fun c => decide (siteDiff now c ≤ 10000000) := by
  unfold blindOld
  cases b.close with
  | none => rfl
  | some c => exact not_decide_lt _ _

theorem not_stepOld (now : SiteTime) (e : StepSpan) : (!stepOld now e) = decide (siteDiff now e.last ≤ 8000000) :=
  not_decide_lt _ _

theorem Part.peerAged_eq (p : Part) (e : PeerWheel) :
    p.peerAged e = (e.aged || decide (((p.image.assembly.tmax + p.image.assembly.lp) * 1000 : Int) < siteDiff p.now e.wheel.refTime)) := by
  simp [Part.peerAged, Part.peerAge]

/-- Settles O36: each of the five events is its action, and each action's test is the age the rule gives. -/
theorem agedEntriesLeaveOrAreMarked : Obligations.AgedEntriesLeaveOrAreMarked := by
  intro s hs now limit
  refine ⟨?_, ?_, ?_, ?_, ?_⟩
  · simp only [exec, execPeerTempEntryRemoval, act_running _ hs, not_peerTempOld]
    rfl
  · simp only [exec, execHeldValueExpiry, act_running _ hs, not_heldOld]
    rfl
  · simp only [exec, execBlindIntervalRemoval, act_running _ hs, not_blindOld]
    rfl
  · simp only [exec, execStepLogEntryRemoval, act_running _ hs, not_stepOld]
    rfl
  · simp only [exec, execPeerWheelAged, act_running _ hs, Part.peerAged_eq]
    rfl

/-! ## The effective temperature (R54, R55) -/

/-- The value of a probe's own entry, when it is GOOD (R54). -/
def Part.ownValue (p : Part) (pr : Probe) : Option Int :=
  if (p.ptu.probes.get pr).own.quality = .good then (p.ptu.probes.get pr).own.value else none

/-- The held value, unless it is past its age (R55). -/
def Part.heldNow (p : Part) : Option Int :=
  (p.ptu.held.filter fun h => decide (siteDiff p.now h.obtained ≤ 1800000000)).map HeldValue.value

/-- The answer when no own entry and no peer entry gives one (R55). -/
def Part.lastResort (p : Part) : Int × TempSource :=
  match p.heldNow with
  | some t => (t, .held)
  | none => (p.image.probes.reference, .reference)

theorem Part.effective_surface {p : Part} {t : Int} (h : p.ownValue .p0 = some t) : p.effective = (t, .ownSurface) := by
  unfold Part.ownValue at h
  simp only [Part.effective, h]

theorem Part.effective_depth {p : Part} {t : Int} (h0 : p.ownValue .p0 = none) (h1 : p.ownValue .p1 = some t) :
    p.effective = (t, .ownDepth) := by
  unfold Part.ownValue at h0 h1
  simp only [Part.effective, h0, h1]

theorem Part.effective_peerSurface {p : Part} (h0 : p.ownValue .p0 = none) (h1 : p.ownValue .p1 = none)
    (hs : p.peerValues .p0 ≠ []) : p.effective = (meanOf (p.peerValues .p0), .peerSurface) := by
  unfold Part.ownValue at h0 h1
  obtain ⟨x, xs, hx⟩ := List.exists_cons_of_ne_nil hs
  simp only [Part.effective, h0, h1, hx]

theorem Part.effective_peerDepth {p : Part} (h0 : p.ownValue .p0 = none) (h1 : p.ownValue .p1 = none)
    (hs : p.peerValues .p0 = []) (hd : p.peerValues .p1 ≠ []) : p.effective = (meanOf (p.peerValues .p1), .peerDepth) := by
  unfold Part.ownValue at h0 h1
  obtain ⟨x, xs, hx⟩ := List.exists_cons_of_ne_nil hd
  simp only [Part.effective, h0, h1, hs, hx]

theorem Part.effective_lastResort {p : Part} (h0 : p.ownValue .p0 = none) (h1 : p.ownValue .p1 = none)
    (hs : p.peerValues .p0 = []) (hd : p.peerValues .p1 = []) : p.effective = p.lastResort := by
  unfold Part.ownValue at h0 h1
  simp only [Part.effective, h0, h1, hs, hd, Part.lastResort, Part.heldNow, ← not_heldOld]
  cases hh : p.ptu.held with
  | none => rfl
  | some h => cases ho : heldOld p.now h <;> simp [Option.filter, ho]

theorem Part.peerValues_eq (p : Part) (pr : Probe) :
    p.peerValues pr = (p.ptu.peers.filter fun e => e.probe = pr && e.quality = .good && e.group = p.block.group &&
      decide (siteDiff p.now e.receiveTime ≤ 120000000)).filterMap PeerTemp.value := by
  simp only [Part.peerValues, not_peerTempOld]

theorem Part.keepEffective_measured (p : Part) (t : Int) {source : TempSource} (hh : source ≠ .held) (hr : source ≠ .reference) :
    p.keepEffective (t, source) = { p with ptu := { p.ptu with held := some { value := t, obtained := p.now } } } := by
  cases source
  case held => exact absurd rfl hh
  case reference => exact absurd rfl hr
  all_goals rfl

/-- Settles O37, by the sources in their order. -/
theorem effectiveTemperatureOrder : Obligations.EffectiveTemperatureOrder := by
  intro p own group mean held
  have hgroup : ∀ pr, group pr = p.peerValues pr := fun pr => (p.peerValues_eq pr).symm
  simp only [hgroup]
  refine ⟨fun t => Part.effective_surface, fun t => Part.effective_depth, Part.effective_peerSurface, Part.effective_peerDepth,
    fun t h0 h1 hs hd hh => ?_, fun h0 h1 hs hd hh => ?_,
    fun t => ⟨rfl, rfl, fun source hh hr => p.keepEffective_measured t hh hr⟩⟩
  · have hh : p.heldNow = some t := hh
    rw [Part.effective_lastResort h0 h1 hs hd, Part.lastResort, hh]
  · have hh : p.heldNow = none := hh
    rw [Part.effective_lastResort h0 h1 hs hd, Part.lastResort, hh]

end Sys2Proof.Machine
end

section
/-! PROOFS. The load channels (chapter 1): what one sample does to one channel in each of its states, what a sampling instant does to
the part, and the disposal of hits. -/

namespace Sys2Proof.Machine

/-! ## A sample that is not part of a hit -/

theorem evalSample_seed {c : ChannelRecord} (h : c.seedPending = true) (st : StripsBlock) (ch : Channel) (now : SiteTime) (x : Int) :
    evalSample st ch now x c = plainResult { c with baseline := 64 * x, seedPending := false } := by
  simp [evalSample, h]

theorem evalSample_evaluated {c : ChannelRecord} (h : c.seedPending = false) (st : StripsBlock) (ch : Channel) (now : SiteTime)
    (x : Int) : evalSample st ch now x c =
      { stateSample st ch now x c with record := driftSample st (stateSample st ch now x c).record } := by
  simp [evalSample, h]

/-- The drift condition of an evaluated sample (R15). -/
theorem driftSample_eq (st : StripsBlock) (c : ChannelRecord) : driftSample st c = { c with
    driftCount := if st.bwin < (c.baseline.fdiv 64).natAbs then min (c.driftCount + 1) 8000 else 0 } := by
  unfold driftSample ChannelRecord.b driftLimit
  split <;> rfl

theorem driftReached_iff {before after : ChannelRecord} :
    driftReached before after = true ↔ before.driftCount < 8000 ∧ after.driftCount = 8000 := by
  simp only [driftReached, Bool.and_eq_true, decide_eq_true_eq]
  rfl

theorem stateSample_idle_below {st : StripsBlock} {x : Int} {c : ChannelRecord} (hs : c.state = .idle) (h : x - c.b < st.thOn)
    (ch : Channel) (now : SiteTime) :
    stateSample st ch now x c = plainResult { c with baseline := c.baseline + x - c.b } := by
  simp [stateSample, hs, h]

theorem stateSample_idle_start {st : StripsBlock} {x : Int} {c : ChannelRecord} (hs : c.state = .idle) (h : st.thOn ≤ x - c.b)
    (ch : Channel) (now : SiteTime) : stateSample st ch now x c = plainResult (startHit c now x (x - c.b)) := by
  simp [stateSample, hs, Int.not_lt.mpr h]

theorem stateSample_hit {c : ChannelRecord} (hs : c.state = .pulse ∨ c.state = .tail) (st : StripsBlock) (ch : Channel)
    (now : SiteTime) (x : Int) :
    stateSample st ch now x c = hitSample st ch now (x - c.b) (accumulate c x (x - c.b)) := by
  obtain hs | hs := hs <;> simp [stateSample, hs]

theorem stateSample_stuck {c : ChannelRecord} (hs : c.state = .stuck) (st : StripsBlock) (ch : Channel) (now : SiteTime) (x : Int) :
    stateSample st ch now x c = stuckSample st x (x - c.b) c := by
  simp [stateSample, hs]

/-! ## A sample in STUCK (R9) -/

/-- A sample in STUCK has been counted. -/
def ChannelRecord.stuckCounted (st : StripsBlock) (d : Int) (c : ChannelRecord) : ChannelRecord :=
  { c with stuckCount := c.stuckCount + 1, quietCount := if d < st.thOff then c.quietCount + 1 else 0 }

theorem stuckSample_quiet {st : StripsBlock} {d : Int} {c : ChannelRecord} (h : st.ntail ≤ (c.stuckCounted st d).quietCount)
    (x : Int) : stuckSample st x d c = { plainResult { c.stuckCounted st d with state := .idle } with quietReturn := true } :=
  if_pos h

theorem stuckSample_rebased {st : StripsBlock} {d : Int} {c : ChannelRecord} (h : (c.stuckCounted st d).quietCount < st.ntail)
    (hl : st.stuckLimit * 8000 < c.stuckCount + 1) (x : Int) : stuckSample st x d c =
      { plainResult { c.stuckCounted st d with state := .idle, baseline := 64 * x } with rebased := true } :=
  (if_neg (Nat.not_le.mpr h)).trans (if_pos hl)

theorem stuckSample_stays {st : StripsBlock} {d : Int} {c : ChannelRecord} (h : (c.stuckCounted st d).quietCount < st.ntail)
    (hl : c.stuckCount + 1 ≤ st.stuckLimit * 8000) (x : Int) : stuckSample st x d c = plainResult (c.stuckCounted st d) :=
  (if_neg (Nat.not_le.mpr h)).trans (if_neg (Nat.not_lt.mpr hl))

theorem stuckSample_hit (st : StripsBlock) (x d : Int) (c : ChannelRecord) : (stuckSample st x d c).hit = none := by
  rcases Nat.lt_or_ge (c.stuckCounted st d).quietCount st.ntail with h | h
  · rcases Nat.lt_or_ge (st.stuckLimit * 8000) (c.stuckCount + 1) with hl | hl
    · rw [stuckSample_rebased h hl]
      rfl
    · rw [stuckSample_stays h hl]
      rfl
  · rw [stuckSample_quiet h]
    rfl

/-! ## A sample of a hit in progress (R6 to R8) -/

/-- The tail count after a sample of a hit, a low one counting, a high one returning it to 0 (R7). -/
def ChannelRecord.nextTailCount (st : StripsBlock) (d : Int) (c : ChannelRecord) : Nat :=
  if d < st.thOff then (if c.state = .tail then c.tailCount + 1 else 1) else if c.state = .tail then 0 else c.tailCount

/-- The tail time after a sample of a hit: a low sample in PULSE is the first of a tail (R7). -/
def ChannelRecord.nextTailTime (st : StripsBlock) (now : SiteTime) (d : Int) (c : ChannelRecord) : SiteTime :=
  if d < st.thOff ∧ c.state = .pulse then now else c.tailTime

/-- An accumulated hit with its tail followed. -/
def ChannelRecord.tailed (st : StripsBlock) (now : SiteTime) (d : Int) (c : ChannelRecord) : ChannelRecord :=
  { c with tailCount := c.nextTailCount st d, tailTime := c.nextTailTime st now d }

theorem hitSample_low {st : StripsBlock} {d : Int} {c : ChannelRecord} (hs : c.state = .pulse ∨ c.state = .tail)
    (h : d < st.thOff) (ch : Channel) (now : SiteTime) : hitSample st ch now d c =
      if st.ntail ≤ (c.tailed st now d).tailCount then endByTail ch (c.tailed st now d)
      else if st.lmax ≤ (c.tailed st now d).lengthCount then endByCount ch (c.tailed st now d) now
      else plainResult { c.tailed st now d with state := .tail } := by
  obtain hs | hs := hs <;>
    simp [hitSample, ChannelRecord.tailed, ChannelRecord.nextTailCount, ChannelRecord.nextTailTime, hs, h]

theorem hitSample_high {st : StripsBlock} {d : Int} {c : ChannelRecord} (hs : c.state = .pulse ∨ c.state = .tail)
    (h : st.thOff ≤ d) (ch : Channel) (now : SiteTime) : hitSample st ch now d c =
      if st.lmax ≤ (c.tailed st now d).lengthCount then endByCount ch (c.tailed st now d) now
      else plainResult { c.tailed st now d with state := .pulse } := by
  cases c
  obtain hs | hs := hs <;> cases hs <;>
    simp [hitSample, ChannelRecord.tailed, ChannelRecord.nextTailCount, ChannelRecord.nextTailTime, Int.not_lt.mpr h]

theorem hitSample_byTail {st : StripsBlock} {d : Int} {c : ChannelRecord} (hs : c.state = .pulse ∨ c.state = .tail)
    (h : d < st.thOff) (hn : st.ntail ≤ c.nextTailCount st d) (ch : Channel) (now : SiteTime) :
    hitSample st ch now d c = endByTail ch (c.tailed st now d) :=
  (hitSample_low hs h ch now).trans (if_pos hn)

theorem hitSample_byCount {st : StripsBlock} {d : Int} {c : ChannelRecord} (hs : c.state = .pulse ∨ c.state = .tail)
    (hn : d < st.thOff → c.nextTailCount st d < st.ntail) (hl : st.lmax ≤ c.lengthCount) (ch : Channel) (now : SiteTime) :
    hitSample st ch now d c = endByCount ch (c.tailed st now d) now := by
  rcases lt_or_ge d st.thOff with h | h
  · exact (hitSample_low hs h ch now).trans ((if_neg (Nat.not_le.mpr (hn h))).trans (if_pos hl))
  · exact (hitSample_high hs h ch now).trans (if_pos hl)

theorem hitSample_goesOn {st : StripsBlock} {d : Int} {c : ChannelRecord} (hs : c.state = .pulse ∨ c.state = .tail)
    (hn : d < st.thOff → c.nextTailCount st d < st.ntail) (hl : c.lengthCount < st.lmax) (ch : Channel) (now : SiteTime) :
    hitSample st ch now d c =
      plainResult { c.tailed st now d with state := if d < st.thOff then .tail else .pulse } := by
  rcases lt_or_ge d st.thOff with h | h
  · rw [if_pos h]
    exact (hitSample_low hs h ch now).trans ((if_neg (Nat.not_le.mpr (hn h))).trans (if_neg (Nat.not_le.mpr hl)))
  · rw [if_neg (Int.not_lt.mpr h)]
    exact (hitSample_high hs h ch now).trans (if_neg (Nat.not_le.mpr hl))

/-- A sample of a hit ends it by tail, ends it by count expiry, or goes on with it. -/
theorem hitSample_cases {c : ChannelRecord} (hs : c.state = .pulse ∨ c.state = .tail) (st : StripsBlock) (d : Int) (ch : Channel)
    (now : SiteTime) :
    hitSample st ch now d c = endByTail ch (c.tailed st now d) ∨ hitSample st ch now d c = endByCount ch (c.tailed st now d) now ∨
      ∃ state, hitSample st ch now d c = plainResult { c.tailed st now d with state := state } := by
  by_cases hn : d < st.thOff ∧ st.ntail ≤ c.nextTailCount st d
  · exact .inl (hitSample_byTail hs hn.1 hn.2 ch now)
  · have hn : d < st.thOff → c.nextTailCount st d < st.ntail := fun h => Nat.lt_of_not_le fun k => hn ⟨h, k⟩
    rcases lt_or_ge c.lengthCount st.lmax with hl | hl
    · exact .inr (.inr ⟨_, hitSample_goesOn hs hn hl ch now⟩)
    · exact .inr (.inl (hitSample_byCount hs hn hl ch now))

/-- What a hit in progress keeps of its accumulated record, whatever becomes of it (log 10). -/
theorem hitSample_record {c : ChannelRecord} (hs : c.state = .pulse ∨ c.state = .tail) (st : StripsBlock) (d : Int) (ch : Channel)
    (now : SiteTime) : ∃ state stuck quiet stretched, (hitSample st ch now d c).record =
      { c.tailed st now d with
        state := state, stuckCount := stuck, quietCount := quiet, flags := { c.flags with stretched := stretched } } := by
  obtain h | h | ⟨state, h⟩ := hitSample_cases hs st d ch now <;> rw [h] <;> exact ⟨_, _, _, _, rfl⟩

theorem accumulate_state {c : ChannelRecord} (hs : c.state = .pulse ∨ c.state = .tail) (x d : Int) :
    (accumulate c x d).state = .pulse ∨ (accumulate c x d).state = .tail := hs

@[simp] theorem clampTo_fst (cap x : Nat) : (clampTo cap x).1 = min x cap := by
  unfold clampTo
  split
  next h => exact (Nat.min_eq_right h.le).symm
  next h => exact (Nat.min_eq_left (Nat.le_of_not_lt h)).symm

@[simp] theorem clampTo_snd (cap x : Nat) : (clampTo cap x).2 = decide (cap < x) := by
  unfold clampTo
  split <;> simp_all

theorem accumulate_area (c : ChannelRecord) (x d : Int) : (accumulate c x d).area = min (c.area + d.toNat) 4294967295 :=
  clampTo_fst _ _

theorem accumulate_areaSat (c : ChannelRecord) (x d : Int) :
    (accumulate c x d).flags.areaSat = (c.flags.areaSat || decide (4294967295 < c.area + d.toNat)) :=
  congrArg (c.flags.areaSat || ·) (clampTo_snd _ _)

theorem accumulate_peak (c : ChannelRecord) (x d : Int) : (accumulate c x d).peak = max c.peak d.toNat := by
  simp only [accumulate]
  split <;> omega

theorem accumulate_clipped (c : ChannelRecord) (x d : Int) :
    (accumulate c x d).flags.clipped = (c.flags.clipped || decide (x = 32767 ∨ x = -32768)) := by
  simp [accumulate, clippedSample]

theorem evalSample_hit {c : ChannelRecord} (hp : c.seedPending = false) (hs : c.state = .pulse ∨ c.state = .tail) (st : StripsBlock)
    (ch : Channel) (now : SiteTime) (x : Int) :
    evalSample st ch now x c =
      { hitSample st ch now (x - c.b) (accumulate c x (x - c.b)) with
        record := driftSample st (hitSample st ch now (x - c.b) (accumulate c x (x - c.b))).record } := by
  rw [evalSample_evaluated hp, stateSample_hit hs]

/-- Settles O22: the record keeps what it accumulates, and a sample that ends the hit neither way follows its tail. -/
theorem hitSampleAccumulates : Obligations.HitSampleAccumulates := by
  intro st ch now x c hp hs e r d
  have he : e = { hitSample st ch now d (accumulate c x d) with
    record := driftSample st (hitSample st ch now d (accumulate c x d)).record } := evalSample_hit hp hs st ch now x
  have hr : r = driftSample st (hitSample st ch now d (accumulate c x d)).record := congrArg SampleResult.record he
  have hs' := accumulate_state hs x d
  refine ⟨?_, fun hl => ⟨fun hd hc hn => ?_, fun hd hc hn => ?_, fun hd => ?_⟩⟩
  · obtain ⟨state, stuck, quiet, stretched, hrec⟩ := hitSample_record hs' st d ch now
    rw [hr, hrec, driftSample_eq]
    exact ⟨rfl, rfl, rfl, hp, accumulate_area c x d, accumulate_peak c x d, accumulate_clipped c x d, accumulate_areaSat c x d,
      rfl, rfl⟩
  · have hgo := hitSample_goesOn (st := st) (d := d) hs'
      (fun _ => by simpa [ChannelRecord.nextTailCount, hd, accumulate, hc] using hn) hl ch now
    rw [hr, he, hgo, driftSample_eq]
    simp [plainResult, ChannelRecord.tailed, ChannelRecord.nextTailCount, ChannelRecord.nextTailTime, hd, accumulate, hc]
  · have hgo := hitSample_goesOn (st := st) (d := d) hs'
      (fun _ => by simpa [ChannelRecord.nextTailCount, hd, accumulate, hc] using hn) hl ch now
    rw [hr, he, hgo, driftSample_eq]
    simp [plainResult, ChannelRecord.tailed, ChannelRecord.nextTailCount, ChannelRecord.nextTailTime, hd, accumulate, hc]
  · have hd' : ¬d < st.thOff := Int.not_lt.mpr hd
    have hgo := hitSample_goesOn (st := st) (d := d) hs' (fun h => absurd h hd') hl ch now
    rw [hr, he, hgo, driftSample_eq]
    refine ⟨rfl, if_neg hd', fun hc => ?_, fun hc => ?_⟩ <;>
      simp [plainResult, ChannelRecord.tailed, ChannelRecord.nextTailCount, hd', accumulate, hc]

/-- A sample completes a hit only from PULSE or TAIL, and the hit is its channel's. -/
theorem evalSample_completes {st : StripsBlock} {ch : Channel} {now : SiteTime} {x : Int} {c : ChannelRecord} {how : HitEnd} {h : Hit}
    (hh : (evalSample st ch now x c).hit = some (how, h)) :
    (evalSample st ch now x c).rebased = false ∧ (evalSample st ch now x c).quietReturn = false ∧ h.channel = ch ∧
      h.startTime = c.startTime := by
  rcases hp : c.seedPending with _ | _
  case true => simp [evalSample_seed hp, plainResult] at hh
  by_cases hs : c.state = .pulse ∨ c.state = .tail
  · rw [evalSample_hit hp hs] at hh ⊢
    obtain he | he | ⟨state, he⟩ := hitSample_cases (accumulate_state hs x (x - c.b)) st (x - c.b) ch now
    · rw [he] at hh ⊢
      cases hh
      exact ⟨rfl, rfl, rfl, rfl⟩
    · rw [he] at hh ⊢
      cases hh
      exact ⟨rfl, rfl, rfl, rfl⟩
    · rw [he] at hh
      cases hh
  · rw [evalSample_evaluated hp] at hh
    cases hc : c.state
    case pulse => exact absurd (.inl hc) hs
    case tail => exact absurd (.inr hc) hs
    case stuck =>
      rw [stateSample_stuck hc] at hh
      exact absurd ((stuckSample_hit st x (x - c.b) c).symm.trans hh) nofun
    case idle =>
      rcases lt_or_ge (x - c.b) st.thOn with h | h
      · rw [stateSample_idle_below hc h] at hh
        cases hh
      · rw [stateSample_idle_start hc h] at hh
        cases hh

/-! ## A sampling instant -/

theorem Part.markInstant_eq (x : PerChannel Sample) (p : Part) : p.markInstant x = { p with lcu := { p.lcu with
    lastSample := some p.clock, stamp := some { instant := p.clock, time := p.sampleTime }, inputs := x } } := rfl

theorem Part.markInstant_sampleTime (x : PerChannel Sample) (p : Part) : (p.markInstant x).sampleTime = p.sampleTime :=
  Part.sampleTime_of_read (x := { instant := p.clock, time := p.sampleTime }) rfl rfl

theorem Part.inRun_iff {p : Part} : p.inRun = true ↔ p.csu.station = .run := by simp [Part.inRun]

theorem Part.instantWork_idle {p : Part} (h : p.csu.station ≠ .run) : p.instantWork = p := by
  simp [Part.instantWork, Part.inRun, h]

theorem Part.instantWork_run {p : Part} (h : p.csu.station = .run) :
    p.instantWork = (p.expireBoth p.sampleTime).dueChecks p.sampleTime := by
  simp [Part.instantWork, Part.inRun, h]

theorem Part.SampleFrame.changedOnly {a b : Part} (h : a.SampleFrame b) :
    a.changedOnly [.lcu, .pse, .ptu, .sbc, .vau, .vcl, .csu] b := by
  refine ⟨h.rstLow, h.clock, fun k hk => ?_⟩
  cases k
  case stu => exact h.stu
  case tou => exact h.tou
  all_goals simp at hk

theorem Part.changedOnly_markInstant (x : PerChannel Sample) (p : Part) : p.changedOnly [.lcu] (p.markInstant x) := by
  refine ⟨rfl, rfl, fun k hk => ?_⟩
  cases k
  case lcu => simp at hk
  all_goals rfl

/-- One sample of one channel, from its evaluation on. -/
theorem Part.sampleChannel_eq (ch : Channel) (x : Sample) (p : Part) : p.sampleChannel ch x =
    let r := p.preview ch x
    let p1 := p.modChannel ch fun _ => r.record
    let p2 := match r.hit with
      | some h => p1.disposeHit h.2 p.sampleTime
      | none => p1
    let p3 := if r.rebased then p2.faultMark ch .stuckLong else p2
    if driftReached (p.lcu.channels.get ch) r.record then p3.faultMark ch .drift else p3 := rfl

/-- Settles O21: the instant by its definition, and each outcome of one sample by its branch. -/
theorem instantIsFourSamplesThenItsWork : Obligations.InstantIsFourSamplesThenItsWork := by
  refine ⟨fun p x => ?_, fun p ch v => ?_⟩
  · intro now stamp noted four q
    have hfour : noted.SampleFrame four := Part.SampleFrame.sampleFour x noted
    have hq : noted.SampleFrame q := Part.SampleFrame.sampleAll x p
    have hnow : four.sampleTime = now := hfour.sampleTime.trans (p.markInstant_sampleTime x)
    refine ⟨fun hs => ?_, fun hs => ?_, hq.station, hq.image, hq.lastSample, hq.stamp, hq.inputs,
      hq.sampleTime.trans (p.markInstant_sampleTime x), ?_⟩
    · exact Part.instantWork_idle fun h => hs (hfour.station.symm.trans h)
    · rw [show q = four.instantWork from rfl, Part.instantWork_run (hfour.station.trans hs), hnow]
      rfl
    · exact ((p.changedOnly_markInstant x).mono (by simp)).trans hq.changedOnly
  · intro before r evaluated drifted q
    have hq := p.sampleChannel_eq ch v
    have hreached : driftReached (p.lcu.channels.get ch) (p.preview ch v).record = true ↔ drifted := driftReached_iff
    have hpre : p.preview ch v = r := rfl
    refine ⟨fun how h hh => evalSample_completes hh, fun hh hb hd => ?_, fun how h hh hd => ?_, fun hh hb hd => ?_,
      fun hh hb hd => ?_, fun how h hh hd => ?_, fun hh hb hd => ?_⟩
    · simp only [hpre, hh, hb] at hq
      exact hq.trans (if_neg (hreached.not.mpr hd))
    · have hb : r.rebased = false := (evalSample_completes hh).1
      simp only [hpre, hh, hb] at hq
      exact hq.trans (if_neg (hreached.not.mpr hd))
    · simp only [hpre, hh, hb] at hq
      exact hq.trans (if_neg (hreached.not.mpr hd))
    · simp only [hpre, hh, hb] at hq
      exact hq.trans (if_pos (hreached.mpr hd))
    · have hb : r.rebased = false := (evalSample_completes hh).1
      simp only [hpre, hh, hb] at hq
      exact hq.trans (if_pos (hreached.mpr hd))
    · simp only [hpre, hh, hb] at hq
      exact hq.trans (if_pos (hreached.mpr hd))

end Sys2Proof.Machine
end

section
/-! PROOFS. What the named updates and the operations on the transmit list, the change marks and the port change, and what they leave:
the frames that the statements about whole commands are built from. -/

namespace Sys2Proof.Machine

/-! ## Named updates -/

theorem Part.changedOnly_modLcu (f : Lcu → Lcu) (p : Part) : p.changedOnly [.lcu] (p.modLcu f) :=
  ⟨rfl, rfl, fun k hk => by cases k <;> simp_all [Part.sameAt]⟩

theorem Part.changedOnly_modPse (f : Pse → Pse) (p : Part) : p.changedOnly [.pse] (p.modPse f) :=
  ⟨rfl, rfl, fun k hk => by cases k <;> simp_all [Part.sameAt]⟩

theorem Part.changedOnly_modPtu (f : Ptu → Ptu) (p : Part) : p.changedOnly [.ptu] (p.modPtu f) :=
  ⟨rfl, rfl, fun k hk => by cases k <;> simp_all [Part.sameAt]⟩

theorem Part.changedOnly_modSbc (f : Sbc → Sbc) (p : Part) : p.changedOnly [.sbc] (p.modSbc f) :=
  ⟨rfl, rfl, fun k hk => by cases k <;> simp_all [Part.sameAt]⟩

theorem Part.changedOnly_modStu (f : Stu → Stu) (p : Part) : p.changedOnly [.stu] (p.modStu f) :=
  ⟨rfl, rfl, fun k hk => by cases k <;> simp_all [Part.sameAt]⟩

theorem Part.changedOnly_modVau (f : Vau → Vau) (p : Part) : p.changedOnly [.vau] (p.modVau f) :=
  ⟨rfl, rfl, fun k hk => by cases k <;> simp_all [Part.sameAt]⟩

theorem Part.changedOnly_modVcl (f : Vcl → Vcl) (p : Part) : p.changedOnly [.vcl] (p.modVcl f) :=
  ⟨rfl, rfl, fun k hk => by cases k <;> simp_all [Part.sameAt]⟩

theorem Part.changedOnly_modTou (f : Tou → Tou) (p : Part) : p.changedOnly [.tou] (p.modTou f) :=
  ⟨rfl, rfl, fun k hk => by cases k <;> simp_all [Part.sameAt]⟩

theorem Part.changedOnly_modCsu (f : Csu → Csu) (p : Part) : p.changedOnly [.csu] (p.modCsu f) :=
  ⟨rfl, rfl, fun k hk => by cases k <;> simp_all [Part.sameAt]⟩

/-! ## The transmit list, the marks, the port and the reports -/

theorem Part.changedOnly_enterList (c : TxContent) (t : SiteTime) (p : Part) : p.changedOnly [.sbc, .vcl] (p.enterList c t) :=
  ⟨by simp, by simp, fun k hk => by cases k <;> simp_all [Part.sameAt]⟩

theorem Part.changedOnly_offerVehicle (p : Part) : p.changedOnly [.sbc, .vcl] p.offerVehicle :=
  ⟨by simp, by simp, fun k hk => by cases k <;> simp_all [Part.sameAt]⟩

theorem Part.changedOnly_handFrame (c : TxContent) (p : Part) : p.changedOnly [.sbc, .vcl] (p.handFrame c) :=
  (p.changedOnly_enterList c p.now).trans (Part.changedOnly_offerVehicle _)

theorem Part.changedOnly_setMark (m : ChangeMark) (p : Part) : p.changedOnly [.csu, .sbc, .vcl] (p.setMark m) :=
  ⟨by simp, by simp, fun k hk => by cases k <;> simp_all [Part.sameAt]⟩

theorem Part.changedOnly_requestPort (r : Requester) (p : Part) : p.changedOnly [.vau] (p.requestPort r) :=
  ⟨by simp, by simp, fun k hk => by cases k <;> simp_all [Part.sameAt]⟩

theorem Part.changedOnly_reportTrig (x : TrigFlag) (tag : Count16) (p : Part) : p.changedOnly [.vau, .vcl] (p.reportTrig x tag) :=
  ⟨by simp, by simp, fun k hk => by cases k <;> simp_all [Part.sameAt]⟩

theorem Part.changedOnly_fire (o : Output) (tag : Count16) (p : Part) : p.changedOnly [.tou, .vau, .vcl] (p.fire o tag) :=
  ⟨by simp, by simp, fun k hk => by cases k <;> simp_all [Part.sameAt]⟩

theorem Part.changedOnly_closeRecord (n : Count16) (p : Part) : p.changedOnly [.pse] (p.closeRecord n) :=
  Part.changedOnly_modPse _ p

/-- A fault mark: the first cause stays, and an absent mark takes the cause and sets CHANNELS (R14). -/
theorem Part.faultMark_marked {p : Part} {ch : Channel} (h : (p.lcu.channels.get ch).mark.isSome = true) (cause : ChannelMark) :
    p.faultMark ch cause = p := by
  obtain ⟨m, hm⟩ := Option.isSome_iff_exists.mp h
  simp [Part.faultMark, hm]

theorem Part.faultMark_unmarked {p : Part} {ch : Channel} (h : (p.lcu.channels.get ch).mark = none) (cause : ChannelMark) :
    p.faultMark ch cause = (p.modChannel ch fun c => { c with mark := some cause }).setMark .channels := by
  simp [Part.faultMark, h]

theorem Part.changedOnly_faultMark (ch : Channel) (cause : ChannelMark) (p : Part) :
    p.changedOnly [.lcu, .csu, .sbc, .vcl] (p.faultMark ch cause) := by
  cases h : (p.lcu.channels.get ch).mark with
  | some m =>
    rw [Part.faultMark_marked (Option.isSome_of_eq_some h)]
    exact p.changedOnly_refl _
  | none =>
    rw [Part.faultMark_unmarked h]
    exact ((Part.changedOnly_modLcu _ p).mono (by simp)).trans ((Part.changedOnly_setMark _ _).mono (by simp))

end Sys2Proof.Machine
end

section
/-! PROOFS. The rows of the sampling instant: seeds, baselines and hit starts (R1 to R5), the two ends of a hit and its disposal (R7,
R8, R12), the two ends of STUCK and the drift mark (R9, R14, R15). -/

namespace Sys2Proof.Machine

/-! ## A row that is a whole sampling instant (log 7) -/

theorem Part.sampleIf_happens {p : Part} {happens : SampleResult → Bool} {ch : Channel} {x : PerChannel Sample}
    (hd : p.sampleDue = true) (hh : happens (p.preview ch (x.get ch)) = true) : p.sampleIf happens ch x = p.sampleAll x := by
  simp [Part.sampleIf, hd, hh]

theorem Part.sampleIf_idle {p : Part} {happens : SampleResult → Bool} {ch : Channel} {x : PerChannel Sample}
    (h : p.sampleDue = false ∨ happens (p.preview ch (x.get ch)) = false) : p.sampleIf happens ch x = p := by
  obtain h | h := h <;> simp [Part.sampleIf, h]

theorem act_idle {f : Part → Part} {s : State} (h : f s.part = s.part) : act f s = .next s := by
  simp [act, h]

/-- A row that names what a sample does is the whole instant when the sample does it, and nothing at any other time. -/
theorem sampleIf_runs {s : State} (hs : s.running) (f : SampleResult → Bool) (ch : Channel) (x : PerChannel Sample) {happens : Prop}
    (hf : f (s.part.preview ch (x.get ch)) = true ↔ happens) :
    (s.part.sampleDue = true → happens → act (Part.sampleIf f ch x) s = .next { s with part := s.part.sampleAll x }) ∧
      (s.part.sampleDue = false ∨ ¬happens → act (Part.sampleIf f ch x) s = .next s) := by
  refine ⟨fun hd hh => ?_, fun h => act_idle (Part.sampleIf_idle (h.imp_right fun hn => ?_))⟩
  · rw [act_running _ hs, Part.sampleIf_happens hd (hf.mpr hh)]
  · exact Bool.eq_false_iff.mpr (hf.not.mpr hn)

theorem SampleResult.endedBy_iff {how : HitEnd} {r : SampleResult} : r.endedBy how = true ↔ ∃ h, r.hit = some (how, h) := by
  unfold SampleResult.endedBy
  split
  next h hh => simp [hh, Prod.ext_iff, eq_comm]
  next hh => simp [hh]

/-! ## The two ends of a hit (R7, R8) and its disposal (R12) -/

/-- The tail of a hit goes by the state and the tail of its channel, which accumulating leaves alone. -/
theorem accumulate_nextTailCount (st : StripsBlock) (c : ChannelRecord) (x d : Int) :
    (accumulate c x d).nextTailCount st d = c.nextTailCount st d := rfl

theorem evalSample_byTail {st : StripsBlock} {x : Int} {c : ChannelRecord} (hp : c.seedPending = false)
    (hs : c.state = .pulse ∨ c.state = .tail) (hl : x - c.b < st.thOff) (hn : st.ntail ≤ c.nextTailCount st (x - c.b))
    (ch : Channel) (now : SiteTime) :
    let a := (accumulate c x (x - c.b)).tailed st now (x - c.b)
    evalSample st ch now x c =
      { record := driftSample st { a with state := .idle }, hit := some (.byTail, hitOf ch a a.tailTime), quietReturn := false,
        rebased := false } := by
  rw [evalSample_hit hp hs, hitSample_byTail (accumulate_state hs x _) hl hn]
  rfl

theorem evalSample_byCount {st : StripsBlock} {x : Int} {c : ChannelRecord} (hp : c.seedPending = false)
    (hs : c.state = .pulse ∨ c.state = .tail) (hn : x - c.b < st.thOff → c.nextTailCount st (x - c.b) < st.ntail)
    (hl : st.lmax ≤ c.lengthCount + 1) (ch : Channel) (now : SiteTime) :
    let a := (accumulate c x (x - c.b)).tailed st now (x - c.b)
    let stretched : ChannelRecord := { a with flags := { a.flags with stretched := true } }
    evalSample st ch now x c =
      { record := driftSample st { stretched with state := .stuck, stuckCount := 0, quietCount := 0 }
        hit := some (.byCountExpiry, hitOf ch stretched now), quietReturn := false, rebased := false } := by
  rw [evalSample_hit hp hs, hitSample_byCount (accumulate_state hs x _) hn hl]
  rfl

theorem ChannelRecord.nextTailCount_tail {st : StripsBlock} {d : Int} {c : ChannelRecord} (hs : c.state = .tail) (h : d < st.thOff) :
    c.nextTailCount st d = c.tailCount + 1 := by
  simp [ChannelRecord.nextTailCount, hs, h]

theorem ChannelRecord.nextTailCount_pulse {st : StripsBlock} {d : Int} {c : ChannelRecord} (hs : c.state = .pulse) (h : d < st.thOff) :
    c.nextTailCount st d = 1 := by
  simp [ChannelRecord.nextTailCount, hs, h]

theorem Part.disposeHit_run {p : Part} (hs : p.csu.station = .run) {h : Hit} (hm : ¬(p.lcu.channels.get h.channel).mark.isSome = true)
    (now : SiteTime) : p.disposeHit h now = p.takeHit h now := by
  simp only [Part.disposeHit, hs]
  exact if_neg hm

theorem Part.disposeHit_marked {p : Part} (hs : p.csu.station = .run ∨ p.csu.station = .hold) {h : Hit}
    (hm : (p.lcu.channels.get h.channel).mark.isSome = true) (now : SiteTime) :
    p.disposeHit h now = p.modTotals fun t => { t with markedHits := satInc t.markedHits } := by
  obtain hs | hs := hs <;> simp only [Part.disposeHit, hs] <;> exact if_pos hm

theorem Part.disposeHit_hold {p : Part} (hs : p.csu.station = .hold) {h : Hit} (hm : ¬(p.lcu.channels.get h.channel).mark.isSome = true)
    (now : SiteTime) : p.disposeHit h now = p.modTotals fun t => { t with holdHits := satInc t.holdHits } := by
  simp only [Part.disposeHit, hs]
  exact if_neg hm

theorem Part.disposeHit_discarded {p : Part} (hr : p.csu.station ≠ .run) (hh : p.csu.station ≠ .hold) (h : Hit) (now : SiteTime) :
    p.disposeHit h now = p := by
  cases hs : p.csu.station with
  | run => exact absurd hs hr
  | hold => exact absurd hs hh
  | loading | mute | unconfigured | silent | join => simp only [Part.disposeHit, hs]

/-- Settles O23: the two rows as whole instants, the two ends of a hit, and the four disposals. -/
theorem hitEndsAreDisposedOf : Obligations.HitEndsAreDisposedOf := by
  refine ⟨fun s ch x how hs => ?_, fun st ch now x c hp => ?_, fun p h now => ?_⟩
  · cases how
    case byTail => exact sampleIf_runs hs _ ch x SampleResult.endedBy_iff
    case byCountExpiry => exact sampleIf_runs hs _ ch x SampleResult.endedBy_iff
  · intro low a tailCount tailTime
    refine ⟨?_, fun hl => ?_⟩
    · rintro (⟨hs, hlow, hn⟩ | ⟨hs, hlow, hn⟩)
      · exact evalSample_byTail hp (.inr hs) hlow ((ChannelRecord.nextTailCount_tail hs hlow).symm ▸ hn) ch now
      · exact evalSample_byTail hp (.inl hs) hlow ((ChannelRecord.nextTailCount_pulse hs hlow).symm ▸ hn) ch now
    · rintro (⟨hs, hn⟩ | ⟨hs, hn⟩)
      · exact evalSample_byCount hp (.inr hs) (fun hlow => (ChannelRecord.nextTailCount_tail hs hlow).symm ▸ hn hlow) hl ch now
      · exact evalSample_byCount hp (.inl hs) (fun hlow => (ChannelRecord.nextTailCount_pulse hs hlow).symm ▸ hn hlow) hl ch now
  · exact ⟨fun hs hm => Part.disposeHit_run hs hm now, fun hs hm => Part.disposeHit_marked hs hm now,
      fun hs hm => Part.disposeHit_hold hs hm now, fun hr hh => Part.disposeHit_discarded hr hh h now⟩

/-! ## STUCK, drift and fault marks -/

theorem evalSample_stuck {c : ChannelRecord} (hp : c.seedPending = false) (hs : c.state = .stuck) (st : StripsBlock) (ch : Channel)
    (now : SiteTime) (x : Int) : evalSample st ch now x c =
      { stuckSample st x (x - c.b) c with record := driftSample st (stuckSample st x (x - c.b) c).record } := by
  rw [evalSample_evaluated hp, stateSample_stuck hs]

/-- Settles O25: the three rows as whole instants, the three outcomes in STUCK, and the two of a fault mark. -/
theorem stuckEndsAndDriftMarks : Obligations.StuckEndsAndDriftMarks := by
  refine ⟨fun s ch x hs => ⟨sampleIf_runs hs _ ch x Iff.rfl, sampleIf_runs hs _ ch x Iff.rfl, ?_⟩,
    fun st ch now x c hp hs => ?_, driftSample_eq, fun p ch cause => ?_⟩
  · exact sampleIf_runs hs (fun r => driftReached (s.part.lcu.channels.get ch) r.record) ch x driftReached_iff
  · intro quiet counted e
    have he : e = _ := evalSample_stuck hp hs st ch now x
    refine ⟨fun hq => ?_, fun hq hl => ?_, fun hq hl => ?_⟩
    · rw [he, stuckSample_quiet hq]
      rfl
    · rw [he, stuckSample_rebased hq hl]
      rfl
    · rw [he, stuckSample_stays hq hl]
      rfl
  · refine ⟨fun hm => Part.faultMark_marked hm cause, fun hm => ?_⟩
    refine ⟨?_, ?_, p.changedOnly_faultMark ch cause⟩
    · simp [Part.faultMark_unmarked hm]
    · simp [Part.faultMark_unmarked hm, addMark]

/-! ## A quiet instant (R1 to R5) -/

/-- A channel in no hit, whose next evaluated sample cannot reach the drift limit. -/
def ChannelRecord.Calm (c : ChannelRecord) : Prop := c.state = .idle ∧ c.driftCount ≠ 7999

/-- The record of a calm channel after a sample: seeded, following its baseline, or at the start of a hit (R3 to R5). -/
def calmRecord (st : StripsBlock) (now : SiteTime) (x : Int) (c : ChannelRecord) : ChannelRecord :=
  if c.seedPending then { c with baseline := 64 * x, seedPending := false }
  else driftSample st (if x - c.b < st.thOn then { c with baseline := c.baseline + x - c.b } else startHit c now x (x - c.b))

theorem calmRecord_below {st : StripsBlock} {x : Int} {c : ChannelRecord} (hp : c.seedPending = false) (hx : x - c.b < st.thOn)
    (now : SiteTime) :
    calmRecord st now x c = driftSample st { c with baseline := c.baseline + x - c.b } := by
  simp only [calmRecord, hp, Bool.false_eq_true, if_false, if_pos hx]

theorem calmRecord_start {st : StripsBlock} {x : Int} {c : ChannelRecord} (hp : c.seedPending = false) (hx : st.thOn ≤ x - c.b)
    (now : SiteTime) : calmRecord st now x c = driftSample st (startHit c now x (x - c.b)) := by
  simp only [calmRecord, hp, Bool.false_eq_true, if_false, if_neg (Int.not_lt.mpr hx)]

theorem evalSample_calm {c : ChannelRecord} (h : c.Calm) (st : StripsBlock) (ch : Channel) (now : SiteTime) (x : Int) :
    evalSample st ch now x c = plainResult (calmRecord st now x c) := by
  rcases hp : c.seedPending with _ | _
  case true => simp [evalSample_seed hp, calmRecord, hp]
  rw [evalSample_evaluated hp]
  rcases lt_or_ge (x - c.b) st.thOn with hx | hx
  · simp [stateSample_idle_below h.1 hx, calmRecord, hp, hx, plainResult]
  · simp [stateSample_idle_start h.1 hx, calmRecord, hp, Int.not_lt.mpr hx, plainResult]

theorem driftSample_not_reached {c : ChannelRecord} (h : c.driftCount ≠ 7999) (hc : c.driftCount < 8000) (st : StripsBlock) :
    (driftSample st c).driftCount ≠ 8000 := by
  rw [driftSample_eq]
  dsimp only
  split <;> omega

theorem not_driftReached_calm {c : ChannelRecord} (h : c.Calm) (st : StripsBlock) (now : SiteTime) (x : Int) :
    driftReached c (calmRecord st now x c) = false := by
  refine Bool.eq_false_iff.mpr fun hr => ?_
  obtain ⟨hlt, heq⟩ := driftReached_iff.mp hr
  unfold calmRecord at heq
  split at heq
  · exact absurd heq hlt.ne
  · refine driftSample_not_reached ?_ ?_ st heq <;> split
    · exact h.2
    · exact h.2
    · exact hlt
    · exact hlt

theorem Part.sampleChannel_calm {p : Part} {ch : Channel} (h : (p.lcu.channels.get ch).Calm) (x : Sample) :
    p.sampleChannel ch x = p.modChannel ch fun _ => calmRecord p.image.strips p.sampleTime x.toInt (p.lcu.channels.get ch) := by
  have hpre : p.preview ch x = plainResult (calmRecord p.image.strips p.sampleTime x.toInt (p.lcu.channels.get ch)) :=
    evalSample_calm h _ _ _ _
  have hnot := not_driftReached_calm h p.image.strips p.sampleTime x.toInt
  simp [Part.sampleChannel_eq, hpre, plainResult, hnot]

/-- The channels after an instant at which all are calm. -/
def Part.calmChannels (p : Part) (x : PerChannel Sample) : PerChannel ChannelRecord :=
  let next (ch : Channel) : ChannelRecord :=
    calmRecord p.image.strips p.sampleTime (x.get ch).toInt (p.lcu.channels.get ch)
  { ll := next .ll, lr := next .lr, tl := next .tl, tr := next .tr }

theorem Part.calmChannels_get (p : Part) (x : PerChannel Sample) (ch : Channel) :
    (p.calmChannels x).get ch = calmRecord p.image.strips p.sampleTime (x.get ch).toInt (p.lcu.channels.get ch) := by
  cases ch <;> rfl

/-- Each channel's sample changes that channel alone, so the others are still calm at theirs. -/
theorem Part.sampleFour_calm {p : Part} (h : ∀ ch, (p.lcu.channels.get ch).Calm) (x : PerChannel Sample) :
    p.sampleFour x = p.modLcu fun l => { l with channels := p.calmChannels x } := by
  have h1 := Part.sampleChannel_calm (h .ll) x.ll
  have h2 := Part.sampleChannel_calm (p := p.sampleChannel .ll x.ll) (ch := .lr) (by rw [h1]; exact h .lr) x.lr
  have h3 := Part.sampleChannel_calm (p := (p.sampleChannel .ll x.ll).sampleChannel .lr x.lr) (ch := .tl)
    (by rw [h2, h1]; exact h .tl) x.tl
  have h4 := Part.sampleChannel_calm (p := ((p.sampleChannel .ll x.ll).sampleChannel .lr x.lr).sampleChannel .tl x.tl) (ch := .tr)
    (by rw [h3, h2, h1]; exact h .tr) x.tr
  unfold Part.sampleFour
  rw [h4, h3, h2, h1]
  rfl

@[simp] theorem PerSide.set_get {α : Type} (q : PerSide α) (c : Side) : q.set c (q.get c) = q := by cases c <;> rfl

theorem Part.expireSide_none {p : Part} {side : Side} {now : SiteTime}
    (h : ∀ x ∈ p.pse.fifo.get side, hitExpired p.image.strips.spacing now x = false) : p.expireSide side now = p := by
  have hold : (p.pse.fifo.get side).filter (hitExpired p.image.strips.spacing now) = [] :=
    List.filter_eq_nil_iff.mpr fun x hx => by simp [h x hx]
  have hyoung : (p.pse.fifo.get side).filter (fun x => !hitExpired p.image.strips.spacing now x) = p.pse.fifo.get side :=
    List.filter_eq_self.mpr fun x hx => by simp [h x hx]
  simp [Part.expireSide, hold, hyoung, Part.setFifo, Part.modPse]

theorem Part.dueChecks_none {p : Part} {now : SiteTime} (h : ∀ c ∈ p.pse.checks, siteDiff now c.checkTime < 0) :
    p.dueChecks now = p := by
  unfold Part.dueChecks
  cases hc : p.pse.checks with
  | nil => rfl
  | cons c rest =>
    have := h c (by simp [hc])
    simp [Part.performDue, hc, this]

theorem hitExpired_eq_false_iff {spacing : Nat} {now : SiteTime} {h : Hit} :
    hitExpired spacing now h = false ↔ siteDiff now h.startTime ≤ spacing * 1000000 / 1389 := by
  unfold hitExpired
  rw [decide_eq_false_iff_not, Int.not_lt]
  exact Iff.rfl

theorem Part.instantWork_nothingDue {p : Part}
    (h : p.inRun = true → (∀ side, ∀ x ∈ p.pse.fifo.get side, hitExpired p.image.strips.spacing p.sampleTime x = false) ∧
      ∀ c ∈ p.pse.checks, siteDiff p.sampleTime c.checkTime < 0) : p.instantWork = p := by
  by_cases hs : p.csu.station = .run
  · obtain ⟨hfifo, hchecks⟩ := h (Part.inRun_iff.mpr hs)
    rw [Part.instantWork_run hs, Part.expireBoth, Part.expireSide_none (hfifo .left), Part.expireSide_none (hfifo .right),
      Part.dueChecks_none hchecks]
  · exact Part.instantWork_idle hs

theorem Part.sampleDue_iff {p : Part} :
    p.sampleDue = true ↔ p.working = true ∧ ∀ t, p.lcu.lastSample = some t → t + 125 ≤ p.clock := by
  unfold Part.sampleDue
  rw [Bool.and_eq_true]
  cases h : p.lcu.lastSample with
  | none => simp
  | some v =>
    have hv : elapsed p.clock v samplePeriod = true ↔ v + 125 ≤ p.clock := decide_eq_true_iff
    simp [hv]

theorem Part.working_iff {p : Part} : p.working = true ↔ p.csu.station = .join ∨ p.csu.station = .run ∨ p.csu.station = .hold ∨
    p.csu.station = .silent ∧ p.csu.image.isSome = true := by
  cases h : p.csu.station <;> simp [Part.working, h]

/-- Settles O20: at a quiet instant each channel's record is its `calmRecord`, and no work follows. -/
theorem sampleInstantSeedsFollowsAndStarts : Obligations.SampleInstantSeedsFollowsAndStarts := by
  refine ⟨fun p => Part.sampleDue_iff, fun p => Part.working_iff,
    fun p => ⟨fun x => Part.sampleTime_of_read, Part.sampleTime_of_unread⟩, fun s x hs => ?_⟩
  intro now
  have hexec : exec (.sampleInstant x.ll x.lr x.tl x.tr) s =
      .next { s with part := if s.part.sampleDue then s.part.sampleAll x else s.part } := act_running _ hs
  refine ⟨fun hd => ?_, fun hd => ?_, fun hd hcalm hwork => ⟨s.part.calmChannels x, ?_, fun ch => ?_⟩⟩
  · simp [hexec, hd]
  · simp [hexec, hd]
  · have hfour := Part.sampleFour_calm (p := s.part.markInstant x) hcalm x
    have hidle : ((s.part.markInstant x).sampleFour x).instantWork = (s.part.markInstant x).sampleFour x := by
      have hframe := Part.SampleFrame.sampleFour x (s.part.markInstant x)
      refine Part.instantWork_nothingDue fun hr => ?_
      obtain ⟨hfifo, hchecks⟩ := hwork (by rwa [Part.inRun, hframe.station] at hr)
      rw [hframe.sampleTime, Part.markInstant_sampleTime]
      rw [hfour]
      exact ⟨fun side h hh => hitExpired_eq_false_iff.mpr (hfifo side h hh), hchecks⟩
    rw [hexec, if_pos hd, show s.part.sampleAll x = ((s.part.markInstant x).sampleFour x).instantWork from rfl, hidle, hfour]
    simp only [Part.calmChannels, Part.markInstant_sampleTime]
    rfl
  · intro c v count
    rw [Part.calmChannels_get]
    refine ⟨fun hp => if_pos hp, fun hp hx => ?_, fun hp hx => ?_⟩
    · exact (calmRecord_below hp hx now).trans (driftSample_eq _ _)
    · exact (calmRecord_start hp hx now).trans (driftSample_eq _ _)

end Sys2Proof.Machine
end

section
/-! PROOFS. The load formula (R34, R36, R37): the coefficient of a strip and the finishing of a wheel, each said once by its cases. -/

namespace Sys2Proof.Machine

/-! ## The coefficient of a strip (R34) -/

theorem HitFlags.any_eq_false_iff {f : HitFlags} :
    f.any = false ↔ f.stretched = false ∧ f.clipped = false ∧ f.areaSat = false := by
  simp [HitFlags.any, and_assoc]

theorem stripQ_eq (area c f : Nat) :
    let x := area * c / 65536
    let y := min x 4294967295 * f / 32768
    stripQ area c f = (min y 4294967295, decide (4294967295 < x ∨ 4294967295 < y)) := by
  simp only [stripQ, clampTo_fst, clampTo_snd, Bool.decide_or]
  rfl

/-- A strip can be weighed: its hit carries no flag, its channel has a calibration constant and no fault mark. -/
def Part.StripUsable (p : Part) (h : Hit) : Prop :=
  h.flags.any = false ∧ p.image.strips.cal.get h.channel ≠ 0 ∧ (p.lcu.channels.get h.channel).mark = none

theorem Part.usableQ_none (p : Part) (f : Nat) : p.usableQ f none = none := rfl

theorem Part.usableQ_usable {p : Part} {h : Hit} (hu : p.StripUsable h) (f : Nat) :
    p.usableQ f (some h) = some (stripQ h.area (p.image.strips.cal.get h.channel) f) := by
  obtain ⟨hflags, hcal, hmark⟩ := hu
  simp [Part.usableQ, hflags, hcal, hmark]

theorem Part.usableQ_barred {p : Part} {h : Hit} (hu : ¬p.StripUsable h) (f : Nat) : p.usableQ f (some h) = none := by
  refine if_pos ?_
  simp only [Part.StripUsable, not_and_or, Bool.not_eq_false, not_not] at hu
  rcases hu with hflags | hcal | hmark
  · simp [hflags]
  · simp [hcal]
  · simp [Option.isSome_iff_ne_none.mpr hmark]

/-! ## Finishing a wheel (R36, R37) -/

/-- The load of a strip before it is clamped (R36). -/
def rawLoad (q v g : Nat) : Nat := (q * v / 65536 * g + 16384) / 32768

theorem stripLoad_eq (q v g : Nat) : stripLoad q v g = (min (rawLoad q v g) 65535, decide (65535 < rawLoad q v g)) :=
  Prod.ext (clampTo_fst _ _) (clampTo_snd _ _)

theorem finishWheel_left {v : Nat} {w : Wheel} (h : w.load.isSome = true ∨ v < 1389 ∨ 69444 < v) (table : List FactorPoint) :
    finishWheel table v w = w := by
  have hleft : (w.load.isSome || v < vMin || vMax < v) = true := by
    rcases h with h | h | h
    · simp [h]
    · simp [show v < vMin from h]
    · simp [show vMax < v from h]
  exact if_pos hleft

section Finished

variable {v : Nat} {w : Wheel}

/-- A wheel with no load, at a speed within the window, goes by its coefficients. -/
theorem finishWheel_goes (hl : w.load = none) (h1 : 1389 ≤ v) (h2 : v ≤ 69444) :
    (w.load.isSome || v < vMin || vMax < v) = false := by
  simp [hl, show vMin ≤ v from h1, show v ≤ vMax from h2]

theorem finishWheel_both (hl : w.load = none) (h1 : 1389 ≤ v) (h2 : v ≤ 69444) {a b : Nat} (ha : w.qLead = some a)
    (hb : w.qTrail = some b) (table : List FactorPoint) :
    finishWheel table v w = { w with
      load := some ((min (rawLoad a v (tableFactor v table)) 65535 + min (rawLoad b v (tableFactor v table)) 65535 + 1) / 2)
      flags := { w.flags with
        loadSat := w.flags.loadSat || decide (65535 < rawLoad a v (tableFactor v table)) ||
          decide (65535 < rawLoad b v (tableFactor v table))
        lowSpeed := w.flags.lowSpeed || decide (v < 2778) } } := by
  simp only [finishWheel, finishWheel_goes hl h1 h2, ha, hb, stripLoad_eq, Bool.false_eq_true, if_false]
  rfl

theorem finishWheel_one (hl : w.load = none) (h1 : 1389 ≤ v) (h2 : v ≤ 69444) {a : Nat}
    (ha : w.qLead = some a ∧ w.qTrail = none ∨ w.qLead = none ∧ w.qTrail = some a) (table : List FactorPoint) :
    finishWheel table v w = { w with
      load := some (min (rawLoad a v (tableFactor v table)) 65535)
      flags := { w.flags with
        single := true
        loadSat := w.flags.loadSat || decide (65535 < rawLoad a v (tableFactor v table))
        lowSpeed := w.flags.lowSpeed || decide (v < 2778) } } := by
  obtain ⟨hlead, htrail⟩ | ⟨hlead, htrail⟩ := ha
  · simp only [finishWheel, finishWheel_goes hl h1 h2, hlead, htrail, stripLoad_eq, Bool.false_eq_true, if_false]
    rfl
  · simp only [finishWheel, finishWheel_goes hl h1 h2, hlead, htrail, stripLoad_eq, Bool.false_eq_true, if_false]
    rfl

/-- With no coefficient a wheel stays as it is, whatever the speed. -/
theorem finishWheel_bare (ha : w.qLead = none) (hb : w.qTrail = none) (v : Nat) (table : List FactorPoint) :
    finishWheel table v w = w := by
  simp only [finishWheel, ha, hb, ite_self]

end Finished

/-- Settles O32: the coefficient of a strip by whether it is usable, and the finishing of a wheel by its coefficients. -/
theorem loadFormula : Obligations.LoadFormula := by
  refine ⟨fun p f h => ?_, fun table v w => ?_⟩
  · intro c x y
    refine ⟨rfl, fun hflags hcal hmark => ?_, fun hbar => Part.usableQ_barred (fun hu => ?_) f⟩
    · have hu : p.StripUsable h := ⟨by rw [hflags]; rfl, hcal, hmark⟩
      rw [Part.usableQ_usable hu, stripQ_eq]
    · obtain ⟨hflags, hcal, hmark⟩ := hu
      obtain ⟨hs, hc, ha⟩ := HitFlags.any_eq_false_iff.mp hflags
      rcases hbar with h1 | h1 | h1 | h1 | h1
      · exact absurd h1 (by simp [hs])
      · exact absurd h1 (by simp [hc])
      · exact absurd h1 (by simp [ha])
      · exact hcal h1
      · exact h1 hmark
  · exact ⟨fun h => finishWheel_left h table, fun hl h1 h2 => ⟨fun a b ha hb => finishWheel_both hl h1 h2 ha hb table,
      fun a ha => finishWheel_one hl h1 h2 ha table, fun ha hb => finishWheel_bare ha hb v table⟩⟩

end Sys2Proof.Machine
end

section
/-! PROOFS. The transmit list (R63, R64) and the VEHICLE offer (R153): what enters, what is displaced, what is handed back. -/

namespace Sys2Proof.Machine

/-! ## The first and the last element of a kind -/

section Lists

variable {α : Type} {f : α → Bool} {before after : List α} {x : α}

theorem dropFirst_append (hb : ∀ y ∈ before, f y = false) (hx : f x = true) : dropFirst f (before ++ x :: after) = before ++ after := by
  induction before with
  | nil => simp [dropFirst, hx]
  | cons y ys ih =>
    have hy : f y = false := hb y List.mem_cons_self
    simp [dropFirst, hy, ih fun z hz => hb z (List.mem_cons_of_mem _ hz)]

theorem changeFirst_append (hb : ∀ y ∈ before, f y = false) (hx : f x = true) (g : α → α) :
    changeFirst f g (before ++ x :: after) = before ++ g x :: after := by
  induction before with
  | nil => simp [changeFirst, hx]
  | cons y ys ih =>
    have hy : f y = false := hb y List.mem_cons_self
    simp [changeFirst, hy, ih fun z hz => hb z (List.mem_cons_of_mem _ hz)]

theorem changeFirst_eq_self {l : List α} (h : ∀ y ∈ l, f y = false) (g : α → α) : changeFirst f g l = l := by
  induction l with
  | nil => rfl
  | cons y ys ih =>
    have hy : f y = false := h y List.mem_cons_self
    simp [changeFirst, hy, ih fun z hz => h z (List.mem_cons_of_mem _ hz)]

theorem find?_append_cons (hb : ∀ y ∈ before, f y = false) (hx : f x = true) : (before ++ x :: after).find? f = some x :=
  List.find?_eq_some_iff_append.mpr ⟨hx, before, after, rfl, fun y hy => by simp [hb y hy]⟩

theorem mem_changeFirst_of_not {l : List α} (h : x ∈ l) (hx : f x = false) (g : α → α) : x ∈ changeFirst f g l := by
  induction l with
  | nil => exact h
  | cons y ys ih =>
    simp only [changeFirst]
    split
    · obtain rfl | h := List.mem_cons.mp h
      · simp_all
      · exact List.mem_cons_of_mem _ h
    · obtain rfl | h := List.mem_cons.mp h
      · exact List.mem_cons_self
      · exact List.mem_cons_of_mem _ (ih h)

/-- A list that holds an element of a kind, split at the last of them. -/
theorem exists_newest {l : List α} (h : l.any f = true) : ∃ before out after, l = before ++ out :: after ∧ f out = true ∧
    (∀ y ∈ after, f y = false) ∧ dropNewest f l = before ++ after ∧ l.reverse.find? f = some out := by
  obtain ⟨out, hout⟩ : ∃ out, l.reverse.find? f = some out := by
    rw [← Option.isSome_iff_exists, List.find?_isSome]
    simpa using h
  obtain ⟨hf, after, before, hl, hafter⟩ := List.find?_eq_some_iff_append.mp hout
  have hafter : ∀ y ∈ after, f y = false := fun y hy => by simpa using hafter y hy
  refine ⟨before.reverse, out, after.reverse, ?_, hf, fun y hy => hafter y (List.mem_reverse.mp hy), ?_, hout⟩
  · simpa using congrArg List.reverse hl
  · rw [dropNewest, hl, dropFirst_append hafter hf, List.reverse_append]

end Lists

/-! ## The least urgent waiting kind (R64) -/

theorem code_le_leastUrgent {l : List TxEntry} {x : TxEntry} (hx : x ∈ l) (hw : x.inTransmission = false) :
    x.code ≤ leastUrgent l := by
  induction l with
  | nil => simp at hx
  | cons e es ih =>
    simp only [leastUrgent]
    rcases List.mem_cons.mp hx with rfl | hx
    · simp [hw]
    · split
      · exact ih hx
      · exact (ih hx).trans (le_max_right _ _)

theorem lt_leastUrgent_iff {l : List TxEntry} {k : Nat} :
    k < leastUrgent l ↔ ∃ x ∈ l, x.inTransmission = false ∧ k < x.code := by
  refine ⟨fun h => ?_, fun ⟨x, hx, hw, hk⟩ => hk.trans_le (code_le_leastUrgent hx hw)⟩
  obtain ⟨x, hx, hw⟩ := List.any_eq_true.mp (Part.Sound.waiting_of_lt h)
  simp only [waitingOfKind, Bool.and_eq_true, Bool.not_eq_true', decide_eq_true_eq] at hw
  exact ⟨x, hx, hw.1, hw.2 ▸ h⟩

theorem leastUrgent_le_iff {l : List TxEntry} {k : Nat} :
    leastUrgent l ≤ k ↔ ∀ x ∈ l, x.inTransmission = true ∨ x.code ≤ k := by
  rw [← not_lt, lt_leastUrgent_iff]
  simp only [not_exists, not_and, not_lt, Bool.eq_false_iff, ne_eq, or_iff_not_imp_left]

/-! ## Putting an entry in the list (R63, R64, R155) -/

/-- The records after the entry `e` has left the list unsent. -/
def handedBack (e : TxEntry) (l : List VehicleRecord) : List VehicleRecord :=
  match e.content with
  | .vehicle seq => l.map fun r => if r.seq = seq && r.state = .sending then { r with state := .ready } else r
  | .wheel _ | .time | .temp _ _ | .status | .totals => l

theorem handedBack_of_not_vehicle {e : TxEntry} (h : e.content.kind ≠ .vehicle) (l : List VehicleRecord) : handedBack e l = l := by
  cases hc : e.content <;> simp_all [handedBack, TxContent.kind]

theorem Part.leftUnsent_eq (e : TxEntry) (p : Part) :
    p.leftUnsent e = { p with vcl := { p.vcl with records := handedBack e p.vcl.records } } := by
  cases hc : e.content <;> simp [Part.leftUnsent, handedBack, hc, Part.handBack, Part.modVcl]

theorem Part.leftUnsent_of_not_vehicle {e : TxEntry} (h : e.content.kind ≠ .vehicle) (p : Part) : p.leftUnsent e = p := by
  rw [Part.leftUnsent_eq, handedBack_of_not_vehicle h]

section Place

variable {p : Part} {e : TxEntry}

theorem Part.placeEntry_room (h : p.sbc.list.length < 8) :
    p.placeEntry e = p.modSbc fun b => { b with list := insertByKind e b.list } := if_pos h

theorem Part.placeEntry_displaces (h : 8 ≤ p.sbc.list.length) (he : e.code < leastUrgent p.sbc.list) :
    ∃ (before after : List TxEntry) (out : TxEntry), p.sbc.list = before ++ out :: after ∧ out.inTransmission = false ∧
      out.code = leastUrgent p.sbc.list ∧ (∀ x ∈ after, x.inTransmission = true ∨ x.code ≠ out.code) ∧
      p.placeEntry e = ((p.leftUnsent out).modSbc fun b => { b with list := insertByKind e (before ++ after) }).countDrop := by
  obtain ⟨before, out, after, hl, hout, hafter, hdrop, hfind⟩ := exists_newest (Part.Sound.waiting_of_lt he)
  simp only [waitingOfKind, Bool.and_eq_true, Bool.not_eq_true', decide_eq_true_eq] at hout
  refine ⟨before, after, out, hl, hout.1, hout.2, fun x hx => ?_, ?_⟩
  · have hx := hafter x hx
    simpa [waitingOfKind, hout.2, or_iff_not_imp_left] using hx
  · simp only [Part.placeEntry, if_neg (Nat.not_lt.mpr h), if_pos he, displaced, hfind, Part.modSbc, Part.leftUnsent_sbc, hdrop]

theorem Part.placeEntry_refused (h : 8 ≤ p.sbc.list.length) (he : leastUrgent p.sbc.list ≤ e.code) :
    p.placeEntry e = if e.content.kind = .wheel then (p.leftUnsent e).countDrop.countStaleWheel
      else (p.leftUnsent e).countDrop := by
  simp only [Part.placeEntry, if_neg (Nat.not_lt.mpr h), if_neg (Nat.not_lt.mpr he)]

/-- A more urgent entry than some waiting one always finds its place. -/
theorem Part.mem_placeEntry_self (h : p.sbc.list.length < 8 ∨ e.code < leastUrgent p.sbc.list) : e ∈ (p.placeEntry e).sbc.list := by
  rcases Nat.lt_or_ge p.sbc.list.length 8 with hl | hl
  · simp [Part.placeEntry_room hl, insertByKind, mem_insertBefore]
  · obtain ⟨before, after, out, -, -, -, -, hq⟩ := Part.placeEntry_displaces hl (h.resolve_left (Nat.not_lt.mpr hl))
    simp [hq, Part.countDrop, insertByKind, mem_insertBefore]

/-- Only a waiting entry of a less urgent kind gives way to another, and only in a full list. -/
theorem Part.mem_placeEntry_of_mem {x : TxEntry} (hx : x ∈ p.sbc.list)
    (h : p.sbc.list.length < 8 ∨ x.inTransmission = true ∨ x.code ≤ e.code) : x ∈ (p.placeEntry e).sbc.list := by
  rcases Nat.lt_or_ge p.sbc.list.length 8 with hl | hl
  · simp [Part.placeEntry_room hl, insertByKind, mem_insertBefore, hx]
  · have h := h.resolve_left (Nat.not_lt.mpr hl)
    rcases Nat.lt_or_ge e.code (leastUrgent p.sbc.list) with he | he
    · obtain ⟨before, after, out, hlist, hwait, hcode, -, hq⟩ := Part.placeEntry_displaces hl he
      have hne : x ≠ out := by
        rintro rfl
        rcases h with h | h
        · simp [hwait] at h
        · omega
      rw [hlist] at hx
      have hmem : x ∈ before ++ after := by simpa [hne] using hx
      simp only [hq, Part.countDrop, Part.modSbc_sbc, insertByKind, mem_insertBefore]
      exact .inr hmem
    · rw [Part.placeEntry_refused hl he]
      split <;> simpa [Part.countDrop] using hx

theorem Part.placeEntry_length (h : p.sbc.list.length < 8) : (p.placeEntry e).sbc.list.length = p.sbc.list.length + 1 := by
  simp [Part.placeEntry_room h, insertByKind, insertBefore_length]

end Place

/-! ## A frame or request by its kind (R59, R63) -/

/-- The list holds the one frame of its kind that a frame or request would merge with. -/
def merges (l : List TxEntry) : TxContent → Bool
  | .time => l.any fun e => decide (e.content.kind = .time)
  | .status => l.any fun e => decide (e.content.kind = .status)
  | .totals => l.any fun e => decide (e.content.kind = .totals)
  | .temp probe _ => l.any (isTempOf probe)
  | .wheel _ | .vehicle _ => false

theorem TxContent.kind_eq_status {c : TxContent} : c.kind = .status ↔ c = .status := by cases c <;> simp [TxContent.kind]

theorem TxContent.kind_eq_time {c : TxContent} : c.kind = .time ↔ c = .time := by cases c <;> simp [TxContent.kind]

theorem Part.listTakes_iff {p : Part} {k : FrameKind} :
    p.listTakes k = true ↔ p.onDuty = true ∨ p.csu.station = .unconfigured ∧ k = .status := by
  simp [Part.listTakes]

theorem Part.onDuty_iff {p : Part} :
    p.onDuty = true ↔ p.csu.station = .join ∨ p.csu.station = .run ∨ p.csu.station = .hold := by
  simp [Part.onDuty, or_assoc]

section Enter

variable {p : Part}

theorem Part.enterList_not_taken {c : TxContent} (h : p.listTakes c.kind = false) (t : SiteTime) : p.enterList c t = p := by
  simp [Part.enterList, h]

theorem Part.enterList_place {c : TxContent} (h : p.listTakes c.kind = true) (hm : merges p.sbc.list c = false) (t : SiteTime) :
    p.enterList c t = p.placeEntry (newEntry c t) := by
  cases c <;> simp_all [Part.enterList, merges]

theorem Part.enterList_time_merges (h : p.listTakes .time = true) (hm : merges p.sbc.list .time = true) (t : SiteTime) :
    p.enterList .time t = p.countDrop := by
  simp only [Part.enterList, TxContent.kind, h, Bool.not_true, Bool.false_eq_true, if_false]
  exact if_pos hm

theorem Part.enterList_request_merges {c : TxContent} (hc : c = .status ∨ c = .totals) (h : p.listTakes c.kind = true)
    (hm : merges p.sbc.list c = true) (t : SiteTime) :
    p.enterList c t = p.modSbc fun b => { b with list := changeFirst (fun e => decide (e.content.kind = c.kind)) mergeRequest b.list } := by
  rcases hc with rfl | rfl
  · simp only [Part.enterList, h, Bool.not_true, Bool.false_eq_true, if_false]
    exact if_pos hm
  · simp only [Part.enterList, h, Bool.not_true, Bool.false_eq_true, if_false]
    exact if_pos hm

theorem Part.enterList_temp_merges {probe : Probe} {c : TempContent} (h : p.listTakes .temp = true)
    (hm : merges p.sbc.list (.temp probe c) = true) (t : SiteTime) :
    p.enterList (.temp probe c) t =
      p.modSbc fun b => { b with list := changeFirst (isTempOf probe) (mergeTemp (.temp probe c) c) b.list } := by
  simp only [Part.enterList, TxContent.kind, h, Bool.not_true, Bool.false_eq_true, if_false]
  exact if_pos hm

theorem isTempOf_kind {probe : Probe} {e : TxEntry} (h : isTempOf probe e = true) : e.content.kind = .temp := by
  cases hc : e.content <;> simp_all [isTempOf, TxContent.kind]

/-- An entry of another kind stays while a frame is handed over, but for one that gives way in a full list. -/
theorem Part.mem_enterList_of_mem {x : TxEntry} {c : TxContent} (hx : x ∈ p.sbc.list) (hk : x.content.kind ≠ c.kind)
    (h : p.sbc.list.length < 8 ∨ x.inTransmission = true ∨ x.code ≤ c.kind.code) (t : SiteTime) :
    x ∈ (p.enterList c t).sbc.list := by
  rcases ht : p.listTakes c.kind with _ | _
  · rwa [Part.enterList_not_taken ht]
  rcases hm : merges p.sbc.list c with _ | _
  · rw [Part.enterList_place ht hm]
    exact Part.mem_placeEntry_of_mem hx h
  · have hchange (f : TxEntry → Bool) (g : TxEntry → TxEntry) (hf : f x = false) :
        x ∈ (p.modSbc fun b => { b with list := changeFirst f g b.list }).sbc.list := mem_changeFirst_of_not hx hf g
    cases c with
    | wheel w => simp [merges] at hm
    | vehicle seq => simp [merges] at hm
    | time => simpa [Part.enterList_time_merges ht hm, Part.countDrop] using hx
    | status =>
      rw [Part.enterList_request_merges (.inl rfl) ht hm]
      exact hchange _ _ (decide_eq_false hk)
    | totals =>
      rw [Part.enterList_request_merges (.inr rfl) ht hm]
      exact hchange _ _ (decide_eq_false hk)
    | temp probe c =>
      rw [Part.enterList_temp_merges ht hm]
      exact hchange _ _ (Bool.eq_false_iff.mpr fun hf => hk (isTempOf_kind hf))

end Enter

/-- Settles O39: by the station state, by whether a frame of its kind stands in the list, and by the room and the urgency there. -/
theorem transmitListTakesByKind : Obligations.TransmitListTakesByKind := by
  intro p content t e q handedBack' here one same again anew
  have hback (x : TxEntry) : handedBack' x = handedBack x p.vcl.records := by
    cases hc : x.content <;> simp [handedBack', handedBack, hc]
  have hone : one = merges p.sbc.list content := by cases content <;> rfl
  refine ⟨fun hs => ?_, fun hs hc => ?_, fun hs => ?_⟩
  · refine Part.enterList_not_taken (Bool.eq_false_iff.mpr fun h => ?_) t
    rw [Part.listTakes_iff, Part.onDuty_iff] at h
    rcases hs with hs | hs | hs <;> simp [hs] at h
  · refine Part.enterList_not_taken (Bool.eq_false_iff.mpr fun h => ?_) t
    rw [Part.listTakes_iff, Part.onDuty_iff, TxContent.kind_eq_status] at h
    simp [hs, hc] at h
  have ht : p.listTakes content.kind = true := Part.listTakes_iff.mpr (by rwa [TxContent.kind_eq_status])
  have hq (hm : one = false) : q = p.placeEntry e := Part.enterList_place ht (hone ▸ hm) t
  have hframe : p.changedOnly [.sbc, .vcl] q := p.changedOnly_enterList content t
  refine ⟨fun hc hm => ?_, fun hc hm => ?_, fun probe c hc hm => ?_, fun hm hl => ?_, fun hm hl hx => ?_, fun hm hl hx => ?_⟩
  · subst hc
    exact Part.enterList_time_merges ht (hone ▸ hm) t
  · exact Part.enterList_request_merges hc ht (hone ▸ hm) t
  · subst hc
    exact Part.enterList_temp_merges ht (hone ▸ hm) t
  · rw [hq hm, Part.placeEntry_room hl]
    rfl
  · obtain ⟨before, after, out, hlist, hwait, hcode, hafter, hplace⟩ :=
      Part.placeEntry_displaces hl.ge (lt_leastUrgent_iff.mpr hx)
    refine ⟨before, after, out, hlist, hwait, fun x hx hw => hcode ▸ code_le_leastUrgent hx hw, hafter, ?_, ?_, ?_, hframe⟩
    · rw [hq hm, hplace]
      rfl
    · rw [hq hm, hplace, Part.leftUnsent_eq]
      rfl
    · rw [hq hm, hplace, Part.leftUnsent_eq, hback]
      rfl
  · have hplace := Part.placeEntry_refused hl.ge (leastUrgent_le_iff.mpr hx)
    rw [Part.leftUnsent_eq] at hplace
    have hkind : e.content.kind = content.kind := rfl
    rcases Decidable.em (content.kind = .wheel) with hk | hk
    · rw [if_pos (hkind.trans hk)] at hplace
      rw [hq hm, hplace, hback, if_pos hk]
      exact ⟨rfl, hplace ▸ hq hm ▸ hframe, rfl, rfl⟩
    · rw [if_neg fun h => hk (hkind.symm.trans h)] at hplace
      rw [hq hm, hplace, hback, if_neg hk]
      exact ⟨rfl, hplace ▸ hq hm ▸ hframe, rfl, rfl⟩

/-! ## The VEHICLE offer (R153) -/

/-- The invitation for a VEHICLE frame, by the list that it speaks of. -/
def Part.Invites (p : Part) : Prop :=
  p.onDuty = true ∧ (¬∃ x ∈ p.sbc.list, x.content.kind = .vehicle) ∧
    (p.sbc.list.length < 8 ∨ ∃ x ∈ p.sbc.list, x.inTransmission = false ∧ 4 < x.code)

section Offer

variable {p : Part}

theorem Part.invitation_iff : p.invitation = true ↔ p.Invites := by
  simp only [Part.Invites, show (4 : Nat) = FrameKind.vehicle.code from rfl]
  simp [Part.invitation, Part.listTakes_iff, and_assoc]

theorem Part.offerVehicle_uninvited (h : ¬p.Invites) : p.offerVehicle = p := by
  rw [← Part.invitation_iff, Bool.not_eq_true] at h
  simp [Part.offerVehicle, h]

theorem Part.offerVehicle_none_ready (h : ∀ r ∈ p.vcl.records, r.state ≠ .ready) : p.offerVehicle = p := by
  have hf : p.vcl.records.find? (fun r => decide (r.state = .ready)) = none :=
    List.find?_eq_none.mpr fun r hr => by simpa using h r hr
  simp [Part.offerVehicle, hf]

/-- The part whose record `r`, that stands between `before` and `after`, has become SENDING. -/
def Part.offered (p : Part) (before : List VehicleRecord) (r : VehicleRecord) (after : List VehicleRecord) : Part :=
  { p with vcl := { p.vcl with records := before ++ { r with state := .sending } :: after } }

variable {before after : List VehicleRecord} {r : VehicleRecord}

theorem Part.offerVehicle_ready (hi : p.Invites) (hl : p.vcl.records = before ++ r :: after) (hr : r.state = .ready)
    (hb : ∀ x ∈ before, x.state ≠ .ready) : p.offerVehicle = (p.offered before r after).enterList (.vehicle r.seq) p.now := by
  have hb : ∀ x ∈ before, decide (x.state = .ready) = false := fun x hx => decide_eq_false (hb x hx)
  have hx : decide (r.state = .ready) = true := decide_eq_true hr
  simp only [Part.offerVehicle, Part.invitation_iff.mpr hi, hl, find?_append_cons hb hx, Bool.not_true, Bool.false_eq_true, if_false]
  simp only [Part.modVcl, hl, changeFirst_append hb hx, Part.offered]

theorem Part.Invites.urgent (hi : p.Invites) : p.sbc.list.length < 8 ∨ 4 < leastUrgent p.sbc.list :=
  hi.2.2.imp_right lt_leastUrgent_iff.mpr

theorem Part.enterList_vehicle (h : p.onDuty = true) (seq : Count16) (t : SiteTime) :
    p.enterList (.vehicle seq) t = p.placeEntry (newEntry (.vehicle seq) t) :=
  Part.enterList_place (Part.listTakes_iff.mpr (.inl h)) rfl t

/-- A VEHICLE frame that enters while the invitation stands hands no record back: what it displaces is no VEHICLE frame. -/
theorem Part.placeEntry_vehicle_records (h : p.sbc.list.length < 8 ∨ 4 < leastUrgent p.sbc.list) (seq : Count16) (t : SiteTime) :
    (p.placeEntry (newEntry (.vehicle seq) t)).vcl.records = p.vcl.records := by
  rcases Nat.lt_or_ge p.sbc.list.length 8 with hl | hl
  · rw [Part.placeEntry_room hl]
    rfl
  · have hc : (newEntry (.vehicle seq) t).code < leastUrgent p.sbc.list := h.resolve_left (Nat.not_lt.mpr hl)
    obtain ⟨b, a, out, -, -, hcode, -, hq⟩ := Part.placeEntry_displaces hl hc
    have hout : out.content.kind ≠ .vehicle := fun hk => by
      have : out.code = 4 := by rw [TxEntry.code, hk]; rfl
      have : 4 < leastUrgent p.sbc.list := hc
      omega
    rw [hq, Part.leftUnsent_of_not_vehicle hout]
    rfl

theorem Part.exists_first_ready {l : List VehicleRecord} (h : ¬∀ r ∈ l, r.state ≠ .ready) :
    ∃ before r after, l = before ++ r :: after ∧ r.state = .ready ∧ ∀ x ∈ before, x.state ≠ .ready := by
  obtain ⟨r, hr⟩ : ∃ r, l.find? (fun r => decide (r.state = .ready)) = some r := by
    rw [← Option.isSome_iff_exists, List.find?_isSome]
    simpa using h
  obtain ⟨hs, before, after, hl, hb⟩ := List.find?_eq_some_iff_append.mp hr
  exact ⟨before, r, after, hl, of_decide_eq_true hs, fun x hx => by simpa using hb x hx⟩

/-- An offer leaves the entries that are as urgent as a VEHICLE frame, or more. -/
theorem Part.mem_offerVehicle_of_mem {x : TxEntry} (hx : x ∈ p.sbc.list)
    (h : p.sbc.list.length < 8 ∨ x.inTransmission = true ∨ x.code ≤ 4) : x ∈ p.offerVehicle.sbc.list := by
  by_cases hi : p.Invites
  · by_cases hr : ∀ r ∈ p.vcl.records, r.state ≠ .ready
    · rwa [Part.offerVehicle_none_ready hr]
    · obtain ⟨before, r, after, hl, hready, hb⟩ := Part.exists_first_ready hr
      rw [Part.offerVehicle_ready hi hl hready hb]
      exact Part.mem_enterList_of_mem (p := p.offered before r after) (c := .vehicle r.seq) hx (fun hk => hi.2.1 ⟨x, hx, hk⟩) h
        p.now
  · rwa [Part.offerVehicle_uninvited hi]

end Offer

/-- Settles O40: the invitation, what an offer does while it stands, and that none is left that a READY record could take. -/
theorem vehicleOffersFollowTheInvitation : Obligations.VehicleOffersFollowTheInvitation := by
  intro p vehicleHere invited q
  have hinvited : invited ↔ p.Invites := by simp only [Part.Invites, Part.onDuty_iff]; exact Iff.rfl
  have hready (hi : p.Invites) {before after : List VehicleRecord} {r : VehicleRecord} (hl : p.vcl.records = before ++ r :: after)
      (hr : r.state = .ready) (hb : ∀ x ∈ before, x.state ≠ .ready) :
      q = (p.offered before r after).placeEntry (newEntry (.vehicle r.seq) p.now) := by
    rw [show q = _ from Part.offerVehicle_ready hi hl hr hb]
    exact Part.enterList_vehicle (p := p.offered before r after) hi.1 _ _
  have hself (hi : p.Invites) (before after : List VehicleRecord) (r : VehicleRecord) :
      newEntry (.vehicle r.seq) p.now ∈ ((p.offered before r after).placeEntry (newEntry (.vehicle r.seq) p.now)).sbc.list :=
    Part.mem_placeEntry_self (p := p.offered before r after) hi.urgent
  refine ⟨Part.invitation_iff.trans hinvited.symm, fun hi => Part.offerVehicle_uninvited (hinvited.not.mp hi),
    Part.offerVehicle_none_ready, fun hi before after r hl hr hb => ?_, fun hstill => ?_, fun content => rfl⟩
  · have hi := hinvited.mp hi
    intro offered e
    refine ⟨Part.offerVehicle_ready hi hl hr hb, ?_, ?_, fun hroom => ?_⟩
    · exact hready hi hl hr hb ▸ hself hi before after r
    · rw [hready hi hl hr hb]
      exact Part.placeEntry_vehicle_records (p := p.offered before r after) hi.urgent _ _
    · rw [hready hi hl hr hb, Part.placeEntry_room (p := p.offered before r after) hroom]
      rfl
  · by_cases hnone : ∀ r ∈ p.vcl.records, r.state ≠ .ready
    · rwa [show q = p from Part.offerVehicle_none_ready hnone]
    · obtain ⟨before, r, after, hl, hr, hb⟩ := Part.exists_first_ready hnone
      by_cases hi : p.Invites
      · refine absurd ?_ (Part.invitation_iff.mp hstill).2.1
        exact ⟨newEntry (.vehicle r.seq) p.now, hready hi hl hr hb ▸ hself hi before after r, rfl⟩
      · rw [show q = p from Part.offerVehicle_uninvited hi] at hstill
        exact absurd (Part.invitation_iff.mp hstill) hi

end Sys2Proof.Machine
end

section
/-! PROOFS. A completed wheel (R26 to R32, R94, R97): its record, and what the store, the transmit list and the intake take of it. -/

namespace Sys2Proof.Machine

/-! ## The record of a wheel (R26 to R28, R34, R37) -/

/-- What finishing a wheel leaves: all but the load and three flags. -/
theorem finishWheel_frame (table : List FactorPoint) (v : Nat) (w : Wheel) : ∃ load single loadSat low,
    finishWheel table v w = { w with
      load := load, flags := { w.flags with single := single, loadSat := loadSat, lowSpeed := low } } := by
  have hself : ∃ load single loadSat low,
      w = { w with load := load, flags := { w.flags with single := single, loadSat := loadSat, lowSpeed := low } } := ⟨_, _, _, _, rfl⟩
  unfold finishWheel
  split
  · exact hself
  · dsimp only
    split
    · exact ⟨_, _, _, _, rfl⟩
    · exact ⟨_, _, _, _, rfl⟩
    · exact ⟨_, _, _, _, rfl⟩
    · exact hself

/-- A wheel that is not finished: it has no load, and no flag that comes with one. -/
def Wheel.unfinished (w : Wheel) : Wheel :=
  { w with load := none, flags := { w.flags with single := false, loadSat := false, lowSpeed := false } }

theorem finishWheel_unfinished (table : List FactorPoint) (v : Nat) (w : Wheel) :
    (finishWheel table v w).unfinished = w.unfinished := by
  obtain ⟨load, single, loadSat, low, h⟩ := finishWheel_frame table v w
  rw [h]
  rfl

section Record

variable (p : Part) (side : Side) (lead trail : Option Hit)

/-- The record of a wheel before its speed finishes it. -/
def Part.bareRecord (speed : Option Nat) : Wheel := { p.wheelRecord side lead trail none with speed := speed }

theorem Part.wheelRecord_none : p.wheelRecord side lead trail none = p.bareRecord side lead trail none := rfl

theorem Part.wheelRecord_some (v : Nat) : p.wheelRecord side lead trail (some v) =
    finishWheel p.image.factors.speed v (p.bareRecord side lead trail (some v)) := rfl

theorem Part.bareRecord_unfinished (speed : Option Nat) :
    (p.bareRecord side lead trail speed).unfinished = p.bareRecord side lead trail speed := rfl

theorem Part.wheelRecord_unfinished (speed : Option Nat) :
    (p.wheelRecord side lead trail speed).unfinished = p.bareRecord side lead trail speed := by
  cases speed with
  | none => rfl
  | some v => rw [Part.wheelRecord_some, finishWheel_unfinished, Part.bareRecord_unfinished]

/-- All of a wheel's record but its load and three flags is there before its speed finishes it. -/
theorem Part.wheelRecord_frame (speed : Option Nat) : ∃ load single loadSat low, p.wheelRecord side lead trail speed =
    let w := p.bareRecord side lead trail speed
    { w with load := load, flags := { w.flags with single := single, loadSat := loadSat, lowSpeed := low } } := by
  cases speed with
  | none => exact ⟨_, _, _, _, rfl⟩
  | some v => exact finishWheel_frame _ _ _

theorem Part.bareRecord_timeStep (speed : Option Nat) : (p.bareRecord side lead trail speed).flags.timeStep = true ↔
    ∃ x y, lead = some x ∧ trail = some y ∧ p.stepBetween x.startTime y.startTime = true := by
  cases lead with
  | none => simp [Part.bareRecord, Part.wheelRecord]
  | some x =>
    cases trail with
    | none => simp [Part.bareRecord, Part.wheelRecord]
    | some y => simp [Part.bareRecord, Part.wheelRecord]

end Record

theorem Part.stepBetween_iff {p : Part} {lead trail : SiteTime} : p.stepBetween lead trail = true ↔
    ∃ e ∈ p.stu.log, siteDiff p.now e.last ≤ 8000000 ∧ siteDiff e.first trail ≤ 0 ∧ 0 < siteDiff e.last lead := by
  have hold (e : StepSpan) : stepOld p.now e = false ↔ siteDiff p.now e.last ≤ 8000000 :=
    decide_eq_false_iff_not.trans Int.not_lt
  simp [Part.stepBetween, hold, and_assoc]

theorem tookSat_iff {q : Option (Nat × Bool)} : tookSat q = true ↔ ∃ n, q = some (n, true) := by
  rcases q with _ | ⟨n, b⟩ <;> simp [tookSat]

/-! ## The store and the intake (R31, R94, R97) -/

/-- The store with the record of a wheel closed, if one is named. -/
def closeNamed (number : Option Count16) (l : List StoreRecord) : List StoreRecord :=
  l.map fun r => if some r.wheel.number = number then { r with isOpen := false } else r

theorem closeNamed_none (l : List StoreRecord) : closeNamed none l = l := by simp [closeNamed]

theorem closeNamed_some (n : Count16) (l : List StoreRecord) : closeNamed (some n) l = closeStored n l := by
  simp [closeNamed, closeStored]

/-- The intake with the decision of a wheel forced, if one is named. -/
def forceIntake (number : Option Count16) (l : List IntakeWheel) : List IntakeWheel :=
  l.map fun e => if some e.wheel.number = number then { e with forced := true } else e

/-- The pending wheels with the decision of one forced, if one is named. -/
def forceWaiting (number : Option Count16) (l : List PendingWheel) : List PendingWheel :=
  l.map fun e => if some e.wheel.number = number then { e with forced := true } else e

theorem forceIntake_none (l : List IntakeWheel) : forceIntake none l = l := by simp [forceIntake]

theorem forceWaiting_none (l : List PendingWheel) : forceWaiting none l = l := by simp [forceWaiting]

theorem forceIntake_numbers (n : Option Count16) (l : List IntakeWheel) :
    (forceIntake n l).map (fun e => e.wheel.number) = l.map fun e => e.wheel.number := by
  rw [forceIntake, List.map_map]
  refine List.map_congr_left fun e _ => ?_
  simp only [Function.comp_apply]
  split <;> rfl

/-- The wheel whose decision a wheel that enters the store forces. -/
def Part.askedBy (p : Part) : Option Count16 :=
  if p.pse.store.length < 32 then none else (p.pse.store.head?.filter StoreRecord.isOpen).map fun r => r.wheel.number

/-- The wheel that the intake loses to one that enters it. -/
def Part.lostIntake (p : Part) : Option Count16 :=
  if p.vau.intake.length < 32 then none else p.vau.intake.head?.map fun e => e.wheel.number

theorem Port.standing_of_holder {q : Port} {r : Requester} (h : q.holder = some r) : q.standing r = true := by
  cases r <;> simp [Port.standing, h]

theorem Port.waitFor_standing (q : Port) (r : Requester) : (q.waitFor r).standing r = true := by
  cases r <;> simp [Port.standing, Port.waitFor]

theorem Port.request_standing (now : Nat) (r : Requester) (q : Port) : (q.request now r).standing r = true := by
  unfold Port.request
  split
  · exact Port.standing_of_holder rfl
  · split
    · exact Port.standing_of_holder rfl
    · exact q.waitFor_standing r

theorem Part.requestPort_standing (r : Requester) (p : Part) : (p.requestPort r).vau.port.standing r = true := by
  unfold Part.requestPort
  split
  · assumption
  · exact Port.request_standing _ _ _

theorem Part.requestPort_eq (r : Requester) (p : Part) :
    ∃ port, port.standing r = true ∧ p.requestPort r = { p with vau := { p.vau with port := port } } := by
  refine ⟨(p.requestPort r).vau.port, p.requestPort_standing r, ?_⟩
  unfold Part.requestPort
  split <;> rfl

theorem Part.forceDecision_eq (p : Part) (n : Count16) : ∃ port, p.forceDecision n = { p with
    pse := { p.pse with store := closeNamed (some n) p.pse.store }
    vau := { p.vau with
      waiting := forceWaiting (some n) p.vau.waiting
      intake := forceIntake (some n) p.vau.intake
      forcedDecisions := satInc p.vau.forcedDecisions
      port := port } } := by
  obtain ⟨port, -, heq⟩ := Part.requestPort_eq .axleFormer ((p.closeRecord n).modVau fun v =>
    { v with waiting := v.waiting.map fun w => if w.wheel.number = n then { w with forced := true } else w
             intake := v.intake.map fun w => if w.wheel.number = n then { w with forced := true } else w
             forcedDecisions := satInc v.forcedDecisions })
  refine ⟨port, ?_⟩
  simp only [closeNamed_some, forceWaiting, forceIntake, Option.some.injEq]
  exact heq

/-- What a wheel that enters the store changes of the store, the pending wheels and the intake. -/
theorem Part.enterStore_eq (p : Part) (w : Wheel) : ∃ port, p.enterStore w = { p with
    pse := { p.pse with store := (if p.pse.store.length < 32 then p.pse.store else (closeNamed p.askedBy p.pse.store).drop 1) ++
      [{ wheel := w, isOpen := true }] }
    vau := { p.vau with
      waiting := forceWaiting p.askedBy p.vau.waiting
      intake := forceIntake p.askedBy p.vau.intake
      forcedDecisions := if p.askedBy.isSome then satInc p.vau.forcedDecisions else p.vau.forcedDecisions
      port := port } } := by
  rcases Nat.lt_or_ge p.pse.store.length 32 with hl | hl
  · have hasked : p.askedBy = none := if_pos hl
    refine ⟨p.vau.port, ?_⟩
    simp [Part.enterStore, hl, hasked, forceWaiting_none, forceIntake_none, Part.modPse]
  · have hl' : ¬p.pse.store.length < 32 := Nat.not_lt.mpr hl
    obtain ⟨oldest, rest, hs⟩ : ∃ oldest rest, p.pse.store = oldest :: rest :=
      List.exists_cons_of_length_pos (by omega)
    have hasked : p.askedBy = if oldest.isOpen then some oldest.wheel.number else none := by
      rw [Part.askedBy, if_neg hl', hs]
      cases ho : oldest.isOpen <;> simp [ho, Option.filter]
    have hl'' : ¬(oldest :: rest).length < 32 := hs ▸ hl'
    rcases ho : oldest.isOpen with _ | _
    · refine ⟨p.vau.port, ?_⟩
      simp only [Part.enterStore, hs, if_neg hl'', hasked, ho, Bool.false_eq_true, if_false, closeNamed_none, forceWaiting_none,
        forceIntake_none]
      rw [← hs]
      rfl
    · obtain ⟨port, hforce⟩ := p.forceDecision_eq oldest.wheel.number
      refine ⟨port, ?_⟩
      simp only [Part.enterStore, hs, if_neg hl'', hasked, ho, if_true, hforce]
      rw [← hs]
      rfl

/-- What a wheel that enters the intake changes of it and of the store. -/
theorem Part.enterIntake_eq (p : Part) (w : Wheel) (t : SiteTime) : ∃ port, port.standing .axleFormer = true ∧
    p.enterIntake w t = { p with
      pse := { p.pse with store := closeNamed p.lostIntake p.pse.store }
      vau := { p.vau with
        intake := (if p.vau.intake.length < 32 then p.vau.intake else p.vau.intake.drop 1) ++
          [{ wheel := w, completion := t, forced := false }]
        droppedWheels := if p.lostIntake.isSome then satInc p.vau.droppedWheels else p.vau.droppedWheels
        port := port } } := by
  rcases Nat.lt_or_ge p.vau.intake.length 32 with hl | hl
  · have hlost : p.lostIntake = none := if_pos hl
    obtain ⟨port, hport, heq⟩ := Part.requestPort_eq .axleFormer (p.modVau fun v =>
      { v with intake := v.intake ++ [{ wheel := w, completion := t, forced := false }] })
    refine ⟨port, hport, ?_⟩
    simp only [Part.enterIntake, if_pos hl, hlost, closeNamed_none, heq]
    rfl
  · have hl' : ¬p.vau.intake.length < 32 := Nat.not_lt.mpr hl
    obtain ⟨oldest, rest, hs⟩ : ∃ oldest rest, p.vau.intake = oldest :: rest :=
      List.exists_cons_of_length_pos (by omega)
    have hlost : p.lostIntake = some oldest.wheel.number := by
      rw [Part.lostIntake, if_neg hl', hs]
      rfl
    obtain ⟨port, hport, heq⟩ := Part.requestPort_eq .axleFormer (((p.closeRecord oldest.wheel.number).modVau fun v =>
      { v with intake := rest, droppedWheels := satInc v.droppedWheels }).modVau fun v =>
      { v with intake := v.intake ++ [{ wheel := w, completion := t, forced := false }] })
    refine ⟨port, hport, ?_⟩
    have hl'' : ¬(oldest :: rest).length < 32 := hs ▸ hl'
    simp only [Part.enterIntake, hs, if_neg hl'', hlost, closeNamed_some, heq]
    rfl

end Sys2Proof.Machine
end

section
/-! PROOFS. Coincidence checks (R16, R32, R33): the notices, a check that is performed, and the work on those that are due. -/

namespace Sys2Proof.Machine

/-! ## The notices (R16) -/

section Notices

variable (p : Part) (ch : Channel)

theorem Part.missedNotice_below (h : (p.lcu.channels.get ch).missCounter + 1 < p.image.strips.deadCount) :
    p.missedNotice ch = p.modChannel ch fun c => { c with missCounter := (p.lcu.channels.get ch).missCounter + 1 } := by
  have h1 : (p.lcu.channels.get ch).missCounter < p.image.strips.deadCount := by omega
  simp only [Part.missedNotice, if_pos h1, if_neg h.ne]

theorem Part.missedNotice_reaches (h : (p.lcu.channels.get ch).missCounter + 1 = p.image.strips.deadCount) :
    p.missedNotice ch =
      (p.modChannel ch fun c => { c with missCounter := (p.lcu.channels.get ch).missCounter + 1 }).faultMark ch .dead := by
  have h1 : (p.lcu.channels.get ch).missCounter < p.image.strips.deadCount := by omega
  simp only [Part.missedNotice, if_pos h1, if_pos h]

theorem Part.missedNotice_dead (h : p.image.strips.deadCount ≤ (p.lcu.channels.get ch).missCounter) : p.missedNotice ch = p :=
  if_neg (Nat.not_lt.mpr h)

theorem PerChannel.set_set {α : Type} (q : PerChannel α) (c : Channel) (a b : α) : (q.set c a).set c b = q.set c b := by
  cases c <;> rfl

theorem Part.faultMark_lcu (cause : ChannelMark) : (p.faultMark ch cause).lcu = { p.lcu with
    channels := p.lcu.channels.set ch { p.lcu.channels.get ch with mark := some ((p.lcu.channels.get ch).mark.getD cause) } } := by
  cases hm : (p.lcu.channels.get ch).mark with
  | none => simp [Part.faultMark_unmarked hm]
  | some m =>
    rw [Part.faultMark_marked (by simp [hm])]
    have hset : p.lcu.channels.set ch { p.lcu.channels.get ch with mark := some m } = p.lcu.channels := by
      rw [← hm]
      cases ch <;> rfl
    simp [hset]

theorem Part.faultMark_marks (cause : ChannelMark) : (p.faultMark ch cause).csu.marks =
    if (p.lcu.channels.get ch).mark = none then { p.csu.marks with channels := true } else p.csu.marks := by
  cases hm : (p.lcu.channels.get ch).mark with
  | none => simp [Part.faultMark_unmarked hm, addMark]
  | some m => simp [Part.faultMark_marked (p := p) (ch := ch) (by simp [hm])]

/-- The LCU after a missed notice goes by the LCU and the dead count alone. -/
theorem Part.missedNotice_lcu {p q : Part} (hl : p.lcu = q.lcu) (hi : p.image = q.image) (ch : Channel) :
    (p.missedNotice ch).lcu = (q.missedNotice ch).lcu := by
  rcases Nat.lt_trichotomy ((p.lcu.channels.get ch).missCounter + 1) p.image.strips.deadCount with h | h | h
  · rw [Part.missedNotice_below p ch h, Part.missedNotice_below q ch (by rwa [← hl, ← hi])]
    simp [hl]
  · rw [Part.missedNotice_reaches p ch h, Part.missedNotice_reaches q ch (by rwa [← hl, ← hi])]
    simp [Part.faultMark_lcu, hl]
  · rw [Part.missedNotice_dead p ch (by omega), Part.missedNotice_dead q ch (by rw [← hl, ← hi]; omega), hl]

theorem Part.seenNotice_lcu {p q : Part} (hl : p.lcu = q.lcu) (ch : Channel) : (p.seenNotice ch).lcu = (q.seenNotice ch).lcu := by
  simp [Part.seenNotice, hl]

theorem Part.missedNotice_image : (p.missedNotice ch).image = p.image :=
  congrArg (fun i => i.getD absentImage) (Part.SampleFrame.missedNotice ch p).image

theorem Part.seenNotice_image : (p.seenNotice ch).image = p.image := rfl

end Notices

/-! ## A check that is performed (R33) -/

theorem seenIn_iff {history : List SiteTime} {t : SiteTime} {w : Nat} :
    seenIn history t w = true ↔ ∃ x ∈ history, (siteDiff x t).natAbs ≤ w := by
  simp [seenIn]

/-- A check finds a start time in the history of the other side's leading channel. -/
def Part.leadSeen (p : Part) (c : Check) : Prop :=
  ∃ t ∈ p.pse.history.get (leadingChannel (otherSide c.side)), (siteDiff t c.leadStart).natAbs ≤ c.window

/-- A check finds a start time in the history of the other side's trailing channel. -/
def Part.trailSeen (p : Part) (c : Check) : Prop :=
  ∃ t ∈ p.pse.history.get (trailingChannel (otherSide c.side)), (siteDiff t c.trailStart).natAbs ≤ c.window

section Check

variable {p : Part} {c : Check}

theorem Part.performCheck_both (hl : p.leadSeen c) (ht : p.trailSeen c) : p.performCheck c =
    (p.seenNotice (leadingChannel (otherSide c.side))).seenNotice (trailingChannel (otherSide c.side)) := by
  simp only [Part.performCheck, seenIn_iff.mpr hl, seenIn_iff.mpr ht]

theorem Part.performCheck_lead (hl : p.leadSeen c) (ht : ¬p.trailSeen c) : p.performCheck c =
    (p.seenNotice (leadingChannel (otherSide c.side))).missedNotice (trailingChannel (otherSide c.side)) := by
  simp only [Part.performCheck, seenIn_iff.mpr hl, Bool.eq_false_iff.mpr (seenIn_iff.not.mpr ht)]

theorem Part.performCheck_trail (hl : ¬p.leadSeen c) (ht : p.trailSeen c) : p.performCheck c =
    (p.missedNotice (leadingChannel (otherSide c.side))).seenNotice (trailingChannel (otherSide c.side)) := by
  simp only [Part.performCheck, seenIn_iff.mpr ht, Bool.eq_false_iff.mpr (seenIn_iff.not.mpr hl)]

theorem Part.performCheck_neither (hl : ¬p.leadSeen c) (ht : ¬p.trailSeen c) : p.performCheck c = p := by
  simp only [Part.performCheck, Bool.eq_false_iff.mpr (seenIn_iff.not.mpr ht), Bool.eq_false_iff.mpr (seenIn_iff.not.mpr hl)]

/-- The LCU after a check goes by the LCU, the start histories and the dead count alone. -/
theorem Part.performCheck_lcu {q : Part} (hl : p.lcu = q.lcu) (hi : p.image = q.image) (hh : p.pse.history = q.pse.history)
    (c : Check) : (p.performCheck c).lcu = (q.performCheck c).lcu := by
  have hlead : p.leadSeen c ↔ q.leadSeen c := by rw [Part.leadSeen, Part.leadSeen, hh]
  have htrail : p.trailSeen c ↔ q.trailSeen c := by rw [Part.trailSeen, Part.trailSeen, hh]
  by_cases h1 : p.leadSeen c <;> by_cases h2 : p.trailSeen c
  · rw [Part.performCheck_both h1 h2, Part.performCheck_both (hlead.mp h1) (htrail.mp h2)]
    exact Part.seenNotice_lcu (Part.seenNotice_lcu hl _) _
  · rw [Part.performCheck_lead h1 h2, Part.performCheck_lead (hlead.mp h1) (htrail.not.mp h2)]
    exact Part.missedNotice_lcu (Part.seenNotice_lcu hl _) hi _
  · rw [Part.performCheck_trail h1 h2, Part.performCheck_trail (hlead.not.mp h1) (htrail.mp h2)]
    exact Part.seenNotice_lcu (Part.missedNotice_lcu hl hi _) _
  · rw [Part.performCheck_neither h1 h2, Part.performCheck_neither (hlead.not.mp h1) (htrail.not.mp h2), hl]

end Check

/-! ## The checks that are due (R32) -/

theorem Part.dueChecks_nil {p : Part} (h : p.pse.checks = []) (now : SiteTime) : p.dueChecks now = p :=
  Part.dueChecks_none fun c hc => by simp [h] at hc

section Due

variable {p : Part} {c : Check} {rest : List Check} {now : SiteTime}

theorem Part.dueChecks_young (h : p.pse.checks = c :: rest) (hc : siteDiff now c.checkTime < 0) : p.dueChecks now = p := by
  simp only [Part.dueChecks, h, List.length_cons, Part.performDue, if_neg (Int.not_le.mpr hc)]

theorem Part.dueChecks_due (h : p.pse.checks = c :: rest) (hc : 0 ≤ siteDiff now c.checkTime) :
    p.dueChecks now = ((p.modPse fun u => { u with checks := rest }).performCheck c).dueChecks now := by
  simp only [Part.dueChecks, h, List.length_cons, Part.performDue, if_pos hc, Part.performCheck_pse, Part.modPse_pse]

theorem checkDue_eq_false (h : ∀ c rest, p.pse.checks = c :: rest → siteDiff now c.checkTime < 0) : checkDue now p = false := by
  unfold checkDue
  split
  · rfl
  · exact decide_eq_false (Int.not_le.mpr (h _ _ ‹_›))

theorem checkDue_eq_true (h : p.pse.checks = c :: rest) (hc : 0 ≤ siteDiff now c.checkTime) : checkDue now p = true := by
  simp only [checkDue, h, decide_eq_true hc]

end Due

/-- Settles O30: the row as the instant's work of its own, the checks one by one, a check by what it finds, and the notices. -/
theorem dueChecksSendTheirNotices : Obligations.DueChecksSendTheirNotices := by
  refine ⟨fun s hs => ⟨fun h => ?_, fun h => ?_, fun hr hi c rest hc hd => ?_⟩, fun p now => ⟨?_, fun c rest hc => ⟨?_, ?_⟩⟩,
    fun p c => ⟨Part.performCheck_both, Part.performCheck_lead, Part.performCheck_trail, Part.performCheck_neither⟩,
    fun p ch => ⟨rfl, Part.missedNotice_below p ch, fun h => ?_, Part.missedNotice_dead p ch⟩⟩
  · refine act_idle (Part.workAt_idle _ (h.imp (fun hr => ?_) .inl))
    exact Bool.eq_false_iff.mpr (Part.inRun_iff.not.mpr hr)
  · exact act_idle (Part.workAt_idle _ (.inr (.inr (checkDue_eq_false h))))
  · have hwork := Part.workAt_due Part.dueChecks (Part.inRun_iff.mpr hr) hi (checkDue_eq_true hc hd)
    refine (act_running _ hs).trans ?_
    rw [hwork, Part.readTime_eq]
  · exact fun h => Part.dueChecks_nil h now
  · exact Part.dueChecks_young hc
  · exact Part.dueChecks_due hc
  · rw [Part.missedNotice_reaches p ch h]
    refine ⟨?_, ?_, ?_⟩
    · simp [Part.faultMark_lcu, PerChannel.set_set]
    · simp [Part.faultMark_marks]
    · exact ((p.changedOnly_modLcu _).mono (by simp)).trans ((Part.changedOnly_faultMark ch .dead _).mono (by simp))

end Sys2Proof.Machine
end

section
/-! PROOFS. A wheel that completes is handed on (R29 to R32, R55, R94): to the store, the transmit list and the intake, with its check. -/

namespace Sys2Proof.Machine

/-! ## The three that a wheel is handed to (R29, R30) -/

/-- A wheel is handed to the store, the transmit list and the intake, in that order. -/
def Part.handWheel (w : Wheel) (now : SiteTime) (p : Part) : Part :=
  (((p.enterStore w).enterList (.wheel w) now).offerVehicle).enterIntake w now

/-- The effective temperature is kept and the wheel counted, before the wheel is handed on. -/
def Part.countWheel (p : Part) : Part :=
  (p.keepEffective p.effective).modPse fun u => { u with wheelCounter := u.wheelCounter + 1 }

theorem Part.changedOnly_enterStore (w : Wheel) (p : Part) : p.changedOnly [.pse, .vau] (p.enterStore w) := by
  obtain ⟨port, h⟩ := p.enterStore_eq w
  rw [h]
  exact ⟨rfl, rfl, fun k hk => by cases k <;> simp_all [Part.sameAt]⟩

theorem Part.changedOnly_enterIntake (w : Wheel) (t : SiteTime) (p : Part) : p.changedOnly [.pse, .vau] (p.enterIntake w t) := by
  obtain ⟨port, -, h⟩ := p.enterIntake_eq w t
  rw [h]
  exact ⟨rfl, rfl, fun k hk => by cases k <;> simp_all [Part.sameAt]⟩

theorem Part.changedOnly_keepEffective (a : Int × TempSource) (p : Part) : p.changedOnly [.ptu] (p.keepEffective a) :=
  ⟨by simp, by simp, fun k hk => by cases k <;> simp_all [Part.sameAt]⟩

theorem Part.changedOnly_handWheel (w : Wheel) (now : SiteTime) (p : Part) :
    p.changedOnly [.pse, .sbc, .vau, .vcl] (p.handWheel w now) :=
  ((((p.changedOnly_enterStore w).mono (by simp)).trans ((Part.changedOnly_enterList _ now _).mono (by simp))).trans
    ((Part.changedOnly_offerVehicle _).mono (by simp))).trans ((Part.changedOnly_enterIntake w now _).mono (by simp))

theorem Part.changedOnly_countWheel (p : Part) : p.changedOnly [.pse, .ptu] p.countWheel :=
  ((p.changedOnly_keepEffective _).mono (by simp)).trans ((Part.changedOnly_modPse _ _).mono (by simp))

/-- Two parts that agree on a block beyond those that changed. -/
theorem Part.changedOnly.lcu {l : List Block} {p q : Part} (h : p.changedOnly l q) (hl : Block.lcu ∉ l) : q.lcu = p.lcu :=
  h.2.2 .lcu hl

/-- Forcing a decision keeps the wheels of the intake, and so the one that it would lose. -/
theorem Part.lostIntake_of_forced {p q : Part} {n : Option Count16} (h : q.vau.intake = forceIntake n p.vau.intake) :
    q.lostIntake = p.lostIntake := by
  have hnum := forceIntake_numbers n p.vau.intake
  have hlen : q.vau.intake.length = p.vau.intake.length := by simp [h, forceIntake]
  have hhead : q.vau.intake.head?.map (fun e => e.wheel.number) = p.vau.intake.head?.map fun e => e.wheel.number := by
    rw [h, ← List.head?_map, ← List.head?_map, hnum]
  rw [Part.lostIntake, Part.lostIntake, hlen, hhead]

theorem Part.handWheel_pse (w : Wheel) (now : SiteTime) (p : Part) : (p.handWheel w now).pse = { p.pse with
    store := closeNamed p.lostIntake ((if p.pse.store.length < 32 then p.pse.store
      else (closeNamed p.askedBy p.pse.store).drop 1) ++ [{ wheel := w, isOpen := true }]) } := by
  obtain ⟨port, h⟩ := p.enterStore_eq w
  obtain ⟨port', -, h'⟩ := (((p.enterStore w).enterList (.wheel w) now).offerVehicle).enterIntake_eq w now
  have hlost : (((p.enterStore w).enterList (.wheel w) now).offerVehicle).lostIntake = p.lostIntake :=
    Part.lostIntake_of_forced (n := p.askedBy) (by simp [h])
  rw [Part.handWheel, h', hlost]
  simp [h]

theorem Part.handWheel_vau (w : Wheel) (now : SiteTime) (p : Part) : ∃ port, port.standing .axleFormer = true ∧
    (p.handWheel w now).vau = { p.vau with
      waiting := forceWaiting p.askedBy p.vau.waiting
      intake := (if p.vau.intake.length < 32 then forceIntake p.askedBy p.vau.intake
        else (forceIntake p.askedBy p.vau.intake).drop 1) ++ [{ wheel := w, completion := now, forced := false }]
      forcedDecisions := if p.askedBy.isSome then satInc p.vau.forcedDecisions else p.vau.forcedDecisions
      droppedWheels := if p.lostIntake.isSome then satInc p.vau.droppedWheels else p.vau.droppedWheels
      port := port } := by
  obtain ⟨port, h⟩ := p.enterStore_eq w
  obtain ⟨port', hport, h'⟩ := (((p.enterStore w).enterList (.wheel w) now).offerVehicle).enterIntake_eq w now
  have hlost : (((p.enterStore w).enterList (.wheel w) now).offerVehicle).lostIntake = p.lostIntake :=
    Part.lostIntake_of_forced (n := p.askedBy) (by simp [h])
  refine ⟨port', hport, ?_⟩
  rw [Part.handWheel, h', hlost]
  simp [h, forceIntake]

/-- A WHEEL frame that finds room in the list is there when its wheel has been handed on. -/
theorem Part.mem_handWheel {w : Wheel} {now : SiteTime} {p : Part} (hd : p.onDuty = true) (hl : p.sbc.list.length < 8) :
    newEntry (.wheel w) now ∈ (p.handWheel w now).sbc.list := by
  have hs : (p.enterStore w).sbc = p.sbc := by simp
  have hd' : (p.enterStore w).onDuty = true := by simpa [Part.onDuty] using hd
  have hmem : newEntry (.wheel w) now ∈ ((p.enterStore w).enterList (.wheel w) now).sbc.list := by
    rw [Part.enterList_place (Part.listTakes_iff.mpr (.inl hd')) rfl]
    exact Part.mem_placeEntry_self (.inl (hs ▸ hl))
  simpa [Part.handWheel] using Part.mem_offerVehicle_of_mem hmem (.inr (.inr (show 1 ≤ 4 by decide)))

/-! ## The wheel and its check (R32) -/

section Complete

variable {p : Part} {side : Side} {lead trail : Option Hit} {speed : Option Nat} {now : SiteTime}

theorem Part.completeWheel_unpaired (h : lead = none ∨ trail = none ∨ speed = none) : p.completeWheel side lead trail speed now =
    p.countWheel.handWheel (p.wheelRecord side lead trail speed) now := by
  rcases h with rfl | rfl | rfl
  · rfl
  · cases lead <;> rfl
  · cases lead <;> cases trail <;> rfl

theorem Part.completeWheel_paired (x y : Hit) (v : Nat) : p.completeWheel side (some x) (some y) (some v) now =
    (p.countWheel.handWheel (p.wheelRecord side (some x) (some y) (some v)) now).placeCheck
      (p.checkOf side x.startTime y.startTime v) := rfl

theorem Part.placeCheck_room {c : Check} (h : p.pse.checks.length < 16) :
    p.placeCheck c = p.modPse fun u => { u with checks := insertBefore (checkAfter c.checkTime) c u.checks } := by
  simp only [Part.placeCheck, if_pos h]

theorem Part.placeCheck_full {c oldest : Check} {rest : List Check} (h : p.pse.checks = oldest :: rest)
    (hl : 16 ≤ p.pse.checks.length) : p.placeCheck c =
      ((p.modPse fun u => { u with checks := rest }).performCheck oldest).modPse fun u =>
        { u with checks := insertBefore (checkAfter c.checkTime) c u.checks } := by
  have hl : ¬(oldest :: rest).length < 16 := by rw [← h]; omega
  simp only [Part.placeCheck, h, if_neg hl]

/-- An entry as urgent as a VEHICLE frame, or more, stays while a mark is set. -/
theorem Part.mem_setMark_of_mem {e : TxEntry} (he : e ∈ p.sbc.list) (hc : e.code ≤ 4) (m : ChangeMark) :
    e ∈ (p.setMark m).sbc.list := by
  have hk : e.content.kind ≠ .status := fun hk => by
    rw [TxEntry.code, hk] at hc
    exact absurd hc (by decide)
  have hreq (q : Part) (hq : q.sbc = p.sbc) : e ∈ q.requestForMarks.sbc.list := by
    refine Part.mem_offerVehicle_of_mem ?_ (.inr (.inr hc))
    refine Part.mem_enterList_of_mem (c := .status) (by simpa [hq] using he) hk (.inr (.inr (hc.trans (by decide)))) _
  unfold Part.setMark Part.markNewlySet
  split
  · exact he
  · split
    · exact he
    · split
      · exact hreq _ rfl
      · split
        · exact hreq _ rfl
        · exact he

theorem Part.mem_faultMark_of_mem {e : TxEntry} (he : e ∈ p.sbc.list) (hc : e.code ≤ 4) (ch : Channel) (cause : ChannelMark) :
    e ∈ (p.faultMark ch cause).sbc.list := by
  unfold Part.faultMark
  split
  · exact he
  · exact Part.mem_setMark_of_mem (p := p.modChannel ch _) he hc _

theorem Part.mem_missedNotice_of_mem {e : TxEntry} (he : e ∈ p.sbc.list) (hc : e.code ≤ 4) (ch : Channel) :
    e ∈ (p.missedNotice ch).sbc.list := by
  rcases Nat.lt_trichotomy ((p.lcu.channels.get ch).missCounter + 1) p.image.strips.deadCount with h | h | h
  · rwa [Part.missedNotice_below p ch h]
  · rw [Part.missedNotice_reaches p ch h]
    exact Part.mem_faultMark_of_mem (p := p.modChannel ch _) he hc ch .dead
  · rwa [Part.missedNotice_dead p ch (by omega)]

theorem Part.mem_performCheck_of_mem {e : TxEntry} (he : e ∈ p.sbc.list) (hc : e.code ≤ 4) (c : Check) :
    e ∈ (p.performCheck c).sbc.list := by
  by_cases h1 : p.leadSeen c <;> by_cases h2 : p.trailSeen c
  · rwa [Part.performCheck_both h1 h2]
  · rw [Part.performCheck_lead h1 h2]
    exact Part.mem_missedNotice_of_mem (p := p.seenNotice _) he hc _
  · rw [Part.performCheck_trail h1 h2]
    exact Part.mem_missedNotice_of_mem he hc _
  · rwa [Part.performCheck_neither h1 h2]

theorem Part.mem_placeCheck_of_mem {e : TxEntry} (he : e ∈ p.sbc.list) (hc : e.code ≤ 4) (c : Check) :
    e ∈ (p.placeCheck c).sbc.list := by
  rcases Nat.lt_or_ge p.pse.checks.length 16 with hl | hl
  · rwa [Part.placeCheck_room hl]
  · obtain ⟨oldest, rest, hs⟩ : ∃ oldest rest, p.pse.checks = oldest :: rest := List.exists_cons_of_length_pos (by omega)
    rw [Part.placeCheck_full hs hl]
    exact Part.mem_performCheck_of_mem (p := p.modPse _) he hc oldest

theorem Part.placeCheck_pse (c : Check) : ∃ checks, (p.placeCheck c).pse = { p.pse with checks := checks } := by
  rcases Nat.lt_or_ge p.pse.checks.length 16 with hl | hl
  · exact ⟨_, by rw [Part.placeCheck_room hl]; rfl⟩
  · obtain ⟨oldest, rest, hs⟩ : ∃ oldest rest, p.pse.checks = oldest :: rest := List.exists_cons_of_length_pos (by omega)
    refine ⟨insertBefore (checkAfter c.checkTime) c rest, ?_⟩
    rw [Part.placeCheck_full hs hl]
    simp

/-- A check that is placed leaves what the wheel was handed to, but for less urgent frames of the list. -/
theorem Part.completeWheel_handed (side : Side) (lead trail : Option Hit) (speed : Option Nat) (now : SiteTime) (p : Part) :
    let h := p.countWheel.handWheel (p.wheelRecord side lead trail speed) now
    let q := p.completeWheel side lead trail speed now
    q.ptu = h.ptu ∧ q.vau = h.vau ∧ (∃ checks, q.pse = { h.pse with checks := checks }) ∧
      ∀ e ∈ h.sbc.list, e.code ≤ 4 → e ∈ q.sbc.list := by
  by_cases hu : lead = none ∨ trail = none ∨ speed = none
  · intro h q
    have hq : q = h := Part.completeWheel_unpaired hu
    rw [hq]
    clear_value h
    exact ⟨rfl, rfl, ⟨h.pse.checks, rfl⟩, fun e he _ => he⟩
  · simp only [not_or, ← ne_eq, Option.ne_none_iff_exists'] at hu
    obtain ⟨⟨x, rfl⟩, ⟨y, rfl⟩, ⟨v, rfl⟩⟩ := hu
    intro h q
    have hq : q = h.placeCheck (p.checkOf side x.startTime y.startTime v) := Part.completeWheel_paired x y v
    rw [hq]
    exact ⟨by simp, by simp, Part.placeCheck_pse _, fun e he hc => Part.mem_placeCheck_of_mem he hc _⟩

theorem Part.countWheel_pse (p : Part) : p.countWheel.pse = { p.pse with wheelCounter := p.pse.wheelCounter + 1 } := by
  simp [Part.countWheel]

theorem Part.countWheel_vau (p : Part) : p.countWheel.vau = p.vau := by simp [Part.countWheel]

theorem Part.countWheel_sbc (p : Part) : p.countWheel.sbc = p.sbc := by simp [Part.countWheel]

theorem Part.countWheel_csu (p : Part) : p.countWheel.csu = p.csu := by simp [Part.countWheel]

theorem Part.countWheel_lcu (p : Part) : p.countWheel.lcu = p.lcu := by simp [Part.countWheel]

theorem Part.countWheel_askedBy (p : Part) : p.countWheel.askedBy = p.askedBy := by
  rw [Part.askedBy, Part.countWheel_pse, Part.askedBy]

theorem Part.countWheel_lostIntake (p : Part) : p.countWheel.lostIntake = p.lostIntake := by
  rw [Part.lostIntake, Part.countWheel_vau, Part.lostIntake]

theorem Part.handWheel_ptu (w : Wheel) (now : SiteTime) (p : Part) : (p.handWheel w now).ptu = p.ptu := by simp [Part.handWheel]

theorem Part.handWheel_lcu (w : Wheel) (now : SiteTime) (p : Part) : (p.handWheel w now).lcu = p.lcu := by simp [Part.handWheel]

theorem Part.handWheel_csu (w : Wheel) (now : SiteTime) (p : Part) : (p.handWheel w now).csu = p.csu := by simp [Part.handWheel]

theorem Part.countWheel_ptu (p : Part) : p.countWheel.ptu = { p.ptu with held := match p.effective.2 with
    | .ownSurface | .ownDepth | .peerSurface | .peerDepth => some { value := p.effective.1, obtained := p.now }
    | .held | .reference => p.ptu.held } := by
  cases h : p.effective.2 <;> simp [Part.countWheel, Part.keepEffective, h]

theorem Part.changedOnly_performCheck (c : Check) (p : Part) : p.changedOnly [.lcu, .sbc, .vcl, .csu] (p.performCheck c) :=
  ⟨by simp, by simp, fun k hk => by cases k <;> simp_all [Part.sameAt]⟩

theorem Part.changedOnly_placeCheck (c : Check) (p : Part) : p.changedOnly [.lcu, .pse, .sbc, .vcl, .csu] (p.placeCheck c) :=
  ⟨by simp, by simp, fun k hk => by cases k <;> simp_all [Part.sameAt]⟩

/-- A wheel with no check leaves the load channels and the control unit. -/
theorem Part.changedOnly_completeWheel_unpaired (hu : lead = none ∨ trail = none ∨ speed = none) :
    p.changedOnly [.pse, .ptu, .sbc, .vau, .vcl] (p.completeWheel side lead trail speed now) := by
  rw [Part.completeWheel_unpaired hu]
  exact (p.changedOnly_countWheel.mono (by simp)).trans ((Part.changedOnly_handWheel _ now _).mono (by simp))

theorem Part.changedOnly_completeWheel (side : Side) (lead trail : Option Hit) (speed : Option Nat) (now : SiteTime) (p : Part) :
    p.changedOnly [.lcu, .pse, .ptu, .sbc, .vau, .vcl, .csu] (p.completeWheel side lead trail speed now) := by
  by_cases hu : lead = none ∨ trail = none ∨ speed = none
  · exact (Part.changedOnly_completeWheel_unpaired hu).mono (by simp)
  · simp only [not_or, ← ne_eq, Option.ne_none_iff_exists'] at hu
    obtain ⟨⟨x, rfl⟩, ⟨y, rfl⟩, ⟨v, rfl⟩⟩ := hu
    rw [Part.completeWheel_paired]
    exact ((p.changedOnly_countWheel.mono (by simp)).trans ((Part.changedOnly_handWheel _ now _).mono (by simp))).trans
      ((Part.changedOnly_placeCheck _ _).mono (by simp))

end Complete

section Record

variable (p : Part) (side : Side) (lead trail : Option Hit) (speed : Option Nat)

theorem Part.wheelRecord_origin : let w := p.wheelRecord side lead trail speed
    w.number = p.pse.wheelCounter ∧ w.side = side ∧ w.leadStart = lead.map Hit.startTime ∧
      w.trailStart = trail.map Hit.startTime ∧ w.speed = speed ∧ (w.temperature, w.source) = p.effective ∧
      w.runStart = p.vau.runStart ∧ (speed = none → w.load = none) := by
  refine ⟨?_, ?_, ?_, ?_, ?_, ?_, ?_, ?_⟩
  case refine_8 => rintro rfl; rfl
  all_goals
    obtain ⟨load, single, loadSat, low, h⟩ := p.wheelRecord_frame side lead trail speed
    rw [h]
    rfl

theorem Part.wheelRecord_weighed : let w := p.wheelRecord side lead trail speed
    let f := tableFactor p.effective.1 p.image.factors.temperature
    w.qLead = (p.usableQ f lead).map Prod.fst ∧ w.qTrail = (p.usableQ f trail).map Prod.fst ∧
      (w.flags.qSat = true ↔ ∃ n, p.usableQ f lead = some (n, true) ∨ p.usableQ f trail = some (n, true)) := by
  intro w f
  obtain ⟨load, single, loadSat, low, h⟩ := p.wheelRecord_frame side lead trail speed
  have hw : w = _ := h
  rw [hw]
  refine ⟨rfl, rfl, ?_⟩
  calc (tookSat (p.usableQ f lead) || tookSat (p.usableQ f trail)) = true
    _ ↔ (∃ n, p.usableQ f lead = some (n, true)) ∨ ∃ n, p.usableQ f trail = some (n, true) := by
      rw [Bool.or_eq_true, tookSat_iff, tookSat_iff]
    _ ↔ ∃ n, p.usableQ f lead = some (n, true) ∨ p.usableQ f trail = some (n, true) := exists_or.symm

theorem Part.wheelRecord_timeStep : (p.wheelRecord side lead trail speed).flags.timeStep = true ↔
    ∃ x y, lead = some x ∧ trail = some y ∧ ∃ e ∈ p.stu.log,
      siteDiff p.now e.last ≤ 8000000 ∧ siteDiff e.first y.startTime ≤ 0 ∧ 0 < siteDiff e.last x.startTime := by
  obtain ⟨load, single, loadSat, low, h⟩ := p.wheelRecord_frame side lead trail speed
  rw [h]
  refine (p.bareRecord_timeStep side lead trail speed).trans ?_
  simp only [Part.stepBetween_iff]

theorem Part.wheelRecord_hitFlags : let w := p.wheelRecord side lead trail speed
    let a := hitFlags lead
    let b := hitFlags trail
    w.flags.orphanLead = trail.isNone ∧ w.flags.orphanTrail = lead.isNone ∧ w.flags.clipped = (a.clipped || b.clipped) ∧
      w.flags.stretched = (a.stretched || b.stretched) ∧ w.flags.areaSat = (a.areaSat || b.areaSat) := by
  intro w a b
  obtain ⟨load, single, loadSat, low, h⟩ := p.wheelRecord_frame side lead trail speed
  have hw : w = _ := h
  rw [hw]
  exact ⟨rfl, rfl, rfl, rfl, rfl⟩

/-- A wheel's record is what its speed, if it has one, makes of it unfinished. -/
theorem Part.wheelRecord_finished : let w := p.wheelRecord side lead trail speed
    w = match speed with
      | some v => finishWheel p.image.factors.speed v w.unfinished
      | none => w.unfinished := by
  intro w
  have hbare : w.unfinished = p.bareRecord side lead trail speed := p.wheelRecord_unfinished side lead trail speed
  rw [hbare]
  cases speed <;> rfl

end Record

/-- The check of a paired wheel joins those that wait, in a full list in the place of the oldest. -/
theorem Part.completeWheel_checks (p : Part) (side : Side) {lead trail : Option Hit} {speed : Option Nat} {x y : Hit} {v : Nat}
    (hx : lead = some x) (hy : trail = some y) (hv : speed = some v) (now : SiteTime) :
    let q := p.completeWheel side lead trail speed now
    let c := p.checkOf side x.startTime y.startTime v
    (p.pse.checks.length < 16 → q.pse.checks = insertBefore (checkAfter c.checkTime) c p.pse.checks ∧ q.lcu = p.lcu) ∧
      ∀ oldest rest, p.pse.checks = oldest :: rest → p.pse.checks.length = 16 →
        q.pse.checks = insertBefore (checkAfter c.checkTime) c rest ∧ q.lcu = (p.performCheck oldest).lcu := by
  subst hx hy hv
  simp only [Part.completeWheel_paired]
  generalize hh : p.countWheel.handWheel (p.wheelRecord side (some x) (some y) (some v)) now = h
  have hchecks : h.pse.checks = p.pse.checks := by rw [← hh, Part.handWheel_pse, Part.countWheel_pse]
  have hhistory : h.pse.history = p.pse.history := by rw [← hh, Part.handWheel_pse, Part.countWheel_pse]
  have hlcu : h.lcu = p.lcu := by rw [← hh, Part.handWheel_lcu, Part.countWheel_lcu]
  have hcsu : h.csu = p.csu := by rw [← hh, Part.handWheel_csu, Part.countWheel_csu]
  refine ⟨fun hl => ?_, fun oldest rest hs hl => ?_⟩
  · rw [Part.placeCheck_room (hchecks ▸ hl)]
    exact ⟨by simp [hchecks], hlcu⟩
  · rw [Part.placeCheck_full (hchecks.trans hs) (by rw [hchecks, hl])]
    have himage : h.image = p.image := congrArg (fun c => c.image.getD absentImage) hcsu
    refine ⟨by simp, ?_⟩
    rw [Part.modPse_lcu]
    refine Part.performCheck_lcu ?_ ?_ ?_ oldest
    · exact hlcu
    · exact himage
    · exact hhistory

/-- Settles O29: the record by what it is made of, and what the store, the list, the intake and the checks take of it. -/
theorem completedWheelIsHandedOn : Obligations.CompletedWheelIsHandedOn := by
  intro p side lead trail speed now w q a b asked lost close intake
  obtain ⟨hptu, hvau, ⟨checks, hpse⟩, hlist⟩ := Part.completeWheel_handed side lead trail speed now p
  obtain ⟨port, hport, hvau'⟩ := Part.handWheel_vau w now p.countWheel
  have hvau : q.vau = _ := hvau.trans hvau'
  have hpse : q.pse = _ := hpse
  rw [Part.handWheel_pse] at hpse
  rw [Part.countWheel_askedBy, Part.countWheel_lostIntake, Part.countWheel_vau] at hvau
  rw [Part.countWheel_askedBy, Part.countWheel_lostIntake, Part.countWheel_pse] at hpse
  obtain ⟨hqLead, hqTrail, hqSat⟩ := p.wheelRecord_weighed side lead trail speed
  have hunpaired (hu : lead = none ∨ trail = none ∨ speed = none) : q.pse.checks = p.pse.checks ∧ q.lcu = p.lcu := by
    have hq : q = p.countWheel.handWheel w now := Part.completeWheel_unpaired hu
    rw [hq, Part.handWheel_pse, Part.countWheel_pse, Part.handWheel_lcu, Part.countWheel_lcu]
    exact ⟨rfl, rfl⟩
  refine ⟨p.wheelRecord_origin side lead trail speed, ⟨hqLead, hqTrail, hqSat, ?_⟩, p.wheelRecord_timeStep side lead trail speed,
    ?_, p.wheelRecord_hitFlags side lead trail speed, by rw [hpse], by rw [hpse]; rfl, by rw [hvau]; rfl, by rw [hvau]; rfl,
    by rw [hvau]; rfl, by rw [hvau]; rfl, by rw [hvau]; exact hport, fun hd hl => ?_, by rw [hpse], by rw [hpse], by rw [hvau], hunpaired,
    fun x y v hx hy hv => ?_, p.changedOnly_completeWheel side lead trail speed now⟩
  · exact p.wheelRecord_finished side lead trail speed
  · refine (hptu.trans ((Part.handWheel_ptu w now p.countWheel).trans p.countWheel_ptu)).trans ?_
    cases p.effective.2 <;> rfl
  · have hd : p.countWheel.onDuty = true := by rwa [Part.onDuty, Part.countWheel_csu]
    have hl : p.countWheel.sbc.list.length < 8 := by rwa [Part.countWheel_sbc]
    exact ⟨newEntry (.wheel w) now, hlist _ (Part.mem_handWheel hd hl) (show 1 ≤ 4 by decide), rfl, rfl⟩
  · exact Part.completeWheel_checks p side hx hy hv now

end Sys2Proof.Machine
end

section
/-! PROOFS. Expiry and pairing (R22 to R25, R32): leading hits join the FIFO, trailing hits scan it, expired entries leave it. -/

namespace Sys2Proof.Machine

@[simp] theorem channelSide_leading (side : Side) : channelSide (leadingChannel side) = side := by cases side <;> rfl

@[simp] theorem channelSide_trailing (side : Side) : channelSide (trailingChannel side) = side := by cases side <;> rfl

/-! ## Orphan leads (R23, R26) -/

section Orphans

variable {side : Side} {now : SiteTime}

theorem Part.orphanLead_eq (p : Part) (x : Hit) : p.orphanLead side now x = p.completeWheel side (some x) none none now := rfl

theorem Part.changedOnly_orphanLead (x : Hit) (p : Part) : p.changedOnly [.pse, .ptu, .sbc, .vau, .vcl] (p.orphanLead side now x) :=
  Part.changedOnly_completeWheel_unpaired (.inr (.inl rfl))

/-- A wheel that completes keeps the FIFOs and the start histories, and counts itself. -/
theorem Part.completeWheel_pse (p : Part) (lead trail : Option Hit) (speed : Option Nat) : ∃ store checks,
    (p.completeWheel side lead trail speed now).pse =
      { p.pse with store := store, checks := checks, wheelCounter := p.pse.wheelCounter + 1 } := by
  obtain ⟨-, -, ⟨checks, h⟩, -⟩ := Part.completeWheel_handed side lead trail speed now p
  rw [Part.handWheel_pse, Part.countWheel_pse] at h
  exact ⟨_, checks, h⟩

theorem Part.orphanLead_pse (p : Part) (x : Hit) : ∃ store, (p.orphanLead side now x).pse =
    { p.pse with store := store, wheelCounter := p.pse.wheelCounter + 1 } := by
  rw [Part.orphanLead_eq, Part.completeWheel_unpaired (.inr (.inl rfl)), Part.handWheel_pse, Part.countWheel_pse]
  exact ⟨_, rfl⟩

theorem Part.foldl_orphanLead_pse (l : List Hit) : ∀ p : Part, ∃ store, (l.foldl (Part.orphanLead side now) p).pse =
    { p.pse with store := store, wheelCounter := p.pse.wheelCounter + BitVec.ofNat 16 l.length } := by
  induction l with
  | nil => exact fun p => ⟨p.pse.store, by simp⟩
  | cons x xs ih =>
    intro p
    obtain ⟨store, h⟩ := p.orphanLead_pse (side := side) (now := now) x
    obtain ⟨store', h'⟩ := ih (p.orphanLead side now x)
    have hcount : p.pse.wheelCounter + 1 + BitVec.ofNat 16 xs.length = p.pse.wheelCounter + BitVec.ofNat 16 (x :: xs).length := by
      rw [List.length_cons, Nat.add_comm, BitVec.ofNat_add, BitVec.add_assoc]
      rfl
    refine ⟨store', ?_⟩
    rw [List.foldl_cons, h', h, ← hcount]

theorem Part.changedOnly_foldl_orphanLead (l : List Hit) :
    ∀ p : Part, p.changedOnly [.pse, .ptu, .sbc, .vau, .vcl] (l.foldl (Part.orphanLead side now) p) := by
  induction l with
  | nil => exact fun p => Part.changedOnly_refl _ p
  | cons x xs ih => exact fun p => (p.changedOnly_orphanLead x).trans (ih _)

end Orphans

/-! ## Expiry (R23) -/

theorem Part.changedOnly.image {l : List Block} {p q : Part} (h : p.changedOnly l q) (hl : Block.csu ∉ l) : q.image = p.image :=
  congrArg (fun c : Csu => c.image.getD absentImage) (h.2.2 .csu hl)

theorem Part.changedOnly_expireSide (side : Side) (now : SiteTime) (p : Part) :
    p.changedOnly [.pse, .ptu, .sbc, .vau, .vcl] (p.expireSide side now) :=
  ((p.changedOnly_modPse _).mono (by simp)).trans (Part.changedOnly_foldl_orphanLead _ _)

theorem Part.expireSide_pse (side : Side) (now : SiteTime) (p : Part) :
    let old := hitExpired p.image.strips.spacing now
    ∃ store, (p.expireSide side now).pse = { p.pse with
      fifo := p.pse.fifo.set side ((p.pse.fifo.get side).filter fun h => !old h)
      store := store
      wheelCounter := p.pse.wheelCounter + BitVec.ofNat 16 ((p.pse.fifo.get side).filter old).length } :=
  Part.foldl_orphanLead_pse _ _

theorem anyExpired_iff {now : SiteTime} {p : Part} : anyExpired now p = true ↔
    ∃ side, ∃ h ∈ p.pse.fifo.get side, hitExpired p.image.strips.spacing now h = true := by
  simp only [anyExpired, List.any_eq_true, List.mem_append]
  constructor
  · rintro ⟨h, hl | hr, he⟩
    · exact ⟨.left, h, hl, he⟩
    · exact ⟨.right, h, hr, he⟩
  · rintro ⟨_ | _, h, hm, he⟩
    · exact ⟨h, .inl hm, he⟩
    · exact ⟨h, .inr hm, he⟩

theorem Part.atInstant_iff {p : Part} : p.atInstant = true ↔ p.sampleDue = true ∨ p.lcu.lastSample = some p.clock := by
  simp [Part.atInstant]

/-- Settles O27: the row as the instant's work of its own, and what the expiry of both FIFOs changes of the PSE. -/
theorem leadingEntriesExpire : Obligations.LeadingEntriesExpire := by
  refine ⟨fun s hs => ?_, fun p side now => rfl⟩
  intro limit now old noted
  refine ⟨Part.atInstant_iff, fun h => ?_, fun h => ?_, fun hr hi ⟨side, h, hm, ho⟩ => ?_⟩
  · exact act_idle (Part.workAt_idle _ (h.imp (fun hr => Bool.eq_false_iff.mpr (Part.inRun_iff.not.mpr hr)) .inl))
  · refine act_idle (Part.workAt_idle _ (.inr (.inr (Bool.eq_false_iff.mpr fun ha => ?_))))
    obtain ⟨side, x, hm, he⟩ := anyExpired_iff.mp ha
    exact Bool.false_ne_true ((h side x hm).symm.trans he)
  · have hwork := Part.workAt_due Part.expireBoth (Part.inRun_iff.mpr hr) hi (anyExpired_iff.mpr ⟨side, h, hm, ho⟩)
    have hnoted : s.part.readTime = noted := Part.readTime_eq _
    have hframe := noted.changedOnly_expireSide .left now
    have himage : (noted.expireSide .left now).image = noted.image := hframe.image (by decide)
    obtain ⟨store, hleft⟩ := noted.expireSide_pse .left now
    obtain ⟨store', hright⟩ := (noted.expireSide .left now).expireSide_pse .right now
    rw [himage, hleft] at hright
    have hexec : exec .leadingEntryExpiry s = .next { s with part := noted.expireBoth now } := by
      rw [← hnoted, ← hwork]
      exact act_running _ hs
    refine ⟨_, hexec, rfl, fun side => ?_, ?_, ?_, ?_,
      hframe.trans (Part.changedOnly_expireSide .right now _)⟩ <;> rw [Part.expireBoth]
    · rw [hright]
      cases side <;> rfl
    · rw [hright, BitVec.ofNat_add, ← BitVec.add_assoc]
      rfl
    · rw [hright]
    · rw [hright]

/-! ## Leading hits (R24) -/

theorem Part.takeHit_leading {h : Hit} {side : Side} (hc : h.channel = leadingChannel side) (p : Part) (now : SiteTime) :
    p.takeHit h now = p.takeLeading h now := by
  cases side <;> simp [Part.takeHit, hc, leadingChannel, isLeading]

theorem Part.takeHit_trailing {h : Hit} {side : Side} (hc : h.channel = trailingChannel side) (p : Part) (now : SiteTime) :
    p.takeHit h now = p.takeTrailing h now := by
  cases side <;> simp [Part.takeHit, hc, trailingChannel, isLeading]

theorem appendCapped_eight {α : Type} (l : List α) (x : α) : appendCapped 8 l x = (l ++ [x]).drop (l.length - 7) := by
  simp [appendCapped]

theorem Part.recordStart_eq (h : Hit) (p : Part) : p.recordStart h = { p with pse := { p.pse with
    history := p.pse.history.set h.channel
      (((p.pse.history.get h.channel) ++ [h.startTime]).drop ((p.pse.history.get h.channel).length - 7)) } } := by
  simp only [Part.recordStart, appendCapped_eight]
  rfl

section Leading

variable {p : Part} {h : Hit} {side : Side} {now : SiteTime}

theorem Part.takeLeading_room (hc : h.channel = leadingChannel side) (hl : (p.pse.fifo.get side).length < 8) :
    p.takeLeading h now = (p.recordStart h).setFifo side (p.pse.fifo.get side ++ [h]) := by
  have hside : channelSide h.channel = side := by rw [hc, channelSide_leading]
  have hfifo : (p.recordStart h).pse.fifo = p.pse.fifo := rfl
  simp only [Part.takeLeading, hside, hfifo]
  cases hf : p.pse.fifo.get side with
  | nil => rfl
  | cons oldest rest =>
    rw [hf, List.length_cons] at hl
    exact if_pos hl

theorem Part.takeLeading_full (hc : h.channel = leadingChannel side) {oldest : Hit} {rest : List Hit}
    (hf : p.pse.fifo.get side = oldest :: rest) (hl : 8 ≤ (p.pse.fifo.get side).length) : p.takeLeading h now =
      (((p.recordStart h).setFifo side rest).orphanLead side now oldest).setFifo side (rest ++ [h]) := by
  have hside : channelSide h.channel = side := by rw [hc, channelSide_leading]
  have hfifo : (p.recordStart h).pse.fifo = p.pse.fifo := rfl
  rw [hf, List.length_cons] at hl
  simp only [Part.takeLeading, hside, hfifo, hf]
  exact if_neg (Nat.not_lt.mpr hl)

end Leading

/-- Settles O24: a FIFO with room takes the hit, a full one gives up its oldest entry first, which completes. -/
theorem leadingHitJoinsTheFifo : Obligations.LeadingHitJoinsTheFifo := by
  intro p side h now ch fifo history hc
  rw [Part.takeHit_leading hc]
  refine ⟨fun hl => ?_, fun oldest rest hf hl => ?_⟩
  · rw [Part.takeLeading_room hc hl, Part.recordStart_eq, hc]
    rfl
  · intro removed k
    have hremoved : (p.recordStart h).setFifo side rest = removed := by
      rw [Part.recordStart_eq, hc]
      rfl
    obtain ⟨store, hk⟩ := removed.orphanLead_pse (side := side) (now := now) oldest
    have hk : k.pse = _ := hk
    have hfull : p.takeLeading h now = k.setFifo side (rest ++ [h]) := by
      rw [Part.takeLeading_full hc hf hl.ge, hremoved]
      rfl
    refine ⟨hfull, by rw [hk], by rw [hk], by rw [hk], by rw [hk], ?_⟩
    have hframe : p.changedOnly [.pse] removed := p.changedOnly_modPse fun _ => removed.pse
    exact (hframe.mono (by simp)).trans (removed.changedOnly_orphanLead oldest)

/-! ## Trailing hits (R25) -/

/-- The entries of a FIFO that a trailing hit finds too old. -/
def leavingFifo (spacing : Nat) (trail : SiteTime) (l : List Hit) : List Hit :=
  l.filter fun x => decide (standing spacing x.startTime trail = .tooOld)

/-- The entries of a FIFO that are too recent for a trailing hit. -/
def stayingFifo (spacing : Nat) (trail : SiteTime) (l : List Hit) : List Hit :=
  l.filter fun x => decide (standing spacing x.startTime trail = .tooRecent)

section Scan

variable {spacing : Nat} {trail : SiteTime}

theorem scanFifo_at {before after : List Hit} {e : Hit} {v : Nat}
    (hb : ∀ x ∈ before, ∀ u, standing spacing x.startTime trail ≠ .inWindow u) (he : standing spacing e.startTime trail = .inWindow v) :
    scanFifo spacing trail (before ++ e :: after) =
      (leavingFifo spacing trail before, some (e, v), stayingFifo spacing trail before ++ after) := by
  induction before with
  | nil => simp [scanFifo, he, leavingFifo, stayingFifo]
  | cons x xs ih =>
    have ih := ih fun y hy => hb y (List.mem_cons_of_mem _ hy)
    cases hx : standing spacing x.startTime trail with
    | inWindow u => exact absurd hx (hb x List.mem_cons_self u)
    | tooOld => simp [scanFifo, hx, ih, leavingFifo, stayingFifo]
    | tooRecent => simp [scanFifo, hx, ih, leavingFifo, stayingFifo]

theorem scanFifo_none {l : List Hit} (hl : ∀ x ∈ l, ∀ u, standing spacing x.startTime trail ≠ .inWindow u) :
    scanFifo spacing trail l = (leavingFifo spacing trail l, none, stayingFifo spacing trail l) := by
  induction l with
  | nil => rfl
  | cons x xs ih =>
    have ih := ih fun y hy => hl y (List.mem_cons_of_mem _ hy)
    cases hx : standing spacing x.startTime trail with
    | inWindow u => exact absurd hx (hl x List.mem_cons_self u)
    | tooOld => simp [scanFifo, hx, ih, leavingFifo, stayingFifo]
    | tooRecent => simp [scanFifo, hx, ih, leavingFifo, stayingFifo]

end Scan

section Trailing

variable {p : Part} {h : Hit} {side : Side} {now : SiteTime}

/-- The part with a trailing hit's start noted and the expired entries of its side gone. -/
def Part.expiredFor (p : Part) (h : Hit) (side : Side) (now : SiteTime) : Part := (p.recordStart h).expireSide side now

theorem Part.changedOnly_recordStart (h : Hit) (p : Part) : p.changedOnly [.pse] (p.recordStart h) := p.changedOnly_modPse _

theorem Part.changedOnly_expiredFor (p : Part) (h : Hit) (side : Side) (now : SiteTime) :
    p.changedOnly [.pse, .ptu, .sbc, .vau, .vcl] (p.expiredFor h side now) :=
  ((p.changedOnly_recordStart h).mono (by simp)).trans (Part.changedOnly_expireSide side now _)

theorem Part.expiredFor_fifo (p : Part) (h : Hit) (side : Side) (now : SiteTime) : (p.expiredFor h side now).pse.fifo =
    p.pse.fifo.set side ((p.pse.fifo.get side).filter fun x => !hitExpired p.image.strips.spacing now x) := by
  obtain ⟨store, hpse⟩ := (p.recordStart h).expireSide_pse side now
  rw [Part.expiredFor, hpse]
  rfl

/-- The entries of a side that have not expired. -/
def Part.youngFifo (p : Part) (side : Side) (now : SiteTime) : List Hit :=
  (p.pse.fifo.get side).filter fun x => !hitExpired p.image.strips.spacing now x

/-- A trailing hit by what the scan of the entries that have not expired finds. -/
theorem Part.takeTrailing_of_scan (hc : h.channel = trailingChannel side) {leaving staying : List Hit} {found : Option (Hit × Nat)}
    (hs : scanFifo p.image.strips.spacing h.startTime (p.youngFifo side now) = (leaving, found, staying)) :
    p.takeTrailing h now = (leaving.foldl (Part.orphanLead side now) ((p.expiredFor h side now).setFifo side staying)).completeWheel
      side (found.map Prod.fst) (some h) (found.map Prod.snd) now := by
  have hside : channelSide h.channel = side := by rw [hc, channelSide_trailing]
  have himage : (p.expiredFor h side now).image = p.image := (p.changedOnly_expiredFor h side now).image (by decide)
  have hfifo := congrArg (fun f => f.get side) (p.expiredFor_fifo h side now)
  simp only [PerSide.get_set_same] at hfifo
  rw [Part.expiredFor] at himage hfifo
  rw [Part.youngFifo, ← hfifo, ← himage] at hs
  simp only [Part.takeTrailing, hside, hs]
  cases found <;> rfl

theorem Part.takeTrailing_paired (hc : h.channel = trailingChannel side) {before after : List Hit} {e : Hit} {v : Nat}
    (hy : p.youngFifo side now = before ++ e :: after)
    (hb : ∀ x ∈ before, ∀ u, standing p.image.strips.spacing x.startTime h.startTime ≠ .inWindow u)
    (he : standing p.image.strips.spacing e.startTime h.startTime = .inWindow v) :
    p.takeTrailing h now = ((leavingFifo p.image.strips.spacing h.startTime before).foldl (Part.orphanLead side now)
      ((p.expiredFor h side now).setFifo side (stayingFifo p.image.strips.spacing h.startTime before ++ after))).completeWheel
        side (some e) (some h) (some v) now :=
  Part.takeTrailing_of_scan (found := some (e, v)) hc (by rw [hy]; exact scanFifo_at hb he)

theorem Part.takeTrailing_orphan (hc : h.channel = trailingChannel side)
    (hy : ∀ x ∈ p.youngFifo side now, ∀ u, standing p.image.strips.spacing x.startTime h.startTime ≠ .inWindow u) :
    p.takeTrailing h now =
      ((leavingFifo p.image.strips.spacing h.startTime (p.youngFifo side now)).foldl (Part.orphanLead side now)
      ((p.expiredFor h side now).setFifo side (stayingFifo p.image.strips.spacing h.startTime (p.youngFifo side now)))).completeWheel
        side none (some h) none now :=
  Part.takeTrailing_of_scan (found := none) hc (scanFifo_none hy)

/-- A FIFO of entries too recent, none of them expired, stays as it is. -/
theorem Part.takeTrailing_all_recent (hc : h.channel = trailingChannel side)
    (hall : ∀ x ∈ p.pse.fifo.get side, hitExpired p.image.strips.spacing now x = false ∧
      standing p.image.strips.spacing x.startTime h.startTime = .tooRecent) :
    (p.takeTrailing h now).pse.fifo = p.pse.fifo ∧ (p.takeTrailing h now).pse.wheelCounter = p.pse.wheelCounter + 1 := by
  have hyoung : p.youngFifo side now = p.pse.fifo.get side :=
    List.filter_eq_self.mpr fun x hx => by simp [(hall x hx).1]
  have hold : (p.pse.fifo.get side).filter (hitExpired p.image.strips.spacing now) = [] :=
    List.filter_eq_nil_iff.mpr fun x hx => by simp [(hall x hx).1]
  have hleaving : leavingFifo p.image.strips.spacing h.startTime (p.pse.fifo.get side) = [] :=
    List.filter_eq_nil_iff.mpr fun x hx => by simp [(hall x hx).2]
  have hstaying : stayingFifo p.image.strips.spacing h.startTime (p.pse.fifo.get side) = p.pse.fifo.get side :=
    List.filter_eq_self.mpr fun x hx => by simp [(hall x hx).2]
  have htake := Part.takeTrailing_orphan (p := p) (now := now) hc (hyoung ▸ fun x hx u => by simp [(hall x hx).2])
  obtain ⟨store, hexpired⟩ := (p.recordStart h).expireSide_pse side now
  obtain ⟨store', checks, hpse⟩ := ((p.expiredFor h side now).setFifo side (p.pse.fifo.get side)).completeWheel_pse
    (side := side) (now := now) none (some h) none
  rw [hyoung, hleaving, hstaying, List.foldl_nil] at htake
  have hfifo : (p.recordStart h).pse.fifo = p.pse.fifo := rfl
  have himage : (p.recordStart h).image = p.image := rfl
  simp only [himage, hfifo, hold] at hexpired
  rw [htake, hpse, Part.setFifo, Part.modPse_pse, Part.expiredFor, hexpired]
  refine ⟨?_, ?_⟩
  · cases side <;> rfl
  · simp [Part.recordStart]

theorem Part.changedOnly_takeTrailing (h : Hit) (now : SiteTime) (p : Part) :
    p.changedOnly [.lcu, .pse, .ptu, .sbc, .vau, .vcl, .csu] (p.takeTrailing h now) := by
  have hexpire := ((p.changedOnly_recordStart h).mono (by simp)).trans
    ((Part.changedOnly_expireSide (channelSide h.channel) now _).mono (m := [.lcu, .pse, .ptu, .sbc, .vau, .vcl, .csu]) (by simp))
  have hleave := fun l l' => (hexpire.trans ((Part.changedOnly_modPse _ _).mono (by simp))).trans
    ((Part.changedOnly_foldl_orphanLead (side := channelSide h.channel) (now := now) l
      (((p.recordStart h).expireSide (channelSide h.channel) now).setFifo (channelSide h.channel) l')).mono (by simp))
  unfold Part.takeTrailing
  dsimp only
  split
  · exact (hleave _ _).trans (Part.changedOnly_completeWheel _ _ _ _ _ _)
  · exact (hleave _ _).trans (Part.changedOnly_completeWheel _ _ _ _ _ _)

end Trailing

/-- Settles O28: the scan by what it finds in window, a FIFO of entries too recent, and the frame of the whole. -/
theorem trailingHitCompletesAWheel : Obligations.TrailingHitCompletesAWheel := by
  intro p side h now ch spacing old young orphan expired leaving staying keeping hc
  have hc : h.channel = trailingChannel side := hc
  have hexpired : p.expiredFor h side now = expired := by
    rw [Part.expiredFor, Part.recordStart_eq, hc]
    rfl
  have hkeeping (l : List Hit) : (p.expiredFor h side now).setFifo side l = keeping l := by rw [hexpired]; rfl
  rw [Part.takeHit_trailing hc]
  refine ⟨fun before after e v hy hb he => ?_, fun hy => ?_, Part.takeTrailing_all_recent hc, p.changedOnly_takeTrailing h now⟩
  · exact (Part.takeTrailing_paired hc hy hb he).trans (by rw [hkeeping]; rfl)
  · exact (Part.takeTrailing_orphan hc hy).trans (by rw [hkeeping]; rfl)

end Sys2Proof.Machine
end

section
/-! PROOFS. The trigger outputs (R127, R164 to R173): pins, due times, TRIG reports, firings and reports, each said once by its cases. -/

namespace Sys2Proof.Machine

/-! ## Pins and due times (R164, R165, R169) -/

section Timing

variable {distance : Nat} {r : Timing}

theorem firingDueTime_untrailed (h : r.trail = none) (distance : Nat) : firingDueTime distance r = none := by
  simp [firingDueTime, h]

theorem firingDueTime_here {t : SiteTime} (h : r.trail = some t) (hd : distance = 0) : firingDueTime distance r = some t := by
  simp [firingDueTime, h, hd]

theorem firingDueTime_ahead {t : SiteTime} {v : Nat} (h : r.trail = some t) (hd : distance ≠ 0)
    (hv : r.axleSpeed = some v ∨ r.axleSpeed = none ∧ r.vehicleSpeed = some v) :
    firingDueTime distance r = some (t + BitVec.ofNat 48 (distance * 1000000 / v)) := by
  obtain hv | ⟨hn, hv⟩ := hv
  · simp [firingDueTime, h, hd, hv, later]
  · simp [firingDueTime, h, hd, hn, hv, later]

theorem firingDueTime_unspeeded (hd : distance ≠ 0) (ha : r.axleSpeed = none) (hv : r.vehicleSpeed = none) :
    firingDueTime distance r = none := by
  cases h : r.trail <;> simp [firingDueTime, h, hd, ha, hv]

end Timing

/-! ## TRIG reports (R127) -/

theorem changeNewest_append {tag : Count16} {before after : List VehicleRecord} {x : VehicleRecord} (hx : x.tag = tag)
    (ha : ∀ y ∈ after, y.tag ≠ tag) (g : VehicleRecord → VehicleRecord) :
    changeNewest tag g (before ++ x :: after) = before ++ g x :: after := by
  have hrev : (before ++ x :: after).reverse = after.reverse ++ x :: before.reverse := by simp
  rw [changeNewest, hrev, changeFirst_append (fun y hy => decide_eq_false (ha y (List.mem_reverse.mp hy))) (decide_eq_true hx)]
  simp

theorem changeNewest_absent {tag : Count16} {l : List VehicleRecord} (h : ∀ x ∈ l, x.tag ≠ tag)
    (g : VehicleRecord → VehicleRecord) : changeNewest tag g l = l := by
  rw [changeNewest, changeFirst_eq_self (fun y hy => decide_eq_false (h y (List.mem_reverse.mp hy))), List.reverse_reverse]

section Report

variable {p : Part} {tag : Count16} (flag : TrigFlag)

theorem Part.reportTrig_open {v : Vehicle} (hv : p.vau.vehicle = some v) (ht : v.tag = tag) : p.reportTrig flag tag =
    { p with vau := { p.vau with vehicle := some { v with flags := addTrig v.flags flag } } } := by
  simp only [Part.reportTrig, hv, ht, if_true]
  rfl

theorem Part.reportTrig_closed (h : ∀ v, p.vau.vehicle = some v → v.tag ≠ tag) : p.reportTrig flag tag =
    { p with vcl := { p.vcl with
      records := changeNewest tag (fun r => { r with slotFlags := addTrig r.slotFlags flag }) p.vcl.records } } := by
  cases hv : p.vau.vehicle with
  | none =>
    simp only [Part.reportTrig, hv]
    rfl
  | some v =>
    simp only [Part.reportTrig, hv, if_neg (h v hv)]
    rfl

theorem Part.reportTrig_record (h : ∀ v, p.vau.vehicle = some v → v.tag ≠ tag) {before after : List VehicleRecord} {x : VehicleRecord}
    (hl : p.vcl.records = before ++ x :: after) (hx : x.tag = tag) (ha : ∀ y ∈ after, y.tag ≠ tag) : p.reportTrig flag tag =
    { p with vcl := { p.vcl with records := before ++ { x with slotFlags := addTrig x.slotFlags flag } :: after } } := by
  rw [Part.reportTrig_closed flag h, hl, changeNewest_append hx ha]

theorem Part.reportTrig_discarded (h : ∀ v, p.vau.vehicle = some v → v.tag ≠ tag) (hn : ∀ x ∈ p.vcl.records, x.tag ≠ tag) :
    p.reportTrig flag tag = p := by
  rw [Part.reportTrig_closed flag h, changeNewest_absent hn]

end Report

/-! ## Firings (R169 to R172) -/

section Fire

variable {p : Part} {o : Output}

/-- An output with its pulse begun, or begun anew. -/
def Part.pulsed (p : Part) (o : Output) : OutputState :=
  { p.tou.outputs.get o with level := .active, pulseEnd := some (p.clock + (p.image.triggers.get o).width * 1000) }

theorem Part.fire_running (h : (p.tou.outputs.get o).level = .active) (tag : Count16) :
    p.fire o tag = (p.modOutput o fun _ => p.pulsed o).reportTrig .merged tag := if_pos h

theorem Part.fire_resting (h : (p.tou.outputs.get o).level ≠ .active) (tag : Count16) :
    p.fire o tag = p.modOutput o fun _ => p.pulsed o := if_neg h

theorem Part.fire_outputs (o : Output) (tag : Count16) (p : Part) :
    (p.fire o tag).tou.outputs = p.tou.outputs.set o (p.pulsed o) := by
  by_cases h : (p.tou.outputs.get o).level = .active
  · rw [Part.fire_running h, Part.reportTrig_tou]
    rfl
  · rw [Part.fire_resting h]
    rfl

theorem PerOutput.set_set {α : Type} (q : PerOutput α) (o : Output) (a b : α) : (q.set o a).set o b = q.set o b := by
  cases o <;> rfl

/-- Several firings that act on one output begin its pulse together. -/
theorem Part.foldl_fire_outputs (l : List Firing) : ∀ p : Part, l ≠ [] →
    (l.foldl (fun q f => q.fire o f.tag) p).tou.outputs = p.tou.outputs.set o (p.pulsed o) := by
  induction l with
  | nil => exact fun p h => absurd rfl h
  | cons f fs ih =>
    intro p _
    rw [List.foldl_cons]
    rcases fs with _ | ⟨g, gs⟩
    · exact Part.fire_outputs o f.tag p
    · rw [ih _ (by simp), Part.fire_outputs, PerOutput.set_set]
      simp [Part.pulsed, Part.fire_outputs, Part.image]

theorem Part.changedOnly_foldl_fire (l : List Firing) :
    ∀ p : Part, p.changedOnly [.tou, .vau, .vcl] (l.foldl (fun q f => q.fire o f.tag) p) := by
  induction l with
  | nil => exact fun p => Part.changedOnly_refl _ p
  | cons f fs ih => exact fun p => (p.changedOnly_fire o f.tag).trans (ih _)

theorem Part.makeFiring_untimed {r : Timing} (h : firingDueTime (p.image.triggers.get o).distance r = none) :
    p.makeFiring o r = p.reportTrig .missed r.tag := by
  simp only [Part.makeFiring, Part.trigger, h]

variable {r : Timing} {d : SiteTime} (h : firingDueTime (p.image.triggers.get o).distance r = some d)
include h

theorem Part.makeFiring_late (hd : siteDiff d p.now < 0) : p.makeFiring o r = (p.reportTrig .late r.tag).fire o r.tag := by
  simp only [Part.makeFiring, Part.trigger, h, if_pos hd]

theorem Part.makeFiring_now (hd : siteDiff d p.now = 0) : p.makeFiring o r = p.fire o r.tag := by
  simp only [Part.makeFiring, Part.trigger, h, hd, if_true, Int.lt_irrefl, if_false]

theorem Part.makeFiring_placed (hd : 0 < siteDiff d p.now) (hl : (p.tou.outputs.get o).schedule.length < 4) : p.makeFiring o r =
    p.modOutput o fun x => { x with schedule := scheduleFiring { tag := r.tag, due := d } x.schedule } := by
  simp only [Part.makeFiring, Part.trigger, h, if_neg hd.ne', if_neg (Int.lt_asymm hd), if_pos hl]

theorem Part.makeFiring_full (hd : 0 < siteDiff d p.now) (hl : 4 ≤ (p.tou.outputs.get o).schedule.length) :
    p.makeFiring o r = p.reportTrig .missed r.tag := by
  simp only [Part.makeFiring, Part.trigger, h, if_neg hd.ne', if_neg (Int.lt_asymm hd), if_neg (Nat.not_lt.mpr hl)]

end Fire

/-! ## Reports on one output (R166 to R168) -/

section OneOutput

variable {p : Part} {o : Output} (r : Timing) (gross : Nat) (cls : Fin 32)

theorem Part.reports_disabled (h : (p.image.triggers.get o).enable = false) :
    p.frontOn r o = p ∧ p.grossOn r gross o = p ∧ p.classOn r cls o = p := by
  simp [Part.frontOn, Part.grossOn, Part.classOn, Part.trigger, h]

variable (h : (p.image.triggers.get o).enable = true)
include h

theorem Part.reports_front (hs : (p.image.triggers.get o).source = .front) :
    p.frontOn r o = p.makeFiring o r ∧ p.grossOn r gross o = p ∧ p.classOn r cls o = p := by
  simp [Part.frontOn, Part.grossOn, Part.classOn, Part.trigger, h, hs]

theorem Part.reports_heavy (hs : (p.image.triggers.get o).source = .heavy) :
    p.frontOn r o = (p.modOutput o fun x => { x with armed := some r.tag }) ∧ p.classOn r cls o = p := by
  simp [Part.frontOn, Part.classOn, Part.trigger, h, hs]

theorem Part.grossOn_fires (hs : (p.image.triggers.get o).source = .heavy) (ha : (p.tou.outputs.get o).armed = some r.tag)
    (hg : (p.image.triggers.get o).threshold < gross) :
    p.grossOn r gross o = (p.modOutput o fun x => { x with armed := none }).makeFiring o r := by
  simp only [Part.grossOn, Part.trigger, h, hs, Bool.not_true, Bool.false_eq_true, if_false]
  exact if_pos (Bool.and_eq_true_iff.mpr ⟨decide_eq_true ha, decide_eq_true hg⟩)

theorem Part.grossOn_quiet (hs : (p.image.triggers.get o).source = .heavy)
    (hn : ¬((p.tou.outputs.get o).armed = some r.tag ∧ (p.image.triggers.get o).threshold < gross)) :
    p.grossOn r gross o = p := by
  simp only [Part.grossOn, Part.trigger, h, hs, Bool.not_true, Bool.false_eq_true, if_false]
  refine if_neg fun hf => hn ?_
  obtain ⟨ha, hg⟩ := Bool.and_eq_true_iff.mp hf
  exact ⟨of_decide_eq_true ha, of_decide_eq_true hg⟩

theorem Part.reports_classed (hs : (p.image.triggers.get o).source = .classed) :
    p.frontOn r o = p ∧ p.grossOn r gross o = p ∧
      p.classOn r cls o = if (p.image.triggers.get o).classSet.getLsbD cls.val then p.makeFiring o r else p := by
  simp [Part.frontOn, Part.grossOn, Part.classOn, Part.trigger, h, hs]

end OneOutput

/-! ## The statement -/

theorem Part.toOutputs_run {p : Part} (h : p.csu.station = .run) (f : Output → Part → Part) :
    p.toOutputs f = f .trg2 (f .trg1 (f .trg0 p)) := if_pos (Part.inRun_iff.mpr h)

theorem Part.toOutputs_idle {p : Part} (h : p.csu.station ≠ .run) (f : Output → Part → Part) : p.toOutputs f = p :=
  if_neg (Part.inRun_iff.not.mpr h)

theorem Part.fireDue_none {p : Part} {o : Output} (h : (p.tou.outputs.get o).schedule.any (firingReached p.now) = false) :
    p.fireDue o = p := by
  rw [List.any_eq_false] at h
  have hdue : (p.tou.outputs.get o).schedule.filter (firingReached p.now) = [] := List.filter_eq_nil_iff.mpr h
  have hrest : (p.tou.outputs.get o).schedule.filter (fun f => !firingReached p.now f) = (p.tou.outputs.get o).schedule :=
    List.filter_eq_self.mpr fun f hf => by simpa using h f hf
  simp only [Part.fireDue, hdue, hrest, List.foldl_nil]
  cases o <;> rfl

theorem Part.changedOnly_fireDue (o : Output) (p : Part) : p.changedOnly [.tou, .vau, .vcl] (p.fireDue o) :=
  ((p.changedOnly_modTou _).mono (by simp)).trans (Part.changedOnly_foldl_fire _ _)

/-- An output whose due firings have left its schedule and acted. -/
theorem Part.fireDue_outputs {p : Part} {o : Output} (h : (p.tou.outputs.get o).schedule.any (firingReached p.now) = true) :
    (p.fireDue o).tou.outputs = p.tou.outputs.set o { p.pulsed o with
      schedule := (p.tou.outputs.get o).schedule.filter fun f => !firingReached p.now f } := by
  have hne : (p.tou.outputs.get o).schedule.filter (firingReached p.now) ≠ [] := by
    rw [ne_eq, List.filter_eq_nil_iff, ← List.any_eq_false, h]
    simp
  rw [Part.fireDue, Part.foldl_fire_outputs _ _ hne]
  cases o <;> rfl

theorem Part.fireDue_one {p : Part} {o : Output} (hl : (p.tou.outputs.get o).level ≠ .active)
    (h1 : ((p.tou.outputs.get o).schedule.filter (firingReached p.now)).length = 1) : p.fireDue o = p.modOutput o fun _ =>
      { p.pulsed o with schedule := (p.tou.outputs.get o).schedule.filter fun f => !firingReached p.now f } := by
  obtain ⟨f, hf⟩ := List.length_eq_one_iff.mp h1
  simp only [Part.fireDue, hf, List.foldl_cons, List.foldl_nil]
  rw [Part.fire_resting (by simpa using hl)]
  cases o <;> rfl

theorem Part.pulseOver_true {p : Part} {o : Output} {t : Nat} (hl : (p.tou.outputs.get o).level = .active)
    (he : (p.tou.outputs.get o).pulseEnd = some t) (ht : t ≤ p.clock) : p.pulseOver o = true := by
  simp [Part.pulseOver, hl, he, ht]

/-- FIRING_DUE and PULSE_END (R171, R172). -/
theorem firingDue_pulseEnd (s : State) (o : Output) (hs : s.running) :
    let x := s.part.tou.outputs.get o
    let due := firingReached s.part.now
    (s.part.csu.station ≠ .run → exec (.firingDue o) s = .next s) ∧
    (s.part.csu.station = .run → exec (.firingDue o) s = .next { s with part := s.part.fireDue o }) ∧
    (s.part.csu.station = .run → x.level ≠ .active → (x.schedule.filter due).length = 1 →
      s.part.fireDue o = s.part.modOutput o fun _ => { s.part.pulsed o with schedule := x.schedule.filter fun f => !due f }) ∧
    (∀ t, x.level = .active → x.pulseEnd = some t → t ≤ s.part.clock →
      exec (.pulseEnd o) s = .next { s with part := s.part.modOutput o fun x => { x with level := .inactive, pulseEnd := none } }) := by
  intro x due
  have hfire : exec (.firingDue o) s = .next { s with part := if s.part.inRun then s.part.fireDue o else s.part } :=
    act_running _ hs
  refine ⟨fun hr => ?_, fun hr => ?_, fun hr hl h1 => ?_, fun t hl he ht => ?_⟩
  · rw [hfire, if_neg (Part.inRun_iff.not.mpr hr)]
  · rw [hfire, if_pos (Part.inRun_iff.mpr hr)]
  · exact Part.fireDue_one hl h1
  · have hend : exec (.pulseEnd o) s = .next { s with
        part := if s.part.pulseOver o then s.part.modOutput o fun x => { x with level := .inactive, pulseEnd := none }
          else s.part } :=
      act_running _ hs
    rw [hend, if_pos (Part.pulseOver_true hl he ht)]

/-- Settles O60: the two rows, the reports to the outputs and on one of them, firings, TRIG reports, pins and due times. -/
theorem firingsPulseTheOutputs : Obligations.FiringsPulseTheOutputs := by
  refine ⟨fun s o hs => ?_, fun p r gross cls => ⟨fun h => ?_, fun h => ?_⟩, fun p o r gross cls => ?_, fun p flag tag f => ?_,
    fun p o => ?_, fun distance r => ?_⟩
  · intro x now due fired acted
    obtain ⟨hidle, hrun, hone, hpulse⟩ := firingDue_pulseEnd s o hs
    have hacted : s.part.fireDue o = acted := rfl
    rw [hacted] at hrun hone
    refine ⟨hidle, fun hr hd => ?_, hrun, fun hr hd => ⟨⟨acted, hrun hr, Part.fireDue_outputs hd, ?_⟩, fun hl h1 => ?_⟩, hpulse⟩
    · rw [hrun hr, ← hacted, Part.fireDue_none hd]
    · exact s.part.changedOnly_fireDue o
    · rw [hrun hr, hone hr hl h1]
      rfl
  · exact ⟨Part.toOutputs_idle h _, Part.toOutputs_idle h _, Part.toOutputs_idle h _⟩
  · exact ⟨Part.toOutputs_run h _, Part.toOutputs_run h _, Part.toOutputs_run h _⟩
  · intro c x withOutput fires
    refine ⟨Part.reports_disabled r gross cls, fun he => ⟨Part.reports_front r gross cls he, fun hs => ?_,
      Part.reports_classed r gross cls he⟩, Part.makeFiring_untimed, fun d hd => ⟨Part.makeFiring_late hd, Part.makeFiring_now hd,
      fun hp hl => Part.makeFiring_placed hd hp hl, Part.makeFiring_full hd⟩, fun tag => ⟨fun hl => Part.fire_running hl tag,
      fun hl => Part.fire_resting hl tag⟩⟩
    obtain ⟨hfront, hclass⟩ := Part.reports_heavy r cls he hs
    exact ⟨hfront, fun hf => Part.grossOn_fires r gross he hs hf.1 hf.2, Part.grossOn_quiet r gross he hs, hclass⟩
  · exact ⟨fun v hv ht => Part.reportTrig_open flag hv ht, fun hn => ⟨fun before x after hl hx ha =>
      Part.reportTrig_record flag hn hl hx ha, Part.reportTrig_discarded flag hn⟩, rfl, rfl, rfl⟩
  · refine ⟨fun hl => ?_, fun hl => ?_, fun hl => ?_⟩ <;> simp [Part.pinHigh, Part.trigger, hl]
  · exact ⟨fun h => firingDueTime_untrailed h distance, fun t h hd => firingDueTime_here h hd,
      fun t v h hd hv => firingDueTime_ahead h hd hv, firingDueTime_unspeeded⟩

end Sys2Proof.Machine
end


section
/-! PROOFS. The close of a vehicle (R120, R121, R149, R150): what weighing, hand-over and the walk's request change; and which of
two stations owns a straddle axle, and what a ceded one does (R105, R107, R151). -/

namespace Sys2Proof.Machine

section
variable {p : Part}

/-! ## Weighing, hand-over and close -/

/-- The axles of an open vehicle after the late weighing (R121). -/
def Part.weighedAxles (p : Part) (axles : List Axle) : List Axle :=
  match vehicleSpeed axles with
  | some v => axles.map fun a => { a with left := a.left.map (p.lateWeigh v), right := a.right.map (p.lateWeigh v) }
  | none => axles

/-- An open vehicle after the late weighing (R121). -/
def Part.weighed (p : Part) (v : Vehicle) : Vehicle :=
  { v with axles := p.weighedAxles v.axles, runningGross := grossOf (p.weighedAxles v.axles) }

theorem Part.weighVehicle_none (hv : p.vau.vehicle = none) : p.weighVehicle = p := by simp [Part.weighVehicle, hv]

theorem Part.weighVehicle_some {v : Vehicle} (hv : p.vau.vehicle = some v) : p.weighVehicle =
    (p.modVau fun u => { u with vehicle := some (p.weighed v) }).grossReport (vehicleTiming v.tag (p.weighedAxles v.axles))
      (grossOf (p.weighedAxles v.axles)) := by
  simp only [Part.weighVehicle, hv]
  rfl

/-- The last gross report reaches the weighed vehicle's TRIG flags alone. -/
theorem Part.weighVehicle_frame {v : Vehicle} (hv : p.vau.vehicle = some v) : ∃ f, trigApart v.flags f ∧
    p.weighVehicle.vau = { p.vau with vehicle := some { p.weighed v with flags := f } } ∧ p.weighVehicle.vcl = p.vcl := by
  rw [Part.weighVehicle_some hv]
  obtain ⟨⟨f, hf, hvau⟩, hvcl⟩ := Part.OwnReportFrame.grossReport (vehicleTiming v.tag (p.weighedAxles v.axles))
    (grossOf (p.weighedAxles v.axles)) (p.modVau fun u => { u with vehicle := some (p.weighed v) }) (p.weighed v) rfl rfl
  exact ⟨f, hf, hvau, hvcl⟩

theorem Part.askWalk_vau (p : Part) : ∃ port, p.askWalk.vau = { p.vau with port := port } := by
  unfold Part.askWalk
  split
  · exact Part.requestPort_vau _ _
  · exact ⟨p.vau.port, rfl⟩

theorem Part.askWalk_vcl (p : Part) : ∃ walk, p.askWalk.vcl = { p.vcl with walk := walk } := by
  unfold Part.askWalk
  split
  · exact ⟨{ p.vcl.walk with state := .waiting }, by simp⟩
  · exact ⟨p.vcl.walk, rfl⟩

variable {make : Count16 → Count16 → Count16 → VehicleRecord}

/-- With room, the record enters the list behind the others and takes the carries with it (R149, R150). -/
theorem Part.handOver_room (hl : p.vcl.records.length < 16) : ∃ walk, (p.handOver make).vcl = { p.vcl with
    records := p.vcl.records ++ [make p.vcl.seqCounter p.vcl.lostCarry p.vcl.cededCarry]
    seqCounter := p.vcl.seqCounter + 1, lostCarry := 0, cededCarry := 0, walk := walk
    totals := { p.vcl.totals with vehiclesCompleted := satInc p.vcl.totals.vehiclesCompleted } } := by
  simp only [Part.handOver, if_pos hl]
  exact Part.askWalk_vcl _

/-- In a full list the record is lost and counted (R150, R157). -/
theorem Part.handOver_full (hl : p.vcl.records.length = 16) : (p.handOver make).vcl = { p.vcl with
    seqCounter := p.vcl.seqCounter + 1, lostCarry := p.vcl.lostCarry + 1
    totals := { p.vcl.totals with
      vehiclesCompleted := satInc p.vcl.totals.vehiclesCompleted, lost := satInc p.vcl.totals.lost } } := by
  have hl' : ¬p.vcl.records.length < 16 := by omega
  simp [Part.handOver, hl']

theorem Part.handOver_vau (make : Count16 → Count16 → Count16 → VehicleRecord) (p : Part) :
    ∃ port, (p.handOver make).vau = { p.vau with port := port } := by
  simp only [Part.handOver]
  split
  · exact Part.askWalk_vau _
  · exact ⟨p.vau.port, rfl⟩

theorem Part.handOver_ceded (make : Count16 → Count16 → Count16 → VehicleRecord) (p : Part) :
    (p.handOver make).vcl.totals.ceded = p.vcl.totals.ceded := by
  simp only [Part.handOver]
  split
  · obtain ⟨walk, hwalk⟩ := Part.askWalk_vcl ((((p.modVcl fun v => { v with seqCounter := v.seqCounter + 1 }).modTotals fun t =>
      { t with vehiclesCompleted := satInc t.vehiclesCompleted })).modVcl fun v => { v with
        records := v.records ++ [make p.vcl.seqCounter v.lostCarry v.cededCarry], lostCarry := 0, cededCarry := 0 })
    rw [hwalk]
    rfl
  · rfl

theorem Part.closeVehicle_none (hv : p.vau.vehicle = none) (cause : CloseCause) : p.closeVehicle cause = p := by
  simp only [Part.closeVehicle, Part.weighVehicle_none hv, hv]

/-- A close is the weighing, the end of the open vehicle, and the hand-over of its record. -/
theorem Part.closeVehicle_handOver {v : Vehicle} (hv : p.vau.vehicle = some v) (cause : CloseCause) : ∃ first make,
    p.closeVehicle cause =
      (p.weighVehicle.modVau fun u => { u with vehicle := none, runStart := none, headwayRef := some first }).handOver make := by
  obtain ⟨f, -, hvau, -⟩ := Part.weighVehicle_frame hv
  have hopen : p.weighVehicle.vau.vehicle = some { p.weighed v with flags := f } := by rw [hvau]
  simp only [Part.closeVehicle, hopen]
  exact ⟨_, _, rfl⟩

theorem Part.closeVehicle_vehicle (cause : CloseCause) (p : Part) : (p.closeVehicle cause).vau.vehicle = none := by
  cases hv : p.vau.vehicle with
  | none => rw [Part.closeVehicle_none hv, hv]
  | some v =>
    obtain ⟨first, make, hclose⟩ := Part.closeVehicle_handOver hv cause
    obtain ⟨port, hport⟩ := Part.handOver_vau make
      (p.weighVehicle.modVau fun u => { u with vehicle := none, runStart := none, headwayRef := some first })
    rw [hclose, hport]
    rfl

theorem Part.closeVehicle_ceded (cause : CloseCause) (p : Part) :
    (p.closeVehicle cause).vcl.totals.ceded = p.vcl.totals.ceded := by
  cases hv : p.vau.vehicle with
  | none => rw [Part.closeVehicle_none hv]
  | some v =>
    obtain ⟨first, make, hclose⟩ := Part.closeVehicle_handOver hv cause
    obtain ⟨f, -, -, hvcl⟩ := Part.weighVehicle_frame hv
    rw [hclose, Part.handOver_ceded, Part.modVau_vcl, hvcl]

/-! ## Ownership (R105) and ceding (R107, R151) -/

theorem siteDiff_swap {a b : SiteTime} (h : siteDiff a b ≠ -(2 ^ 47)) : siteDiff b a = -siteDiff a b := by
  have hneg : b - a = -(a - b) := by ring
  have hmin : a - b ≠ BitVec.intMin 48 := by
    intro he
    exact h (by rw [siteDiff, he]; rfl)
  rw [siteDiff, hneg, BitVec.toInt_neg_of_ne_intMin hmin, siteDiff]

theorem siteDiff_eq_zero_iff {a b : SiteTime} : siteDiff a b = 0 ↔ a = b := by
  rw [siteDiff, ← BitVec.toInt_zero (w := 48), BitVec.toInt_inj]
  exact sub_eq_zero

theorem Part.owns_iff {l q : Wheel} {n : Nat} : p.owns l q n = true ↔
    siteDiff (ownerKey l) (ownerKey q) < 0 ∨ ownerKey l = ownerKey q ∧ p.block.number < n := by
  simp [Part.owns, siteDiff_eq_zero_iff]

/-- Of two stations with different numbers the two verdicts on one pair of wheels are opposite. -/
theorem Part.owns_iff_not_owns {p q : Part} {l m : Wheel} (hn : p.block.number ≠ q.block.number)
    (hk : siteDiff (ownerKey l) (ownerKey m) ≠ -(2 ^ 47)) :
    p.owns l m q.block.number = true ↔ q.owns m l p.block.number = false := by
  rw [← Bool.not_eq_true, Part.owns_iff, Part.owns_iff, siteDiff_swap hk]
  have hzero := siteDiff_eq_zero_iff (a := ownerKey l) (b := ownerKey m)
  rcases lt_trichotomy (siteDiff (ownerKey l) (ownerKey m)) 0 with hd | hd | hd
  · have hne : ownerKey m ≠ ownerKey l := fun he => by have := hzero.2 he.symm; omega
    simp [hd, hne, hd.le]
  · have heq := hzero.1 hd
    have hself := siteDiff_eq_zero_iff.2 (Eq.refl (ownerKey m))
    simp only [heq, hself, true_and]
    omega
  · have hne : ownerKey l ≠ ownerKey m := fun he => by have := hzero.2 he; omega
    simp [hne, hd, hd.le]

theorem ownerKey_run {w : Wheel} {t : SiteTime} (h : w.runStart = some t) : ownerKey w = t := by simp [ownerKey, h]

theorem ownerKey_ref {w : Wheel} (h : w.runStart = none) : ownerKey w = w.refTime := by simp [ownerKey, h]

/-- The part once a ceded axle has been counted (R151, R157). -/
def Part.countCeded (p : Part) : Part :=
  { p with vcl := { p.vcl with
      totals := { p.vcl.totals with ceded := satInc p.vcl.totals.ceded }, cededCarry := satInc p.vcl.cededCarry } }

theorem Part.cedeAxle_alone (hv : p.vau.vehicle = none) : p.cedeAxle = p.countCeded := by
  simp only [Part.cedeAxle, Part.modVcl_vau, Part.modTotals_vau, hv]
  rfl

theorem Part.cedeAxle_open (hv : p.vau.vehicle.isSome = true) : p.cedeAxle = p.countCeded.closeVehicle .cede := by
  obtain ⟨v, hv⟩ := Option.isSome_iff_exists.1 hv
  simp only [Part.cedeAxle, Part.modVcl_vau, Part.modTotals_vau, hv]
  rfl

end

/-- Settles O53: the two verdicts compare the same two keys from either side, and a ceded axle is counted before the close. -/
theorem stationsNameOneOwner : Obligations.StationsNameOneOwner := by
  refine ⟨fun p q l m hn hk => ⟨Part.owns_iff_not_owns hn hk, Part.owns_iff, fun t => ownerKey_run, ownerKey_ref⟩,
    fun p => ⟨Part.cedeAxle_alone, fun hv => ?_⟩⟩
  rw [Part.cedeAxle_open hv]
  exact ⟨Part.closeVehicle_vehicle _ _, Part.closeVehicle_ceded _ _⟩

end Sys2Proof.Machine
end


section
/-! PROOFS. What the class walk reads (R133 to R135, R137 to R141): the groups an axle list is cut into, the GROUP_OVER mask, and the
conditions of a rule. -/

namespace Sys2Proof.Machine

/-! ## The cut of an axle list (R133) -/

theorem nearAxle_iff {gmax : Nat} {a : RecordAxle} : nearAxle gmax a = true ↔ ∃ mm, a.spacing = some mm ∧ mm ≤ gmax := by
  cases h : a.spacing <;> simp [nearAxle, h]

theorem splitGroups_single (gmax : Nat) (a : RecordAxle) : splitGroups gmax [a] = [[a]] := rfl

theorem splitGroups_cons (gmax : Nat) (b : RecordAxle) (rest : List RecordAxle) :
    ∃ g gs, g ≠ [] ∧ splitGroups gmax (b :: rest) = g :: gs := by
  simp only [splitGroups]
  split
  · split
    · exact ⟨_, _, List.cons_ne_nil _ _, rfl⟩
    · exact ⟨_, _, List.cons_ne_nil _ _, rfl⟩
  · exact ⟨_, _, List.cons_ne_nil _ _, rfl⟩

/-- An axle before another begins a group of its own, or stands first in the group that the other began. -/
theorem splitGroups_cons_cons (gmax : Nat) (a b : RecordAxle) (rest : List RecordAxle) : ∃ g gs, g ≠ [] ∧
    splitGroups gmax (b :: rest) = g :: gs ∧
    splitGroups gmax (a :: b :: rest) = if nearAxle gmax b then (a :: g) :: gs else [a] :: g :: gs := by
  obtain ⟨g, gs, hg, hb⟩ := splitGroups_cons gmax b rest
  refine ⟨g, gs, hg, hb, ?_⟩
  simp only [splitGroups] at hb ⊢
  simp only [hb]

theorem splitGroups_flatten (gmax : Nat) : ∀ l : List RecordAxle, (splitGroups gmax l).flatten = l
  | [] => rfl
  | [a] => rfl
  | a :: b :: rest => by
    obtain ⟨g, gs, -, hb, ha⟩ := splitGroups_cons_cons gmax a b rest
    have ih := splitGroups_flatten gmax (b :: rest)
    rw [hb, List.flatten_cons] at ih
    rw [ha]
    split <;> simp [ih]

theorem splitGroups_ne_nil (gmax : Nat) : ∀ (l : List RecordAxle), ∀ g ∈ splitGroups gmax l, g ≠ []
  | [] => by simp [splitGroups]
  | [a] => by simp [splitGroups_single]
  | a :: b :: rest => by
    obtain ⟨g, gs, -, hb, ha⟩ := splitGroups_cons_cons gmax a b rest
    have ih := splitGroups_ne_nil gmax (b :: rest)
    rw [hb] at ih
    rw [ha]
    intro x hx
    split at hx
    · rcases List.mem_cons.1 hx with rfl | hx
      · simp
      · exact ih x (List.mem_cons_of_mem _ hx)
    · rcases List.mem_cons.1 hx with rfl | hx
      · simp
      · exact ih x hx

/-- How many elements stand before the `k`-th part of a cut list. -/
def cutAt {α : Type} (l : List (List α)) (k : Nat) : Nat := ((l.take k).map List.length).sum

@[simp] theorem cutAt_zero {α : Type} (l : List (List α)) : cutAt l 0 = 0 := by simp [cutAt]

@[simp] theorem cutAt_cons {α : Type} (g : List α) (l : List (List α)) (k : Nat) : cutAt (g :: l) (k + 1) = g.length + cutAt l k := by
  simp [cutAt]

theorem cutAt_length {α : Type} (l : List (List α)) : cutAt l l.length = l.flatten.length := by simp [cutAt]

/-- The elements from a part's start on are that part, and the parts behind it. -/
theorem drop_cutAt {α : Type} {l : List (List α)} {k : Nat} {x : List α} (h : l[k]? = some x) :
    (l.flatten.drop (cutAt l k)).take x.length = x := by
  induction l generalizing k with
  | nil => simp at h
  | cons g l ih =>
    cases k with
    | zero =>
      obtain rfl : g = x := by simpa using h
      simp
    | succ k =>
      rw [cutAt_cons, List.flatten_cons, ← List.drop_drop, List.drop_left]
      exact ih (by simpa using h)

/-- A group begins at an axle behind the first exactly when its spacing is not near (R133). -/
theorem splitGroups_begins (gmax : Nat) : ∀ (l : List RecordAxle) (i : Nat) (a : RecordAxle), l[i + 1]? = some a →
    ((∃ k, k < (splitGroups gmax l).length ∧ cutAt (splitGroups gmax l) k = i + 1) ↔ ¬nearAxle gmax a = true)
  | [], i, a, h => by simp at h
  | [x], i, a, h => by simp at h
  | x :: b :: rest, i, a, h => by
    obtain ⟨g, gs, hg, hb, hx⟩ := splitGroups_cons_cons gmax x b rest
    have ih := splitGroups_begins gmax (b :: rest)
    have hpos := List.length_pos_of_ne_nil hg
    rw [hb] at ih
    rw [hx]
    split
    · next hn =>
      cases i with
      | zero =>
        obtain rfl : b = a := by simpa using h
        simp only [hn, not_true, iff_false]
        rintro ⟨k, -, hk⟩
        cases k with
        | zero => simp at hk
        | succ k =>
          rw [cutAt_cons, List.length_cons] at hk
          omega
      | succ i =>
        rw [← ih i a (by simpa using h)]
        constructor
        · rintro ⟨k, hl, hk⟩
          cases k with
          | zero => simp at hk
          | succ k =>
            rw [cutAt_cons, List.length_cons] at hk
            exact ⟨k + 1, hl, by rw [cutAt_cons]; omega⟩
        · rintro ⟨k, hl, hk⟩
          cases k with
          | zero => simp at hk
          | succ k =>
            rw [cutAt_cons] at hk
            exact ⟨k + 1, hl, by rw [cutAt_cons, List.length_cons]; omega⟩
    · next hn =>
      cases i with
      | zero =>
        obtain rfl : b = a := by simpa using h
        exact iff_of_true ⟨1, by simp, by simp⟩ hn
      | succ i =>
        rw [← ih i a (by simpa using h)]
        constructor
        · rintro ⟨k, hl, hk⟩
          cases k with
          | zero => simp at hk
          | succ k =>
            rw [cutAt_cons, List.length_singleton] at hk
            exact ⟨k, by simpa using hl, by omega⟩
        · rintro ⟨k, hl, hk⟩
          exact ⟨k + 1, by simpa using hl, by rw [cutAt_cons, List.length_singleton]; omega⟩

/-! ## The group list (R133, R134) -/

theorem numberGroups_getElem? (l : List (List RecordAxle)) : ∀ (position first k : Nat), (numberGroups position first l)[k]? =
    l[k]?.map fun x => { position := position + k, firstAxle := first + cutAt l k, axleCount := x.length, load := groupLoad x } := by
  induction l with
  | nil => intro position first k; simp [numberGroups]
  | cons g l ih =>
    intro position first k
    cases k with
    | zero => simp [numberGroups]
    | succ k =>
      simp only [numberGroups, List.getElem?_cons_succ, ih, cutAt_cons]
      congr 1
      funext x
      congr 1 <;> omega

theorem numberGroups_counts (l : List (List RecordAxle)) : ∀ position first : Nat,
    (numberGroups position first l).map AxleGroup.axleCount = l.map List.length := by
  induction l with
  | nil => intro position first; rfl
  | cons g l ih => intro position first; simp [numberGroups, ih]

/-- How many axles stand before the `k`-th group of a group list. -/
theorem axlesBeforeGroup_eq (gmax : Nat) (axles : List RecordAxle) (k : Nat) :
    (((groupsOf gmax axles).take k).map AxleGroup.axleCount).sum = cutAt (splitGroups gmax axles) k := by
  rw [List.map_take, groupsOf, numberGroups_counts, cutAt, List.map_take]

theorem groupLoad_whole {g : List RecordAxle} (h : ∀ a ∈ g, a.left.isSome = true ∧ a.right.isSome = true) :
    groupLoad g = some (g.map fun a => a.left.getD 0 + a.right.getD 0).sum := by
  have hany : g.any RecordAxle.isPartial = false := by
    simp only [List.any_eq_false, RecordAxle.isPartial, Bool.or_eq_true, not_or]
    intro a ha
    obtain ⟨hleft, hright⟩ := h a ha
    simp [Option.isSome_iff_ne_none.1 hleft, Option.isSome_iff_ne_none.1 hright]
  simp only [groupLoad, hany]
  rfl

theorem groupLoad_partial {g : List RecordAxle} (h : ∃ a ∈ g, a.left = none ∨ a.right = none) : groupLoad g = none := by
  obtain ⟨a, ha, hp⟩ := h
  have hany : g.any RecordAxle.isPartial = true := List.any_eq_true.2 ⟨a, ha, by simpa [RecordAxle.isPartial] using hp⟩
  simp [groupLoad, hany]

/-- The entry of a group list at an index: its place, and the axles it takes in. -/
theorem groupsOf_entry {gmax k : Nat} {axles : List RecordAxle} {g : AxleGroup} (h : (groupsOf gmax axles)[k]? = some g) :
    ∃ own, own ≠ [] ∧ (axles.drop (cutAt (splitGroups gmax axles) k)).take own.length = own ∧
      g = { position := k + 1, firstAxle := cutAt (splitGroups gmax axles) k + 1, axleCount := own.length, load := groupLoad own } := by
  rw [groupsOf, numberGroups_getElem?, Option.map_eq_some_iff] at h
  obtain ⟨own, hown, rfl⟩ := h
  have hdrop := drop_cutAt hown
  rw [splitGroups_flatten] at hdrop
  exact ⟨own, splitGroups_ne_nil gmax axles own (List.mem_of_getElem? hown), hdrop, by rw [Nat.add_comm 1 k, Nat.add_comm 1]⟩

theorem groupsOf_count_pos {gmax : Nat} {axles : List RecordAxle} {g : AxleGroup} (h : g ∈ groupsOf gmax axles) :
    1 ≤ g.position ∧ 1 ≤ g.axleCount := by
  obtain ⟨k, hk⟩ := List.mem_iff_getElem?.1 h
  obtain ⟨own, hne, -, rfl⟩ := groupsOf_entry hk
  exact ⟨Nat.le_add_left 1 k, List.length_pos_of_ne_nil hne⟩

/-! ## The GROUP_OVER mask (R135) -/

theorem foldl_or_getLsbD {α : Type} {w : Nat} (f : α → BitVec w) (i : Nat) (l : List α) : ∀ m : BitVec w,
    (l.foldl (fun m g => m ||| f g) m).getLsbD i = true ↔ m.getLsbD i = true ∨ ∃ g ∈ l, (f g).getLsbD i = true := by
  induction l with
  | nil => intro m; simp
  | cons g l ih =>
    intro m
    rw [List.foldl_cons, ih]
    simp [or_assoc]

theorem groupLimit_eq {asm : AssemblyBlock} {n : Nat} (hn : 1 ≤ n) : groupLimit asm n =
    if n = 1 then asm.singleLimit else if n = 2 then asm.tandemLimit else if n = 3 then asm.tridemLimit else asm.quadLimit := by
  have h1 : n ≤ 1 ↔ n = 1 := by omega
  simp only [groupLimit, h1]

theorem groupIsOver_iff {asm : AssemblyBlock} {g : AxleGroup} : groupIsOver asm g = true ↔
    ∃ load limit, g.load = some load ∧ limit < load ∧ groupLimit asm g.axleCount = some limit := by
  cases hl : g.load <;> cases hm : groupLimit asm g.axleCount <;> simp [groupIsOver, hl, hm]

/-- The mask's bit of a position stands for the group at that position. -/
theorem groupBit_iff {n m : Nat} (hn : 1 ≤ n) (hn12 : n ≤ 12) (hm : 1 ≤ m) :
    (BitVec.ofNat 12 (2 ^ (m - 1))).getLsbD (n - 1) = true ↔ m = n := by
  rw [BitVec.getLsbD_ofNat, Nat.testBit_two_pow]
  simp only [Bool.and_eq_true, decide_eq_true_eq]
  omega

theorem groupOverMask_iff {asm : AssemblyBlock} {gmax n : Nat} {axles : List RecordAxle} (hn : 1 ≤ n) (hn12 : n ≤ 12) :
    (groupOverMask asm (groupsOf gmax axles)).getLsbD (n - 1) = true ↔
      ∃ g ∈ groupsOf gmax axles, g.position = n ∧ groupIsOver asm g = true := by
  have hzero : (0 : BitVec 12).getLsbD (n - 1) = false := BitVec.getLsbD_zero
  rw [groupOverMask, foldl_or_getLsbD, hzero]
  simp only [Bool.false_eq_true, false_or, List.mem_filter]
  constructor
  · rintro ⟨g, ⟨hg, hover⟩, hbit⟩
    exact ⟨g, hg, (groupBit_iff hn hn12 (groupsOf_count_pos hg).1).1 hbit, hover⟩
  · rintro ⟨g, hg, hpos, hover⟩
    exact ⟨g, ⟨hg, hover⟩, (groupBit_iff hn hn12 (groupsOf_count_pos hg).1).2 hpos⟩

/-! ## The conditions of a rule (R137 to R141) -/

section
variable {rule : ClassRule} {axles : List RecordAxle}

theorem axlesFit_iff : axlesFit rule axles = true ↔ (rule.axleMin ≤ axles.length ∧ axles.length ≤ rule.axleMax) ∧
    (rule.singleWheelOnly = true → ∀ a ∈ axles, a.kind = .singleWheel) := by
  cases h : rule.singleWheelOnly <;> simp [axlesFit, h]

theorem patternFits_iff {groups : List AxleGroup} : patternFits rule groups = true ↔
    ∀ sizes, rule.pattern = some sizes → groups.map AxleGroup.axleCount = sizes := by
  cases h : rule.pattern <;> simp [patternFits, h]

/-- Every element of one list fits the element at its index of another that is at least as long. -/
theorem zip_all_iff {α β : Type} {f : α × β → Bool} : ∀ {l : List α} {m : List β},
    (l.length ≤ m.length ∧ (l.zip m).all f = true) ↔ ∀ (i : Nat) (x : α), l[i]? = some x → ∃ y, m[i]? = some y ∧ f (x, y) = true
  | [], m => by simp
  | x :: l, [] => by
    simp only [List.length_cons, List.length_nil, Nat.le_zero, Nat.add_one_ne_zero, false_and, false_iff]
    intro h
    obtain ⟨y, hy, -⟩ := h 0 x rfl
    simp at hy
  | x :: l, y :: m => by
    have ih := zip_all_iff (f := f) (l := l) (m := m)
    constructor
    · rintro ⟨hl, hf⟩ i z hz
      rw [List.zip_cons_cons, List.all_cons, Bool.and_eq_true] at hf
      cases i with
      | zero =>
        obtain rfl : x = z := by simpa using hz
        exact ⟨y, rfl, hf.1⟩
      | succ i => exact ih.1 ⟨by simpa using hl, hf.2⟩ i z (by simpa using hz)
    · intro h
      obtain ⟨z, hz, hx⟩ := h 0 x rfl
      obtain rfl : y = z := by simpa using hz
      obtain ⟨hl, hf⟩ := ih.2 fun i z hz => h (i + 1) z (by simpa using hz)
      exact ⟨by simpa using hl, by rw [List.zip_cons_cons, List.all_cons, hx, hf]; rfl⟩

theorem filterMap_getElem? {α β : Type} {f : α → Option β} : ∀ {l : List α}, (∀ a ∈ l, (f a).isSome = true) → ∀ i : Nat,
    (l.filterMap f)[i]? = l[i]?.bind f
  | [], _, i => by simp
  | a :: l, h, i => by
    obtain ⟨b, hb⟩ := Option.isSome_iff_exists.1 (h a List.mem_cons_self)
    rw [List.filterMap_cons_some hb]
    cases i with
    | zero => simp [hb]
    | succ i => simpa using filterMap_getElem? (fun x hx => h x (List.mem_cons_of_mem _ hx)) i

/-- A gap bound is tested against the spacing of the axle behind the first at its index (R139). -/
theorem gapsFit_iff {noSpeed : Bool} (h : ∀ a ∈ axles.tail, a.spacing.isSome = true) : gapsFit rule noSpeed axles = true ↔
    ∀ gaps, rule.gaps = some gaps → noSpeed = false ∧ ∀ i gap, gaps[i]? = some gap → ∃ a mm, axles[i + 1]? = some a ∧
      a.spacing = some mm ∧ gap.1 * 100 ≤ mm ∧ (gap.2 = 255 ∨ mm ≤ gap.2 * 100) := by
  cases hg : rule.gaps with
  | none => simp [gapsFit, hg]
  | some gaps =>
    have hzip := zip_all_iff (f := fun x => gapFits x.1 x.2) (l := gaps) (m := spacingsOf axles)
    simp only [gapsFit, hg, Bool.and_eq_true, decide_eq_true_eq, and_assoc, hzip, Bool.not_eq_true', Option.some.injEq,
      forall_eq']
    refine and_congr_right fun _ => forall₃_congr fun i gap _ => ?_
    rw [spacingsOf, filterMap_getElem? h, List.getElem?_tail]
    cases axles[i + 1]? <;> simp [gapFits]

theorem grossFits_iff {gross : Nat} : grossFits rule gross axles = true ↔ ∀ lo hi, rule.grossRange = some (lo, hi) →
    (∀ a ∈ axles, a.left.isSome = true ∧ a.right.isSome = true) ∧ lo ≤ gross ∧ gross ≤ hi := by
  cases h : rule.grossRange with
  | none => simp [grossFits, h]
  | some range =>
    obtain ⟨lo, hi⟩ := range
    simp [grossFits, h, RecordAxle.isPartial, and_assoc, Option.isSome_iff_ne_none]

end

/-- Settles O59: the cut by recursion over the axle list, the mask by its bits, and a rule by its four conditions. -/
theorem groupsLimitsAndRulesAreJudged : Obligations.GroupsLimitsAndRulesAreJudged := by
  refine ⟨fun gmax axles => ?_, fun groups r rule hspaced => ?_⟩
  · simp only [axlesBeforeGroup_eq]
    have hlength : (groupsOf gmax axles).length = (splitGroups gmax axles).length := numberGroups_length _ _ _
    refine ⟨?_, fun i a ha => ?_, fun k g hg => ?_, fun asm n hn hn12 => ?_⟩
    · rw [hlength, cutAt_length, splitGroups_flatten]
    · rw [hlength, splitGroups_begins gmax axles i a ha, nearAxle_iff]
    · obtain ⟨own, hne, hown, rfl⟩ := groupsOf_entry hg
      simp only [hown]
      exact ⟨trivial, trivial, List.length_pos_of_ne_nil hne, groupLoad_whole, groupLoad_partial⟩
    · rw [groupOverMask_iff hn hn12]
      refine exists_congr fun g => and_congr_right fun hg => and_congr_right fun _ => ?_
      rw [groupIsOver_iff, groupLimit_eq (groupsOf_count_pos hg).2]
  · rw [ruleMatches, Bool.and_eq_true, Bool.and_eq_true, Bool.and_eq_true, axlesFit_iff, patternFits_iff, gapsFit_iff hspaced,
      grossFits_iff, and_assoc, and_assoc, and_assoc]

end Sys2Proof.Machine
end


section
/-! PROOFS. The class walk (R130 to R132, R143, R144): its start, its end, the release of the port behind it, and what its CLASS
report and the VEHICLE offer leave of the walked record. -/

namespace Sys2Proof.Machine

/-! ## What every report keeps -/

/-- A relation that the two changes a report can make keep, and chains of them. -/
structure ReportStep (R : Part → Part → Prop) : Prop where
  refl : ∀ p, R p p
  trans : ∀ {a b c}, R a b → R b c → R a c
  output : ∀ (o : Output) (f : OutputState → OutputState) (p : Part), R p (p.modOutput o f)
  trig : ∀ (x : TrigFlag) (tag : Count16) (p : Part), R p (p.reportTrig x tag)

namespace ReportStep

variable {R : Part → Part → Prop}

theorem fire (h : ReportStep R) (o : Output) (tag : Count16) (p : Part) : R p (p.fire o tag) := by
  simp only [Part.fire]
  split
  · exact h.trans (h.output o _ p) (h.trig _ _ _)
  · exact h.output o _ p

theorem makeFiring (h : ReportStep R) (o : Output) (r : Timing) (p : Part) : R p (p.makeFiring o r) := by
  simp only [Part.makeFiring]
  split
  · exact h.trig _ _ p
  · split
    · exact h.trans (h.trig _ _ p) (h.fire _ _ _)
    · split
      · exact h.fire _ _ p
      · split
        · exact h.output _ _ p
        · exact h.trig _ _ p

theorem toOutputs (h : ReportStep R) {f : Output → Part → Part} (hf : ∀ o p, R p (f o p)) (p : Part) : R p (p.toOutputs f) := by
  unfold Part.toOutputs
  split
  · exact h.trans (h.trans (hf _ _) (hf _ _)) (hf _ _)
  · exact h.refl p

theorem frontReport (h : ReportStep R) (r : Timing) (p : Part) : R p (p.frontReport r) := by
  refine h.toOutputs (fun o p => ?_) p
  unfold Part.frontOn
  split
  · exact h.refl p
  · split
    · exact h.makeFiring _ _ p
    · exact h.output _ _ p
    · exact h.refl p

theorem grossReport (h : ReportStep R) (r : Timing) (gross : Nat) (p : Part) : R p (p.grossReport r gross) := by
  refine h.toOutputs (fun o p => ?_) p
  unfold Part.grossOn
  split
  · exact h.refl p
  · split
    · split
      · exact h.trans (h.output _ _ p) (h.makeFiring _ _ _)
      · exact h.refl p
    · exact h.refl p
    · exact h.refl p

theorem classReport (h : ReportStep R) (r : Timing) (cls : Fin 32) (p : Part) : R p (p.classReport r cls) := by
  refine h.toOutputs (fun o p => ?_) p
  unfold Part.classOn
  split
  · exact h.refl p
  · split
    · split
      · exact h.makeFiring _ _ p
      · exact h.refl p
    · exact h.refl p
    · exact h.refl p

end ReportStep

theorem reportStep_changedOnly : ReportStep (Part.changedOnly [.tou, .vau, .vcl]) where
  refl := Part.changedOnly_refl _
  trans := Part.changedOnly.trans
  output _ _ p := (p.changedOnly_modTou _).mono (by simp)
  trig x tag p := (p.changedOnly_reportTrig x tag).mono (by simp)

theorem mem_changeFirst_or {α : Type} {f : α → Bool} {g : α → α} {l : List α} {x : α} (hx : x ∈ l) :
    x ∈ changeFirst f g l ∨ g x ∈ changeFirst f g l := by
  induction l with
  | nil => simp at hx
  | cons y l ih =>
    simp only [changeFirst]
    rcases List.mem_cons.1 hx with rfl | hx
    · split <;> simp
    · split
      · exact .inl (List.mem_cons_of_mem _ hx)
      · exact (ih hx).imp (List.mem_cons_of_mem _) (List.mem_cons_of_mem _)

/-- Every record of one part stands in another, but for its TRIG flags. -/
def Part.SlotsOnly (a b : Part) : Prop := ∀ x ∈ a.vcl.records, ∃ f, { x with slotFlags := f } ∈ b.vcl.records

theorem reportStep_slotsOnly : ReportStep Part.SlotsOnly where
  refl _ x hx := ⟨x.slotFlags, hx⟩
  trans hab hbc x hx := by
    obtain ⟨f, hf⟩ := hab x hx
    exact hbc { x with slotFlags := f } hf
  output _ _ _ x hx := ⟨x.slotFlags, hx⟩
  trig flag tag p x hx := by
    by_cases h : ∀ v, p.vau.vehicle = some v → v.tag ≠ tag
    · rw [Part.reportTrig_closed flag h]
      simp only [changeNewest, List.mem_reverse]
      rcases mem_changeFirst_or (f := fun r => decide (r.tag = tag))
        (g := fun r => { r with slotFlags := addTrig r.slotFlags flag }) (List.mem_reverse.2 hx) with hx | hx
      · exact ⟨x.slotFlags, hx⟩
      · exact ⟨addTrig x.slotFlags flag, hx⟩
    · push Not at h
      obtain ⟨v, hv, ht⟩ := h
      rw [Part.reportTrig_open flag hv ht]
      exact ⟨x.slotFlags, hx⟩

/-- An offer leaves every record as it is, but for the READY one that becomes SENDING. -/
theorem Part.mem_offerVehicle_records {p : Part} {x : VehicleRecord} (hx : x ∈ p.vcl.records) :
    x ∈ p.offerVehicle.vcl.records ∨ x.state = .ready ∧ { x with state := .sending } ∈ p.offerVehicle.vcl.records := by
  by_cases hi : p.Invites
  · by_cases hr : ∀ r ∈ p.vcl.records, r.state ≠ .ready
    · exact .inl (by rwa [Part.offerVehicle_none_ready hr])
    · obtain ⟨before, r, after, hl, hready, hb⟩ := Part.exists_first_ready hr
      have hrecords : p.offerVehicle.vcl.records = before ++ { r with state := .sending } :: after := by
        rw [Part.offerVehicle_ready hi hl hready hb, Part.enterList_vehicle (p := p.offered before r after) hi.1,
          Part.placeEntry_vehicle_records (p := p.offered before r after) hi.urgent]
        rfl
      rw [hl] at hx
      rw [hrecords]
      rcases List.mem_append.1 hx with hx | hx
      · exact .inl (List.mem_append_left _ hx)
      · rcases List.mem_cons.1 hx with rfl | hx
        · exact .inr ⟨hready, by simp⟩
        · exact .inl (by simp [hx])
  · exact .inl (by rwa [Part.offerVehicle_uninvited hi])

/-! ## The walk's start (R131) -/

section
variable {p : Part} {before after : List VehicleRecord} {r : VehicleRecord}

theorem Part.startWalk_oldest (hl : p.vcl.records = before ++ r :: after) (hb : ∀ x ∈ before, x.state ≠ .awaitingClass)
    (hr : r.state = .awaitingClass) : p.startWalk = { p with
      vcl := { p.vcl with walk :=
        { state := .walking, record := some r.seq, groups := groupsOf p.image.assembly.gmax r.axles, rulePosition := 0,
          grantedAt := p.clock } }
      vau := { p.vau with port := { p.vau.port with freshAt := none } } } := by
  have hfind : p.vcl.records.find? (fun r => decide (r.state = .awaitingClass)) = some r := by
    rw [hl]
    exact find?_append_cons (fun x hx => decide_eq_false (hb x hx)) (decide_eq_true hr)
  simp only [Part.startWalk, hfind]
  rfl

/-! ## The first match (R141) -/

theorem firstMatch_ge (groups : List AxleGroup) (v : VehicleRecord) (rules : List ClassRule) : ∀ {n : Nat} {m : Nat × ClassRule},
    firstMatch groups v n rules = some m → n ≤ m.1 := by
  induction rules with
  | nil => intro n m h; cases h
  | cons first rules ih =>
    intro n m h
    rw [firstMatch] at h
    split at h
    · cases h
      exact le_rfl
    · exact (Nat.le_succ n).trans (ih h)

theorem firstMatch_from (groups : List AxleGroup) (v : VehicleRecord) (rules : List ClassRule) : ∀ (n i : Nat) (rule : ClassRule),
    firstMatch groups v n rules = some (n + i, rule) ↔ rules[i]? = some rule ∧ ruleMatches groups v rule = true ∧
      ∀ (j : Nat) (other : ClassRule), j < i → rules[j]? = some other → ruleMatches groups v other = false := by
  induction rules with
  | nil => simp [firstMatch]
  | cons first rules ih =>
    intro n i rule
    rw [firstMatch]
    split
    · next hm =>
      cases i with
      | zero =>
        simp only [Nat.add_zero, Option.some.injEq, Prod.mk.injEq, true_and, List.getElem?_cons_zero, Nat.not_lt_zero,
          false_imp_iff, implies_true, and_true]
        exact ⟨fun h => ⟨h, h ▸ hm⟩, And.left⟩
      | succ i =>
        refine iff_of_false (by simp) fun ⟨_, _, h⟩ => ?_
        simpa [hm] using h 0 first (Nat.succ_pos i) rfl
    · next hm =>
      cases i with
      | zero =>
        refine iff_of_false (fun h => ?_) fun ⟨h, hr, _⟩ => ?_
        · exact absurd (firstMatch_ge groups v rules h) (by simp)
        · obtain rfl : first = rule := by simpa using h
          exact hm hr
      | succ i =>
        rw [show n + (i + 1) = n + 1 + i by omega, ih]
        simp only [List.getElem?_cons_succ]
        refine and_congr_right fun _ => and_congr_right fun _ => ⟨fun h j other hj ho => ?_, fun h j other hj ho => ?_⟩
        · cases j with
          | zero =>
            obtain rfl : first = other := by simpa using ho
            exact Bool.eq_false_iff.2 hm
          | succ j => exact h j other (by omega) (by simpa using ho)
        · exact h (j + 1) other (by omega) (by simpa using ho)

/-! ## The walk's end (R132, R143) -/

theorem grossOver_eq (m : Option (Nat × ClassRule)) (gross : Nat) :
    grossOver m gross = (m.bind fun y => y.2.grossLimit).any fun limit => decide (limit < gross) := by
  cases m with
  | none => rfl
  | some x => cases h : x.2.grossLimit <;> simp [grossOver, h]

/-- A record still awaits its class beside the walked one. -/
def awaitsAgain (before after : List VehicleRecord) : Bool := (before ++ after).any fun x => decide (x.state = .awaitingClass)

/-- The record of a walk at its end (R143). -/
def Part.walkedRecord (p : Part) (r : VehicleRecord) : VehicleRecord :=
  classify p.image.assembly p.vcl.walk.groups p.image.rules r

/-- The class that a walk finds (R141). -/
def Part.walkedClass (p : Part) (r : VehicleRecord) : Fin 32 := classOf (firstMatch p.vcl.walk.groups r 0 p.image.rules)

/-- The walk behind its end: asking again while a record awaits its class (R132). -/
def Part.walkBehind (p : Part) (before : List VehicleRecord) (r : VehicleRecord) (after : List VehicleRecord) : Walk :=
  { state := if awaitsAgain before after then .waiting else .idle, record := none, groups := []
    rulePosition := rulesExamined p.vcl.walk.groups r p.image.rules, grantedAt := p.vcl.walk.grantedAt }

/-- The part whose walk is over, before its CLASS report (R132, R143). -/
def Part.walkEnded (p : Part) (before : List VehicleRecord) (r : VehicleRecord) (after : List VehicleRecord) : Part :=
  { p with
    vcl := { p.vcl with
      records := before ++ p.walkedRecord r :: after, walk := p.walkBehind before r after
      totals := countWalked (p.walkedClass r) r.gross p.vcl.totals }
    vau := { p.vau with port :=
      ({ p.vau.port with waitClassWalk := p.vau.port.waitClassWalk || awaitsAgain before after } : Port).grantNext } }

theorem Part.endWalk_eq (hp : p.vau.port.holder = some .classWalk) (hl : p.vcl.records = before ++ r :: after)
    (hb : ∀ x ∈ before, x.seq ≠ r.seq) : p.endWalk r =
      ((p.walkEnded before r after).classReport (recordTiming r) (p.walkedClass r)).offerVehicle := by
  have hchange : changeFirst (fun x => decide (x.seq = r.seq)) (fun _ => p.walkedRecord r) p.vcl.records =
      before ++ p.walkedRecord r :: after := by
    rw [hl]
    exact changeFirst_append (fun x hx => decide_eq_false (hb x hx)) (decide_eq_true rfl) _
  have hready : (p.walkedRecord r).state ≠ .awaitingClass := by simp [Part.walkedRecord, classify]
  have hany : (before ++ p.walkedRecord r :: after).any (fun x => decide (x.state = .awaitingClass)) = awaitsAgain before after := by
    simp [awaitsAgain, hready]
  have hwait : p.vau.port.request p.clock .classWalk = { p.vau.port with waitClassWalk := true } :=
    Port.request_held hp fun _ => le_rfl
  unfold Part.endWalk
  change ((Part.releaseWalk { p with vcl := { p.vcl with
      records := changeFirst (fun x => decide (x.seq = r.seq)) (fun _ => p.walkedRecord r) p.vcl.records
      walk := restingWalk (rulesExamined p.vcl.walk.groups r p.image.rules) p.vcl.walk.grantedAt
      totals := countWalked (p.walkedClass r) r.gross p.vcl.totals } }).classReport (recordTiming r)
        (p.walkedClass r)).offerVehicle = _
  rw [hchange]
  congr 2
  simp only [Part.releaseWalk, hany]
  cases ha : awaitsAgain before after with
  | true => simp [Part.walkEnded, Part.walkBehind, restingWalk, ha, Part.modVcl, Part.modVau, Part.releasePort, hwait]
  | false => simp [Part.walkEnded, Part.walkBehind, restingWalk, ha, Part.modVau, Part.releasePort]

theorem Part.walkRecord_of (hw : p.vcl.walk.record = some r.seq) (hl : p.vcl.records = before ++ r :: after)
    (hb : ∀ x ∈ before, x.seq ≠ r.seq) : p.walkRecord = some r := by
  simp only [Part.walkRecord, hw, hl]
  exact find?_append_cons (fun x hx => decide_eq_false (hb x hx)) (decide_eq_true rfl)

theorem Port.grantNext_holder (q : Port) : q.grantNext.holder = if q.waitDispatcher then some .dispatcher
    else if q.waitAxleFormer then some .axleFormer else if q.waitClassWalk then some .classWalk else none := by
  simp only [Port.grantNext]
  cases q.waitDispatcher <;> cases q.waitAxleFormer <;> cases q.waitClassWalk <;> rfl

/-- What the CLASS report and the offer leave: the port, the walk and the totals whole, and the walked record but for its TRIG flags
and its hand-over. -/
theorem Part.reported_and_offered (q : Part) (t : Timing) (cls : Fin 32) :
    let p := (q.classReport t cls).offerVehicle
    p.vau.port = q.vau.port ∧ p.vcl.walk = q.vcl.walk ∧ p.vcl.totals = q.vcl.totals ∧ q.changedOnly [.vcl, .vau, .tou, .sbc] p ∧
      ∀ x ∈ q.vcl.records, ∃ f, { x with slotFlags := f } ∈ p.vcl.records ∨
        x.state = .ready ∧ { x with slotFlags := f, state := .sending } ∈ p.vcl.records := by
  have hframe := Part.ReportFrame.classReport t cls q
  refine ⟨?_, ?_, ?_, ?_, fun x hx => ?_⟩
  · rw [Part.offerVehicle_vau, hframe.port]
  · rw [Part.offerVehicle_walk, hframe.walk]
  · rw [Part.offerVehicle_totals, hframe.totals]
  · exact ((reportStep_changedOnly.classReport t cls q).mono (by simp)).trans
      ((q.classReport t cls).changedOnly_offerVehicle.mono (by simp))
  · obtain ⟨f, hf⟩ := reportStep_slotsOnly.classReport t cls q x hx
    exact ⟨f, Part.mem_offerVehicle_records hf⟩

theorem Part.changedOnly_walkEnded (p : Part) (before : List VehicleRecord) (r : VehicleRecord) (after : List VehicleRecord) :
    p.changedOnly [.vcl, .vau, .tou, .sbc] (p.walkEnded before r after) :=
  ⟨rfl, rfl, fun k hk => by cases k <;> simp_all [Part.sameAt, Part.walkEnded]⟩

end

theorem exec_classWalkStart {s : State} (hs : s.running) (hp : s.part.vau.port.holder = some .classWalk)
    (hw : s.part.vcl.walk.state = .waiting) : exec .classWalkStart s = .next { s with part := s.part.startWalk } :=
  (act_running _ hs).trans (by simp only [hw, hp, decide_true, Bool.and_self, if_true])

theorem exec_classWalkEnd {s : State} {r : VehicleRecord} (hs : s.running) (hp : s.part.vau.port.holder = some .classWalk)
    (hw : s.part.vcl.walk.state = .walking) (hr : s.part.walkRecord = some r)
    (ht : s.part.vcl.walk.grantedAt + walkLength (rulesExamined s.part.vcl.walk.groups r s.part.image.rules) ≤ s.part.clock) :
    exec .classWalkEnd s = .next { s with part := s.part.endWalk r } := by
  have hover : s.part.walkOver = true := by
    simp only [Part.walkOver, hw, hp, hr, decide_true, Bool.true_and]
    exact decide_eq_true ht
  exact (act_running _ hs).trans (by simp only [hover, hr, if_true])

/-- Settles O58: the start takes the oldest record; the end is written out as one record update, behind which the report and the offer
leave the record but for its TRIG flags and its hand-over. -/
theorem classWalkClassifiesTheRecord : Obligations.ClassWalkClassifiesTheRecord := by
  refine ⟨fun s before after r hs hp hl => ⟨fun hw hb hr => ?_, fun hw hrec hb => ?_⟩, fun groups r rules i rule => ?_⟩
  · rw [exec_classWalkStart hs hp hw, Part.startWalk_oldest hl hb hr]
  · intro groups rules m examined cls totals done again port walk ended ht
    obtain ⟨hport, hwalk, htotals, hframe, hrecord⟩ :=
      Part.reported_and_offered (s.part.walkEnded before r after) (recordTiming r) (s.part.walkedClass r)
    have hdone : s.part.walkedRecord r = done := by
      simp only [Part.walkedRecord, classify, grossOver_eq]
      rfl
    have hended : s.part.walkEnded before r after = ended := by
      rw [Part.walkEnded, hdone]
      rfl
    rw [hended] at hport hwalk htotals hframe hrecord
    have hexec := exec_classWalkEnd hs hp hw (Part.walkRecord_of hrec hl hb) ht
    rw [Part.endWalk_eq hp hl hb, hended] at hexec
    refine ⟨_, hexec, rfl, hport, hwalk, ?_, htotals, ?_, hwalk ▸ rfl, hwalk ▸ rfl, hwalk ▸ rfl,
      (hended ▸ s.part.changedOnly_walkEnded before r after).trans hframe⟩
    · rw [hport]
      exact Port.grantNext_holder _
    · obtain ⟨f, hmem | ⟨-, hmem⟩⟩ := hrecord done (by simp [ended])
      · exact ⟨_, hmem, rfl, rfl, rfl, rfl, rfl, rfl, rfl, .inl rfl⟩
      · exact ⟨_, hmem, rfl, rfl, rfl, rfl, rfl, rfl, rfl, .inr rfl⟩
  · simpa using firstMatch_from groups r rules 0 i rule

end Sys2Proof.Machine
end


section
/-! PROOFS. The commands of the bus (R186 to R188): which states take them, which arguments fit, and what a judged command does;
with REQUEST_STATUS, REQUEST_TOTALS, CLEAR_MARKS and REBASELINE, the STATUS timers (R191), ATTN (R193), and the JOIN window and
the due points of site time (R84, R85). -/

namespace Sys2Proof.Machine

/-! ## The judgement of a command (R186, R187) -/

theorem exec_instr (k : CommandKind) (args : List Byte) (s : State) : exec (k.instr args) s = act (Part.judgeKnown k args) s := by
  cases k <;> rfl

section
variable {p : Part} {k : CommandKind} {args : List Byte}

theorem Part.recordResult_eq (code : Byte) (r : CommandResult) (p : Part) :
    p.recordResult code r = { p with csu := p.csu.judged code r } := rfl

theorem Part.receiverOn_of_takes (h : p.takesCommand k = true) : p.receiverOn = true := by
  cases hs : p.csu.station <;> simp_all [Part.takesCommand, Part.receiverOn]

theorem Part.judgeKnown_refused (hr : p.receiverOn = true) (ht : p.takesCommand k = false) (args : List Byte) :
    p.judgeKnown k args = { p with csu := p.csu.judged k.code .refusedState } := by
  simp [Part.judgeKnown, hr, Part.judgement, ht, Part.recordResult_eq]

theorem Part.judgeKnown_bad (ht : p.takesCommand k = true) (ha : argumentsFit k args = false) :
    p.judgeKnown k args = { p with csu := p.csu.judged k.code .badArgument } := by
  simp [Part.judgeKnown, Part.receiverOn_of_takes ht, Part.judgement, ht, ha, Part.recordResult_eq]

theorem Part.judgeKnown_taken (ht : p.takesCommand k = true) (ha : argumentsFit k args = true) :
    p.judgeKnown k args = { p.doCommand k args with csu := (p.doCommand k args).csu.judged k.code .taken } := by
  simp [Part.judgeKnown, Part.receiverOn_of_takes ht, Part.judgement, ht, ha, Part.recordResult_eq]

theorem exec_taken {s : State} (hs : s.running) (ht : s.part.takesCommand k = true) (ha : argumentsFit k args = true) :
    exec (k.instr args) s = .next { s with part :=
      { s.part.doCommand k args with csu := (s.part.doCommand k args).csu.judged k.code .taken } } := by
  rw [exec_instr, act_running _ hs, Part.judgeKnown_taken ht ha]

theorem commandKindOf_code (k : CommandKind) : commandKindOf k.code = some k := by cases k <;> rfl

theorem commandKindOf_unknown {code : Byte} (h : code = 0 ∨ 8 ≤ code.toNat) : commandKindOf code = none := by
  refine List.find?_eq_none.2 fun k _ hk => ?_
  obtain rfl : k.code = code := of_decide_eq_true hk
  revert h
  cases k <;> decide

theorem Part.judgeUnknown_eq (hr : p.receiverOn = true) (code : Byte) :
    p.judgeUnknown code = { p with csu := p.csu.judged code .unknown } := by
  simp [Part.judgeUnknown, hr, Part.recordResult_eq]

theorem exec_unknownCommand {s : State} {code : Byte} (hs : s.running) (hr : s.part.receiverOn = true)
    (h : code = 0 ∨ 8 ≤ code.toNat) (args : List Byte) :
    exec (.unknownCommand code args) s = .next { s with part := { s.part with csu := s.part.csu.judged code .unknown } } := by
  have hexec : exec (.unknownCommand code args) s = .next { s with
      part := if (commandKindOf code).isSome then s.part else s.part.judgeUnknown code } :=
    act_running (fun p => if (commandKindOf code).isSome then p else p.judgeUnknown code) hs
  rw [hexec, commandKindOf_unknown h, Part.judgeUnknown_eq hr]
  rfl

/-! ## The arguments of a command (R186) -/

theorem argumentsFit_empty (h : k ≠ .clearMarks ∧ k ≠ .rebaseline) (args : List Byte) : argumentsFit k args = true ↔ args = [] := by
  cases args with
  | nil =>
    refine iff_of_true ?_ rfl
    cases k
    case clearMarks => exact absurd rfl h.1
    case rebaseline => exact absurd rfl h.2
    all_goals rfl
  | cons a l =>
    refine iff_of_false ?_ (List.cons_ne_nil a l)
    cases k
    case clearMarks => exact absurd rfl h.1
    case rebaseline => exact absurd rfl h.2
    all_goals exact Bool.false_ne_true

theorem argumentsFit_clearMarks_two (a b : Byte) : argumentsFit .clearMarks [a, b] =
    (decide (a.toNat < 32) && decide (b.toNat < 64) && !(decide (a = 0) && decide (b = 0))) := rfl

theorem argumentsFit_rebaseline_one (a : Byte) : argumentsFit .rebaseline [a] = (decide (a.toNat < 16) && decide (a ≠ 0)) := rfl

theorem argumentsFit_clearMarks (args : List Byte) : argumentsFit .clearMarks args = true ↔
    ∃ a b : Byte, args = [a, b] ∧ a.toNat < 32 ∧ b.toNat < 64 ∧ (a ≠ 0 ∨ b ≠ 0) := by
  match args with
  | [] => exact iff_of_false Bool.false_ne_true (by simp)
  | [_] => exact iff_of_false Bool.false_ne_true (by simp)
  | [a, b] =>
    rw [argumentsFit_clearMarks_two]
    simp [and_assoc]
  | _ :: _ :: _ :: _ => exact iff_of_false Bool.false_ne_true (by simp)

theorem argumentsFit_rebaseline (args : List Byte) : argumentsFit .rebaseline args = true ↔
    ∃ a : Byte, args = [a] ∧ a.toNat < 16 ∧ a ≠ 0 := by
  match args with
  | [] => exact iff_of_false Bool.false_ne_true (by simp)
  | [a] =>
    rw [argumentsFit_rebaseline_one]
    simp
  | _ :: _ :: _ => exact iff_of_false Bool.false_ne_true (by simp)

end

/-- Settles O17: a command that is not taken reaches the result alone, and the two tables are read off. -/
theorem commandsAreTakenOrRefused : Obligations.CommandsAreTakenOrRefused := by
  refine ⟨fun s k code args hs hr => ⟨fun ht => ?_, fun ht ha => ?_, fun hc => exec_unknownCommand hs hr hc args⟩,
    fun p k => ⟨fun h => ?_, fun h => ?_, fun h hi => ?_, fun h hi => ?_, argumentsFit_empty, argumentsFit_clearMarks,
      argumentsFit_rebaseline⟩⟩
  · rw [exec_instr, act_running _ hs, Part.judgeKnown_refused hr ht]
  · rw [exec_instr, act_running _ hs, Part.judgeKnown_bad ht ha]
  · rcases h with h | h | h <;> simp [Part.takesCommand, h]
  · simp [Part.takesCommand, h]
  · simp [Part.takesCommand, h, hi]
  · simp [Part.takesCommand, h, hi]

/-! ## CLEAR_MARKS and REBASELINE (R13, R17, R56) -/

theorem changeMasked_get {ch : Channel} {bit : Nat} (h : (ch, bit) ∈ [(Channel.ll, 0), (.lr, 1), (.tl, 2), (.tr, 3)]) (mask : Byte)
    (f : ChannelRecord → ChannelRecord) (q : PerChannel ChannelRecord) :
    (changeMasked mask.toNat f q).get ch = if mask.getLsbD bit then f (q.get ch) else q.get ch := by
  simp only [List.mem_cons, Prod.mk.injEq, List.not_mem_nil, or_false] at h
  rcases h with ⟨rfl, rfl⟩ | ⟨rfl, rfl⟩ | ⟨rfl, rfl⟩ | ⟨rfl, rfl⟩ <;> rfl

theorem Part.clearProbeMarks_get {pr : Probe} {bit : Nat} (h : (pr, bit) ∈ [(Probe.p0, 4), (.p1, 5)]) (faults : Byte) (p : Part) :
    (p.clearProbeMarks faults.toNat).ptu.probes.get pr =
      if faults.getLsbD bit then { p.ptu.probes.get pr with mark := none } else p.ptu.probes.get pr := by
  simp only [List.mem_cons, Prod.mk.injEq, List.not_mem_nil, or_false] at h
  rcases h with ⟨rfl, rfl⟩ | ⟨rfl, rfl⟩ <;> rfl

theorem ChannelRecord.rebaseline_eq (c : ChannelRecord) : c.rebaseline = match c.state with
    | .idle => { c with seedPending := true }
    | .pulse | .tail => { c with
        state := .idle, area := 0, peak := 0, lengthCount := 0, tailCount := 0, flags := noHitFlags, seedPending := true }
    | .stuck => { c with state := .idle, stuckCount := 0, quietCount := 0, seedPending := true } := by
  cases h : c.state <;> simp [ChannelRecord.rebaseline, ChannelRecord.toIdle, ChannelRecord.abandonPulse, h]

theorem Part.changedOnly_clearMarks (marks faults : Byte) (p : Part) :
    p.changedOnly [.csu, .lcu, .ptu] (p.clearMarks marks faults) :=
  ⟨rfl, rfl, fun k hk => by cases k <;> simp_all [Part.sameAt, Part.clearMarks, Part.clearProbeMarks]⟩

/-- Recording a command's result changes the CSU alone. -/
theorem Part.changedOnly_withCsu (c : Csu) (p : Part) : p.changedOnly [.csu] { p with csu := c } := p.changedOnly_modCsu fun _ => c

/-- Settles O16: each channel and probe by the bit of the mask that names it. -/
theorem clearMarksAndRebaselineActOnTheirMasks : Obligations.ClearMarksAndRebaselineActOnTheirMasks := by
  refine ⟨fun s marks faults hs ht hm hf hne => ⟨_, exec_taken (k := .clearMarks) hs ht
      ((argumentsFit_clearMarks _).2 ⟨marks, faults, rfl, hm, hf, hne⟩), rfl, fun ch bit hb => ?_, fun pr bit hb => ?_, rfl, ?_⟩,
    fun s mask hs ht hm hne => ⟨_, exec_taken (k := .rebaseline) hs ht ((argumentsFit_rebaseline _).2 ⟨mask, rfl, hm, hne⟩), rfl,
      fun ch bit hb => ⟨fun hbit => ?_, fun hbit => ?_⟩, ?_⟩⟩
  · exact changeMasked_get hb faults ChannelRecord.clearMark s.part.lcu.channels
  · exact Part.clearProbeMarks_get hb faults _
  · exact (s.part.changedOnly_clearMarks marks faults).trans ((Part.changedOnly_withCsu _ _).mono (by simp))
  · exact (changeMasked_get hb mask ChannelRecord.rebaseline s.part.lcu.channels).trans (by rw [hbit]; rfl)
  · refine (changeMasked_get hb mask ChannelRecord.rebaseline s.part.lcu.channels).trans ?_
    rw [hbit, if_pos rfl]
    exact ChannelRecord.rebaseline_eq _
  · exact ((s.part.changedOnly_modLcu _).mono (by simp)).trans ((Part.changedOnly_withCsu _ _).mono (by simp))

/-! ## Requests and timers (R159, R191) and ATTN (R193) -/

theorem Part.usesLine_iff {p : Part} : p.usesLine = true ↔ p.csu.station = .unconfigured ∨ p.onDuty = true := by simp [Part.usesLine]

/-- ATTN, in the states in which the marks decide: a mark is set that the attention mask does not name (R193). -/
theorem removeMarks_ne_clear_iff {m mask : MarkSet} :
    removeMarks m mask ≠ .clear ↔ ∃ x : ChangeMark, hasMark m x = true ∧ hasMark mask x = false := by
  constructor
  · intro h
    by_contra hn
    push Not at hn
    refine h ?_
    have hstate := hn .state
    have hchannels := hn .channels
    have hprobes := hn .probes
    have htime := hn .time
    have hbus := hn .bus
    simp only [hasMark, ne_eq, Bool.not_eq_false] at hstate hchannels hprobes htime hbus
    simp only [removeMarks, MarkSet.clear, MarkSet.mk.injEq, Bool.and_eq_false_imp, Bool.not_eq_false']
    exact ⟨hstate, hchannels, hprobes, htime, hbus⟩
  · rintro ⟨x, hx, hn⟩ h
    have hfield : hasMark (removeMarks m mask) x = true := by
      cases x <;> simp_all [hasMark, removeMarks]
    rw [h] at hfield
    cases x <;> exact absurd hfield (by decide)

theorem Part.periodicDue_of {p : Part} {t : Nat} (hu : p.usesLine = true) (hp : p.csu.periodicSince = some t)
    (ht : t + 10000000 ≤ p.clock) : p.periodicDue = true := by
  simp only [Part.periodicDue, hu, hp, elapsed, statusPeriod, Bool.true_and]
  exact decide_eq_true ht

theorem Part.deferredDue_of {p : Part} {t : Nat} (hu : p.usesLine = true) (hd : p.csu.deferred = true)
    (hp : p.csu.lastMarkRequest = some t) (ht : t + 100000 ≤ p.clock) : p.deferredDue = true := by
  simp only [Part.deferredDue, hu, hd, hp, elapsed, markSpacing, Bool.true_and]
  exact decide_eq_true ht

theorem exec_statusPeriodicTimer {s : State} (hs : s.running) (hd : s.part.periodicDue = true) :
    exec .statusPeriodicTimer s = .next { s with part :=
      ({ s.part with csu := { s.part.csu with periodicSince := some s.part.clock } } : Part).handFrame .status } := by
  change act (fun p => if p.periodicDue then (p.modCsu fun c => { c with periodicSince := some p.clock }).requestStatus else p) s = _
  rw [act_running _ hs, if_pos hd]
  rfl

theorem exec_statusDeferredRequest {s : State} (hs : s.running) (hd : s.part.deferredDue = true) :
    exec .statusDeferredRequest s = .next { s with part :=
      ({ s.part with csu := { s.part.csu with lastMarkRequest := some s.part.clock, deferred := false } } : Part).handFrame .status } := by
  change act (fun p => if p.deferredDue then p.requestForMarks else p) s = _
  rw [act_running _ hs, if_pos hd]
  rfl

/-- Settles O19: the requests are hand-overs to the list, and ATTN is read off by station state. -/
theorem requestsReachTheListAndAttnFollows : Obligations.RequestsReachTheListAndAttnFollows := by
  refine ⟨fun s hs => ⟨fun ht => ?_, fun ht => ?_, fun t hu hp ht => ?_, fun t hu hd hp ht => ?_⟩,
    fun p hr => ⟨fun h => ?_, fun h => ?_, fun hm hl => ?_⟩⟩
  · refine (exec_taken (k := .requestStatus) hs ht rfl).trans ?_
    simp only [Part.doCommand, Part.requestStatus_csu]
    rfl
  · refine (exec_taken (k := .requestTotals) hs ht rfl).trans ?_
    simp only [Part.doCommand, Part.handFrame_csu]
    rfl
  · exact exec_statusPeriodicTimer hs (Part.periodicDue_of hu hp ht)
  · exact exec_statusDeferredRequest hs (Part.deferredDue_of hu hd hp ht)
  · simp [Part.attn, hr, h]
  · simp [Part.attn, hr, h]
  · rw [← removeMarks_ne_clear_iff]
    cases h : p.csu.station <;> simp_all [Part.attn]

/-! ## The JOIN window's end and the due points (R84, R85) -/

section
variable {p : Part}

theorem Part.joinOver_of {t : Nat} (hs : p.csu.station = .join) (hw : p.stu.joinWindow = some t) (ht : t + 1000000 ≤ p.clock) :
    p.joinOver = true := by
  simp only [Part.joinOver, hs, hw, elapsed, joinLength, decide_true, Bool.true_and]
  exact decide_eq_true ht

/-- A frame that finds none of its kind and room for it and one more behind stays in the list. -/
theorem Part.mem_handFrame_self {c : TxContent} (ht : p.listTakes c.kind = true) (hm : merges p.sbc.list c = false)
    (hl : p.sbc.list.length < 7) : newEntry c p.now ∈ (p.handFrame c).sbc.list := by
  have hplace : p.enterList c p.now = p.placeEntry (newEntry c p.now) := Part.enterList_place ht hm _
  have hroom : p.sbc.list.length < 8 := by omega
  refine Part.mem_offerVehicle_of_mem ?_ (.inl ?_)
  · rw [hplace]
    exact Part.mem_placeEntry_self (.inl hroom)
  · rw [hplace, Part.placeEntry_length hroom]
    omega

theorem merges_time_of_none {l : List TxEntry} (h : ∀ e ∈ l, e.content ≠ .time) : merges l .time = false :=
  List.any_eq_false.2 fun e he => by simpa [TxContent.kind_eq_time] using h e he

theorem Part.mem_handTime (hd : p.onDuty = true) (hl : p.sbc.list.length < 7) (hn : ∀ e ∈ p.sbc.list, e.content ≠ .time) :
    newEntry .time p.now ∈ p.handTime.sbc.list :=
  Part.mem_handFrame_self (Part.listTakes_iff.2 (.inl hd)) (merges_time_of_none hn) hl

/-- The part whose JOIN window is over and whose TIME frame has been handed over (R85). -/
def Part.joinTimed (p : Part) : Part := (p.modStu fun u => { u with joinWindow := none }).handTime

theorem Part.endJoin_eq (p : Part) : p.endJoin =
    (p.joinTimed.setStation (if p.joinTimed.holdActive then .hold else .run)).setMark .state := rfl

theorem Part.changedOnly_endJoin (p : Part) : p.changedOnly [.csu, .sbc, .stu, .vcl] p.endJoin := by
  rw [Part.endJoin_eq]
  refine Part.changedOnly.trans (b := p.joinTimed) ?_ ?_
  · exact ((p.changedOnly_modStu _).mono (by simp)).trans ((Part.changedOnly_handFrame .time _).mono (by simp))
  · exact ((Part.changedOnly_modCsu _ _).mono (by simp)).trans ((Part.changedOnly_setMark .state _).mono (by simp))

theorem Part.endJoin_station (p : Part) :
    p.endJoin.csu.station = if p.csu.pinActive = true ∨ p.csu.commandHold = true then .hold else .run := by
  simp [Part.endJoin, Part.setStation, Part.holdActive]

theorem Part.endJoin_stu (p : Part) : p.endJoin.stu = { p.stu with joinWindow := none } := by simp [Part.endJoin, Part.setStation]

theorem Part.endJoin_marks (p : Part) : p.endJoin.csu.marks.state = true := by simp [Part.endJoin, addMark]

theorem Part.mem_endJoin (hd : p.onDuty = true) (hl : p.sbc.list.length < 7) (hn : ∀ e ∈ p.sbc.list, e.content ≠ .time) :
    newEntry .time p.now ∈ p.endJoin.sbc.list := by
  have hmem (st : StationState) : newEntry .time p.now ∈ (p.joinTimed.setStation st).sbc.list :=
    Part.mem_handTime (p := p.modStu fun u => { u with joinWindow := none }) hd hl hn
  rw [Part.endJoin_eq]
  exact Part.mem_setMark_of_mem (hmem _) (show FrameKind.time.code ≤ 4 by decide) .state

theorem Part.atDuePoint_iff : p.atDuePoint = true ↔ (p.csu.station = .run ∨ p.csu.station = .hold) ∧
    p.now.toNat % 250000 = 16000 * p.block.number ∧ p.stu.lastDue ≠ some p.now := by
  have hpoint : isDuePoint p.block.number p.now = true ↔ p.now.toNat % 250000 = 16000 * p.block.number := decide_eq_true_iff
  simp [Part.atDuePoint, Part.inRunOrHold, hpoint, and_assoc]

theorem Part.catchDue_at (h : p.atDuePoint = true) :
    p.catchDue = ({ p with stu := { p.stu with lastDue := some p.stu.siteTime } } : Part).handFrame .time := by
  rw [Part.catchDue, if_pos h]
  rfl

theorem Part.catchDue_off (h : ¬p.atDuePoint = true) : p.catchDue = p := if_neg h

end

section
variable {s : State}

theorem exec_joinWindowEnd (hs : s.running) (h : s.part.joinOver = true) :
    exec .joinWindowEnd s = .next { s with part := s.part.endJoin } := by
  have hact := act_running (s := s) (fun p => if p.joinOver then p.endJoin else p) hs
  simp only [if_pos h] at hact
  exact hact

theorem exec_timeDuePoint (hs : s.running) : exec .timeDuePoint s = .next { s with part := s.part.catchDue } := act_running _ hs

theorem exec_timeDuePoint_at (hs : s.running) (h : s.part.atDuePoint = true) : exec .timeDuePoint s = .next { s with
    part := ({ s.part with stu := { s.part.stu with lastDue := some s.part.stu.siteTime } } : Part).handFrame .time } := by
  rw [exec_timeDuePoint hs, Part.catchDue_at h]

theorem exec_timeDuePoint_off (hs : s.running) (h : ¬s.part.atDuePoint = true) : exec .timeDuePoint s = .next s := by
  rw [exec_timeDuePoint hs, Part.catchDue_off h]

end

/-- Settles O18: the window's end is the hand-over, the station state and the mark; a due point is acted on unless it has been. -/
theorem joinEndAndDuePointsHandTimeFrames : Obligations.JoinEndAndDuePointsHandTimeFrames := by
  intro s hs now
  refine ⟨fun t hj hw ht => ⟨s.part.endJoin, exec_joinWindowEnd hs (Part.joinOver_of hj hw ht), s.part.endJoin_station,
    s.part.endJoin_marks, s.part.endJoin_stu, fun hl hn => ?_, s.part.changedOnly_endJoin⟩, fun hst hn hl => ?_, fun hl => ?_,
    fun hr hh => ?_⟩
  · exact ⟨_, Part.mem_endJoin (Part.onDuty_iff.2 (.inl hj)) hl hn, rfl, rfl, rfl⟩
  · exact exec_timeDuePoint_at hs (Part.atDuePoint_iff.2 ⟨hst, hn, hl⟩)
  · exact exec_timeDuePoint_off hs fun h => (Part.atDuePoint_iff.1 h).2.2 hl
  · exact exec_timeDuePoint_off hs fun h => (Part.atDuePoint_iff.1 h).1.elim hr hh

end Sys2Proof.Machine
end


section
/-! PROOFS. The measurement cycle (R43, R48, R49, R52, R53): the interval, the settling and the conversion, what a completed conversion
leaves, and where its TEMP frame finds room beside the frames that its change mark brings into the list. -/

namespace Sys2Proof.Machine

/-! ## What a change mark brings into the list (R63, R153, R191) -/

section
variable {p : Part} {x : TxEntry}

theorem Part.offerVehicle_of_vehicle (h : ∃ x ∈ p.sbc.list, x.content.kind = .vehicle) : p.offerVehicle = p :=
  Part.offerVehicle_uninvited fun hi => hi.2.1 h

/-- Into a list with room an offer puts at most one VEHICLE frame, and moves no other. -/
theorem Part.offerVehicle_room (hl : p.sbc.list.length < 8) : p.offerVehicle.sbc.list = p.sbc.list ∨
    ∃ seq, p.offerVehicle.sbc.list = insertByKind (newEntry (.vehicle seq) p.now) p.sbc.list := by
  by_cases hi : p.Invites
  · by_cases hr : ∀ r ∈ p.vcl.records, r.state ≠ .ready
    · exact .inl (by rw [Part.offerVehicle_none_ready hr])
    · obtain ⟨before, r, after, hs, hready, hb⟩ := Part.exists_first_ready hr
      refine .inr ⟨r.seq, ?_⟩
      rw [Part.offerVehicle_ready hi hs hready hb, Part.enterList_vehicle (p := p.offered before r after) hi.1,
        Part.placeEntry_room (p := p.offered before r after) hl]
      rfl
  · exact .inl (by rw [Part.offerVehicle_uninvited hi])

/-- A STATUS request into a list with room adds at most one frame. -/
theorem Part.enterList_status_length (hl : p.sbc.list.length < 8) (t : SiteTime) :
    (p.enterList .status t).sbc.list.length ≤ p.sbc.list.length + 1 := by
  rcases ht : p.listTakes TxContent.status.kind with _ | _
  · rw [Part.enterList_not_taken ht]
    exact Nat.le_succ _
  rcases hm : merges p.sbc.list .status with _ | _
  · rw [Part.enterList_place ht hm, Part.placeEntry_length hl]
  · rw [Part.enterList_request_merges (.inl rfl) ht hm]
    simp

/-- What is in the list after a STATUS request and was not before is a STATUS frame. -/
theorem Part.mem_of_mem_enterList_status {t : SiteTime} (hx : x ∈ (p.enterList .status t).sbc.list) :
    x.content.kind = .status ∨ x ∈ p.sbc.list := by
  rcases ht : p.listTakes TxContent.status.kind with _ | _
  · rw [Part.enterList_not_taken ht] at hx
    exact .inr hx
  rcases hm : merges p.sbc.list .status with _ | _
  · rw [Part.enterList_place ht hm] at hx
    exact (Part.placeEntry_list hx).imp_left fun h => by rw [h]; rfl
  · rw [Part.enterList_request_merges (.inl rfl) ht hm] at hx
    rcases mem_changeFirst hx with hx | ⟨e, -, he, rfl⟩
    · exact .inr hx
    · refine .inl ?_
      have hkind : e.content.kind = .status := of_decide_eq_true he
      unfold mergeRequest
      split <;> exact hkind

/-- A list that has room for one frame more, whatever VEHICLE offer follows. -/
def Part.HasRoom (p : Part) (n : Nat) : Prop :=
  p.sbc.list.length ≤ n ∨ p.sbc.list.length ≤ n + 1 ∧ ∃ x ∈ p.sbc.list, x.content.kind = .vehicle

theorem Part.requestStatus_room (hl : p.sbc.list.length < 7) : p.requestStatus.HasRoom (p.sbc.list.length + 1) ∧
    ∀ x ∈ p.requestStatus.sbc.list, x.content.kind = .temp → x ∈ p.sbc.list := by
  have hlength := Part.enterList_status_length (p := p) (by omega) p.now
  have htemp : ∀ x ∈ (p.enterList .status p.now).sbc.list, x.content.kind = .temp → x ∈ p.sbc.list := fun x hx hk =>
    (Part.mem_of_mem_enterList_status hx).resolve_left (by simp [hk])
  unfold Part.requestStatus Part.handFrame
  rcases Part.offerVehicle_room (p := p.enterList .status p.now) (by omega) with h | ⟨seq, h⟩
  · exact ⟨.inl (h ▸ hlength), fun x hx => htemp x (h ▸ hx)⟩
  · refine ⟨.inr ⟨?_, newEntry (.vehicle seq) (p.enterList .status p.now).now, ?_, rfl⟩, fun x hx hk => htemp x ?_ hk⟩
    · rw [h, insertByKind, insertBefore_length]
      omega
    · rw [h]
      exact mem_insertBefore.2 (.inl rfl)
    · rw [h] at hx
      refine (mem_insertBefore.1 hx).resolve_left fun hv => ?_
      rw [hv] at hk
      exact FrameKind.noConfusion hk

theorem Part.setMark_room (hl : p.sbc.list.length < 7) (m : ChangeMark) : (p.setMark m).HasRoom (p.sbc.list.length + 1) ∧
    ∀ x ∈ (p.setMark m).sbc.list, x.content.kind = .temp → x ∈ p.sbc.list := by
  have hsame {q : Part} (hq : q.sbc = p.sbc) : q.HasRoom (p.sbc.list.length + 1) ∧
      ∀ x ∈ q.sbc.list, x.content.kind = .temp → x ∈ p.sbc.list :=
    ⟨.inl (by rw [hq]; exact Nat.le_succ _), fun x hx _ => hq ▸ hx⟩
  have hrequest {q : Part} (hq : q.sbc = p.sbc) : q.requestForMarks.HasRoom (p.sbc.list.length + 1) ∧
      ∀ x ∈ q.requestForMarks.sbc.list, x.content.kind = .temp → x ∈ p.sbc.list := by
    have h := Part.requestStatus_room (p := q.modCsu fun c => { c with lastMarkRequest := some q.clock, deferred := false })
      (by simpa [hq] using hl)
    simp only [Part.modCsu_sbc, hq] at h
    exact h
  unfold Part.setMark Part.markNewlySet
  split
  · exact hsame rfl
  · split
    · exact hsame rfl
    · split
      · exact hrequest rfl
      · split
        · exact hrequest rfl
        · exact hsame rfl

end

/-! ## The TEMP request (R52, R53) -/

section
variable {p : Part} {pr : Probe}

/-- The content of a TEMP request for a probe (R53). -/
def Part.tempContent (p : Part) (pr : Probe) : TxContent :=
  .temp pr { quality := (p.ptu.probes.get pr).own.quality, group := p.block.group, value := (p.ptu.probes.get pr).own.value }

theorem Part.requestTemp_silent (h : p.csu.station = .silent) (pr : Probe) : p.requestTemp pr = p := by simp [Part.requestTemp, h]

theorem Part.requestTemp_heard (h : p.csu.station ≠ .silent) (pr : Probe) : p.requestTemp pr =
    (p.modProbe pr fun s => { s with tempTimer := some p.clock }).handFrame (p.tempContent pr) := by
  simp only [Part.requestTemp, if_neg h]
  rfl

theorem merges_temp_of_none {l : List TxEntry} (h : ∀ e ∈ l, isTempOf pr e = false) (c : TempContent) :
    merges l (.temp pr c) = false := List.any_eq_false.2 fun e he => by simp [h e he]

theorem Part.mem_requestTemp (hd : p.onDuty = true) (hn : ∀ e ∈ p.sbc.list, isTempOf pr e = false) (hl : p.HasRoom 6) :
    newEntry (p.tempContent pr) p.now ∈ (p.requestTemp pr).sbc.list := by
  have hs : p.csu.station ≠ .silent := fun hs => by
    rw [Part.onDuty_iff] at hd
    simp [hs] at hd
  have hroom : p.sbc.list.length < 8 := by
    rcases hl with hl | ⟨hl, -⟩ <;> omega
  rw [Part.requestTemp_heard hs]
  generalize hq : p.modProbe pr (fun s => { s with tempTimer := some p.clock }) = q
  have hsbc : q.sbc = p.sbc := hq ▸ rfl
  have hnow : q.now = p.now := hq ▸ rfl
  have htakes : q.listTakes (p.tempContent pr).kind = true := Part.listTakes_iff.2 (.inl (hq ▸ hd))
  have hplace : q.enterList (p.tempContent pr) q.now = q.placeEntry (newEntry (p.tempContent pr) p.now) := by
    rw [← hnow]
    exact Part.enterList_place htakes (by rw [hsbc]; exact merges_temp_of_none hn _) _
  have hself : newEntry (p.tempContent pr) p.now ∈ (q.placeEntry (newEntry (p.tempContent pr) p.now)).sbc.list :=
    Part.mem_placeEntry_self (.inl (hsbc ▸ hroom))
  rw [Part.handFrame, hplace]
  rcases hl with hl | ⟨-, v, hv, hk⟩
  · refine Part.mem_offerVehicle_of_mem hself (.inl ?_)
    rw [Part.placeEntry_length (hsbc ▸ hroom), hsbc]
    omega
  · rwa [Part.offerVehicle_of_vehicle ⟨v, Part.mem_placeEntry_of_mem (hsbc ▸ hv) (.inl (hsbc ▸ hroom)), hk⟩]

end

/-! ## A completed conversion (R43 to R49) -/

theorem PerProbe.set_set {α : Type} (q : PerProbe α) (pr : Probe) (a b : α) : (q.set pr a).set pr b = q.set pr b := by
  cases pr <;> rfl

theorem takeReading_tempTimer (r : Reading) (s : ProbeState) : (takeReading r s).1.tempTimer = s.tempTimer := by
  unfold takeReading
  split
  · rfl
  · split
    · rfl
    · dsimp only
      split
      · rfl
      · split <;> rfl

theorem serveNext_two (params : PerProbe ProbeParams) (clock : Nat) : serveNext params clock [.p0, .p1] =
    if params.p0.enable then .settle .p0 clock else if params.p1.enable then .settle .p1 clock else .idle := rfl

theorem serveNext_after (params : PerProbe ProbeParams) (clock : Nat) (pr : Probe) : serveNext params clock (probesAfter pr) =
    if pr = .p0 ∧ params.p1.enable = true then .settle .p1 clock else .idle := by
  cases pr
  · simp only [true_and]
    rfl
  · simp only [reduceCtorEq, false_and, if_false]
    rfl

section
variable (p : Part) (pr : Probe) (code : BitVec 16)

/-- A conversion's reading on its probe, with whether it was accepted. -/
def Part.conversion : ProbeState × Bool :=
  takeReading (readCode (p.image.probes.probe.get pr) code.toNat) (p.ptu.probes.get pr)

/-- The quality of the probe changes with the conversion (R48). -/
abbrev Part.qualityChanges : Prop := (p.conversion pr code).1.quality ≠ (p.ptu.probes.get pr).quality

/-- The conversion makes a TEMP request (R52). -/
def Part.asksTemp : Bool := (p.conversion pr code).2 || decide (p.qualityChanges pr code)

/-- The part whose probe has taken the reading (R49). -/
def Part.converted : Part := (p.noteCode pr code).modProbe pr fun _ => updateOwn p.now (p.conversion pr code).1

/-- The part whose change of quality, if there is one, has set PROBES (R48). -/
def Part.convertedMarked : Part :=
  if p.qualityChanges pr code then (p.converted pr code).setMark .probes else p.converted pr code

/-- The part whose TEMP request, if one is made, has been handed over (R52). -/
def Part.convertedAsked : Part :=
  if p.asksTemp pr code then (p.convertedMarked pr code).requestTemp pr else p.convertedMarked pr code

theorem Part.finishConversion_eq : (p.noteCode pr code).finishConversion pr code.toNat =
    (p.convertedAsked pr code).modPtu fun u => { u with
      converter := serveNext (p.noteCode pr code).image.probes.probe (p.noteCode pr code).clock (probesAfter pr) } := rfl

variable {p pr code}

theorem Part.asksTemp_iff : p.asksTemp pr code = true ↔ (p.conversion pr code).2 = true ∨ p.qualityChanges pr code := by
  simp [Part.asksTemp]

theorem Part.convertedMarked_ptu : (p.convertedMarked pr code).ptu = (p.converted pr code).ptu := by
  unfold Part.convertedMarked
  split
  · exact Part.setMark_ptu _ _
  · rfl

theorem Part.convertedMarked_station : (p.convertedMarked pr code).csu.station = p.csu.station := by
  unfold Part.convertedMarked
  split
  · exact Part.setMark_station _ _
  · rfl

theorem Part.convertedMarked_block : (p.convertedMarked pr code).block = p.block := by
  unfold Part.convertedMarked
  split
  · exact congrArg (fun b => b.getD absentBlock) (Part.setMark_block _ _)
  · rfl

theorem Part.convertedMarked_clock : (p.convertedMarked pr code).clock = p.clock := by
  unfold Part.convertedMarked
  split
  · exact Part.setMark_clock _ _
  · rfl

theorem Part.convertedMarked_marks : (p.convertedMarked pr code).csu.marks =
    if p.qualityChanges pr code then { p.csu.marks with probes := true } else p.csu.marks := by
  unfold Part.convertedMarked
  split
  · exact Part.setMark_marks _ _
  · rfl

theorem Part.changedOnly_converted : p.changedOnly [.ptu, .csu, .sbc, .vcl] (p.converted pr code) :=
  ⟨rfl, rfl, fun k hk => by cases k <;> simp_all [Part.sameAt, Part.converted, Part.noteCode]⟩

theorem Part.changedOnly_convertedMarked : p.changedOnly [.ptu, .csu, .sbc, .vcl] (p.convertedMarked pr code) := by
  unfold Part.convertedMarked
  split
  · exact Part.changedOnly_converted.trans ((Part.changedOnly_setMark .probes _).mono (by simp))
  · exact Part.changedOnly_converted

theorem Part.changedOnly_requestTemp (pr : Probe) (p : Part) : p.changedOnly [.ptu, .sbc, .vcl] (p.requestTemp pr) :=
  ⟨by simp, by simp, fun k hk => by cases k <;> simp_all [Part.sameAt]⟩

theorem Part.changedOnly_convertedAsked : p.changedOnly [.ptu, .csu, .sbc, .vcl] (p.convertedAsked pr code) := by
  unfold Part.convertedAsked
  split
  · exact Part.changedOnly_convertedMarked.trans ((Part.changedOnly_requestTemp pr _).mono (by simp))
  · exact Part.changedOnly_convertedMarked

theorem Part.convertedAsked_marks : (p.convertedAsked pr code).csu.marks =
    if p.qualityChanges pr code then { p.csu.marks with probes := true } else p.csu.marks := by
  rw [← Part.convertedMarked_marks]
  unfold Part.convertedAsked
  split
  · rw [Part.requestTemp_csu]
  · rfl

theorem Part.requestTemp_ptu_heard (h : p.csu.station ≠ .silent) (pr : Probe) : (p.requestTemp pr).ptu = { p.ptu with
    probes := p.ptu.probes.set pr { p.ptu.probes.get pr with tempTimer := some p.clock } } := by
  rw [Part.requestTemp_heard h, Part.handFrame_ptu]
  rfl

/-- The probe and the codes after a conversion (R43, R49, R52). -/
theorem Part.convertedAsked_ptu : (p.convertedAsked pr code).ptu = { p.ptu with
    codes := p.ptu.codes.set pr code
    probes := p.ptu.probes.set pr { (p.conversion pr code).1 with
      own := { value := if (p.conversion pr code).1.seeded then some (p.conversion pr code).1.filtered else none
               quality := (p.conversion pr code).1.quality, receiveTime := p.now }
      tempTimer := if ((p.conversion pr code).2 = true ∨ p.qualityChanges pr code) ∧ p.csu.station ≠ .silent then some p.clock
        else (p.ptu.probes.get pr).tempTimer } } := by
  have htimer : (p.conversion pr code).1.tempTimer = (p.ptu.probes.get pr).tempTimer := takeReading_tempTimer _ _
  simp only [← Part.asksTemp_iff, ← htimer]
  unfold Part.convertedAsked
  by_cases ha : p.asksTemp pr code = true
  · rw [if_pos ha]
    by_cases hs : p.csu.station = .silent
    · rw [if_neg (by simp [hs]), Part.requestTemp_silent (by rwa [Part.convertedMarked_station]), Part.convertedMarked_ptu]
      rfl
    · rw [if_pos ⟨ha, hs⟩, Part.requestTemp_ptu_heard (by rwa [Part.convertedMarked_station]), Part.convertedMarked_clock,
        Part.convertedMarked_ptu]
      simp only [Part.converted, Part.modProbe_ptu, PerProbe.get_set_same, PerProbe.set_set]
      rfl
  · rw [if_neg ha, if_neg fun h => ha h.1, Part.convertedMarked_ptu]
    rfl

theorem Part.mem_convertedAsked (ha : p.asksTemp pr code = true) (hd : p.onDuty = true) (hl : p.sbc.list.length < 6)
    (hn : ∀ e ∈ p.sbc.list, isTempOf pr e = false) :
    newEntry ((p.convertedMarked pr code).tempContent pr) (p.convertedMarked pr code).now ∈ (p.convertedAsked pr code).sbc.list := by
  have hlist : (p.converted pr code).sbc.list = p.sbc.list := rfl
  unfold Part.convertedAsked
  rw [if_pos ha]
  have hroom : (p.convertedMarked pr code).HasRoom 6 ∧ ∀ x ∈ (p.convertedMarked pr code).sbc.list, x.content.kind = .temp →
      x ∈ p.sbc.list := by
    unfold Part.convertedMarked
    split
    · obtain ⟨hroom, htemp⟩ := Part.setMark_room (p := p.converted pr code) (by rw [hlist]; omega) .probes
      rw [hlist] at hroom htemp
      refine ⟨hroom.imp (fun h => by omega) fun ⟨h, hv⟩ => ⟨by omega, hv⟩, htemp⟩
    · exact ⟨.inl (by rw [hlist]; omega), fun x hx _ => hx⟩
  refine Part.mem_requestTemp ?_ (fun e he => ?_) hroom.1
  · rwa [Part.onDuty, Part.convertedMarked_station]
  · refine Bool.eq_false_iff.2 fun ht => ?_
    exact absurd (hn e (hroom.2 e he (isTempOf_kind ht))) (by simp [ht])

theorem Part.convertedMarked_tempContent : (p.convertedMarked pr code).tempContent pr = .temp pr
    { quality := (p.conversion pr code).1.quality, group := p.block.group
      value := if (p.conversion pr code).1.seeded then some (p.conversion pr code).1.filtered else none } := by
  rw [Part.tempContent, Part.convertedMarked_ptu, Part.convertedMarked_block]
  simp only [Part.converted, Part.modProbe_ptu, PerProbe.get_set_same]
  rfl

end

/-! ## The events of the cycle -/

section
variable {s : State} {t : Nat}

theorem exec_measurementIntervalStart (hs : s.running) (hw : s.part.working = true) (hc : s.part.ptu.converter = .idle)
    (hi : s.part.ptu.intervalStart = some t) (ht : t + s.part.image.probes.interval * 1000000 ≤ s.part.clock) :
    exec .measurementIntervalStart s = .next { s with
      part := s.part.startInterval (t + s.part.image.probes.interval * 1000000) } := by
  refine (act_running Part.intervalTick hs).trans ?_
  have helapsed : elapsed s.part.clock t (s.part.image.probes.interval * 1000000) = true := decide_eq_true ht
  simp only [Part.intervalTick, hi, hw, hc, helapsed, decide_true, Bool.and_self, if_true]

theorem exec_settleEnd {pr : Probe} (hs : s.running) (hw : s.part.working = true) (hc : s.part.ptu.converter = .settle pr t)
    (ht : t + 20000 ≤ s.part.clock) : exec .settleEnd s = .next { s with
      part := { s.part with ptu := { s.part.ptu with converter := .convert pr s.part.clock } } } := by
  refine (act_running Part.settleDone hs).trans ?_
  have helapsed : elapsed s.part.clock t settleTime = true := decide_eq_true ht
  simp only [Part.settleDone, hc, hw, helapsed, Bool.and_self, if_true]
  rfl

theorem exec_conversionComplete {pr : Probe} (hs : s.running) (hw : s.part.working = true) (hc : s.part.ptu.converter = .convert pr t)
    (ht : t + 80000 ≤ s.part.clock) (code : BitVec 16) : exec (.conversionComplete code) s = .next { s with
      part := (s.part.noteCode pr code).finishConversion pr code.toNat } := by
  refine (act_running (Part.conversionDone code) hs).trans ?_
  have helapsed : elapsed s.part.clock t convertTime = true := decide_eq_true ht
  simp only [Part.conversionDone, hc, hw, helapsed, Bool.and_self, if_true]

theorem exec_tempTimerExpiry {pr : Probe} (hs : s.running) (hd : s.part.tempTimerDue pr = true) :
    exec (.tempTimerExpiry pr) s = .next { s with part := s.part.requestTemp pr } := by
  change act (fun p => if p.tempTimerDue pr then p.requestTemp pr else p) s = _
  rw [act_running _ hs, if_pos hd]

theorem Part.tempTimerDue_of {p : Part} {pr : Probe} (hd : p.onDuty = true) (he : (p.image.probes.probe.get pr).enable = true)
    (htimer : (p.ptu.probes.get pr).tempTimer = some t) (ht : t + 10000000 ≤ p.clock) : p.tempTimerDue pr = true := by
  simp only [Part.tempTimerDue, Part.probeParams, hd, he, htimer, elapsed, tempTimerLimit, Bool.true_and]
  exact decide_eq_true ht

theorem Part.settle_clock_lt {p : Part} {pr : Probe} (hr : p.rstLow = false) (hd : p.dueCommand = none) (hw : p.working = true)
    (hc : p.ptu.converter = .settle pr t) : p.clock < t + 20000 := by
  have hsettle : p.settleDue = false := Part.not_due hr hd (c := .settleEnd) (by simp [Part.ownEvents])
  simp only [Part.settleDue, hw, hc, elapsed, settleTime, Bool.true_and] at hsettle
  exact not_le.1 (of_decide_eq_false hsettle)

theorem Part.interval_clock_lt {p : Part} (hr : p.rstLow = false) (hd : p.dueCommand = none) (hw : p.working = true)
    (hc : p.ptu.converter = .idle) (hi : p.ptu.intervalStart = some t) : p.clock < t + p.image.probes.interval * 1000000 := by
  have hinterval : p.intervalDue = false := Part.not_due hr hd (c := .measurementIntervalStart) (by simp [Part.ownEvents])
  simp only [Part.intervalDue, hw, hc, hi, elapsed, decide_true, Bool.true_and] at hinterval
  exact not_le.1 (of_decide_eq_false hinterval)

theorem Part.conversion_in_ownEvents {p : Part} {pr : Probe} (hw : p.working = true) (hc : p.ptu.converter = .convert pr t)
    (ht : t + 80000 ≤ p.clock) : (true, Instr.conversionComplete (p.ptu.codes.get pr)) ∈ p.ownEvents := by
  have hcode : p.codeDue = some (p.ptu.codes.get pr) := Part.codeDue_eq_some.2 ⟨pr, t, hc, hw, ht, rfl⟩
  simp [Part.ownEvents, hcode]

end

/-- Settles O33: each event by its own equation, and the clock bounds by the part's own events. -/
theorem measurementCycleRuns : Obligations.MeasurementCycleRuns := by
  intro s t hs hw params clock
  refine ⟨fun hc hi ht => ?_, fun pr hc ht => exec_settleEnd hs hw hc ht, fun pr code hc ht => ?_, fun pr hd he htimer ht => ?_,
    fun pr hc ht => Part.conversion_in_ownEvents hw hc ht, fun hd => ⟨fun pr hc => Part.settle_clock_lt hs hd hw hc,
      fun pr hc => Part.convert_clock_lt hs hd hw hc, fun hc hi => Part.interval_clock_lt hs hd hw hc hi⟩⟩
  · exact exec_measurementIntervalStart hs hw hc hi ht
  · intro before u changed value
    refine ⟨_, exec_conversionComplete hs hw hc ht code, ?_, ?_, fun ha hd hl hn => ?_, ?_⟩
    · rw [Part.finishConversion_eq, Part.modPtu_ptu, Part.convertedAsked_ptu, serveNext_after]
      rfl
    · rw [Part.finishConversion_eq, Part.modPtu_csu]
      exact Part.convertedAsked_marks
    · rw [Part.finishConversion_eq, Part.modPtu_sbc]
      exact ⟨_, Part.mem_convertedAsked (Part.asksTemp_iff.2 ha) hd hl hn, Part.convertedMarked_tempContent⟩
    · rw [Part.finishConversion_eq]
      exact Part.changedOnly_convertedAsked.trans ((Part.changedOnly_modPtu _ _).mono (by simp))
  · have hsilent : s.part.csu.station ≠ .silent := fun h => by
      rw [Part.onDuty_iff] at hd
      simp [h] at hd
    rw [exec_tempTimerExpiry hs (Part.tempTimerDue_of hd he htimer ht), Part.requestTemp_heard hsilent]
    rfl

end Sys2Proof.Machine
end


section
/-! PROOFS. What the changes of station state do to the blocks: the flushed transmit list (R68, R155), the emptied receiver (R77), the
cleared pending wheels (R109); with HOLD, RELEASE and the pin (R182, R183), and the RESTART that reads the image again (R188). -/

namespace Sys2Proof.Machine

/-! ## Flushing the list (R68, R155) -/

/-- The records of which `l` holds a VEHICLE frame are handed back: READY again. -/
def handBackAll (l : List TxEntry) (records : List VehicleRecord) : List VehicleRecord :=
  records.map fun r => if (l.any fun e => decide (e.content = .vehicle r.seq)) && decide (r.state = .sending) then
    { r with state := .ready } else r

theorem handBackAll_nil (records : List VehicleRecord) : handBackAll [] records = records := by simp [handBackAll]

theorem handBackAll_cons (e : TxEntry) (l : List TxEntry) (records : List VehicleRecord) :
    handBackAll (e :: l) records = handBackAll l (handedBack e records) := by
  cases hc : e.content with
  | vehicle seq =>
    simp only [handBackAll, handedBack, hc, List.map_map, List.any_cons]
    refine List.map_congr_left fun r _ => ?_
    by_cases hs : r.seq = seq
    · by_cases hr : r.state = .sending
      · simp [hs, hr]
      · simp [hs, hr]
    · have hs' : ¬seq = r.seq := fun h => hs h.symm
      simp [hs, hs']
  | wheel w => simp [handBackAll, handedBack, hc]
  | time => simp [handBackAll, handedBack, hc]
  | temp probe c => simp [handBackAll, handedBack, hc]
  | status => simp [handBackAll, handedBack, hc]
  | totals => simp [handBackAll, handedBack, hc]

theorem foldl_leftUnsent_eq (l : List TxEntry) : ∀ p : Part, l.foldl (fun q e => q.leftUnsent e) p =
    { p with vcl := { p.vcl with records := handBackAll l p.vcl.records } } := by
  induction l with
  | nil => intro p; rw [handBackAll_nil]; rfl
  | cons e l ih => intro p; rw [List.foldl_cons, ih, Part.leftUnsent_eq, handBackAll_cons]

/-- The SBC once a frame being sent is cut and the list is empty (R60, R68). -/
def Part.cutSbc (p : Part) : Sbc :=
  { p.sbc with list := [], onLine := none, txCapture := none, line := if p.sending.isSome then .quiet p.clock else p.sbc.line }

theorem Part.cutAndFlush_eq (p : Part) : p.cutAndFlush =
    { p with sbc := p.cutSbc, vcl := { p.vcl with records := handBackAll p.sbc.list p.vcl.records } } := by
  unfold Part.cutAndFlush Part.flushList
  rw [foldl_leftUnsent_eq]
  cases h : p.sending <;> simp [Part.cutSbc, h, Part.modSbc]

/-- The SBC with its receive side emptied as well (R77). -/
def Part.emptySbc (p : Part) : Sbc :=
  { p.cutSbc with
    rx := [], following := none, deaf := false, blind := []
    line := if p.sending.isSome || p.sbc.following.isSome then .quiet p.clock else p.sbc.line }

theorem Part.emptyReceiver_cut (p : Part) : p.cutAndFlush.emptyReceiver =
    { p with sbc := p.emptySbc, vcl := { p.vcl with records := handBackAll p.sbc.list p.vcl.records } } := by
  rw [Part.cutAndFlush_eq, Part.emptyReceiver, Part.modSbc]
  cases h : p.sending <;> cases hf : p.sbc.following <;> simp [Part.emptySbc, Part.cutSbc, h, hf]

/-! ## A mark that makes no request (R191) -/

theorem Part.setMark_quiet {p : Part} (h : p.usesLine = false) (m : ChangeMark) :
    p.setMark m = { p with csu := { p.csu with marks := addMark p.csu.marks m } } := by
  unfold Part.setMark
  split
  · next hm => rw [addMark_of_has hm]
  · have hq : (p.modCsu fun c => { c with marks := addMark c.marks m }).usesLine = false := h
    simp only [Part.markNewlySet, hq, Bool.not_false, if_true]
    rfl

theorem Part.setMark_marked {p : Part} {m : ChangeMark} (h : hasMark p.csu.marks m = true) : p.setMark m = p := by
  simp [Part.setMark, h]

/-! ## RESTART without an accepted image (R77, R188) -/

theorem Part.newLoad_eq (p : Part) : p.newLoad = { p with
    csu := { p.csu with station := .loading, load := some .start, marks := addMark p.csu.marks .state }
    sbc := p.emptySbc, vcl := { p.vcl with records := handBackAll p.sbc.list p.vcl.records } } := by
  unfold Part.newLoad
  rw [Part.emptyReceiver_cut, Part.setMark_quiet rfl]
  rfl

/-- Settles O15: the new load as one record update. -/
theorem restartReadsTheImageAgain : Obligations.RestartReadsTheImageAgain := by
  intro s hs ht hi
  have hnew : s.part.doCommand .restart [] = s.part.newLoad := by simp [Part.doCommand, Part.restart, hi]
  refine ⟨_, exec_taken (k := .restart) hs ht rfl, ?_⟩
  rw [hnew, Part.newLoad_eq]
  exact ⟨rfl, rfl, rfl, rfl, rfl, rfl, rfl, rfl, rfl, rfl, rfl, rfl, rfl, rfl, rfl, rfl, rfl, rfl, rfl, rfl,
    fun k hk => by cases k <;> simp_all [Part.sameAt]⟩

/-! ## The pending wheels cleared (R109) -/

/-- A store record is closed when its wheel's number is in the list. -/
def closeAll (l : List Count16) (store : List StoreRecord) : List StoreRecord :=
  store.map fun r => if l.any fun n => decide (n = r.wheel.number) then { r with isOpen := false } else r

theorem closeAll_cons (n : Count16) (l : List Count16) (store : List StoreRecord) :
    closeAll (n :: l) store = closeAll l (closeStored n store) := by
  simp only [closeAll, closeStored, List.map_map, List.any_cons]
  refine List.map_congr_left fun r _ => ?_
  by_cases hn : r.wheel.number = n
  · simp [hn]
  · have hn' : ¬n = r.wheel.number := fun h => hn h.symm
    simp [hn, hn']

theorem foldl_closeRecord_store (l : List Count16) : ∀ p : Part, l.foldl (fun q n => q.closeRecord n) p =
    { p with pse := { p.pse with store := closeAll l p.pse.store } } := by
  induction l with
  | nil => intro p; simp [closeAll]
  | cons n l ih => intro p; rw [List.foldl_cons, ih, closeAll_cons]; rfl

/-- The numbers of the wheels of the intake and of the pending list. -/
def Part.pendingNumbers (p : Part) : List Count16 :=
  (p.vau.intake.map fun w => w.wheel.number) ++ (p.vau.waiting.map fun w => w.wheel.number)

theorem Part.clearPending_eq (p : Part) : p.clearPending = { p with
    pse := { p.pse with store := closeAll p.pendingNumbers p.pse.store }
    vau := { p.vau with intake := [], waiting := [] } } := by
  have hstore := congrArg (Part.modVau fun v => { v with intake := [], waiting := [] })
    (foldl_closeRecord_store p.pendingNumbers p)
  exact hstore

theorem closeAll_wheels (l : List Count16) (store : List StoreRecord) :
    (closeAll l store).map StoreRecord.wheel = store.map StoreRecord.wheel := by
  rw [closeAll, List.map_map]
  refine List.map_congr_left fun r _ => ?_
  simp only [Function.comp]
  split <;> rfl

theorem closeAll_open {l : List Count16} {store : List StoreRecord} {r : StoreRecord} (hr : r ∈ closeAll l store)
    (ho : r.isOpen = true) : ∀ n ∈ l, r.wheel.number ≠ n := by
  obtain ⟨x, -, rfl⟩ := List.mem_map.1 hr
  intro n hn
  split at ho
  · exact absurd ho (by simp)
  · next hany =>
    rw [if_neg hany]
    exact fun he => hany (List.any_eq_true.2 ⟨n, hn, decide_eq_true he.symm⟩)

/-! ## The entry into HOLD (R183) -/

/-- The part whose blocks have taken what the entry into HOLD does to them, but for the transmit list and the mark. -/
def Part.holdBlocks (p : Part) : Part := (((p.modPse Pse.emptied).clearPending.markHoldCut).restOutputs).setStation .hold

theorem Part.enterHold_eq (p : Part) : p.enterHold = (p.holdBlocks.dropWaitingWheels).setMark .state := rfl

theorem Part.markHoldCut_none {p : Part} (hv : p.vau.vehicle = none) : p.markHoldCut = p := by simp [Part.markHoldCut, hv]

theorem Part.markHoldCut_some {p : Part} {v : Vehicle} (hv : p.vau.vehicle = some v) : p.markHoldCut =
    (p.modVau fun u => { u with
      vehicle := some { v with closeMark := some (v.closeMark.getD (if closeReached p.now v then .timer else .hold)) } }).requestPort
      .axleFormer := by simp [Part.markHoldCut, hv]

theorem Part.changedOnly_clearPending (p : Part) : p.changedOnly [.pse, .vau] p.clearPending := by
  rw [Part.clearPending_eq]
  exact ⟨rfl, rfl, fun k hk => by cases k <;> simp_all [Part.sameAt]⟩

theorem Part.changedOnly_markHoldCut (p : Part) : p.changedOnly [.vau] p.markHoldCut := by
  cases hv : p.vau.vehicle with
  | none =>
    rw [Part.markHoldCut_none hv]
    exact p.changedOnly_refl _
  | some v =>
    rw [Part.markHoldCut_some hv]
    exact (p.changedOnly_modVau _).trans (Part.changedOnly_requestPort _ _)

theorem Part.changedOnly_holdBlocks (p : Part) : p.changedOnly [.csu, .pse, .vau, .tou] p.holdBlocks := by
  refine Part.changedOnly.trans (b := (p.modPse Pse.emptied).clearPending.markHoldCut) ?_ ?_
  · exact (((p.changedOnly_modPse _).mono (by simp)).trans ((Part.changedOnly_clearPending _).mono (by simp))).trans
      ((Part.changedOnly_markHoldCut _).mono (by simp))
  · exact ((Part.changedOnly_modTou _ _).mono (by simp)).trans ((Part.changedOnly_modCsu _ _).mono (by simp))

theorem Part.holdBlocks_csu (p : Part) : p.holdBlocks.csu = { p.csu with station := .hold } := by
  simp [Part.holdBlocks, Part.setStation, Part.restOutputs]

theorem Part.changedOnly_dropWaitingWheels (p : Part) : p.changedOnly [.sbc, .vcl] p.dropWaitingWheels :=
  ((p.changedOnly_modSbc _).mono (by simp)).trans (Part.changedOnly_offerVehicle _)

theorem Part.changedOnly_enterHold (p : Part) : p.changedOnly [.csu, .pse, .sbc, .vau, .vcl, .tou] p.enterHold := by
  rw [Part.enterHold_eq]
  exact ((p.changedOnly_holdBlocks.mono (by simp)).trans ((Part.changedOnly_dropWaitingWheels _).mono (by simp))).trans
    ((Part.changedOnly_setMark .state _).mono (by simp))

/-! ## The hold sources (R182, R183) -/

/-- The station state that the hold sources make of one (R182, R183). -/
def heldStation (st : StationState) (active : Bool) : StationState :=
  if st = .run ∧ active = true then .hold else if st = .hold ∧ active = false then .run else st

theorem Part.applyHold_cases (p : Part) :
    p.csu.station = .run ∧ p.holdActive = true ∧ p.applyHold = p.enterHold ∨
    p.csu.station = .hold ∧ p.holdActive = false ∧ p.applyHold = p.returnToRun ∨
    heldStation p.csu.station p.holdActive = p.csu.station ∧ p.applyHold = p := by
  unfold Part.applyHold heldStation
  rcases Decidable.em (p.csu.station = .run) with hs | hs <;> rcases Bool.eq_false_or_eq_true p.holdActive with ha | ha <;>
    rcases Decidable.em (p.csu.station = .hold) with hh | hh <;> simp_all

/-- What the hold sources leave of the CSU: all but the station state and what the STATE mark brings. -/
structure Csu.HeldFrom (c d : Csu) : Prop where
  pin : d.pinActive = c.pinActive
  command : d.commandHold = c.commandHold
  image : d.image = c.image
  block : d.block = c.block
  result : d.lastResult = c.lastResult
  count : d.commandCount = c.commandCount

theorem Csu.HeldFrom.trans {a b c : Csu} (h : a.HeldFrom b) (k : b.HeldFrom c) : a.HeldFrom c :=
  ⟨k.pin.trans h.pin, k.command.trans h.command, k.image.trans h.image, k.block.trans h.block, k.result.trans h.result,
    k.count.trans h.count⟩

theorem Part.heldFrom_setMark (m : ChangeMark) (p : Part) : p.csu.HeldFrom (p.setMark m).csu := by constructor <;> simp

theorem Part.heldFrom_enterHold (p : Part) : p.csu.HeldFrom p.enterHold.csu := by
  have hdrop : p.holdBlocks.dropWaitingWheels.csu = { p.csu with station := .hold } := by
    rw [Part.dropWaitingWheels_csu, Part.holdBlocks_csu]
  refine Csu.HeldFrom.trans (b := p.holdBlocks.dropWaitingWheels.csu) ?_ (Part.heldFrom_setMark .state _)
  rw [hdrop]
  exact ⟨rfl, rfl, rfl, rfl, rfl, rfl⟩

theorem Part.enterHold_station (p : Part) : p.enterHold.csu.station = .hold := by
  rw [Part.enterHold_eq, Part.setMark_station, Part.dropWaitingWheels_csu, Part.holdBlocks_csu]

theorem Part.heldFrom_applyHold (p : Part) : p.csu.HeldFrom p.applyHold.csu := by
  rcases p.applyHold_cases with ⟨-, -, h⟩ | ⟨-, -, h⟩ | ⟨-, h⟩
  · rw [h]
    exact p.heldFrom_enterHold
  · rw [h]
    exact Csu.HeldFrom.trans (b := (p.setStation .run).csu) ⟨rfl, rfl, rfl, rfl, rfl, rfl⟩ (Part.heldFrom_setMark .state _)
  · rw [h]
    exact ⟨rfl, rfl, rfl, rfl, rfl, rfl⟩

theorem Part.applyHold_station (p : Part) : p.applyHold.csu.station = heldStation p.csu.station p.holdActive := by
  rcases p.applyHold_cases with ⟨hs, ha, h⟩ | ⟨hs, ha, h⟩ | ⟨hs, h⟩
  · rw [h, Part.enterHold_station, hs, ha]
    rfl
  · rw [h, Part.returnToRun, Part.setMark_station, hs, ha]
    rfl
  · rw [h, hs]

theorem Part.changedOnly_applyHold (p : Part) : p.changedOnly [.csu, .pse, .sbc, .vau, .vcl, .tou] p.applyHold := by
  rcases p.applyHold_cases with ⟨-, -, h⟩ | ⟨-, -, h⟩ | ⟨-, h⟩
  · exact h ▸ p.changedOnly_enterHold
  · rw [h]
    exact ((p.changedOnly_modCsu _).mono (by simp)).trans ((Part.changedOnly_setMark .state _).mono (by simp))
  · rw [h]
    exact p.changedOnly_refl _

theorem Part.changedOnly_applyHold_outside (p : Part) (h : p.csu.station ≠ .run) : p.changedOnly [.csu, .sbc, .vcl] p.applyHold := by
  rcases p.applyHold_cases with ⟨hs, -, -⟩ | ⟨-, -, h⟩ | ⟨-, h⟩
  · exact absurd hs h
  · rw [h]
    exact ((p.changedOnly_modCsu _).mono (by simp)).trans (Part.changedOnly_setMark .state _)
  · rw [h]
    exact p.changedOnly_refl _

/-- The part in which a hold source has taken a value (R182). -/
def Part.sourceTaken (f : Csu → Csu) (p : Part) : Part := ((p.modCsu f).applyHold).setMark .state

theorem Part.changedOnly_sourceTaken (f : Csu → Csu) (p : Part) :
    p.changedOnly [.csu, .pse, .sbc, .vau, .vcl, .tou] (p.sourceTaken f) :=
  (((p.changedOnly_modCsu f).mono (by simp)).trans (Part.changedOnly_applyHold _)).trans
    ((Part.changedOnly_setMark .state _).mono (by simp))

theorem Part.changedOnly_sourceTaken_outside {f : Csu → Csu} {p : Part} (h : (f p.csu).station ≠ .run) :
    p.changedOnly [.csu, .sbc, .vcl] (p.sourceTaken f) :=
  (((p.changedOnly_modCsu f).mono (by simp)).trans (Part.changedOnly_applyHold_outside _ h)).trans
    (Part.changedOnly_setMark .state _)

theorem Part.heldFrom_sourceTaken (f : Csu → Csu) (p : Part) : (f p.csu).HeldFrom (p.sourceTaken f).csu :=
  (p.modCsu f).heldFrom_applyHold.trans (Part.heldFrom_setMark .state _)

theorem Part.sourceTaken_marks (f : Csu → Csu) (p : Part) : (p.sourceTaken f).csu.marks.state = true := by
  simp [Part.sourceTaken, addMark]

theorem Part.sourceTaken_station (f : Csu → Csu) (p : Part) :
    (p.sourceTaken f).csu.station = heldStation (f p.csu).station ((f p.csu).pinActive || (f p.csu).commandHold) := by
  rw [Part.sourceTaken, Part.setMark_station, Part.applyHold_station]
  rfl

theorem Part.takePin_same {p : Part} {active : Bool} (h : p.csu.pinActive = active) : p.takePin active = p := if_pos h

theorem Part.takePin_new {p : Part} {active : Bool} (h : p.csu.pinActive ≠ active) :
    p.takePin active = p.sourceTaken fun c => { c with pinActive := active } := if_neg h

theorem Part.takeCommandHold_same {p : Part} {on : Bool} (h : p.csu.commandHold = on) : p.takeCommandHold on = p := if_pos h

theorem Part.takeCommandHold_new {p : Part} {on : Bool} (h : p.csu.commandHold ≠ on) :
    p.takeCommandHold on = p.sourceTaken fun c => { c with commandHold := on } := if_neg h

theorem exec_holdNLevelTaken {s : State} (hs : s.running) (level : PinLevel) :
    exec (.holdNLevelTaken level) s = .next { s with part := s.part.takePin (decide (level = .low)) } := act_running _ hs

theorem exec_holdOrRelease {s : State} {k : CommandKind} (hs : s.running) (hk : k = .hold ∨ k = .release)
    (ht : s.part.takesCommand k = true) : exec (k.instr []) s = .next { s with part :=
      { s.part.takeCommandHold (decide (k = .hold)) with
        csu := (s.part.takeCommandHold (decide (k = .hold))).csu.judged k.code .taken } } := by
  rcases hk with rfl | rfl
  · exact exec_taken hs ht rfl
  · exact exec_taken hs ht rfl

/-- Settles O12: a source that changes is a `sourceTaken`, whose station state is `heldStation`. -/
theorem holdSourcesMoveTheStation : Obligations.HoldSourcesMoveTheStation := by
  refine ⟨fun s level hs => ⟨fun h => ?_, fun h => ?_⟩, fun s k hs hk ht => ⟨fun h => ?_, fun h => ?_⟩⟩
  · rw [exec_holdNLevelTaken hs, Part.takePin_same h]
  · refine ⟨_, exec_holdNLevelTaken hs level, ?_⟩
    rw [Part.takePin_new h]
    obtain ⟨hpin, hcommand, himage, hblock, hresult, -⟩ :=
      s.part.heldFrom_sourceTaken fun c => { c with pinActive := decide (level = .low) }
    refine ⟨hpin, hcommand, Part.sourceTaken_marks _ _, ?_, himage, hblock, hresult, Part.changedOnly_sourceTaken _ _,
      fun hr => Part.changedOnly_sourceTaken_outside hr⟩
    rw [Part.sourceTaken_station, heldStation]
    cases level <;> simp
  · rw [exec_holdOrRelease hs hk ht, Part.takeCommandHold_same h]
  · refine ⟨_, exec_holdOrRelease hs hk ht, ?_⟩
    rw [Part.takeCommandHold_new h]
    obtain ⟨hpin, hcommand, himage, hblock, -, hcount⟩ :=
      s.part.heldFrom_sourceTaken fun c => { c with commandHold := decide (k = .hold) }
    refine ⟨hcommand, hpin, Part.sourceTaken_marks _ s.part, ?_, ?_, ?_, himage, hblock,
      (Part.changedOnly_sourceTaken _ _).trans ((Part.changedOnly_withCsu _ _).mono (by simp)),
      fun hr => (Part.changedOnly_sourceTaken_outside hr).trans ((Part.changedOnly_withCsu _ _).mono (by simp))⟩
    · simp only [Csu.judged, hcount]
    · simp only [Csu.judged, hcount]
    · have hstation := s.part.sourceTaken_station fun c => { c with commandHold := decide (k = .hold) }
      refine hstation.trans ?_
      rw [heldStation]
      rcases hk with rfl | rfl <;> simp

end Sys2Proof.Machine
end


section
/-! PROOFS. What the entry into HOLD does to the blocks (R20, R21, R68, R109, R120, R174, R183). The transmit list is followed through
the steps of that entry: while the VEHICLE offer and the STATUS request that it lacks have room in it, no frame gives way. -/

namespace Sys2Proof.Machine

/-! ## A list in which what enters finds room (R63, R153, R183) -/

/-- How many frames of a kind that stands in the list at most once are still to enter: one when there is none, else 0. -/
def lacksKind (l : List TxEntry) (k : FrameKind) : Nat := if l.any fun e => decide (e.content.kind = k) then 0 else 1

/-- The VEHICLE offer and the STATUS request that the list lacks have room in it. -/
def Spacious (l : List TxEntry) : Prop := l.length + lacksKind l .vehicle + lacksKind l .status ≤ 8

/-- An entry that is neither a WHEEL nor a STATUS frame. -/
def TxEntry.other (e : TxEntry) : Bool := decide (e.content.kind ≠ .wheel ∧ e.content.kind ≠ .status)

/-- What the list `m` keeps of the list `l`: the other frames in their order, and each STATUS frame as it is queued. -/
structure KeepsFrames (l m : List TxEntry) : Prop where
  others : (l.filter TxEntry.other).Sublist (m.filter TxEntry.other)
  status : ∀ e ∈ l, e.content = .status → ∃ x ∈ m, x.content = .status ∧ x.queueTime = e.queueTime ∧
    x.inTransmission = e.inTransmission

theorem KeepsFrames.refl (l : List TxEntry) : KeepsFrames l l :=
  ⟨List.Sublist.refl _, fun e he hc => ⟨e, he, hc, rfl, rfl⟩⟩

theorem KeepsFrames.trans {l m n : List TxEntry} (h : KeepsFrames l m) (k : KeepsFrames m n) : KeepsFrames l n := by
  refine ⟨h.others.trans k.others, fun e he hc => ?_⟩
  obtain ⟨x, hx, hxc, hxq, hxt⟩ := h.status e he hc
  obtain ⟨y, hy, hyc, hyq, hyt⟩ := k.status x hx hxc
  exact ⟨y, hy, hyc, hyq.trans hxq, hyt.trans hxt⟩

theorem insertBefore_sublist {α : Type} (f : α → Bool) (x : α) : ∀ l : List α, l.Sublist (insertBefore f x l)
  | [] => List.nil_sublist _
  | y :: l => by
    unfold insertBefore
    split
    · exact List.sublist_cons_self _ _
    · exact (insertBefore_sublist f x l).cons_cons y

/-- A frame that enters with room to spare leaves every other one in its place. -/
theorem keepsFrames_insert (e : TxEntry) (l : List TxEntry) : KeepsFrames l (insertByKind e l) :=
  ⟨(insertBefore_sublist _ e l).filter _, fun x hx hc => ⟨x, mem_insertBefore.2 (.inr hx), hc, rfl, rfl⟩⟩

theorem mergeRequest_content (e : TxEntry) : (mergeRequest e).content = e.content := by
  unfold mergeRequest
  split <;> rfl

theorem mergeRequest_queueTime (e : TxEntry) : (mergeRequest e).queueTime = e.queueTime := by
  unfold mergeRequest
  split <;> rfl

theorem mergeRequest_inTransmission (e : TxEntry) : (mergeRequest e).inTransmission = e.inTransmission := by
  unfold mergeRequest
  split <;> rfl

theorem changeFirst_filter_of_not {α : Type} {f p : α → Bool} {g : α → α} (hf : ∀ x, f x = true → p x = false)
    (hg : ∀ x, f x = true → p (g x) = false) : ∀ l : List α, (changeFirst f g l).filter p = l.filter p
  | [] => rfl
  | x :: l => by
    unfold changeFirst
    split
    · next h => simp [hf x h, hg x h]
    · simp [List.filter_cons, changeFirst_filter_of_not hf hg l]

theorem lacksKind_of_kinds {l m : List TxEntry} (h : m.map (fun e => e.content.kind) = l.map fun e => e.content.kind) (k : FrameKind) :
    lacksKind m k = lacksKind l k := by
  have hany (l : List TxEntry) : (l.any fun e => decide (e.content.kind = k)) =
      (l.map fun e => e.content.kind).any fun c => decide (c = k) := by rw [List.any_map]; rfl
  rw [lacksKind, lacksKind, hany, hany, h]

theorem changeFirst_map {α β : Type} {f : α → Bool} {g : α → α} {h : α → β} (hg : ∀ x, h (g x) = h x) :
    ∀ l : List α, (changeFirst f g l).map h = l.map h
  | [] => rfl
  | x :: l => by
    unfold changeFirst
    split
    · simp [hg]
    · simp [changeFirst_map hg l]

/-- The merge of a STATUS request changes the STATUS frame alone. -/
theorem keepsFrames_merge (l : List TxEntry) :
    KeepsFrames l (changeFirst (fun e => decide (e.content.kind = .status)) mergeRequest l) := by
  have hother (e : TxEntry) (h : decide (e.content.kind = .status) = true) : e.other = false := by
    simp [TxEntry.other, of_decide_eq_true h]
  refine ⟨?_, fun e he hc => ?_⟩
  · rw [changeFirst_filter_of_not hother fun e h => hother _ (by rwa [mergeRequest_content])]
  · have hstands : e ∈ changeFirst (fun e : TxEntry => decide (e.content.kind = .status)) mergeRequest l ∨
        mergeRequest e ∈ changeFirst (fun e : TxEntry => decide (e.content.kind = .status)) mergeRequest l := mem_changeFirst_or he
    rcases hstands with h | h
    · exact ⟨e, h, hc, rfl, rfl⟩
    · exact ⟨_, h, (mergeRequest_content e).trans hc, mergeRequest_queueTime e, mergeRequest_inTransmission e⟩

theorem lacksKind_eq_zero_iff {l : List TxEntry} {k : FrameKind} : lacksKind l k = 0 ↔ ∃ e ∈ l, e.content.kind = k := by
  unfold lacksKind
  split
  · next h => simpa using h
  · next h => simpa using h

theorem lacksKind_insert_self {e : TxEntry} {k : FrameKind} (he : e.content.kind = k) (l : List TxEntry) :
    lacksKind (insertByKind e l) k = 0 :=
  lacksKind_eq_zero_iff.2 ⟨e, mem_insertBefore.2 (.inl rfl), he⟩

theorem lacksKind_insert_other {e : TxEntry} {k : FrameKind} (he : e.content.kind ≠ k) (l : List TxEntry) :
    lacksKind (insertByKind e l) k = lacksKind l k := by
  have hany : ((insertByKind e l).any fun x => decide (x.content.kind = k)) = l.any fun x => decide (x.content.kind = k) := by
    rw [Bool.eq_iff_iff]
    simp [insertByKind, mem_insertBefore, he]
  rw [lacksKind, hany, lacksKind]

/-! ## The offer, the request and the mark into such a list -/

theorem Part.offerVehicle_spacious {p : Part} (h : Spacious p.sbc.list) :
    Spacious p.offerVehicle.sbc.list ∧ KeepsFrames p.sbc.list p.offerVehicle.sbc.list := by
  by_cases hv : lacksKind p.sbc.list .vehicle = 0
  · rw [Part.offerVehicle_of_vehicle (lacksKind_eq_zero_iff.1 hv)]
    exact ⟨h, KeepsFrames.refl _⟩
  · have hlength : p.sbc.list.length < 8 := by unfold Spacious at h; omega
    rcases Part.offerVehicle_room hlength with hsame | ⟨seq, hnew⟩
    · rw [hsame]
      exact ⟨h, KeepsFrames.refl _⟩
    · rw [hnew]
      refine ⟨?_, keepsFrames_insert _ _⟩
      have hvehicle := lacksKind_insert_self (e := newEntry (.vehicle seq) p.now) (k := .vehicle) rfl p.sbc.list
      have hstatus := lacksKind_insert_other (e := newEntry (.vehicle seq) p.now) (k := .status) FrameKind.noConfusion p.sbc.list
      unfold Spacious at h ⊢
      rw [hvehicle, hstatus, insertByKind, insertBefore_length]
      omega

theorem Part.enterList_status_spacious {p : Part} (h : Spacious p.sbc.list) (t : SiteTime) :
    Spacious (p.enterList .status t).sbc.list ∧ KeepsFrames p.sbc.list (p.enterList .status t).sbc.list := by
  rcases ht : p.listTakes TxContent.status.kind with _ | _
  · rw [Part.enterList_not_taken ht]
    exact ⟨h, KeepsFrames.refl _⟩
  rcases hm : merges p.sbc.list .status with _ | _
  · have hlacks : lacksKind p.sbc.list .status = 1 := by
      unfold lacksKind
      exact if_neg (Bool.eq_false_iff.1 hm)
    have hlength : p.sbc.list.length < 8 := by unfold Spacious at h; omega
    rw [Part.enterList_place ht hm, Part.placeEntry_room hlength]
    refine ⟨?_, keepsFrames_insert _ _⟩
    have hvehicle := lacksKind_insert_other (e := newEntry .status t) (k := .vehicle) FrameKind.noConfusion p.sbc.list
    have hstatus := lacksKind_insert_self (e := newEntry .status t) (k := .status) rfl p.sbc.list
    unfold Spacious at h ⊢
    rw [Part.modSbc_sbc, hvehicle, hstatus, insertByKind, insertBefore_length]
    omega
  · rw [Part.enterList_request_merges (.inl rfl) ht hm]
    refine ⟨?_, keepsFrames_merge _⟩
    have hkinds := lacksKind_of_kinds (changeFirst_map (f := fun e : TxEntry => decide (e.content.kind = TxContent.status.kind))
      (g := mergeRequest) (h := fun e => e.content.kind) (fun e => congrArg TxContent.kind (mergeRequest_content e)) p.sbc.list)
    unfold Spacious at h ⊢
    rw [Part.modSbc_sbc, hkinds, hkinds, changeFirst_length]
    exact h

theorem Part.requestStatus_spacious {p : Part} (h : Spacious p.sbc.list) :
    Spacious p.requestStatus.sbc.list ∧ KeepsFrames p.sbc.list p.requestStatus.sbc.list := by
  obtain ⟨hentered, hkeeps⟩ := Part.enterList_status_spacious h p.now
  obtain ⟨hoffered, hkeeps'⟩ := Part.offerVehicle_spacious hentered
  exact ⟨hoffered, hkeeps.trans hkeeps'⟩

theorem Part.requestForMarks_request {p q : Part} (hq : q.sbc = p.sbc) :
    ∃ r : Part, r.sbc = p.sbc ∧ q.requestForMarks = r.requestStatus :=
  ⟨q.modCsu fun c => { c with lastMarkRequest := some q.clock, deferred := false }, hq, rfl⟩

/-- A mark leaves the SBC as it is or makes one STATUS request. -/
theorem Part.setMark_request (m : ChangeMark) (p : Part) :
    (p.setMark m).sbc = p.sbc ∨ ∃ q : Part, q.sbc = p.sbc ∧ p.setMark m = q.requestStatus := by
  unfold Part.setMark Part.markNewlySet
  split
  · exact .inl rfl
  split
  · exact .inl rfl
  split
  · exact .inr (Part.requestForMarks_request rfl)
  split
  · exact .inr (Part.requestForMarks_request rfl)
  · exact .inl rfl

theorem Part.setMark_spacious {p : Part} (h : Spacious p.sbc.list) (m : ChangeMark) :
    Spacious (p.setMark m).sbc.list ∧ KeepsFrames p.sbc.list (p.setMark m).sbc.list := by
  rcases p.setMark_request m with hsame | ⟨q, hq, hrequest⟩
  · rw [hsame]
    exact ⟨h, KeepsFrames.refl _⟩
  · rw [hrequest, ← hq]
    exact Part.requestStatus_spacious (hq ▸ h)

/-! ## The WHEEL frames of the list, whatever room it has -/

theorem Part.wheel_of_mem_offerVehicle {p : Part} {x : TxEntry} (hx : x ∈ p.offerVehicle.sbc.list) (hw : x.content.kind = .wheel) :
    x ∈ p.sbc.list := by
  by_cases hi : p.Invites
  · by_cases hr : ∀ r ∈ p.vcl.records, r.state ≠ .ready
    · rwa [Part.offerVehicle_none_ready hr] at hx
    · obtain ⟨before, r, after, hl, hready, hb⟩ := Part.exists_first_ready hr
      rw [Part.offerVehicle_ready hi hl hready hb, Part.enterList_vehicle (p := p.offered before r after) hi.1] at hx
      exact (Part.placeEntry_list (p := p.offered before r after) hx).resolve_left fun h =>
        FrameKind.noConfusion (hw.symm.trans (congrArg (fun e => e.content.kind) h))
  · rwa [Part.offerVehicle_uninvited hi] at hx

theorem Part.wheel_of_mem_requestStatus {p : Part} {x : TxEntry} (hx : x ∈ p.requestStatus.sbc.list) (hw : x.content.kind = .wheel) :
    x ∈ p.sbc.list :=
  (Part.mem_of_mem_enterList_status (Part.wheel_of_mem_offerVehicle hx hw)).resolve_left fun h =>
    FrameKind.noConfusion (hw.symm.trans h)

theorem Part.wheel_of_mem_setMark {p : Part} {m : ChangeMark} {x : TxEntry} (hx : x ∈ (p.setMark m).sbc.list)
    (hw : x.content.kind = .wheel) : x ∈ p.sbc.list := by
  rcases p.setMark_request m with hsame | ⟨q, hq, hrequest⟩
  · rwa [hsame] at hx
  · rw [hrequest] at hx
    exact hq ▸ Part.wheel_of_mem_requestStatus hx hw

/-! ## The transmit list at an entry into HOLD (R68) -/

theorem mem_holdList {l : List TxEntry} {e : TxEntry} (he : e ∈ holdList l) (hw : e.content.kind = .wheel) :
    e.inTransmission = true ∧ e.leaving = true := by
  obtain ⟨x, hx, rfl⟩ := List.mem_map.1 he
  have hstays := (List.mem_filter.1 hx).2
  have hkind : x.content.kind = .wheel := hw
  simp only [hkind, ne_eq, not_true_eq_false, decide_false, Bool.or_false] at hstays
  exact ⟨hstays, by simp [hkind]⟩

/-- What stays of the list at an entry into HOLD, before the leaving marks (R68). -/
def heldFrames (l : List TxEntry) : List TxEntry := l.filter fun e => e.inTransmission || decide (e.content.kind ≠ .wheel)

theorem holdList_kinds (l : List TxEntry) :
    (holdList l).map (fun e => e.content.kind) = (heldFrames l).map fun e => e.content.kind := by
  rw [holdList, List.map_map]
  rfl

theorem spacious_holdList {l : List TxEntry}
    (h : (heldFrames l).length + lacksKind (heldFrames l) .vehicle + lacksKind (heldFrames l) .status ≤ 8) :
    Spacious (holdList l) := by
  have hlength : (holdList l).length = (heldFrames l).length := List.length_map _
  rwa [Spacious, lacksKind_of_kinds (holdList_kinds l), lacksKind_of_kinds (holdList_kinds l), hlength]

theorem leaving_self {e : TxEntry} (he : e.content.kind ≠ .wheel) :
    { e with leaving := e.leaving || decide (e.content.kind = .wheel) } = e := by simp [he]

/-- The entry into HOLD touches no frame but the WHEEL frames. -/
theorem holdList_others (l : List TxEntry) : (holdList l).filter TxEntry.other = l.filter TxEntry.other := by
  have hstays (e : TxEntry) : (e.other && (e.inTransmission || decide (e.content.kind ≠ .wheel))) = e.other := by
    by_cases hk : e.content.kind = .wheel <;> simp [TxEntry.other, hk]
  rw [holdList, List.filter_map, List.filter_filter]
  refine (List.map_congr_left fun e he => ?_).trans (List.map_id _) |>.trans (List.filter_congr fun e _ => hstays e)
  have hother : e.other = true := (Bool.and_eq_true_iff.1 (List.mem_filter.1 he).2).1
  exact leaving_self (of_decide_eq_true hother).1

theorem keepsFrames_holdList (l : List TxEntry) : KeepsFrames l (holdList l) := by
  refine ⟨by rw [holdList_others], fun e he hc => ?_⟩
  have hkind : e.content.kind ≠ .wheel := by simp [hc, TxContent.kind]
  exact ⟨e, List.mem_map.2 ⟨e, List.mem_filter.2 ⟨he, by simp [hkind]⟩, leaving_self hkind⟩, hc, rfl, rfl⟩

/-! ## The blocks after the entry into HOLD -/

section
variable {l : List Block} {p q : Part}

theorem Part.changedOnly.sbc (h : p.changedOnly l q) (hl : Block.sbc ∉ l) : q.sbc = p.sbc := h.2.2 .sbc hl

theorem Part.changedOnly.pse (h : p.changedOnly l q) (hl : Block.pse ∉ l) : q.pse = p.pse := h.2.2 .pse hl

theorem Part.changedOnly.vau (h : p.changedOnly l q) (hl : Block.vau ∉ l) : q.vau = p.vau := h.2.2 .vau hl

theorem Part.changedOnly.tou (h : p.changedOnly l q) (hl : Block.tou ∉ l) : q.tou = p.tou := h.2.2 .tou hl

end

section
variable {p : Part}

theorem Part.changedOnly_holdBlocks_enterHold (p : Part) : p.holdBlocks.changedOnly [.csu, .sbc, .vcl] p.enterHold := by
  rw [Part.enterHold_eq]
  exact ((Part.changedOnly_dropWaitingWheels _).mono (by simp)).trans (Part.changedOnly_setMark .state _)

theorem Part.enterHold_wheels {e : TxEntry} (he : e ∈ p.enterHold.sbc.list) (hw : e.content.kind = .wheel) :
    e.inTransmission = true ∧ e.leaving = true := by
  rw [Part.enterHold_eq] at he
  have hdropped := Part.wheel_of_mem_offerVehicle (Part.wheel_of_mem_setMark he hw) hw
  rw [Part.modSbc_sbc, p.changedOnly_holdBlocks.sbc (by simp)] at hdropped
  exact mem_holdList hdropped hw

theorem Part.enterHold_keeps (h : Spacious (holdList p.sbc.list)) : KeepsFrames p.sbc.list p.enterHold.sbc.list := by
  have hlist : (p.holdBlocks.modSbc fun b => { b with list := holdList b.list }).sbc.list = holdList p.sbc.list := by
    rw [Part.modSbc_sbc, p.changedOnly_holdBlocks.sbc (by simp)]
  obtain ⟨hoffered, hkeeps⟩ := Part.offerVehicle_spacious (p := p.holdBlocks.modSbc fun b => { b with list := holdList b.list })
    (hlist ▸ h)
  obtain ⟨-, hmarked⟩ := Part.setMark_spacious hoffered .state
  rw [Part.enterHold_eq]
  exact ((keepsFrames_holdList _).trans (hlist ▸ hkeeps)).trans hmarked

/-- The part before the mark of the open vehicle: the PSE emptied and the pending wheels cleared. -/
def Part.holdCleared (p : Part) : Part := (p.modPse Pse.emptied).clearPending

theorem Part.holdCleared_eq (p : Part) : p.holdCleared = { p with
    pse := { p.pse.emptied with store := closeAll p.pendingNumbers p.pse.store }
    vau := { p.vau with intake := [], waiting := [] } } := Part.clearPending_eq _

theorem Part.enterHold_pse (p : Part) :
    p.enterHold.pse = { p.pse.emptied with store := closeAll p.pendingNumbers p.pse.store } := by
  have hcleared := p.holdCleared_eq
  have hmarked : p.holdCleared.markHoldCut.pse = p.holdCleared.pse := (Part.changedOnly_markHoldCut _).pse (by simp)
  rw [hcleared] at hmarked
  refine (p.changedOnly_holdBlocks_enterHold.pse (by simp)).trans ?_
  exact (congrArg (fun q : Part => q.markHoldCut.pse) hcleared).trans hmarked

theorem Part.enterHold_vau (p : Part) : p.enterHold.vau = p.holdCleared.markHoldCut.vau :=
  p.changedOnly_holdBlocks_enterHold.vau (by simp)

theorem Part.holdCleared_vau (p : Part) : p.holdCleared.vau = { p.vau with intake := [], waiting := [] } := by
  rw [p.holdCleared_eq]

theorem Part.enterHold_vau_none (hv : p.vau.vehicle = none) : p.enterHold.vau = { p.vau with intake := [], waiting := [] } := by
  rw [Part.enterHold_vau, Part.markHoldCut_none (by rw [Part.holdCleared_vau]; exact hv), Part.holdCleared_vau]

/-- The open vehicle after the entry into HOLD: its close mark is set (R120). -/
def holdMarked (now : SiteTime) (v : Vehicle) : Vehicle :=
  { v with closeMark := some (v.closeMark.getD (if closeReached now v then .timer else .hold)) }

theorem Part.enterHold_vau_some {v : Vehicle} (hv : p.vau.vehicle = some v) : ∃ port : Port, port.standing .axleFormer = true ∧
    p.enterHold.vau = { p.vau with intake := [], waiting := [], vehicle := some (holdMarked p.now v), port := port } := by
  have hopen : p.holdCleared.vau.vehicle = some v := by rw [Part.holdCleared_vau]; exact hv
  have hnow : p.holdCleared.now = p.now := by rw [p.holdCleared_eq]; rfl
  obtain ⟨port, hport, hasked⟩ := (p.holdCleared.modVau fun u => { u with vehicle := some (holdMarked p.now v) }).requestPort_eq
    .axleFormer
  refine ⟨port, hport, ?_⟩
  rw [Part.enterHold_vau, Part.markHoldCut_some hopen, hnow]
  exact (congrArg Part.vau hasked).trans (by simp [Part.holdCleared_vau])

theorem Part.enterHold_vau_cases (p : Part) : ∃ (vehicle : Option Vehicle) (port : Port),
    p.enterHold.vau = { p.vau with intake := [], waiting := [], vehicle := vehicle, port := port } ∧
      (p.vau.vehicle = none → vehicle = none ∧ port = p.vau.port) ∧
      ∀ v, p.vau.vehicle = some v → vehicle = some (holdMarked p.now v) ∧ port.standing .axleFormer = true := by
  rcases hv : p.vau.vehicle with _ | v
  · refine ⟨none, p.vau.port, ?_, fun _ => ⟨rfl, rfl⟩, fun v hv => by simp at hv⟩
    rw [Part.enterHold_vau_none hv, ← hv]
  · obtain ⟨port, hport, hq⟩ := Part.enterHold_vau_some hv
    refine ⟨_, port, hq, fun h => by simp at h, fun w hw => ?_⟩
    obtain rfl : v = w := Option.some.inj hw
    exact ⟨rfl, hport⟩

theorem Part.enterHold_tou (p : Part) : p.enterHold.tou = Tou.atRest := p.changedOnly_holdBlocks_enterHold.tou (by simp)

theorem Part.sourceTaken_entersHold {f : Csu → Csu} (hs : (f p.csu).station = .run)
    (ha : ((f p.csu).pinActive || (f p.csu).commandHold) = true) : p.sourceTaken f = (p.modCsu f).enterHold := by
  have hactive : (p.modCsu f).holdActive = true := ha
  have hrun : (p.modCsu f).csu.station = .run := hs
  have hmark : (p.modCsu f).enterHold.csu.marks.state = true := by simp [Part.enterHold_eq, addMark]
  have hcondition : (decide ((p.modCsu f).csu.station = .run) && (p.modCsu f).holdActive) = true := by
    rw [hactive, decide_eq_true hrun]
    rfl
  have hholds : (p.modCsu f).applyHold = (p.modCsu f).enterHold := if_pos hcondition
  rw [Part.sourceTaken, hholds, Part.setMark_marked (m := .state) hmark]

end

/-- A hold source that becomes active in RUN enters HOLD, whatever the command leaves of the CSU beside. -/
theorem exec_entersHold {s : State} {i : Instr} (hs : s.running) (hr : s.part.csu.station = .run)
    (hi : i = .holdNLevelTaken .low ∧ s.part.csu.pinActive = false ∨ i = .hold [] ∧ s.part.csu.commandHold = false) :
    ∃ (f : Csu → Csu) (c : Csu), exec i s = .next { s with part := { (s.part.modCsu f).enterHold with csu := c } } ∧
      c.station = .hold := by
  rcases hi with ⟨rfl, hpin⟩ | ⟨rfl, hcommand⟩
  · have hnew : s.part.csu.pinActive ≠ true := by simp [hpin]
    have henters := Part.sourceTaken_entersHold (p := s.part) (f := fun c => { c with pinActive := true }) hr rfl
    refine ⟨fun c => { c with pinActive := true }, _, ?_, Part.enterHold_station (s.part.modCsu fun c => { c with pinActive := true })⟩
    rw [exec_holdNLevelTaken hs, decide_eq_true rfl, Part.takePin_new hnew, henters]
  · have hnew : s.part.csu.commandHold ≠ true := by simp [hcommand]
    have htakes : s.part.takesCommand .hold = true := by simp [Part.takesCommand, hr]
    have henters := Part.sourceTaken_entersHold (p := s.part) (f := fun c => { c with commandHold := true }) hr (by simp)
    refine ⟨fun c => { c with commandHold := true },
      (s.part.modCsu fun c => { c with commandHold := true }).enterHold.csu.judged CommandKind.hold.code .taken, ?_, ?_⟩
    · exact (exec_holdOrRelease (k := .hold) hs (.inl rfl) htakes).trans (by
        rw [decide_eq_true rfl, Part.takeCommandHold_new hnew, henters])
    · exact Part.enterHold_station (s.part.modCsu fun c => { c with commandHold := true })

/-- Settles O13: a source that becomes active in RUN enters HOLD, and the blocks are read off that entry. -/
theorem enteringHoldActsOnTheBlocks : Obligations.EnteringHoldActsOnTheBlocks := by
  intro s i hs hr hi
  obtain ⟨f, c, hexec, hstation⟩ := exec_entersHold hs hr hi
  have hpse : (s.part.modCsu f).enterHold.pse =
      { s.part.pse.emptied with store := closeAll s.part.pendingNumbers s.part.pse.store } := Part.enterHold_pse _
  have hstore : (s.part.modCsu f).enterHold.pse.store = closeAll s.part.pendingNumbers s.part.pse.store := congrArg Pse.store hpse
  have hcounter : (s.part.modCsu f).enterHold.pse.wheelCounter = s.part.pse.wheelCounter := by
    rw [hpse]
    rfl
  have hvau : ∃ (vehicle : Option Vehicle) (port : Port), (s.part.modCsu f).enterHold.vau =
      { s.part.vau with intake := [], waiting := [], vehicle := vehicle, port := port } ∧
      (s.part.vau.vehicle = none → vehicle = none ∧ port = s.part.vau.port) ∧
      ∀ v, s.part.vau.vehicle = some v → vehicle = some (holdMarked s.part.now v) ∧ port.standing .axleFormer = true :=
    (s.part.modCsu f).enterHold_vau_cases
  obtain ⟨vehicle, port, hvau, hnone, hsome⟩ := hvau
  refine ⟨_, hexec, hstation, congrArg Pse.fifo hpse, congrArg Pse.history hpse, congrArg Pse.checks hpse,
    hcounter, ?_, fun r hrec ho n hn => ?_, congrArg Vau.intake hvau, congrArg Vau.waiting hvau, ?_, ?_, ?_, fun hv => ?_, fun v hv => ?_, fun e he hw => ?_, fun hroom => ?_, fun o => ?_, ?_⟩
  · exact (congrArg (List.map StoreRecord.wheel) hstore).trans (closeAll_wheels _ _)
  · have hclosed : r ∈ closeAll s.part.pendingNumbers s.part.pse.store := hstore ▸ hrec
    exact closeAll_open hclosed ho n (List.mem_append.2 hn)
  · exact (congrArg (fun u : Vau => u.peers) hvau :)
  · exact (congrArg (fun u : Vau => u.lastPeer) hvau :)
  · exact (congrArg (fun u : Vau => u.runStart) hvau :)
  · obtain ⟨rfl, hport⟩ := hnone hv
    exact ⟨congrArg Vau.vehicle hvau, (congrArg Vau.port hvau).trans hport⟩
  · obtain ⟨rfl, hport⟩ := hsome v hv
    exact ⟨congrArg Vau.vehicle hvau, (congrArg (fun u : Vau => u.port.standing .axleFormer) hvau).trans hport⟩
  · exact Part.enterHold_wheels (p := s.part.modCsu f) he hw
  · obtain ⟨hothers, hstatus⟩ := Part.enterHold_keeps (p := s.part.modCsu f) (spacious_holdList hroom)
    exact ⟨hothers.trans List.filter_sublist, hstatus⟩
  · have htou : (s.part.modCsu f).enterHold.tou = Tou.atRest := Part.enterHold_tou _
    refine (congrArg (fun t : Tou => t.outputs.get o) htou).trans ?_
    cases o <;> rfl
  · exact ((s.part.changedOnly_modCsu f).mono (by simp)).trans ((Part.changedOnly_enterHold _).trans
      ((Part.changedOnly_withCsu _ _).mono (by simp)))

end Sys2Proof.Machine
end


section
/-! PROOFS. The warm restart (R189) as one record update: what each block takes, and the one STATUS request that STATE makes when it is
newly set (R191). -/

namespace Sys2Proof.Machine

/-! ## The records removed unsent (R152) -/

/-- The VCL once every record of `l` is removed unsent: the carries and the lost total have counted them. -/
theorem foldl_removeUnsent_eq (l : List VehicleRecord) : ∀ v : Vcl, l.foldl removeUnsent v = { v with
    lostCarry := l.foldl (fun n r => n + 1 + r.lostCount) v.lostCarry
    cededCarry := l.foldl (fun n r => satAdd n r.cededCount.toNat) v.cededCarry
    totals := { v.totals with lost := l.foldl (fun n _ => satInc n) v.totals.lost } } := by
  induction l with
  | nil => intro v; rfl
  | cons r l ih => intro v; rw [List.foldl_cons, ih]; rfl

/-- What is counted of a record does not depend on whether its frame was handed back. -/
theorem foldl_handBackAll {α : Type} (f : α → VehicleRecord → α) (hf : ∀ a r, f a { r with state := .ready } = f a r)
    (l : List TxEntry) (records : List VehicleRecord) (a : α) : (handBackAll l records).foldl f a = records.foldl f a := by
  rw [handBackAll, List.foldl_map]
  congr 1
  funext a r
  split
  · exact hf a r
  · rfl

/-- The VCL after a warm restart (R146, R162). -/
def Vcl.restarted (v : Vcl) : Vcl :=
  { v with
    records := []
    walk := restingWalk v.walk.rulePosition v.walk.grantedAt
    lostCarry := v.records.foldl (fun n r => n + 1 + r.lostCount) v.lostCarry
    cededCarry := v.records.foldl (fun n r => satAdd n r.cededCount.toNat) v.cededCarry
    totals := { v.totals with lost := v.records.foldl (fun n _ => satInc n) v.totals.lost } }

theorem Vcl.warmRestart_handBackAll (l : List TxEntry) (v : Vcl) :
    Vcl.warmRestart { v with records := handBackAll l v.records } = v.restarted := by
  unfold Vcl.warmRestart Vcl.restarted
  rw [foldl_removeUnsent_eq]
  simp only [foldl_handBackAll (fun n (r : VehicleRecord) => n + 1 + r.lostCount) (fun _ _ => rfl),
    foldl_handBackAll (fun n (r : VehicleRecord) => satAdd n r.cededCount.toNat) (fun _ _ => rfl),
    foldl_handBackAll (fun n (_ : VehicleRecord) => satInc n) (fun _ _ => rfl)]

/-! ## The blocks before the mark (R189) -/

/-- The TEMP timer of a probe as the PTU begins work (R52). -/
def Part.firstTimer (p : Part) (pr : Probe) : Option Nat := if (p.probeParams pr).enable then some p.clock else none

/-- The PTU as it begins work (R42, R43, R58). -/
def Part.begunPtu (p : Part) : Ptu :=
  { p.ptu with
    intervalStart := some p.clock
    converter := serveNext p.image.probes.probe p.clock [.p0, .p1]
    probes := { p0 := { p.ptu.probes.p0 with tempTimer := p.firstTimer .p0 }
                p1 := { p.ptu.probes.p1 with tempTimer := p.firstTimer .p1 } } }

theorem Part.beginTemperature_eq (p : Part) : p.beginTemperature = { p with ptu := p.begunPtu } := rfl

/-- The part of which every block but the PTU has taken its warm-restart values, and STATE is not yet set. -/
def Part.warmRested (p : Part) : Part :=
  { p with
    lcu := p.lcu.warmRestart p.block.keepMarks, pse := p.pse.warmRestart, sbc := p.emptySbc
    stu := { p.stu.warmRestart with joinWindow := some p.clock }, vau := p.vau.warmRestart, vcl := p.vcl.restarted
    tou := Tou.atRest, csu := p.csu.warmRestart p.clock }

/-- The steps of a warm restart that follow the flushed list and the emptied receiver, but for the mark. -/
def Part.restBlocks (keep : Bool) (p : Part) : Part :=
  (((((((p.modLcu (Lcu.warmRestart keep)).modPse Pse.warmRestart).modVau Vau.warmRestart).modVcl Vcl.warmRestart).modStu
    Stu.warmRestart).openJoinWindow).restOutputs).modCsu (Csu.warmRestart p.clock)

theorem Part.warmRestart_restBlocks (p : Part) : p.warmRestart =
    ((p.cutAndFlush.emptyReceiver.restBlocks p.block.keepMarks).beginTemperature).setMark .state := by
  have hclock : p.cutAndFlush.emptyReceiver.clock = p.clock := by rw [Part.emptyReceiver_cut]
  rw [Part.restBlocks, hclock]
  rfl

theorem Part.restBlocks_cut (p : Part) : p.cutAndFlush.emptyReceiver.restBlocks p.block.keepMarks = p.warmRested := by
  rw [Part.emptyReceiver_cut]
  exact congrArg (fun v : Vcl => ({ p.warmRested with vcl := v } : Part)) (Vcl.warmRestart_handBackAll p.sbc.list p.vcl)

/-- The part of which every block has taken its warm-restart values, and STATE is not yet set. -/
def Part.warmBegun (p : Part) : Part := { p.warmRested with ptu := p.begunPtu }

theorem Part.warmRestart_setMark (p : Part) : p.warmRestart = p.warmBegun.setMark .state := by
  rw [Part.warmRestart_restBlocks, Part.restBlocks_cut, Part.beginTemperature_eq]
  rfl

/-! ## The mark in JOIN, on a list that is empty (R63, R191) -/

/-- Into an empty list a STATUS request enters alone where no record awaits its offer. -/
theorem Part.requestStatus_alone {p : Part} (ht : p.listTakes .status = true) (hl : p.sbc.list = []) (hv : p.vcl.records = []) :
    p.requestStatus = { p with sbc := { p.sbc with list := [newEntry .status p.now] } } := by
  have hmerges : merges p.sbc.list .status = false := by rw [hl]; rfl
  have hroom : p.sbc.list.length < 8 := by rw [hl]; exact Nat.zero_lt_succ _
  have henters : p.enterList .status p.now = { p with sbc := { p.sbc with list := [newEntry .status p.now] } } := by
    rw [Part.enterList_place ht hmerges, Part.placeEntry_room hroom, Part.modSbc, hl]
    rfl
  have hready : ∀ r ∈ (p.enterList .status p.now).vcl.records, r.state ≠ .ready := by
    rw [henters, hv]
    exact fun r hr => absurd hr List.not_mem_nil
  exact (Part.offerVehicle_none_ready hready).trans henters

/-- With no last request and an empty list the mark makes the one STATUS request, and no VEHICLE frame follows it. -/
theorem Part.setMark_state_alone {p : Part} (hs : p.csu.station = .join) (hr : p.csu.lastMarkRequest = none)
    (hl : p.sbc.list = []) (hv : p.vcl.records = []) (hm : p.csu.marks.state = false) : p.setMark .state = { p with
      csu := { p.csu with marks := { p.csu.marks with state := true }, lastMarkRequest := some p.clock, deferred := false }
      sbc := { p.sbc with list := [newEntry .status p.now] } } := by
  have hnew : p.setMark .state = (p.modCsu fun c => { c with
      marks := addMark c.marks .state, lastMarkRequest := some p.clock, deferred := false }).requestStatus := by
    have hunset : hasMark p.csu.marks .state = false := hm
    have huses : (p.modCsu fun c => { c with marks := addMark c.marks .state }).usesLine = true := by
      simp [Part.usesLine, Part.onDuty, hs]
    have hnone : (p.modCsu fun c => { c with marks := addMark c.marks .state }).csu.lastMarkRequest = none := hr
    simp only [Part.setMark, hunset, Part.markNewlySet, huses, hnone]
    rfl
  have htakes : (p.modCsu fun c => { c with
      marks := addMark c.marks .state, lastMarkRequest := some p.clock, deferred := false }).listTakes .status = true :=
    Part.listTakes_iff.2 (.inl (Part.onDuty_iff.2 (.inl hs)))
  rw [hnew, Part.requestStatus_alone htakes hl hv]
  rfl

/-- The CSU after a warm restart: the request for the newly set STATE mark starts the spacing anew (R189, R191). -/
def Part.restartedCsu (p : Part) : Csu :=
  { p.csu.warmRestart p.clock with
    marks := { p.csu.marks with state := true }
    lastMarkRequest := if p.csu.marks.state then none else some p.clock }

/-- The SBC after a warm restart: the request for the newly set STATE mark is its only frame (R77, R191). -/
def Part.restartedSbc (p : Part) : Sbc :=
  { p.emptySbc with list := if p.csu.marks.state then [] else [newEntry .status p.now] }

/-- The warm restart as one record update. -/
theorem Part.warmRestart_eq (p : Part) : p.warmRestart =
    { p.warmBegun with csu := p.restartedCsu, sbc := p.restartedSbc } := by
  rw [Part.warmRestart_setMark]
  rcases hm : p.csu.marks.state with _ | _
  · refine (Part.setMark_state_alone (p := p.warmBegun) rfl rfl rfl rfl hm).trans ?_
    rw [Part.restartedCsu, Part.restartedSbc, hm]
    rfl
  · refine (Part.setMark_marked (p := p.warmBegun) (m := .state) hm).trans ?_
    rw [Part.restartedCsu, Part.restartedSbc, hm]
    have hmarks : p.csu.marks = { p.csu.marks with state := true } := by rw [← hm]
    rw [← hmarks]
    rfl

theorem find?_inTransmission_restarted (p : Part) : p.restartedSbc.list.find? TxEntry.inTransmission = none := by
  unfold Part.restartedSbc
  split <;> rfl

theorem mem_restartedSbc {p : Part} {e : TxEntry} (he : e ∈ p.restartedSbc.list) : e.content = .status ∧ e.queueTime = p.now := by
  unfold Part.restartedSbc at he
  split at he
  · exact absurd he List.not_mem_nil
  · rw [List.mem_singleton.1 he]
    exact ⟨rfl, rfl⟩

theorem restartedSbc_length (p : Part) : p.restartedSbc.list.length = if p.csu.marks.state then 0 else 1 := by
  unfold Part.restartedSbc
  split <;> rfl

/-- The channels after a warm restart (R19). -/
theorem channels_warmRestart (keep : Bool) (l : Lcu) (ch : Channel) : (l.warmRestart keep).channels.get ch =
    if keep then (l.channels.get ch).toIdle else (l.channels.get ch).toIdle.clearMark := by
  cases ch <;> rfl

/-- Settles O14: the warm restart as one record update, of which every block is read off. -/
theorem restartIsAWarmRestart : Obligations.RestartIsAWarmRestart := by
  intro s hs ht hi
  have hwarm : s.part.doCommand .restart [] = s.part.warmRestart := by simp [Part.doCommand, Part.restart, hi]
  refine ⟨_, exec_taken (k := .restart) hs ht rfl, ?_⟩
  rw [hwarm, Part.warmRestart_eq]
  refine ⟨⟨rfl, rfl, rfl, rfl, rfl, rfl, rfl, rfl, rfl, rfl, rfl, rfl⟩, fun ch => ?_, ⟨rfl, rfl, rfl, rfl, rfl⟩,
    ⟨rfl, rfl, rfl, rfl, rfl, fun pr => ?_⟩, ⟨rfl, rfl, rfl, rfl, find?_inTransmission_restarted s.part, ?_, ?_, rfl, rfl, rfl,
      rfl, rfl, rfl⟩, ⟨rfl, rfl, rfl⟩, ⟨rfl, rfl, rfl, fun i => ?_, rfl, rfl⟩,
    ⟨rfl, rfl, rfl, rfl, rfl, rfl, rfl, rfl, rfl, rfl, rfl, rfl⟩, ⟨rfl, rfl, rfl, rfl, rfl, rfl, rfl, rfl, rfl, rfl⟩, fun o => ?_⟩
  · exact channels_warmRestart _ _ _
  · cases pr <;> rfl
  · exact fun e he => mem_restartedSbc he
  · exact restartedSbc_length s.part
  · exact Vector.getElem_replicate _
  · cases o <;> rfl

end Sys2Proof.Machine
end


section
/-! PROOFS. The receiver's frame with the own station number, and SILENT (R70, R190): the entry into SILENT as one record update. -/

namespace Sys2Proof.Machine

/-! ## A frame that the receiver has followed (R69) -/

section
variable {s : State} {bytes payload : List Byte} {c : Capture} {kind : FrameKind} {sender : Nat}

/-- The part that has heard a frame to its end: it follows none, and the line is quiet from now. -/
def Part.heard (p : Part) : Part := p.stopFollowing (.quiet p.clock)

theorem exec_frameReceived (hs : s.running) (hr : s.part.receiverOn = true) (hf : s.part.sbc.following = some c) :
    exec (.frameReceived bytes) s = .next { s with part := s.part.receiveFrame bytes c } := by
  have hexec : exec (.frameReceived bytes) s = act (fun p =>
    if !p.receiverOn then p
    else
      match p.sbc.following with
      | some c => p.receiveFrame bytes c
      | none => if p.sending.isNone then p.hearUse else p) s := rfl
  rw [hexec, act_running _ hs, hr, hf]
  rfl

theorem Part.receiverOn_of_usesLine {p : Part} (h : p.usesLine = true) : p.receiverOn = true := by
  unfold Part.receiverOn
  cases hs : p.csu.station <;> simp_all [Part.usesLine, Part.onDuty]

theorem Part.receiveFrame_good {p : Part} (hj : judgeBytes bytes = .good kind sender payload) :
    p.receiveFrame bytes c = p.heard.takeFrame kind sender payload c := by
  simp only [Part.receiveFrame, hj]
  rfl

theorem Part.takeFrame_own {p : Part} (hn : sender = p.block.number) : p.takeFrame kind sender payload c = p.enterSilent := if_pos hn

end

/-! ## A dispatcher with an empty buffer (R72, R73) -/

theorem Part.endDeaf_eq (p : Part) : ∃ (deaf : Bool) (blind : List BlindInterval),
    p.endDeaf = { p with sbc := { p.sbc with deaf := deaf, blind := blind } } := by
  unfold Part.endDeaf
  split
  · exact ⟨_, _, rfl⟩
  · exact ⟨p.sbc.deaf, p.sbc.blind, rfl⟩

theorem Part.dispatchFrames_empty {p : Part} (h : p.sbc.rx = []) (n : Nat) : p.dispatchFrames n = p := by
  cases n with
  | zero => rfl
  | succ n => rw [Part.dispatchFrames, h]

theorem Part.wheelAtHead_empty {p : Part} (h : p.sbc.rx = []) : p.wheelAtHead = false := by rw [Part.wheelAtHead, h]

theorem Part.endDeaf_rx (p : Part) : p.endDeaf.sbc.rx = p.sbc.rx := by
  obtain ⟨deaf, blind, h⟩ := p.endDeaf_eq
  rw [h]

theorem Part.dispatch_empty {p : Part} (h : p.sbc.rx = []) : p.dispatch = p.endDeaf := by
  have hhead : p.endDeaf.wheelAtHead = false := Part.wheelAtHead_empty (p.endDeaf_rx.trans h)
  simp only [Part.dispatch, Part.dispatchFrames_empty h, hhead, Bool.false_eq_true, if_false]

/-! ## The entry into SILENT (R190) -/

/-- The part whose blocks have given up what the entry into SILENT takes from them, before the dispatcher sees its buffer. -/
def Part.silenced (p : Part) : Part :=
  { p with
    pse := { p.pse.emptied with store := closeAll p.pendingNumbers p.pse.store }
    sbc := p.cutSbc
    stu := { p.stu with joinWindow := none }
    vau := { p.vau with
      intake := [], waiting := [], vehicle := none, runStart := none, port := p.vau.port.withdraw .dispatcher }
    vcl := { p.vcl with records := handBackAll p.sbc.list p.vcl.records }
    tou := if p.csu.image.isSome then Tou.atRest else p.tou
    csu := { p.csu with station := .silent, deferred := false, marks := addMark p.csu.marks .state } }

/-- The blocks emptied at the entry into SILENT, from the cut on. -/
theorem Part.silent_emptied (p : Part) : (p.cutAndFlush.modPse Pse.emptied).clearPending = { p with
    pse := { p.pse.emptied with store := closeAll p.pendingNumbers p.pse.store }
    sbc := p.cutSbc
    vau := { p.vau with intake := [], waiting := [] }
    vcl := { p.vcl with records := handBackAll p.sbc.list p.vcl.records } } := by
  rw [Part.cutAndFlush_eq, Part.clearPending_eq]
  rfl

/-- The steps of the entry into SILENT behind the emptied blocks, up to the mark. -/
def Part.silentSteps (configured : Bool) (p : Part) : Part :=
  let rested := if configured then p.discardVehicle.restOutputs else p.discardVehicle
  (rested.modStu fun u => { u with joinWindow := none }).modCsu fun c => { c with station := .silent, deferred := false }

theorem Part.silentSteps_eq (configured : Bool) (p : Part) : p.silentSteps configured = { p with
    stu := { p.stu with joinWindow := none }
    vau := { p.vau with vehicle := none, runStart := none }
    tou := if configured then Tou.atRest else p.tou
    csu := { p.csu with station := .silent, deferred := false } } := by
  cases configured <;> rfl

theorem Part.enterSilent_steps {p : Part} (h : p.usesLine = true) : p.enterSilent =
    ((((p.cutAndFlush.modPse Pse.emptied).clearPending.silentSteps p.csu.image.isSome).setMark .state).modVau fun v =>
      { v with port := v.port.withdraw .dispatcher }).dispatch := by
  have hused : ¬(!p.usesLine) = true := by simp [h]
  exact if_neg hused

theorem Part.changedOnly_silenced (p : Part) : p.changedOnly [.csu, .sbc, .pse, .vau, .stu, .tou, .vcl] p.silenced :=
  ⟨rfl, rfl, fun k hk => by cases k <;> simp_all [Part.sameAt, Part.silenced]⟩

/-- The store records that the entry into SILENT closes, by the lists that hold their wheels (R109). -/
theorem closeAll_pendingNumbers (p : Part) (store : List StoreRecord) : closeAll p.pendingNumbers store = store.map fun r =>
    if (p.vau.intake.any fun w => decide (w.wheel.number = r.wheel.number)) ||
      p.vau.waiting.any (fun w => decide (w.wheel.number = r.wheel.number)) then { r with isOpen := false } else r := by
  simp only [closeAll, Part.pendingNumbers, List.any_append, List.any_map]
  rfl

theorem Part.enterSilent_eq {p : Part} (h : p.usesLine = true) : p.enterSilent = p.silenced.dispatch := by
  rw [Part.enterSilent_steps h, Part.silent_emptied, Part.silentSteps_eq, Part.setMark_quiet rfl]
  rfl

theorem Part.enterSilent_unused {p : Part} (h : p.usesLine = false) : p.enterSilent = p := by simp [Part.enterSilent, h]

/-- Settles O49: SILENT is `silenced`, and an empty buffer gives the dispatcher no work but the end of DEAF. -/
theorem ownNumberHeardTakesSilent : Obligations.OwnNumberHeardTakesSilent := by
  intro s bytes payload kind hs hf hrx hj
  obtain ⟨c, hc⟩ := Option.isSome_iff_exists.1 hf
  have htakes : s.part.receiveFrame bytes c = s.part.heard.enterSilent :=
    (Part.receiveFrame_good hj).trans (Part.takeFrame_own rfl)
  refine ⟨fun hu => ?_, fun hsilent => ?_⟩
  · have hreceiver : s.part.receiverOn = true := Part.receiverOn_of_usesLine hu
    obtain ⟨deaf, blind, hended⟩ := s.part.heard.silenced.endDeaf_eq
    have hsilenced : s.part.heard.enterSilent =
        { s.part.heard.silenced with sbc := { s.part.heard.silenced.sbc with deaf := deaf, blind := blind } } := by
      rw [Part.enterSilent_eq (p := s.part.heard) hu, Part.dispatch_empty (p := s.part.heard.silenced) hrx, hended]
    refine ⟨_, exec_frameReceived hs hreceiver hc, ?_⟩
    rw [htakes, hsilenced]
    refine ⟨rfl, rfl, rfl, rfl, rfl, rfl, rfl, rfl, rfl, rfl, rfl, rfl, rfl, rfl, rfl, rfl, rfl, rfl, rfl, rfl, rfl, rfl,
      closeAll_pendingNumbers s.part.heard _,
      rfl, ?_⟩
    have hkept : s.part.changedOnly [.csu, .sbc, .pse, .vau, .stu, .tou, .vcl] s.part.heard.silenced :=
      ((s.part.changedOnly_modSbc _).mono (by simp)).trans (Part.changedOnly_silenced s.part.heard)
    exact hkept.trans ((Part.changedOnly_modSbc (fun b => { b with deaf := deaf, blind := blind }) _).mono (by simp))
  · have hreceiver : s.part.receiverOn = true := by simp [Part.receiverOn, hsilent]
    have hunused : s.part.heard.usesLine = false := by simp [Part.usesLine, Part.onDuty, Part.heard, Part.stopFollowing, hsilent]
    rw [exec_frameReceived hs hreceiver hc, htakes, Part.enterSilent_unused hunused]
    rfl

end Sys2Proof.Machine
end


section
/-! PROOFS. The frame being sent: its completion (R67, R153, R155, R161), its loss and its abort (R61, R62, R66 to R68, R190), and the
start of the next (R59, R60, R65, R66). -/

namespace Sys2Proof.Machine

/-! ## The frame in transmission (R60) -/

section
variable {p : Part} {before after : List TxEntry} {e : TxEntry}

theorem Part.sending_eq (hl : p.sbc.list = before ++ e :: after) (he : e.inTransmission = true)
    (hb : ∀ x ∈ before, x.inTransmission = false) : p.sending = some e := by
  rw [Part.sending, hl]
  exact find?_append_cons hb he

theorem stopList_append (he : e.inTransmission = true) (hb : ∀ x ∈ before, x.inTransmission = false) :
    stopList (before ++ e :: after) = if e.leaving then before ++ after else before ++ stopEntry e :: after := by
  induction before with
  | nil => simp [stopList, he]
  | cons x before ih =>
    have hx : x.inTransmission = false := hb x List.mem_cons_self
    simp only [List.cons_append, stopList, hx, ih fun y hy => hb y (List.mem_cons_of_mem _ hy)]
    cases e.leaving <;> rfl

end

/-! ## FRAME_COMPLETE (R67) -/

section
variable {s : State} {before after : List TxEntry} {e : TxEntry}

/-- The part whose frame in transmission has left the list and whose line is quiet from now. -/
def Part.completed (p : Part) (rest : List TxEntry) : Part :=
  { p with sbc := { p.sbc with list := rest, onLine := none, txCapture := none, line := .quiet p.clock } }

theorem Part.completeFrame_eq {p : Part} (hl : p.sbc.list = before ++ e :: after) (he : e.inTransmission = true)
    (hb : ∀ x ∈ before, x.inTransmission = false) :
    p.completeFrame e = ((p.completed (before ++ after)).afterFrame e).offerVehicle := by
  have hdrop : dropFirst TxEntry.inTransmission p.sbc.list = before ++ after := by rw [hl, dropFirst_append hb he]
  rw [Part.completeFrame, Part.modSbc, hdrop]
  rfl

theorem exec_frameComplete (hs : s.running) (hl : s.part.sbc.list = before ++ e :: after) (he : e.inTransmission = true)
    (hb : ∀ x ∈ before, x.inTransmission = false) :
    exec .frameComplete s =
      .next { s with part := ((s.part.completed (before ++ after)).afterFrame e).offerVehicle } := by
  have hexec : exec .frameComplete s = act (fun p =>
    match p.sending with
    | some e => p.completeFrame e
    | none => p) s := rfl
  rw [hexec, act_running _ hs, Part.sending_eq hl he hb, ← Part.completeFrame_eq hl he hb]

/-- A frame of a kind but VEHICLE and TOTALS whose repeat is not asked for leaves nothing to do behind it. -/
theorem Part.afterFrame_plain (hr : e.repeatAsked = false) (ht : e.repeatTemp = none) (hv : e.content.kind ≠ .vehicle)
    (hk : e.content.kind ≠ .totals) (p : Part) : p.afterFrame e = p := by
  cases hc : e.content with
  | wheel w => simp [Part.afterFrame, hc]
  | time => simp [Part.afterFrame, hc]
  | vehicle seq => exact absurd (by rw [hc]; rfl) hv
  | temp probe c => simp [Part.afterFrame, hc, ht]
  | status => simp [Part.afterFrame, hc, hr]
  | totals => exact absurd (by rw [hc]; rfl) hk

theorem Part.afterFrame_vehicle {seq : Count16} (hc : e.content = .vehicle seq) (p : Part) : p.afterFrame e =
    { p with vcl := { p.vcl with records := dropFirst (fun r => decide (r.seq = seq)) p.vcl.records } } := by
  simp [Part.afterFrame, hc, Part.modVcl]

theorem Part.afterFrame_totals {snap : Totals} (hc : e.content = .totals) (hsnap : e.snapshot = some snap)
    (hr : e.repeatAsked = false) (p : Part) : p.afterFrame e =
    { p with vcl := { p.vcl with totals := reduceTotals p.vcl.totals snap } } := by
  simp [Part.afterFrame, hc, hsnap, hr, Part.modTotals, Part.modVcl]

/-- What the repeat of a STATUS or TOTALS request finds: the part whose totals the frame's snapshot has reduced (R161). -/
theorem Part.afterFrame_request {c : TxContent} (hc : e.content = c) (hk : c = .status ∨ c = .totals) (hr : e.repeatAsked = true)
    (p : Part) : ∃ totals : Totals,
      p.afterFrame e = (p.modTotals fun _ => totals).enterList c p.now := by
  rcases hk with rfl | rfl
  · exact ⟨p.vcl.totals, by simp only [Part.afterFrame, hc, hr, if_true]; rfl⟩
  · cases hsnap : e.snapshot with
    | none => exact ⟨p.vcl.totals, by simp only [Part.afterFrame, hc, hr, hsnap, if_true]; rfl⟩
    | some snap => exact ⟨reduceTotals p.vcl.totals snap, by
        simp [Part.afterFrame, hc, hr, hsnap, Part.modTotals, Part.modVcl, Part.now]⟩

theorem Part.afterFrame_temp {probe : Probe} {c d : TempContent} (hc : e.content = .temp probe c) (hd : e.repeatTemp = some d)
    (p : Part) : p.afterFrame e = p.enterList (.temp probe d) p.now := by
  simp [Part.afterFrame, hc, hd]

/-- A frame that finds room and none to merge with enters by its kind, and changes the list alone. -/
theorem Part.enterList_room {p : Part} {c : TxContent} (hd : p.onDuty = true) (hm : merges p.sbc.list c = false)
    (hl : p.sbc.list.length < 8) (t : SiteTime) :
    p.enterList c t = p.modSbc fun b => { b with list := insertByKind (newEntry c t) b.list } := by
  rw [Part.enterList_place (Part.listTakes_iff.2 (.inl hd)) hm, Part.placeEntry_room hl]

theorem merges_of_none {l : List TxEntry} {c : TxContent} (hk : c = .status ∨ c = .totals) (h : ∀ x ∈ l, x.content ≠ c) :
    merges l c = false := by
  rcases hk with rfl | rfl
  · exact List.any_eq_false.2 fun x hx => by simpa [TxContent.kind_eq_status] using h x hx
  · refine List.any_eq_false.2 fun x hx => ?_
    have hne := h x hx
    cases hc : x.content <;> simp_all [TxContent.kind]

/-- The totals reduced by a snapshot, field by field (R161). -/
theorem reduceTotals_perClass (t u : Totals) (i : Fin 32) : (reduceTotals t u).perClass[i] = t.perClass[i] - u.perClass[i] := by
  simp [reduceTotals]

/-- Settles O43: the completed frame leaves, and what follows it goes by its kind. -/
theorem completedFrameLeavesTheList : Obligations.CompletedFrameLeavesTheList := by
  intro s before after e hs hl he hb q
  have hexec := exec_frameComplete hs hl he hb
  refine ⟨fun hr ht => ⟨fun hv hk => ?_, fun seq hc => ?_, fun snap hc hsnap => ?_⟩, fun hd hlength => ⟨fun c hc hk hr hnone => ?_,
    fun probe c d hc hrepeat hnone => ?_⟩, fun t u => ⟨reduceTotals_perClass t u, rfl, rfl, rfl, rfl, rfl, rfl, rfl, rfl, rfl⟩⟩
  · rw [hexec, Part.afterFrame_plain hr ht hv hk]
    rfl
  · rw [hexec, Part.afterFrame_vehicle hc]
    rfl
  · rw [hexec, Part.afterFrame_totals hc hsnap hr]
    rfl
  · obtain ⟨totals, hafter⟩ := Part.afterFrame_request hc hk hr (s.part.completed (before ++ after))
    rw [hexec, hafter, Part.enterList_room (p := (s.part.completed (before ++ after)).modTotals fun _ => totals) hd
      (merges_of_none hk hnone) (by rwa [← List.length_append] at hlength)]
    exact ⟨_, rfl, rfl, rfl⟩
  · have hmerges : merges (before ++ after) (.temp probe d) = false := List.any_eq_false.2 fun x hx => by simp [hnone x hx]
    rw [hexec, Part.afterFrame_temp hc hrepeat, Part.enterList_room (p := s.part.completed (before ++ after)) hd hmerges
      (by rwa [← List.length_append] at hlength)]
    exact ⟨_, rfl, rfl, rfl⟩

end

/-! ## CONTENTION_LOSS and PAYLOAD_MISMATCH (R61, R62) -/

section
variable {s : State} {before after : List TxEntry} {e : TxEntry}

/-- The list once the frame in transmission, between `before` and `after`, has stopped (R67, R68). -/
def keptFrames (before : List TxEntry) (e : TxEntry) (after : List TxEntry) : List TxEntry :=
  if e.leaving then before ++ after else before ++ stopEntry e :: after

theorem stopEntry_content_plain (h : e.repeatTemp = none ∨ e.content.kind ≠ .temp) : (stopEntry e).content = e.content := by
  cases hc : e.content <;> cases hr : e.repeatTemp <;> simp_all [stopEntry, TxContent.kind]

theorem stopEntry_content_temp {probe : Probe} {c d : TempContent} (hc : e.content = .temp probe c) (hd : e.repeatTemp = some d) :
    (stopEntry e).content = .temp probe d := by
  simp [stopEntry, hc, hd]

theorem Part.stopSending_eq {p : Part} (hl : p.sbc.list = before ++ e :: after) (he : e.inTransmission = true)
    (hb : ∀ x ∈ before, x.inTransmission = false) : p.stopSending =
      { p with sbc := { p.sbc with list := keptFrames before e after, onLine := none, txCapture := none } } := by
  rw [Part.stopSending, Part.modSbc, hl, stopList_append he hb]
  rfl

theorem exec_contentionLoss (hs : s.running) (hsend : s.part.sending = some e) :
    exec .contentionLoss s = .next { s with part := s.part.loseContention } := by
  have hexec : exec .contentionLoss s = act (fun p => if p.sending.isSome then p.loseContention else p) s := rfl
  rw [hexec, act_running _ hs, hsend]
  rfl

theorem exec_payloadMismatch (hs : s.running) (hsend : s.part.sending = some e) :
    exec .payloadMismatch s = .next { s with part := s.part.abortFrame } := by
  have hexec : exec .payloadMismatch s = act (fun p => if p.sending.isSome then p.abortFrame else p) s := rfl
  rw [hexec, act_running _ hs, hsend]
  rfl

/-- A second mismatch within the span (R62), on the own clock. -/
def Part.Repeated (p : Part) : Prop := ∃ t, p.sbc.lastMismatch = some t ∧ p.clock ≤ t + 10000000

theorem Part.mismatchRepeated_iff {p : Part} : p.mismatchRepeated = true ↔ p.Repeated := by
  unfold Part.mismatchRepeated Part.Repeated
  cases h : p.sbc.lastMismatch with
  | none => simp
  | some t =>
    simp only [Option.some.injEq, exists_eq_left']
    exact decide_eq_true_iff

/-- The SBC once the mismatch is counted, with the list `kept` (R62). -/
def Part.countedSbc (p : Part) (kept : List TxEntry) : Sbc :=
  { p.sbc with
    list := kept, onLine := none, txCapture := none
    mismatches := satInc p.sbc.mismatches, lastMismatch := some p.clock, line := .quiet p.clock }

/-- The part that has counted the mismatch. -/
def Part.counted (p : Part) (kept : List TxEntry) : Part := { p with sbc := p.countedSbc kept }

/-- The part that has aborted its frame, before SILENT (R62). -/
def Part.aborted (p : Part) (kept : List TxEntry) : Part := ((p.counted kept).setMark .bus).offerVehicle

theorem Part.abortFrame_eq {p : Part} (hl : p.sbc.list = before ++ e :: after) (he : e.inTransmission = true)
    (hb : ∀ x ∈ before, x.inTransmission = false) : p.abortFrame =
      if p.mismatchRepeated then (p.aborted (keptFrames before e after)).enterSilent else p.aborted (keptFrames before e after) := by
  unfold Part.abortFrame
  rw [Part.stopSending_eq hl he hb]
  rfl

theorem Part.changedOnly_aborted (p : Part) (kept : List TxEntry) : p.changedOnly [.sbc, .csu, .vcl] (p.aborted kept) := by
  refine Part.changedOnly.trans (b := p.counted kept) ?_ ?_
  · exact ⟨rfl, rfl, fun k hk => by cases k <;> simp_all [Part.sameAt, Part.counted]⟩
  · exact ((Part.changedOnly_setMark .bus _).mono (by simp)).trans ((Part.changedOnly_offerVehicle _).mono (by simp))

/-- SILENT as the end of a repeated mismatch: what is read of it where the buffer is empty. -/
theorem Part.enterSilent_fields {p : Part} (hu : p.usesLine = true) (hrx : p.sbc.rx = []) :
    p.enterSilent.csu.station = .silent ∧ p.enterSilent.csu.marks = addMark p.csu.marks .state ∧
      p.enterSilent.sbc.mismatches = p.sbc.mismatches ∧ p.enterSilent.sbc.lastMismatch = p.sbc.lastMismatch ∧
      p.enterSilent.sbc.list = [] ∧ p.enterSilent.sbc.line = if p.sending.isSome then .quiet p.clock else p.sbc.line := by
  obtain ⟨deaf, blind, hended⟩ := p.silenced.endDeaf_eq
  rw [Part.enterSilent_eq hu, Part.dispatch_empty (p := p.silenced) hrx, hended]
  exact ⟨rfl, rfl, rfl, rfl, rfl, rfl⟩

/-- Settles O42: the frame being sent stops; a loss follows the other frame, a mismatch is counted and may bring SILENT. -/
theorem lostFramesStayInTheList : Obligations.LostFramesStayInTheList := by
  intro s before after e hs hl he hb kept stopped repeated counted
  have hsend := Part.sending_eq hl he hb
  have habort := Part.abortFrame_eq hl he hb
  have hnot (h : ¬repeated) : s.part.abortFrame = s.part.aborted (keptFrames before e after) := by
    rw [habort, if_neg fun hr => h (Part.mismatchRepeated_iff.1 hr)]
  refine ⟨⟨rfl, rfl, rfl, rfl, rfl, rfl, stopEntry_content_plain, fun probe c d => stopEntry_content_temp⟩, ?_, fun hr hm => ?_,
    fun hr => ⟨_, exec_payloadMismatch hs hsend, ?_⟩, fun hr hu hrx => ⟨_, exec_payloadMismatch hs hsend, ?_⟩⟩
  · rw [exec_contentionLoss hs hsend, Part.loseContention, Part.stopSending_eq hl he hb]
    rfl
  · rw [exec_payloadMismatch hs hsend, hnot hr, Part.aborted,
      Part.setMark_marked (p := s.part.counted (keptFrames before e after)) (m := .bus) hm]
    rfl
  · rw [hnot hr]
    have hkept := s.part.changedOnly_aborted (keptFrames before e after)
    refine ⟨?_, ?_, ?_, ?_, ?_, hkept⟩
    · simp [Part.aborted, addMark]
    · simp [Part.aborted, Part.counted, Part.countedSbc]
    · simp [Part.aborted, Part.counted, Part.countedSbc]
    · simp [Part.aborted, Part.counted, Part.countedSbc]
    · simp [Part.aborted, Part.counted]
  · rw [habort, if_pos (Part.mismatchRepeated_iff.2 hr)]
    have huses : (s.part.aborted (keptFrames before e after)).usesLine = true := by
      simpa [Part.usesLine, Part.onDuty, Part.aborted, Part.counted] using hu
    have hempty : (s.part.aborted (keptFrames before e after)).sbc.rx = [] := by simpa [Part.aborted, Part.counted, Part.countedSbc] using hrx
    obtain ⟨hstation, hmarks, hmismatches, hlast, hlist, hline⟩ := Part.enterSilent_fields huses hempty
    refine ⟨hstation, ?_, ?_, ?_, hlist, ?_⟩
    · rw [hmarks]
      simp [Part.aborted, Part.counted, addMark]
    · exact hmismatches.trans (by simp [Part.aborted, Part.counted, Part.countedSbc])
    · exact hlast.trans (by simp [Part.aborted, Part.counted, Part.countedSbc])
    · refine hline.trans ?_
      simp [Part.aborted, Part.counted, Part.countedSbc]

end

/-! ## WOULD_BE_START (R59, R65, R66) -/

section
variable {p : Part} {stale rest : List TxEntry}

/-- A WHEEL frame older than the peer allowance (R65). -/
def Part.Stale (p : Part) (x : TxEntry) : Prop :=
  x.content.kind = .wheel ∧ ((p.image.assembly.lp * 1000 : Nat) : Int) < siteDiff p.now x.queueTime

theorem Part.staleEntry_iff {x : TxEntry} : p.staleEntry x = true ↔ p.Stale x := by
  unfold Part.staleEntry Part.Stale Part.lpMicros
  rw [Bool.and_eq_true, decide_eq_true_eq, decide_eq_true_eq]

/-- The part behind `n` stale frames that were dropped: `rest` is left of its list. -/
def Part.behindStale (p : Part) (n : Nat) (rest : List TxEntry) : Part :=
  { p with
    sbc := { p.sbc with list := rest, drops := satInc^[n] p.sbc.drops }
    vcl := { p.vcl with totals := { p.vcl.totals with staleWheelDrops := satInc^[n] p.vcl.totals.staleWheelDrops } } }

theorem Part.removeStale_stop (h : ∀ e, p.sbc.list.head? = some e → ¬p.Stale e) : ∀ n, p.removeStale n = p
  | 0 => rfl
  | n + 1 => by
    cases hl : p.sbc.list with
    | nil => simp [Part.removeStale, hl]
    | cons e more =>
      have hfresh : p.staleEntry e = false := Bool.eq_false_iff.2 fun hs => h e (by rw [hl]; rfl) (Part.staleEntry_iff.1 hs)
      simp [Part.removeStale, hl, hfresh]

theorem Part.removeStale_eq (hl : p.sbc.list = stale ++ rest) (hs : ∀ x ∈ stale, p.Stale x)
    (hr : ∀ e, rest.head? = some e → ¬p.Stale e) (n : Nat) :
    p.removeStale (stale.length + n) = p.behindStale stale.length rest := by
  induction stale generalizing p with
  | nil =>
    have hlist : p.sbc.list = rest := hl
    rw [Part.removeStale_stop (by rwa [hlist]), ← hlist]
    rfl
  | cons x stale ih =>
    have hx : p.staleEntry x = true := Part.staleEntry_iff.2 (hs x List.mem_cons_self)
    have hstep : p.removeStale ((x :: stale).length + n) = (p.behindStale 1 (stale ++ rest)).removeStale (stale.length + n) := by
      rw [List.length_cons, Nat.add_right_comm, Part.removeStale, hl]
      simp only [List.cons_append, hx, if_true]
      rfl
    rw [hstep, ih (p := p.behindStale 1 (stale ++ rest)) rfl (fun y hy => hs y (List.mem_cons_of_mem _ hy)) hr]
    rfl

theorem Part.startFrame_cons {e : TxEntry} {more : List TxEntry} (hl : p.sbc.list = e :: more) : p.startFrame = { p with
    sbc := { p.sbc with
      list := { e with
        inTransmission := true
        snapshot := if e.content.kind = .totals then some p.vcl.totals else none } :: more
      onLine := some (frameBytes e.content.kind p.block.number (p.payloadOf e.content))
      txCapture := some { siteTime := p.stu.siteTime, stepTotal := p.stu.stepTotal } } } := by
  simp only [Part.startFrame, hl]
  rfl

theorem Part.startFrame_nil (hl : p.sbc.list = []) : p.startFrame = p := by simp [Part.startFrame, hl]

theorem Part.startDue_iff : p.startDue = true ↔ p.mayStart = true ∧ p.sbc.list ≠ [] := by simp [Part.startDue]

end

theorem exec_wouldBeStart {s : State} (hs : s.running) :
    exec .wouldBeStart s = .next { s with part := if s.part.startDue then s.part.beginFrame else s.part } := act_running _ hs

theorem exec_wouldBeStart_due {s : State} (hs : s.running) (h : s.part.startDue = true) :
    exec .wouldBeStart s = .next { s with part := s.part.beginFrame } := by rw [exec_wouldBeStart hs, if_pos h]

theorem exec_wouldBeStart_not_due {s : State} (hs : s.running) (h : ¬s.part.startDue = true) :
    exec .wouldBeStart s = .next s := by rw [exec_wouldBeStart hs, if_neg h]

/-- Settles O41: a would-be start drops the stale frames at the head, makes the offer and starts the first frame. -/
theorem firstFrameStarts : Obligations.FirstFrameStarts := by
  intro s stale rest hs hu hsend hf bit limit old behind p
  have hquiet : quietInterval s.part.block.bitRate = 11 * bit := by
    simp only [bit]
    generalize s.part.block.bitRate = r
    cases r <;> rfl
  have hsince {t : Nat} (ht : s.part.sbc.line = .quiet t ∨ s.part.sbc.line = .ignored t) : s.part.sbc.line.since = t := by
    rcases ht with h | h <;> rw [h] <;> rfl
  have hstart {t : Nat} (ht : s.part.sbc.line = .quiet t ∨ s.part.sbc.line = .ignored t) :
      s.part.startDue = true ↔ t + 11 * bit ≤ s.part.clock ∧ s.part.sbc.list ≠ [] := by
    rw [Part.startDue_iff, Part.mayStart_iff, hsince ht, hquiet]
    exact ⟨fun h => ⟨h.1.2.2.2, h.2⟩, fun h => ⟨⟨hu, hsend, hf, h.1⟩, h.2⟩⟩
  refine ⟨fun t ht hrest hl hne hstale hfresh => ?_, fun t ht => ⟨fun hlt => ?_, fun hge hne => ?_, fun hd hne => ?_⟩, fun hl => ?_⟩
  · have hbegin : s.part.beginFrame = p.startFrame := by
      have hremoved := Part.removeStale_eq hl hstale hfresh rest.length
      have hlength : s.part.sbc.list.length = stale.length + rest.length := by rw [hl, List.length_append]
      rw [Part.beginFrame, hlength, hremoved]
      rfl
    have hexec := exec_wouldBeStart_due hs ((hstart ht).2 ⟨hrest, hne⟩)
    refine ⟨fun e more hp => ?_, fun hp => ?_⟩
    · have hstu : p.stu = s.part.stu := Part.offerVehicle_stu behind
      have hnumber : p.block.number = s.part.block.number := by
        rw [Part.block, Part.offerVehicle_csu behind]
        rfl
      rw [hexec, hbegin, Part.startFrame_cons hp, hstu, hnumber]
    · rw [hexec, hbegin, Part.startFrame_nil hp]
  · exact exec_wouldBeStart_not_due hs fun h => absurd ((hstart ht).1 h).1 (Nat.not_le.2 hlt)
  · have hdue : s.part.startDue = true := (hstart ht).2 ⟨hge, hne⟩
    simp [Part.ownEvents, hdue]
  · have hnot : s.part.startDue = false := Part.not_due hs hd (c := .wouldBeStart) (by simp [Part.ownEvents])
    by_contra h
    exact absurd ((hstart ht).2 ⟨Nat.not_lt.1 h, hne⟩) (by simp [hnot])
  · exact exec_wouldBeStart_not_due hs fun h => (Part.startDue_iff.1 h).2 hl

end Sys2Proof.Machine
end


section
/-! PROOFS. Bytes, the CRC and the frame on the line (R60, R69, R194, R195): what the checks read of a frame, what a frame is made of,
and that a payload read again gives what it was made from (R196). -/

namespace Sys2Proof.Machine

/-! ## Fields of bytes (R194) -/

theorem leBytes_length (n x : Nat) : (leBytes n x).length = n := by
  induction n generalizing x with
  | zero => rfl
  | succ n ih => rw [leBytes, List.length_cons, ih]

theorem leValue_leBytes_mod (n x : Nat) : leValue (leBytes n x) = x % 256 ^ n := by
  induction n generalizing x with
  | zero => rw [leBytes, leValue, Nat.pow_zero, Nat.mod_one]
  | succ n ih =>
    have hbyte : (BitVec.ofNat 8 x).toNat = x % 256 := BitVec.toNat_ofNat x 8
    rw [leBytes, leValue, ih, hbyte, Nat.pow_succ', Nat.mod_mul]

theorem leValue_leBytes {n x : Nat} (h : x < 256 ^ n) : leValue (leBytes n x) = x := by
  rw [leValue_leBytes_mod, Nat.mod_eq_of_lt h]

theorem leValue_pair (low high : Byte) : leValue [low, high] = low.toNat + 256 * high.toNat := rfl

theorem signedValue_signedBytes {v : Int} (h : -32768 ≤ v) (h' : v ≤ 32767) : signedValue (signedBytes v) = v := by
  have hlt : (BitVec.ofInt 16 v).toNat < 256 ^ 2 := (BitVec.ofInt 16 v).isLt
  rw [signedValue, signedBytes, leValue_leBytes hlt, BitVec.ofNat_toNat, BitVec.setWidth_eq, BitVec.toInt_ofInt]
  exact Int.bmod_eq_of_le (by omega) (by omega)

/-- A presence mask names its members in their order. -/
theorem testBit_maskOf (l : List Bool) (i : Nat) : (maskOf l).testBit i = l.getD i false := by
  induction l generalizing i with
  | nil => simp [maskOf]
  | cons b l ih =>
    have hodd : (maskOf (b :: l)).testBit 0 = b := by
      cases b <;> simp [maskOf, Nat.testBit_zero, Nat.add_mod]
    cases i with
    | zero => exact hodd
    | succ i =>
      have hhalf : maskOf (b :: l) / 2 = maskOf l := by
        rw [maskOf]
        cases b <;> simp only [Bool.false_eq_true, if_false, if_true] <;> omega
      rw [Nat.testBit_succ, hhalf, ih]
      rfl

theorem maskOf_lt (l : List Bool) : maskOf l < 2 ^ l.length := by
  induction l with
  | nil => exact Nat.one_pos
  | cons b l ih =>
    rw [maskOf, List.length_cons, Nat.pow_succ]
    cases b <;> simp only [Bool.false_eq_true, if_false, if_true] <;> omega

/-! ## The CRC (R195) -/

/-- One bit taken into the CRC register (R195). -/
def takeBit (c : BitVec 16) (x : Bool) : BitVec 16 := (c <<< 1) ^^^ (if c.getLsbD 15 = x then 0 else 0x1021)

/-- Bits that wait in the register of the byte-wise CRC are the bits still to be taken. -/
theorem crcShift_xor (c m : BitVec 16) : crcShift (c ^^^ m) = takeBit c (m.getLsbD 15) ^^^ m <<< 1 := by
  have hmsb (x : BitVec 16) : x.msb = x.getLsbD 15 := BitVec.msb_eq_getLsbD_last x
  have hshift : (c ^^^ m) <<< 1 = c <<< 1 ^^^ m <<< 1 := BitVec.shiftLeft_xor_distrib c m 1
  rw [crcShift, takeBit, hmsb, BitVec.getLsbD_xor, hshift]
  by_cases h : c.getLsbD 15 = m.getLsbD 15
  · have hxor : (c.getLsbD 15 ^^ m.getLsbD 15) = false := by rw [h, Bool.xor_self]
    rw [hxor, if_neg Bool.false_ne_true, if_pos h]
    simp
  · have hxor : (c.getLsbD 15 ^^ m.getLsbD 15) = true := by simpa using h
    rw [hxor, if_pos rfl, if_neg h]
    ac_rfl

theorem crcByte_eq (c : BitVec 16) (b : Byte) :
    crcByte c b = ([7, 6, 5, 4, 3, 2, 1, 0].map fun i => b.getLsbD i).foldl takeBit c := by
  have hlast : b.zeroExtend 16 <<< 8 <<< 1 <<< 1 <<< 1 <<< 1 <<< 1 <<< 1 <<< 1 <<< 1 = 0#16 := by
    ext i hi
    simp
  simp only [crcByte, crcShifts, crcShift_xor, hlast, List.map_cons, List.map_nil, List.foldl_cons, List.foldl_nil]
  simp

theorem crc16_append (bytes : List Byte) (b : Byte) :
    crc16 (bytes ++ [b]) = ([7, 6, 5, 4, 3, 2, 1, 0].map fun i => b.getLsbD i).foldl takeBit (crc16 bytes) := by
  rw [crc16, List.foldl_append, List.foldl_cons, List.foldl_nil, crcByte_eq]
  rfl

/-! ## The elements on the line (R59, R195) -/

theorem characterLevels_length (b : Byte) : (characterLevels b).length = 10 := rfl

/-- In a list of blocks of `n` elements, element `j` of block `i`. -/
theorem flatten_getElem? {α β : Type} {f : α → List β} {n : Nat} (hf : ∀ a, (f a).length = n) {l : List α} {i j : Nat} {a : α}
    (hj : j < n) (hi : l[i]? = some a) : ((l.map f).flatten)[n * i + j]? = (f a)[j]? := by
  induction l generalizing i with
  | nil => simp at hi
  | cons x l ih =>
    rw [List.map_cons, List.flatten_cons]
    cases i with
    | zero =>
      obtain rfl : x = a := by simpa using hi
      rw [Nat.mul_zero, Nat.zero_add, List.getElem?_append_left (by rw [hf]; exact hj)]
    | succ i =>
      have hrest : l[i]? = some a := by simpa using hi
      have hindex : n * (i + 1) + j - n = n * i + j := by rw [Nat.mul_succ]; omega
      rw [List.getElem?_append_right (by rw [hf, Nat.mul_succ]; omega), hf, hindex, ih hrest]

theorem flatten_length {α β : Type} {f : α → List β} {n : Nat} (hf : ∀ a, (f a).length = n) (l : List α) :
    ((l.map f).flatten).length = n * l.length := by
  induction l with
  | nil => rfl
  | cons x l ih => rw [List.map_cons, List.flatten_cons, List.length_append, hf, ih, List.length_cons, Nat.mul_succ, Nat.add_comm]

theorem frameLevels_length (bytes : List Byte) : (frameLevels bytes).length = 3 + 10 * bytes.length := by
  simp [frameLevels, flatten_length characterLevels_length]
  omega

/-- Element `j` of the character of byte `i`, behind the start mark. -/
theorem frameLevels_character {bytes : List Byte} {i j : Nat} {b : Byte} (hj : j < 10) (hi : bytes[i]? = some b) :
    (frameLevels bytes)[1 + 10 * i + j]? = (characterLevels b)[j]? := by
  have hlt : i < bytes.length := (List.getElem?_eq_some_iff.1 hi).1
  have hcharacters := flatten_length characterLevels_length bytes
  have hindex : 1 + 10 * i + j = (10 * i + j) + 1 := by omega
  rw [frameLevels, List.cons_append, hindex, List.getElem?_cons_succ, List.getElem?_append_left (by omega),
    flatten_getElem? characterLevels_length hj hi]

theorem frameLevels_end (bytes : List Byte) {k : Nat} (hk : k < 2) :
    (frameLevels bytes)[1 + 10 * bytes.length + k]? = some .recessive := by
  have hcharacters := flatten_length characterLevels_length bytes
  have hindex : 1 + 10 * bytes.length + k = (10 * bytes.length + k) + 1 := by omega
  rw [frameLevels, List.cons_append, hindex, List.getElem?_cons_succ, List.getElem?_append_right (by omega), hcharacters]
  have hdiff : 10 * bytes.length + k - 10 * bytes.length = k := by omega
  rw [hdiff]
  interval_cases k <;> rfl

/-! ## The checks of a received frame (R69) -/

theorem judgeBytes_long {priority length : Byte} (h : 120 < length.toNat) (rest : List Byte) :
    judgeBytes (priority :: length :: rest) = .tooLong := if_pos h

theorem judgeBytes_short {priority length : Byte} {rest : List Byte} (h : length.toNat ≤ 120) (hr : rest.length < length.toNat + 2) :
    judgeBytes (priority :: length :: rest) = .endedEarly := by
  rw [judgeBytes, if_neg (Nat.not_lt.2 h), if_pos hr]

/-- What the checks read of a frame whose bytes are all there. -/
theorem judgeBytes_whole {priority low high : Byte} {payload more : List Byte} (h : payload.length ≤ 120) :
    judgeBytes (priority :: BitVec.ofNat 8 payload.length :: payload ++ low :: high :: more) =
      if low.toNat + 256 * high.toNat ≠ (crc16 (priority :: BitVec.ofNat 8 payload.length :: payload)).toNat then .badCrc
      else
        match frameKindOf (priority.toNat / 16) with
        | none => .badKind
        | some kind => .good kind (priority.toNat % 16) payload := by
  have hlength : (BitVec.ofNat 8 payload.length : Byte).toNat = payload.length := by
    rw [BitVec.toNat_ofNat, Nat.mod_eq_of_lt (by omega)]
  have htake : (payload ++ low :: high :: more).take payload.length = payload := List.take_left
  have hdrop : (payload ++ low :: high :: more).drop payload.length = low :: high :: more := List.drop_left
  have hthere : ¬(payload ++ low :: high :: more).length < payload.length + 2 := by simp
  rw [List.cons_append, List.cons_append, judgeBytes, hlength, if_neg (Nat.not_lt.2 h), if_neg hthere, htake, hdrop]
  rfl

theorem frameKindOf_code (kind : FrameKind) : frameKindOf kind.code = some kind := by cases kind <;> rfl

theorem frameKindOf_none {n : Nat} (h : n = 0 ∨ 8 ≤ n) : frameKindOf n = none := by
  rcases h with rfl | h
  · rfl
  · obtain ⟨m, rfl⟩ := Nat.exists_eq_add_of_le' h
    rfl

theorem frameBytes_eq {sender : Nat} (hs : sender < 16) (kind : FrameKind) (payload : List Byte) :
    let body : List Byte := BitVec.ofNat 8 (kind.code * 16 + sender) :: BitVec.ofNat 8 payload.length :: payload
    frameBytes kind sender payload = body ++ [BitVec.ofNat 8 (crc16 body).toNat, BitVec.ofNat 8 ((crc16 body).toNat / 256)] := by
  have hfield : priorityField kind sender = BitVec.ofNat 8 (kind.code * 16 + sender) := by
    rw [priorityField, Nat.mod_eq_of_lt hs]
  rw [frameBytes, hfield]
  rfl

/-- Settles O45: the checks by their cases, the CRC bit by bit, the line element by element. -/
theorem frameChecksReadTheBytes : Obligations.FrameChecksReadTheBytes := by
  refine ⟨fun bytes h => ?_, fun priority length rest => ⟨fun h => judgeBytes_long h rest, judgeBytes_short⟩,
    fun priority low high payload more h => ?_, fun kind => by cases kind <;> simp [FrameKind.code], ⟨rfl, crc16_append⟩,
    fun bytes => ⟨frameLevels_length bytes, rfl, frameLevels_end bytes (k := 0) (by decide), ?_, fun i b hi => ⟨?_, ?_, fun k hk => ?_⟩⟩,
    fun kind sender payload hs => frameBytes_eq hs kind payload⟩
  · match bytes, h with
    | [], _ => rfl
    | [_], _ => rfl
  · have hwhole := judgeBytes_whole (priority := priority) (low := low) (high := high) (more := more) h
    refine ⟨fun hne => hwhole.trans (if_pos hne), fun heq hk => ?_, fun heq kind hk => ?_⟩
    · exact (hwhole.trans (if_neg (not_not.2 heq))).trans (by rw [frameKindOf_none hk])
    · exact (hwhole.trans (if_neg (not_not.2 heq))).trans (by rw [← hk, frameKindOf_code])
  · have hindex : 2 + 10 * bytes.length = 1 + 10 * bytes.length + 1 := by omega
    exact hindex ▸ frameLevels_end bytes (k := 1) (by decide)
  · exact frameLevels_character (j := 0) (by decide) hi
  · have hindex : 10 + 10 * i = 1 + 10 * i + 9 := by omega
    exact hindex ▸ frameLevels_character (j := 9) (by decide) hi
  · have hindex : 2 + 10 * i + k = 1 + 10 * i + (k + 1) := by omega
    have hbit : (characterLevels b)[k + 1]? = some (bitLevel (b.getLsbD (7 - k))) := by interval_cases k <;> rfl
    exact hindex ▸ (frameLevels_character (j := k + 1) (by omega) hi).trans hbit

end Sys2Proof.Machine
end


section
/-! PROOFS. A payload read again gives what it was made from (R69, R195, R196, section 12.2). -/

namespace Sys2Proof.Machine

/-! ## The frame (R60, R69) -/

theorem FrameKind.code_bounds (kind : FrameKind) : 1 ≤ kind.code ∧ kind.code ≤ 7 := by cases kind <;> decide

theorem judgeBytes_frameBytes {sender : Nat} {payload : List Byte} (kind : FrameKind) (hs : sender < 16)
    (hl : payload.length ≤ 120) : judgeBytes (frameBytes kind sender payload) = .good kind sender payload := by
  have hcode := kind.code_bounds
  have hpriority : (BitVec.ofNat 8 (kind.code * 16 + sender) : Byte).toNat = kind.code * 16 + sender := by
    rw [BitVec.toNat_ofNat]
    omega
  rw [frameBytes_eq hs]
  refine (judgeBytes_whole (more := []) hl).trans ((if_neg (not_not.2 ?_)).trans ?_)
  · generalize crc16 _ = c
    have hc : c.toNat < 65536 := c.isLt
    rw [BitVec.toNat_ofNat, BitVec.toNat_ofNat]
    omega
  · have hkind : (kind.code * 16 + sender) / 16 = kind.code := by omega
    have hsender : (kind.code * 16 + sender) % 16 = sender := by omega
    rw [hpriority, hkind, hsender, frameKindOf_code]

/-! ## Optional fields (R194) -/

/-- A field that the mask names is read, and one that it does not name is passed over. -/
theorem readOptional_bytes {n : Nat} {x : Option Nat} (h : ∀ v, x = some v → v < 256 ^ n) (rest : List Byte) :
    readOptional x.isSome n ((optionalBytes n x).getD [] ++ rest) = (x, rest) := by
  cases x with
  | none => rfl
  | some v =>
    have htake : (leBytes n v ++ rest).take n = leBytes n v := List.take_left' (leBytes_length n v)
    have hdrop : (leBytes n v ++ rest).drop n = rest := List.drop_left' (leBytes_length n v)
    have hv : leValue (leBytes n v) = v := leValue_leBytes (h v rfl)
    change (some (leValue ((leBytes n v ++ rest).take n)), (leBytes n v ++ rest).drop n) = _
    rw [htake, hdrop, hv]

theorem readOptional_time (t : Option SiteTime) (rest : List Byte) :
    readOptional t.isSome 6 ((optionalTime t).getD [] ++ rest) = (t.map BitVec.toNat, rest) := by
  have hread := readOptional_bytes (n := 6) (x := t.map BitVec.toNat) (fun v hv => by
    obtain ⟨x, -, rfl⟩ := Option.map_eq_some_iff.1 hv
    exact x.isLt) rest
  rw [Option.isSome_map] at hread
  have hbytes : optionalBytes 6 (t.map BitVec.toNat) = optionalTime t := by cases t <;> rfl
  rwa [hbytes] at hread

theorem ofNat_toNat_time (t : Option SiteTime) : (t.map BitVec.toNat).map (BitVec.ofNat 48) = t := by
  cases t with
  | none => rfl
  | some x => simp

/-! ## TIME and TEMP (section 12.2) -/

theorem parseContent_timePayload (sender : Nat) (t : SiteTime) :
    parseContent .time sender (timePayload t) = some (.time sender t) := by
  have hvalue : leValue (timePayload t) = t.toNat := leValue_leBytes (n := 6) t.isLt
  have hlength : (timePayload t).length = 6 := rfl
  rw [parseContent, if_pos hlength, hvalue, BitVec.ofNat_toNat, BitVec.setWidth_eq]

theorem probeOf_code (probe : Probe) : probeOf (probeCode probe) = some probe := by cases probe <;> rfl

theorem qualityOf_code (q : Quality) : qualityOf (qualityCode q) = some q := by cases q <;> rfl

theorem probeCode_lt (probe : Probe) : probeCode probe < 256 := by cases probe <;> decide

theorem qualityCode_lt (q : Quality) : qualityCode q < 256 := by cases q <;> decide

theorem toNat_ofNat_byte {n : Nat} (h : n < 256) : (BitVec.ofNat 8 n : Byte).toNat = n := by
  rw [BitVec.toNat_ofNat, Nat.mod_eq_of_lt h]

/-- A TEMP payload is its four fixed bytes and, where the mask names it, the value. -/
theorem tempPayload_eq (probe : Probe) (c : TempContent) : tempPayload probe c =
    BitVec.ofNat 8 (probeCode probe) :: BitVec.ofNat 8 (qualityCode c.quality) :: BitVec.ofNat 8 c.group ::
      BitVec.ofNat 8 (if c.value.isSome then 1 else 0) :: (c.value.map signedBytes).getD [] := by
  cases hv : c.value <;> simp [tempPayload, optionalFields, leBytes, maskOf, hv]

theorem parseTemp_tempPayload {probe : Probe} {c : TempContent} (h1 : 1 ≤ c.group) (h3 : c.group ≤ 3)
    (hv : ∀ v, c.value = some v → -32768 ≤ v ∧ v ≤ 32767) : parseTemp (tempPayload probe c) = some (probe, c) := by
  have hprobe := toNat_ofNat_byte (probeCode_lt probe)
  have hquality := toNat_ofNat_byte (qualityCode_lt c.quality)
  have hgroup : (BitVec.ofNat 8 c.group : Byte).toNat = c.group := toNat_ofNat_byte (by omega)
  have hfits : (decide (1 ≤ c.group) && decide (c.group ≤ 3)) = true := by simp [h1, h3]
  obtain ⟨quality, group, value⟩ := c
  rw [tempPayload_eq]
  cases value with
  | none =>
    simp only [parseTemp, byteAt, List.getD_cons_zero, List.getD_cons_succ, hprobe, hquality, hgroup, probeOf_code, qualityOf_code]
    simp [hfits]
  | some v =>
    have hsigned := signedValue_signedBytes (hv v rfl).1 (hv v rfl).2
    obtain ⟨low, high, hpair⟩ : ∃ low high, signedBytes v = [low, high] := ⟨_, _, rfl⟩
    rw [hpair] at hsigned
    simp only [parseTemp, byteAt, List.getD_cons_zero, List.getD_cons_succ, hprobe, hquality, hgroup, probeOf_code, qualityOf_code]
    simp [hfits, hpair, signedAt, hsigned]

theorem parseContent_tempPayload (sender : Nat) {probe : Probe} {c : TempContent} (h1 : 1 ≤ c.group) (h3 : c.group ≤ 3)
    (hv : ∀ v, c.value = some v → -32768 ≤ v ∧ v ≤ 32767) :
    parseContent .temp sender (tempPayload probe c) = some (.temp sender probe c) := by
  rw [parseContent, parseTemp_tempPayload h1 h3 hv]
  rfl

/-! ## WHEEL (section 12.2) -/

theorem sideOf_code (side : Side) : sideOf (sideCode side) = some side := by cases side <;> rfl

theorem sourceOf_code (source : TempSource) : sourceOf (sourceCode source) = some source := by cases source <;> rfl

theorem sideCode_lt (side : Side) : sideCode side < 256 := by cases side <;> decide

theorem sourceCode_lt (source : TempSource) : sourceCode source < 256 := by cases source <;> decide

theorem wheelFlagsOf_mask (f : WheelFlags) : wheelFlagsOf f.mask = f := by
  simp only [wheelFlagsOf, WheelFlags.mask, testBit_maskOf]
  rfl

/-- The presence bits of a WHEEL payload. -/
def wheelPresent (w : Wheel) : List Bool :=
  [w.leadStart.isSome, w.trailStart.isSome, w.speed.isSome, w.qLead.isSome, w.qTrail.isSome, w.runStart.isSome, w.load.isSome]

/-- The optional fields of a WHEEL payload, in their order. -/
def wheelTail (w : Wheel) : List Byte :=
  (optionalTime w.leadStart).getD [] ++ ((optionalTime w.trailStart).getD [] ++ ((optionalBytes 3 w.speed).getD [] ++
    ((optionalBytes 4 w.qLead).getD [] ++ ((optionalBytes 4 w.qTrail).getD [] ++ ((optionalTime w.runStart).getD [] ++
      ((optionalBytes 2 w.load).getD [] ++ []))))))

theorem wheelPayload_eq (w : Wheel) : wheelPayload w =
    leBytes 2 w.number.toNat ++ leBytes 1 (sideCode w.side) ++ leBytes 2 w.flags.mask ++ signedBytes w.temperature ++
      leBytes 1 (sourceCode w.source) ++ BitVec.ofNat 8 (maskOf (wheelPresent w)) :: wheelTail w := by
  have hpresent : [optionalTime w.leadStart, optionalTime w.trailStart, optionalBytes 3 w.speed, optionalBytes 4 w.qLead,
      optionalBytes 4 w.qTrail, optionalTime w.runStart, optionalBytes 2 w.load].map Option.isSome = wheelPresent w := by
    simp [optionalTime, optionalBytes, wheelPresent]
  rw [wheelPayload, optionalFields, hpresent]
  rfl

theorem optionalTime_length (t : Option SiteTime) : ((optionalTime t).getD []).length = if t.isSome then 6 else 0 := by
  cases t <;> rfl

theorem optionalBytes_length (n : Nat) (x : Option Nat) : ((optionalBytes n x).getD []).length = if x.isSome then n else 0 := by
  cases x with
  | none => rfl
  | some v => exact leBytes_length n v

theorem wheelMask_lt (w : Wheel) : maskOf (wheelPresent w) < 128 := maskOf_lt (wheelPresent w)

theorem wheelTail_length (w : Wheel) : (wheelTail w).length = maskedSize (maskOf (wheelPresent w)) 0 wheelOptionalSizes := by
  simp only [wheelTail, List.length_append, optionalTime_length, optionalBytes_length, maskedSize, wheelOptionalSizes, testBit_maskOf]
  rfl

/-- Where the fields of a WHEEL payload lie. -/
theorem wheelPayload_fields (w : Wheel) :
    fieldAt (wheelPayload w) 0 2 = w.number.toNat ∧ byteAt (wheelPayload w) 2 = sideCode w.side ∧
      fieldAt (wheelPayload w) 3 2 = w.flags.mask ∧ byteAt (wheelPayload w) 7 = sourceCode w.source ∧
      byteAt (wheelPayload w) 8 = maskOf (wheelPresent w) ∧ (wheelPayload w).drop 9 = wheelTail w ∧
      (wheelPayload w).length = 9 + maskedSize (maskOf (wheelPresent w)) 0 wheelOptionalSizes ∧
      (wheelPayload w).drop 5 = signedBytes w.temperature ++
        (leBytes 1 (sourceCode w.source) ++ BitVec.ofNat 8 (maskOf (wheelPresent w)) :: wheelTail w) := by
  have hflags : w.flags.mask < 2 ^ 10 := maskOf_lt _
  have hmask := wheelMask_lt w
  rw [wheelPayload_eq]
  refine ⟨?_, ?_, ?_, ?_, ?_, rfl, ?_, rfl⟩
  · exact leValue_leBytes (n := 2) w.number.isLt
  · exact toNat_ofNat_byte (sideCode_lt w.side)
  · exact leValue_leBytes (n := 2) (by omega)
  · exact toNat_ofNat_byte (sourceCode_lt w.source)
  · exact toNat_ofNat_byte (by omega)
  · rw [← wheelTail_length]
    simp [leBytes_length, signedBytes]
    omega

theorem signedAt_wheelPayload {w : Wheel} (h : -400 ≤ w.temperature) (h' : w.temperature ≤ 800) :
    signedAt (wheelPayload w) 5 = w.temperature := by
  obtain ⟨-, -, -, -, -, -, -, hdrop⟩ := wheelPayload_fields w
  have htake : ((wheelPayload w).drop 5).take 2 = signedBytes w.temperature := by
    rw [hdrop]
    exact List.take_left' rfl
  rw [signedAt, htake, signedValue_signedBytes (by omega) (by omega)]

/-- The values that the fields of a WHEEL payload can hold (section 12.2). -/
structure Wheel.Sendable (w : Wheel) : Prop where
  start : w.leadStart.isSome = true ∨ w.trailStart.isSome = true
  cold : -400 ≤ w.temperature
  hot : w.temperature ≤ 800
  speed : ∀ v, w.speed = some v → 1389 ≤ v ∧ v ≤ 69444
  qLead : ∀ q, w.qLead = some q → q < 256 ^ 4
  qTrail : ∀ q, w.qTrail = some q → q < 256 ^ 4
  load : ∀ n, w.load = some n → n < 256 ^ 2

theorem Wheel.Sendable.speed_lt {w : Wheel} (h : w.Sendable) : ∀ v, w.speed = some v → v < 256 ^ 3 := fun v hv => by
  have := (h.speed v hv).2
  omega

/-- The content check finds nothing wrong in the wheel's temperature, start times and speed. -/
theorem Wheel.Sendable.passes {w : Wheel} (h : w.Sendable) :
    (((w.leadStart.map BitVec.toNat).isNone && (w.trailStart.map BitVec.toNat).isNone) || decide (w.temperature < -400) ||
      decide (800 < w.temperature) || (match w.speed with | some v => decide (v < vMin) || decide (vMax < v) | none => false)) = false := by
  have hstart : ((w.leadStart.map BitVec.toNat).isNone && (w.trailStart.map BitVec.toNat).isNone) = false := by
    rcases h.start with hs | hs <;> obtain ⟨t, ht⟩ := Option.isSome_iff_exists.1 hs <;> simp [ht]
  have hspeed : (match w.speed with | some v => decide (v < vMin) || decide (vMax < v) | none => false) = false := by
    cases hv : w.speed with
    | none => rfl
    | some v =>
      obtain ⟨hlow, hhigh⟩ := h.speed v hv
      have hnotLow : ¬v < vMin := Nat.not_lt.2 hlow
      have hnotHigh : ¬vMax < v := Nat.not_lt.2 hhigh
      rw [Bool.or_eq_false_iff]
      exact ⟨decide_eq_false hnotLow, decide_eq_false hnotHigh⟩
  rw [hstart, hspeed, decide_eq_false (Int.not_lt.2 h.cold), decide_eq_false (Int.not_lt.2 h.hot)]
  rfl

theorem parseWheel_wheelPayload {w : Wheel} (h : w.Sendable) : parseWheel (wheelPayload w) = some w := by
  obtain ⟨hnumber, hside, hflags, hsource, hmask, htail, hlength, -⟩ := wheelPayload_fields w
  have htemperature := signedAt_wheelPayload h.cold h.hot
  have hsize : ¬(wheelPayload w).length < 9 := by omega
  have hflagsLt : w.flags.mask < 2 ^ 10 := maskOf_lt _
  have hmaskLt := wheelMask_lt w
  have hnumberBack : BitVec.ofNat 16 w.number.toNat = w.number := by rw [BitVec.ofNat_toNat, BitVec.setWidth_eq]
  have hlead : (wheelPresent w).getD 0 false = w.leadStart.isSome := rfl
  have htrail : (wheelPresent w).getD 1 false = w.trailStart.isSome := rfl
  have hspeed : (wheelPresent w).getD 2 false = w.speed.isSome := rfl
  have hqLead : (wheelPresent w).getD 3 false = w.qLead.isSome := rfl
  have hqTrail : (wheelPresent w).getD 4 false = w.qTrail.isSome := rfl
  have hrun : (wheelPresent w).getD 5 false = w.runStart.isSome := rfl
  have hload : (wheelPresent w).getD 6 false = w.load.isSome := rfl
  unfold parseWheel
  simp only [hnumber, hside, hflags, hsource, hmask, htail, htemperature, testBit_maskOf, hlead, htrail, hspeed, hqLead, hqTrail,
    hrun, hload, wheelTail, readOptional_time, readOptional_bytes h.speed_lt, readOptional_bytes h.qLead,
    readOptional_bytes h.qTrail, readOptional_bytes h.load, sideOf_code, sourceOf_code, ofNat_toNat_time, wheelFlagsOf_mask,
    hnumberBack, hsize, ← hlength]
  have hflagsFit : ¬1024 ≤ w.flags.mask := by omega
  have hmaskFits : ¬128 ≤ maskOf (wheelPresent w) := by omega
  refine (if_neg ?_).trans (if_neg (Bool.eq_false_iff.1 h.passes))
  simp [hflagsFit, hmaskFits]

/-- Settles O50: the checks read a whole frame, and each payload is read field by field. -/
theorem framesAndPayloadsRoundTrip : Obligations.FramesAndPayloadsRoundTrip := by
  refine ⟨fun kind sender payload hs hl => ?_, fun sender => ⟨parseContent_timePayload sender,
    fun probe c h1 h3 hv => parseContent_tempPayload sender h1 h3 hv, fun w hstart hcold hhot hspeed hlead htrail hload => ?_⟩⟩
  · exact judgeBytes_frameBytes kind hs hl
  · have hw : w.Sendable := ⟨hstart, hcold, hhot, hspeed, hlead, htrail, hload⟩
    rw [parseContent, parseWheel_wheelPayload hw]
    rfl

end Sys2Proof.Machine
end


section
/-! PROOFS. The receiver (R50, R60, R69 to R75, R186, R196): a frame handed on at once, one that waits for the port, an overrun, and
what the checks count. -/

namespace Sys2Proof.Machine

/-! ## What is handed on leaves an empty buffer empty (R72) -/

/-- The receive buffer is empty and the receiver not DEAF. -/
def Part.Attentive (p : Part) : Prop := p.sbc.rx = [] ∧ p.sbc.deaf = false

section
variable {p q : Part}

theorem Part.Attentive.of_same (h : p.Attentive) (hr : q.sbc.rx = p.sbc.rx) (hd : q.sbc.deaf = p.sbc.deaf) : q.Attentive :=
  ⟨hr.trans h.1, hd.trans h.2⟩

theorem Part.Attentive.setMark (h : p.Attentive) (m : ChangeMark) : (p.setMark m).Attentive := h.of_same (by simp) (by simp)

theorem Part.Attentive.handFrame (h : p.Attentive) (c : TxContent) : (p.handFrame c).Attentive := h.of_same (by simp) (by simp)

theorem Part.Attentive.offerVehicle (h : p.Attentive) : p.offerVehicle.Attentive := h.of_same (by simp) (by simp)

theorem Part.Attentive.catchDue (h : p.Attentive) : p.catchDue.Attentive := by
  unfold Part.catchDue
  split
  · exact Part.Attentive.handFrame (p := p.modStu fun u => { u with lastDue := some u.siteTime }) h .time
  · exact h

/-- The step behind the due point that site time stood at, before the TIME frame of those that it passes. -/
def Part.stepped (d : Nat) (p : Part) : Part :=
  ((p.catchDue.modStu (Stu.step d)).noticeStep).modStu fun u =>
    { u with lastDue := if isDuePoint p.block.number u.siteTime then some u.siteTime else none }

theorem Part.takeStep_eq (d : Nat) (p : Part) : p.takeStep d =
    if p.inRunOrHold && stepPassesDue p.block.number p.now d then (p.stepped d).handTime else p.stepped d := rfl

theorem Part.Attentive.takeStep (h : p.Attentive) (d : Nat) : (p.takeStep d).Attentive := by
  have hstepped : (p.stepped d).Attentive := h.catchDue
  rw [Part.takeStep_eq]
  split
  · exact hstepped.handFrame .time
  · exact hstepped

theorem Part.Attentive.setSplit (h : p.Attentive) (i : Fin 14) (x : Fin 3) : (p.setSplit i x).Attentive := by
  unfold Part.setSplit
  split
  · exact h
  · exact Part.Attentive.setMark (p := p.modStu fun u => { u with split := u.split.set i x }) h .time

theorem Part.Attentive.followInJoin (h : p.Attentive) (i : Fin 14) (d : Int) : (p.followInJoin i d).Attentive := by
  unfold Part.followInJoin
  split
  · exact (h.takeStep _).setSplit i 0
  · exact h

theorem Part.Attentive.followInRun (h : p.Attentive) (i : Fin 14) (d : Int) : (p.followInRun i d).Attentive := by
  unfold Part.followInRun
  split
  · exact h
  split
  · exact (h.takeStep _).setSplit i 0
  dsimp only
  split
  · exact Part.Attentive.setSplit (p := (p.takeStep d.toNat).modStu fun u => { u with splitSteps := satInc u.splitSteps })
      (h.takeStep _) i 0
  · exact h.setSplit i _

theorem Part.Attentive.takeTimeFrame (h : p.Attentive) (n : Nat) (t : SiteTime) (c : Capture) : (p.takeTimeFrame n t c).Attentive := by
  unfold Part.takeTimeFrame
  split
  · exact h
  split
  · split
    · exact h.followInJoin _ _
    · exact h.followInRun _ _
  · exact h

theorem Part.Attentive.takeTempFrame (h : p.Attentive) (n : Nat) (pr : Probe) (c : TempContent) : (p.takeTempFrame n pr c).Attentive :=
  h.of_same (by simp) (by simp)

theorem Part.Attentive.enterHold (h : p.Attentive) : p.enterHold.Attentive := by
  have hblocks : p.holdBlocks.Attentive := by
    rw [Part.Attentive, p.changedOnly_holdBlocks.sbc (by simp)]
    exact h
  rw [Part.enterHold_eq]
  exact (Part.Attentive.offerVehicle (p := p.holdBlocks.modSbc fun b => { b with list := holdList b.list }) hblocks).setMark .state

theorem Part.Attentive.applyHold (h : p.Attentive) : p.applyHold.Attentive := by
  rcases p.applyHold_cases with ⟨-, -, hq⟩ | ⟨-, -, hq⟩ | ⟨-, hq⟩
  · exact hq ▸ h.enterHold
  · rw [hq]
    exact Part.Attentive.setMark (p := p.setStation .run) h .state
  · rw [hq]
    exact h

theorem Part.Attentive.takeCommandHold (h : p.Attentive) (on : Bool) : (p.takeCommandHold on).Attentive := by
  unfold Part.takeCommandHold
  split
  · exact h
  · exact (Part.Attentive.applyHold (p := p.modCsu fun c => { c with commandHold := on }) h).setMark .state

/-- A RESTART empties the receiver itself (R77). -/
theorem Part.attentive_restart (p : Part) : p.restart.Attentive := by
  unfold Part.restart
  split
  · rw [Part.warmRestart_eq]
    exact ⟨rfl, rfl⟩
  · rw [Part.newLoad_eq]
    exact ⟨rfl, rfl⟩

theorem Part.Attentive.doCommand (h : p.Attentive) (k : CommandKind) (args : List Byte) : (p.doCommand k args).Attentive := by
  cases k with
  | hold => exact h.takeCommandHold true
  | release => exact h.takeCommandHold false
  | restart => exact p.attentive_restart
  | requestStatus => exact h.handFrame .status
  | requestTotals => exact h.handFrame .totals
  | clearMarks => 
    have hsbc : (p.doCommand .clearMarks args).sbc = p.sbc := (p.changedOnly_clearMarks _ _).sbc (by simp)
    exact h.of_same (by rw [hsbc]) (by rw [hsbc])
  | rebaseline => exact h

theorem Part.Attentive.judge (h : p.Attentive) (code : Byte) (args : List Byte) : (p.judge code args).Attentive := by
  unfold Part.judge
  split
  · unfold Part.judgeKnown
    split
    · exact h
    · dsimp only
      split
      · exact h.doCommand _ args
      · exact h
  · unfold Part.judgeUnknown
    split
    · exact h
    · exact h

end

/-! ## A frame received into an empty buffer (R72) -/

section
variable {p : Part} {e : RxEntry}

theorem Part.Attentive.dispatch (h : p.Attentive) : p.dispatch = p := by
  rw [Part.dispatch_empty h.1, Part.endDeaf, h.2]
  rfl

/-- What the dispatcher makes of a frame that needs no port. -/
def Part.handOn (e : RxEntry) (p : Part) : Part :=
  match e.frame with
  | .wheel _ _ => p
  | .time sender t => p.takeTimeFrame sender t e.capture
  | .temp sender probe c => p.takeTempFrame sender probe c
  | .command code args => p.judge code args

/-- The part whose receive buffer is `l`. -/
def Part.withRx (l : List RxEntry) (p : Part) : Part := { p with sbc := { p.sbc with rx := l } }

theorem Part.withRx_self {l : List RxEntry} (h : p.sbc.rx = l) : p.withRx l = p := by rw [Part.withRx, ← h]

/-- A frame that needs no port is handed on at once where the buffer was empty. -/
theorem Part.Attentive.dispatch_one (h : p.Attentive) (hw : ∀ sender w, e.frame ≠ .wheel sender w) :
    (p.withRx [e]).dispatch = p.handOn e := by
  have hpopped : (p.withRx [e]).popFrame = p := Part.withRx_self h.1
  have hone : (p.withRx [e]).dispatchFrames 1 = p.handOn e := by
    unfold Part.handOn
    cases he : e.frame with
    | wheel sender w => exact absurd he (hw sender w)
    | time sender t =>
      have hrx : (p.withRx [e]).sbc.rx = [e] := rfl
      simp only [Part.dispatchFrames, hrx, he, hpopped]
    | temp sender probe c =>
      have hrx : (p.withRx [e]).sbc.rx = [e] := rfl
      simp only [Part.dispatchFrames, hrx, he, hpopped]
    | command code args =>
      have hrx : (p.withRx [e]).sbc.rx = [e] := rfl
      simp only [Part.dispatchFrames, hrx, he, hpopped]
  have hattentive : (p.handOn e).Attentive := by
    unfold Part.handOn
    cases e.frame with
    | wheel sender w => exact h
    | time sender t => exact h.takeTimeFrame _ _ _
    | temp sender probe c => exact h.takeTempFrame _ _ _
    | command code args => exact h.judge _ _
  have hended : (p.handOn e).endDeaf = p.handOn e := by
    rw [Part.endDeaf, hattentive.2]
    rfl
  have hdispatch : (p.withRx [e]).dispatch =
      if ((p.withRx [e]).dispatchFrames 1).endDeaf.wheelAtHead then ((p.withRx [e]).dispatchFrames 1).endDeaf.requestPort .dispatcher
      else ((p.withRx [e]).dispatchFrames 1).endDeaf := rfl
  rw [hdispatch, hone, hended, Part.wheelAtHead_empty hattentive.1]
  rfl

end

section
variable {s : State} {bytes payload : List Byte} {c : Capture} {kind : FrameKind} {sender : Nat} {f : RxFrame}

/-- A frame that passed all checks is offered to the buffer, with its capture and the instant of its arrival. -/
def Part.entryOf (p : Part) (f : RxFrame) (c : Capture) : RxEntry := { frame := f, capture := c, arrival := p.now }

theorem Part.takeFrame_foreign {p : Part} (hn : sender ≠ p.block.number) : p.takeFrame kind sender payload c =
    if !p.accepts kind sender payload then p
    else
      match parseContent kind sender payload with
      | none => p.countFormat
      | some f => p.offerFrame f c := if_neg hn

theorem Part.takeFrame_offered {p : Part} (hn : sender ≠ p.block.number) (ha : p.accepts kind sender payload = true)
    (hp : parseContent kind sender payload = some f) : p.takeFrame kind sender payload c = p.offerFrame f c := by
  refine (Part.takeFrame_foreign hn).trans ?_
  rw [ha, hp]
  rfl

theorem Part.takeFrame_turnedAway {p : Part} (hn : sender ≠ p.block.number) (ha : p.accepts kind sender payload = false) :
    p.takeFrame kind sender payload c = p := by
  refine (Part.takeFrame_foreign hn).trans ?_
  rw [ha]
  rfl

theorem Part.takeFrame_wrong {p : Part} (hn : sender ≠ p.block.number) (ha : p.accepts kind sender payload = true)
    (hp : parseContent kind sender payload = none) : p.takeFrame kind sender payload c = p.countFormat := by
  refine (Part.takeFrame_foreign hn).trans ?_
  rw [ha, hp]
  rfl

theorem exec_frameReceived_offered (hs : s.running) (hr : s.part.receiverOn = true) (hf : s.part.sbc.following = some c)
    (hj : judgeBytes bytes = .good kind sender payload) (hn : sender ≠ s.part.block.number)
    (ha : s.part.accepts kind sender payload = true) (hp : parseContent kind sender payload = some f) :
    exec (.frameReceived bytes) s = .next { s with part := s.part.heard.offerFrame f c } := by
  rw [exec_frameReceived hs hr hf, Part.receiveFrame_good hj, Part.takeFrame_offered (p := s.part.heard) hn ha hp]

theorem Part.offerFrame_empty {p : Part} (h : p.Attentive) : p.offerFrame f c = (p.withRx [p.entryOf f c]).dispatch := by
  rw [Part.offerFrame, h.2, h.1]
  simp only [Part.modSbc, h.1]
  rfl

theorem exec_frameReceived_handedOn (hs : s.running) (hr : s.part.receiverOn = true) (hf : s.part.sbc.following = some c)
    (h : s.part.Attentive) (hj : judgeBytes bytes = .good kind sender payload) (hn : sender ≠ s.part.block.number)
    (ha : s.part.accepts kind sender payload = true) (hp : parseContent kind sender payload = some f)
    (hw : ∀ n w, f ≠ .wheel n w) :
    exec (.frameReceived bytes) s = .next { s with part := s.part.heard.handOn (s.part.entryOf f c) } := by
  have hheard : s.part.heard.Attentive := h
  rw [exec_frameReceived_offered hs hr hf hj hn ha hp, Part.offerFrame_empty hheard, hheard.dispatch_one hw]
  rfl

end

/-! ## The TEMP frame of another station (R50) -/

section
variable {p : Part} {sender : Nat} {probe : Probe} {c : TempContent}

/-- What the PTU takes of a TEMP frame (R50). -/
def Part.FitsPtu (p : Part) (sender : Nat) (c : TempContent) : Prop :=
  p.working = true ∧ 1 ≤ sender ∧ sender ≤ 14 ∧ sender ≠ p.block.number ∧
    (c.quality = .good → ∃ t, c.value = some t ∧ -400 ≤ t ∧ t ≤ 800)

/-- The PTU's entry of a TEMP frame (R50). -/
def Part.peerTempOf (p : Part) (sender : Nat) (probe : Probe) (c : TempContent) : PeerTemp :=
  { station := sender, probe := probe, value := c.value, quality := c.quality, group := c.group, receiveTime := p.now }

/-- The entry of a station and a probe. -/
def isPeerTemp (sender : Nat) (probe : Probe) (x : PeerTemp) : Bool := decide (x.station = sender) && decide (x.probe = probe)

theorem isPeerTemp_iff {x : PeerTemp} : isPeerTemp sender probe x = false ↔ x.station ≠ sender ∨ x.probe ≠ probe := by
  simp only [isPeerTemp, Bool.and_eq_false_iff, decide_eq_false_iff_not]

/-- A GOOD quality without a value that a probe can measure (R50). -/
def badGood (c : TempContent) : Bool :=
  decide (c.quality = .good) && (match c.value with | some t => !validTemp t | none => true)

theorem badGood_iff : badGood c = false ↔ (c.quality = .good → ∃ t, c.value = some t ∧ -400 ≤ t ∧ t ≤ 800) := by
  unfold badGood
  cases c.value with
  | none => simp
  | some t => simp [validTemp]

theorem Part.fitsPtu_iff : p.FitsPtu sender c ↔
    (!p.working || decide (sender < 1) || decide (14 < sender) || decide (sender = p.block.number) || badGood c) = false := by
  simp only [Part.FitsPtu, Bool.or_eq_false_iff, badGood_iff, decide_eq_false_iff_not, Bool.not_eq_false', Nat.not_lt, and_assoc, ne_eq]

theorem Part.takeTempFrame_eq : p.takeTempFrame sender probe c =
    if !p.working || decide (sender < 1) || decide (14 < sender) || decide (sender = p.block.number) || badGood c then p
    else p.modPtu fun u => { u with
      peers := if u.peers.any (isPeerTemp sender probe) then
          changeFirst (isPeerTemp sender probe) (fun _ => p.peerTempOf sender probe c) u.peers
        else u.peers ++ [p.peerTempOf sender probe c] } := rfl

theorem Part.takeTempFrame_unfit (h : ¬p.FitsPtu sender c) : p.takeTempFrame sender probe c = p := by
  rw [Part.fitsPtu_iff, Bool.not_eq_false] at h
  rw [Part.takeTempFrame_eq, if_pos h]

theorem Part.takeTempFrame_fit (h : p.FitsPtu sender c) : p.takeTempFrame sender probe c = { p with ptu := { p.ptu with
    peers := if p.ptu.peers.any (isPeerTemp sender probe) then
        changeFirst (isPeerTemp sender probe) (fun _ => p.peerTempOf sender probe c) p.ptu.peers
      else p.ptu.peers ++ [p.peerTempOf sender probe c] } } := by
  rw [Part.takeTempFrame_eq, Part.fitsPtu_iff.1 h]
  rfl

end

/-- Settles O46: the frame is handed on where the buffer was empty, and the PTU keeps one entry of a station and a probe. -/
theorem framesAreHandedOnAtOnce : Obligations.FramesAreHandedOnAtOnce := by
  refine ⟨fun p sender probe c => ⟨fun h => ?_, fun h hn => ?_, fun h before x after hl hb hx => ?_⟩,
    fun s bytes c kind sender payload hs hr hf hrx hd hj hn ha => ⟨fun hk hl => ?_, fun probe content hk hp => ?_,
      fun target code args hk hpayload => ⟨fun k hcode => ?_, fun hcode => ?_⟩⟩⟩
  · exact Part.takeTempFrame_unfit h
  · have hnone : p.ptu.peers.any (isPeerTemp sender probe) = false :=
      List.any_eq_false.2 fun x hx => by rw [isPeerTemp_iff.2 (hn x hx)]; exact Bool.false_ne_true
    refine (Part.takeTempFrame_fit h).trans ?_
    rw [hnone]
    rfl
  · have hit : isPeerTemp sender probe x = true := by
      rw [← Bool.not_eq_false, isPeerTemp_iff]
      exact hx
    have hany : p.ptu.peers.any (isPeerTemp sender probe) = true := List.any_eq_true.2 ⟨x, by rw [hl]; simp, hit⟩
    refine (Part.takeTempFrame_fit h).trans ?_
    rw [hany, hl, changeFirst_append (fun y hy => isPeerTemp_iff.2 (hb y hy)) hit]
    rfl
  all_goals have hattentive : s.part.Attentive := ⟨hrx, hd⟩
  · subst hk
    have hparse : parseContent .time sender payload = some (.time sender (BitVec.ofNat 48 (leValue payload))) := if_pos hl
    rw [exec_frameReceived_handedOn hs hr hf hattentive hj hn ha hparse (fun _ _ => RxFrame.noConfusion)]
    rfl
  · subst hk
    have hparse : parseContent .temp sender payload = some (.temp sender probe content) := by rw [parseContent, hp]; rfl
    rw [exec_frameReceived_handedOn hs hr hf hattentive hj hn ha hparse (fun _ _ => RxFrame.noConfusion)]
    rfl
  all_goals
    subst hk hpayload
    have hparse : parseContent .command sender (target :: code :: args) = some (.command code args) := rfl
    rw [exec_frameReceived_handedOn hs hr hf hattentive hj hn ha hparse (fun _ _ => RxFrame.noConfusion)]
  · have hjudge : s.part.heard.judge code args = s.part.heard.judgeKnown k args := by
      rw [Part.judge, ← hcode, commandKindOf_code]
    have hexec : exec (k.instr args) { s with part := s.part.heard } =
        .next { s with part := s.part.heard.judgeKnown k args } := (exec_instr k args _).trans (act_running _ hs)
    exact (congrArg (fun q : Part => Host.Outcome.next { s with part := q }) hjudge).trans hexec.symm
  · have hexec := exec_unknownCommand (s := { s with part := s.part.heard }) hs hr hcode args
    have hjudge : s.part.heard.judge code args = { s.part.heard with csu := s.part.heard.csu.judged code .unknown } := by
      rw [Part.judge, commandKindOf_unknown hcode]
      exact Part.judgeUnknown_eq (p := s.part.heard) hr code
    exact (congrArg (fun q : Part => Host.Outcome.next { s with part := q }) hjudge).trans hexec.symm

/-! ## A frame that waits, and an overrun (R72 to R74) -/

section
variable {p : Part} {e : RxEntry} {rest : List RxEntry} {n : Nat} {w : Wheel}

theorem Part.dispatchFrames_wheel (hrx : p.sbc.rx = e :: rest) (he : e.frame = .wheel n w) (hs : p.csu.station ≠ .silent) (m : Nat) :
    p.dispatchFrames m = p := by
  cases m with
  | zero => rfl
  | succ m => simp only [Part.dispatchFrames, hrx, he, if_neg hs]

/-- A WHEEL frame at the head of the buffer waits for the port. -/
theorem Part.dispatch_wheel (hrx : p.sbc.rx = e :: rest) (he : e.frame = .wheel n w) (hs : p.csu.station ≠ .silent)
    (hd : p.sbc.deaf = false) : p.dispatch = p.requestPort .dispatcher := by
  have hended : p.endDeaf = p := by
    rw [Part.endDeaf, hd]
    rfl
  have hhead : p.wheelAtHead = true := by
    simp only [Part.wheelAtHead, hrx, he]
  simp only [Part.dispatch, Part.dispatchFrames_wheel hrx he hs, hended, hhead, if_true]

theorem Part.requestPort_of_standing {r : Requester} (h : p.vau.port.standing r = true) : p.requestPort r = p := if_pos h

theorem Part.offerFrame_room {f : RxFrame} {c : Capture} (hd : p.sbc.deaf = false) (hl : p.sbc.rx.length < 4) :
    p.offerFrame f c = (p.withRx (p.sbc.rx ++ [p.entryOf f c])).dispatch := by
  rw [Part.offerFrame, hd, if_pos hl]
  rfl

theorem Part.offerFrame_overrun {f : RxFrame} {c : Capture} (hd : p.sbc.deaf = false) (hl : p.sbc.rx.length = 4) :
    p.offerFrame f c = p.overrun := by
  rw [Part.offerFrame, hd, hl]
  rfl

/-- The blind intervals that have not been closed for more than 10 s (R74). -/
def Part.freshBlind (p : Part) : List BlindInterval :=
  p.sbc.blind.filter fun b => b.close.all fun x => decide (siteDiff p.now x ≤ 10000000)

theorem reopenNewest_append (older : List BlindInterval) (newest : BlindInterval) :
    reopenNewest (older ++ [newest]) = older ++ [{ newest with close := none }] := by
  induction older with
  | nil => rfl
  | cons b older ih =>
    cases older with
    | nil => rfl
    | cons c older => rw [List.cons_append, List.cons_append, reopenNewest, ← List.cons_append, ih]; rfl

theorem Part.openBlind_eq (p : Part) : openBlind p.now p.sbc.blind =
    if p.freshBlind.length < 4 then p.freshBlind ++ [{ start := p.now, close := none }] else reopenNewest p.freshBlind := by
  have hfresh : (p.sbc.blind.filter fun b => !blindOld p.now b) = p.freshBlind :=
    List.filter_congr fun b _ => not_blindOld _ _
  rw [openBlind, hfresh]

/-- The part that has counted an overrun, before the mark. -/
def Part.overran (p : Part) : Part :=
  (p.modTotals fun t => { t with overruns := satInc t.overruns }).modSbc fun b =>
    { b with deaf := true, blind := openBlind p.now b.blind }

theorem Part.overrun_eq (p : Part) : p.overrun = p.overran.setMark .bus := rfl

theorem Part.changedOnly_overrun (p : Part) : p.changedOnly [.sbc, .csu, .vcl] p.overrun := by
  rw [Part.overrun_eq]
  refine Part.changedOnly.trans (b := p.overran) ?_ ((Part.changedOnly_setMark .bus _).mono (by simp))
  exact ⟨rfl, rfl, fun k hk => by cases k <;> simp_all [Part.sameAt, Part.overran]⟩

end

/-- Only a WHEEL frame carries a wheel, and the filter takes it in JOIN, RUN and HOLD alone (R71). -/
theorem Part.onDuty_of_wheel {p : Part} {kind : FrameKind} {sender n : Nat} {payload : List Byte} {w : Wheel}
    (ha : p.accepts kind sender payload = true) (hp : parseContent kind sender payload = some (.wheel n w)) : p.onDuty = true := by
  cases kind with
  | wheel => exact (Bool.and_eq_true_iff.1 ha).1
  | time =>
    simp only [parseContent] at hp
    split at hp <;> simp at hp
  | temp =>
    obtain ⟨x, -, hx⟩ := Option.map_eq_some_iff.1 hp
    exact RxFrame.noConfusion hx
  | command =>
    simp only [parseContent] at hp
    split at hp <;> simp at hp
  | vehicle => simp [parseContent] at hp
  | status => simp [parseContent] at hp
  | totals => simp [parseContent] at hp

/-- Settles O47: what a frame finds in the buffer decides whether it waits, asks for the port, or overruns. -/
theorem wheelFramesWaitForThePort : Obligations.WheelFramesWaitForThePort := by
  intro s bytes payload c kind sender f hs hr hf hd hj hn ha hp
  have hoffered := exec_frameReceived_offered hs hr hf hj hn ha hp
  refine ⟨fun n w hrx hw => ?_, fun e rest n w hrx hl he hsilent hstanding => ?_, fun hl => ?_⟩
  · subst hw
    have hsilent : s.part.csu.station ≠ .silent := by
      rcases Part.onDuty_iff.1 (Part.onDuty_of_wheel ha hp) with h | h | h <;> rw [h] <;> decide
    have hroom : s.part.heard.sbc.rx.length < 4 := by
      have hlength : s.part.heard.sbc.rx.length = 0 := congrArg List.length hrx
      omega
    have hhead : (s.part.heard.withRx (s.part.heard.sbc.rx ++ [s.part.entryOf (.wheel n w) c])).sbc.rx =
        s.part.entryOf (.wheel n w) c :: [] := congrArg (· ++ [s.part.entryOf (.wheel n w) c]) hrx
    exact hoffered.trans (congrArg (fun q : Part => Host.Outcome.next { s with part := q })
      ((Part.offerFrame_room (p := s.part.heard) hd hroom).trans (Part.dispatch_wheel hhead rfl hsilent hd)))
  · have hroom : s.part.heard.sbc.rx.length < 4 := by
      have hlength : s.part.heard.sbc.rx.length = rest.length + 1 := congrArg List.length hrx
      omega
    have hhead : (s.part.heard.withRx (s.part.heard.sbc.rx ++ [s.part.entryOf f c])).sbc.rx =
        e :: (rest ++ [s.part.entryOf f c]) := congrArg (· ++ [s.part.entryOf f c]) hrx
    have hwaits := (Part.dispatch_wheel hhead he hsilent hd).trans (Part.requestPort_of_standing hstanding)
    exact hoffered.trans (congrArg (fun q : Part => Host.Outcome.next { s with part := q })
      ((Part.offerFrame_room (p := s.part.heard) hd hroom).trans hwaits))
  · refine ⟨_, hoffered.trans (by rw [Part.offerFrame_overrun (p := s.part.heard) hd hl]), ?_⟩
    have hblind : s.part.heard.overrun.sbc.blind = openBlind s.part.now s.part.sbc.blind := by
      rw [Part.overrun_eq, Part.setMark_blind]
      rfl
    rw [Part.openBlind_eq] at hblind
    refine ⟨?_, ?_, ?_, ?_, fun hfresh => ?_, fun older newest hfresh hlength => ?_,
      ((s.part.changedOnly_modSbc _).mono (by simp)).trans (Part.changedOnly_overrun _)⟩
    · rw [Part.overrun_eq, Part.setMark_rx]
      rfl
    · rw [Part.overrun_eq, Part.setMark_deaf]
      rfl
    · rw [Part.overrun_eq, Part.setMark_marks]
      rfl
    · rw [Part.overrun_eq, Part.setMark_totals]
      rfl
    · rw [hblind, if_pos (show s.part.freshBlind.length < 4 from hfresh)]
      rfl
    · have hfull : ¬s.part.freshBlind.length < 4 := by
        rw [show s.part.freshBlind = older ++ [newest] from hfresh, List.length_append, hlength]
        simp
      rw [hblind, if_neg hfull, show s.part.freshBlind = older ++ [newest] from hfresh, reopenNewest_append]

end Sys2Proof.Machine
end


section
/-! PROOFS. The content checks of R196 and what the receiver counts (R60, R69 to R71, R73, R75). -/

namespace Sys2Proof.Machine

/-! ## Fields read back (R194) -/

section
variable (b : List Byte) (o n : Nat)

theorem drop_eq_getD_cons {α : Type} (l : List α) (o : Nat) (d : α) (h : o < l.length) : l.drop o = l.getD o d :: l.drop (o + 1) := by
  rw [List.drop_eq_getElem_cons h, List.getD_eq_getElem _ _ h]

/-- A field of `n + 1` bytes is its first byte and the field behind it, whatever the payload holds. -/
theorem fieldAt_succ : fieldAt b o (n + 1) = byteAt b o + 256 * fieldAt b (o + 1) n := by
  rcases Nat.lt_or_ge o b.length with h | h
  · rw [fieldAt, drop_eq_getD_cons b o 0 h]
    rfl
  · have hnone (m : Nat) (hm : b.length ≤ m) (k : Nat) : fieldAt b m k = 0 := by
      rw [fieldAt, List.drop_eq_nil_of_le hm, List.take_nil]
      rfl
    rw [hnone o h, hnone (o + 1) (by omega), byteAt, List.getD_eq_default _ _ h]
    rfl

theorem fieldAt_two : fieldAt b o 2 = byteAt b o + 256 * byteAt b (o + 1) := by
  rw [fieldAt_succ, fieldAt_succ]
  have hzero : fieldAt b (o + 1 + 1) 0 = 0 := by rw [fieldAt, List.take_zero]; rfl
  rw [hzero]
  rfl

theorem fieldAt_three : fieldAt b o 3 = byteAt b o + 256 * byteAt b (o + 1) + 65536 * byteAt b (o + 2) := by
  rw [fieldAt_succ, fieldAt_two, Nat.mul_add, ← Nat.mul_assoc, ← Nat.add_assoc]

theorem fieldAt_two_lt : fieldAt b o 2 < 65536 := by
  have hlow := byteAt_lt b o
  have hhigh := byteAt_lt b (o + 1)
  rw [fieldAt_two]
  omega

theorem signedAt_eq : signedAt b o = if fieldAt b o 2 < 32768 then (fieldAt b o 2 : Int) else fieldAt b o 2 - 65536 := by
  have hlt := fieldAt_two_lt b o
  have hvalue : signedAt b o = (BitVec.ofNat 16 (fieldAt b o 2)).toInt := rfl
  rw [hvalue, BitVec.toInt_eq_toNat_cond, BitVec.toNat_ofNat, Nat.mod_eq_of_lt hlt]
  split <;> split <;> omega

end

/-- Whether bit `k` of a mask is set, as a number. -/
def bitOf (mask k : Nat) : Nat := if mask.testBit k then 1 else 0

theorem readOptional_drop (mask k n o : Nat) (b : List Byte) : readOptional (mask.testBit k) n (b.drop o) =
    (if mask.testBit k then some (fieldAt b o n) else none, b.drop (o + n * bitOf mask k)) := by
  unfold readOptional bitOf
  split
  · rw [List.drop_drop, Nat.mul_one]
    rfl
  · rfl

/-! ## WHEEL (R196) -/

theorem maskedSize_wheel (mask : Nat) : 9 + maskedSize mask 0 wheelOptionalSizes =
    9 + 6 * bitOf mask 0 + 6 * bitOf mask 1 + 3 * bitOf mask 2 + 4 * bitOf mask 3 + 4 * bitOf mask 4 + 6 * bitOf mask 5 +
      2 * bitOf mask 6 := by
  have hbit (k n : Nat) : (if mask.testBit k then n else 0) = n * bitOf mask k := by
    unfold bitOf
    split <;> simp
  simp only [maskedSize, wheelOptionalSizes, hbit, Nat.zero_add, Nat.reduceAdd]
  omega

theorem sideOf_none_iff {n : Nat} : sideOf n = none ↔ 1 < n := by
  match n with
  | 0 => simp [sideOf]
  | 1 => simp [sideOf]
  | n + 2 => simp [sideOf]

theorem sourceOf_none_iff {n : Nat} : sourceOf n = none ↔ 5 < n := by
  match n with
  | 0 | 1 | 2 | 3 | 4 | 5 => simp [sourceOf]
  | n + 6 => simp [sourceOf]

/-- The size, the flags or the mask of a WHEEL payload is wrong (R196). -/
def wheelSizeFault (b : List Byte) : Bool :=
  decide (b.length < 9) || decide (b.length ≠ 9 + maskedSize (byteAt b 8) 0 wheelOptionalSizes) ||
    decide (1024 ≤ fieldAt b 3 2) || decide (128 ≤ byteAt b 8)

/-- The speed of a WHEEL payload that names one (section 12.2). -/
def speedField (b : List Byte) : Nat := fieldAt b (9 + 6 * bitOf (byteAt b 8) 0 + 6 * bitOf (byteAt b 8) 1) 3

/-- The start times, the temperature or the speed of a WHEEL payload is wrong (R196). -/
def wheelValueFault (b : List Byte) : Bool :=
  (!(byteAt b 8).testBit 0 && !(byteAt b 8).testBit 1) || decide (signedAt b 5 < -400) || decide (800 < signedAt b 5) ||
    ((byteAt b 8).testBit 2 && (decide (speedField b < vMin) || decide (vMax < speedField b)))

theorem ite_none_iff {α : Type} {c : Prop} [Decidable c] {x : Option α} : (if c then none else x) = none ↔ c ∨ x = none := by
  by_cases h : c <;> simp [h]

theorem parseWheel_none_iff (b : List Byte) : parseWheel b = none ↔
    wheelSizeFault b = true ∨ wheelValueFault b = true ∨ sideOf (byteAt b 2) = none ∨ sourceOf (byteAt b 7) = none := by
  unfold parseWheel
  simp only [readOptional_drop]
  refine ite_none_iff.trans (or_congr Iff.rfl (ite_none_iff.trans (or_congr ?_ ?_)))
  · refine iff_of_eq (congrArg (fun x : Bool => x = true) ?_)
    unfold wheelValueFault
    cases (byteAt b 8).testBit 0 <;> cases (byteAt b 8).testBit 1 <;> cases (byteAt b 8).testBit 2 <;> rfl
  · cases sideOf (byteAt b 2) <;> cases sourceOf (byteAt b 7) <;> simp

/-! ## TEMP (R196) -/

theorem probeOf_none_iff {n : Nat} : probeOf n = none ↔ 1 < n := by
  match n with
  | 0 => simp [probeOf]
  | 1 => simp [probeOf]
  | n + 2 => simp [probeOf]

theorem qualityOf_none_iff {n : Nat} : qualityOf n = none ↔ 5 < n := by
  match n with
  | 0 | 1 | 2 | 3 | 4 | 5 => simp [qualityOf]
  | n + 6 => simp [qualityOf]

theorem temp_size {mask : Nat} (h : mask < 2) : (if mask = 1 then 6 else 4) = 4 + 2 * bitOf mask 0 := by
  interval_cases mask <;> rfl

/-- The size or the mask of a TEMP payload is wrong (R196). -/
theorem temp_size_fault_iff {length mask : Nat} :
    (decide (length < 4) || decide (2 ≤ mask) || decide (length ≠ if mask = 1 then 6 else 4)) = true ↔
      length ≠ 4 + 2 * bitOf mask 0 ∨ 2 ≤ mask := by
  by_cases hm : 2 ≤ mask
  · simp [hm]
  · rw [temp_size (Nat.not_le.1 hm)]
    simp only [Bool.or_eq_true, decide_eq_true_eq]
    omega

theorem temp_group_none_iff {α : Type} {group : Nat} {x : α} :
    (if (decide (1 ≤ group) && decide (group ≤ 3)) = true then some x else none) = none ↔ group < 1 ∨ 3 < group := by
  rw [ite_eq_right_iff]
  simp only [Bool.and_eq_true, decide_eq_true_eq, reduceCtorEq, imp_false]
  omega

theorem parseTemp_none_iff (b : List Byte) : parseTemp b = none ↔
    b.length ≠ 4 + 2 * bitOf (byteAt b 3) 0 ∨ 2 ≤ byteAt b 3 ∨ 1 < byteAt b 0 ∨ 5 < byteAt b 1 ∨ byteAt b 2 < 1 ∨ 3 < byteAt b 2 := by
  rw [← probeOf_none_iff, ← qualityOf_none_iff]
  unfold parseTemp
  refine ite_none_iff.trans ?_
  rw [← or_assoc]
  refine or_congr temp_size_fault_iff ?_
  rcases probeOf (byteAt b 0) with _ | probe
  · simp
  rcases qualityOf (byteAt b 1) with _ | quality
  · simp
  · refine temp_group_none_iff.trans ?_
    simp

theorem parseContent_wheel_none_iff (sender : Nat) (b : List Byte) : parseContent .wheel sender b = none ↔ parseWheel b = none :=
  Option.map_eq_none_iff

theorem parseContent_temp_none_iff (sender : Nat) (b : List Byte) : parseContent .temp sender b = none ↔ parseTemp b = none :=
  Option.map_eq_none_iff

theorem parseContent_time_none_iff (sender : Nat) (b : List Byte) : parseContent .time sender b = none ↔ b.length ≠ 6 := by
  simp [parseContent]

theorem parseContent_command_none_iff (sender : Nat) (b : List Byte) : parseContent .command sender b = none ↔ b.length < 2 := by
  match b with
  | [] => simp [parseContent]
  | [_] => simp [parseContent]
  | _ :: _ :: _ => simp [parseContent]

theorem wheelSizeFault_iff (b : List Byte) : wheelSizeFault b = true ↔
    b.length ≠ 9 + maskedSize (byteAt b 8) 0 wheelOptionalSizes ∨ 1024 ≤ fieldAt b 3 2 ∨ 128 ≤ byteAt b 8 := by
  simp only [wheelSizeFault, Bool.or_eq_true, decide_eq_true_eq, ne_eq]
  omega

theorem bitOf_eq_zero_iff {mask k : Nat} : bitOf mask k = 0 ↔ mask.testBit k = false := by
  unfold bitOf
  cases mask.testBit k <;> simp

theorem bitOf_eq_one_iff {mask k : Nat} : bitOf mask k = 1 ↔ mask.testBit k = true := by
  unfold bitOf
  cases mask.testBit k <;> simp

theorem wheelValueFault_iff (b : List Byte) : wheelValueFault b = true ↔
    signedAt b 5 < -400 ∨ 800 < signedAt b 5 ∨ (bitOf (byteAt b 8) 0 = 0 ∧ bitOf (byteAt b 8) 1 = 0) ∨
      (bitOf (byteAt b 8) 2 = 1 ∧ (speedField b < vMin ∨ vMax < speedField b)) := by
  rw [bitOf_eq_zero_iff, bitOf_eq_zero_iff, bitOf_eq_one_iff]
  simp only [wheelValueFault, Bool.or_eq_true, Bool.and_eq_true, Bool.not_eq_true', decide_eq_true_eq]
  tauto

/-- What makes a WHEEL payload wrong (R196), by the bytes that it is read from. -/
theorem parseWheel_none_iff_fields (b : List Byte) : parseWheel b = none ↔
    b.length ≠ 9 + maskedSize (byteAt b 8) 0 wheelOptionalSizes ∨ 1024 ≤ fieldAt b 3 2 ∨ 128 ≤ byteAt b 8 ∨ 1 < byteAt b 2 ∨
      5 < byteAt b 7 ∨ signedAt b 5 < -400 ∨ 800 < signedAt b 5 ∨ (bitOf (byteAt b 8) 0 = 0 ∧ bitOf (byteAt b 8) 1 = 0) ∨
      (bitOf (byteAt b 8) 2 = 1 ∧ (speedField b < vMin ∨ vMax < speedField b)) := by
  rw [parseWheel_none_iff, wheelSizeFault_iff, wheelValueFault_iff, sideOf_none_iff, sourceOf_none_iff]
  tauto

/-! ## The events of the receiver (R60, R69, R71, R73, R75) -/

section
variable {s : State} {bytes payload : List Byte} {kind : FrameKind} {sender t : Nat}

theorem exec_startMarkReceived (hs : s.running) (hr : s.part.receiverOn = true) (hsend : s.part.sending = none)
    (hf : s.part.sbc.following = none) : exec .startMarkReceived s = .next { s with
      part := if s.part.lineIgnored then s.part.hearUse else s.part.modSbc fun b => { b with following := some s.part.capture } } := by
  have hexec : exec .startMarkReceived s = act (fun p =>
    if p.receiverOn && p.sending.isNone && p.sbc.following.isNone then
      if p.lineIgnored then p.hearUse else p.modSbc fun b => { b with following := some p.capture }
    else p) s := rfl
  rw [hexec, act_running _ hs, hr, hsend, hf]
  rfl

theorem exec_frameReceived_unfollowed (hs : s.running) (hr : s.part.receiverOn = true) (hsend : s.part.sending = none)
    (hf : s.part.sbc.following = none) : exec (.frameReceived bytes) s = .next { s with part := s.part.hearUse } := by
  have hexec : exec (.frameReceived bytes) s = act (fun p =>
    if !p.receiverOn then p
    else
      match p.sbc.following with
      | some c => p.receiveFrame bytes c
      | none => if p.sending.isNone then p.hearUse else p) s := rfl
  rw [hexec, act_running _ hs, hr, hf, hsend]
  rfl

theorem Part.hearUse_eq (p : Part) {line : LineState} (h : p.sbc.line.usedUntil p.clock = line) :
    p.hearUse = { p with sbc := { p.sbc with line := line } } := by
  rw [Part.hearUse, Part.modSbc, h]

theorem exec_lengthByteOver120 (hs : s.running) (hr : s.part.receiverOn = true) (hf : s.part.sbc.following.isSome = true) :
    exec .lengthByteOver120 s = .next { s with part := (s.part.stopFollowing (.ignored s.part.clock)).countFormat } := by
  have hexec : exec .lengthByteOver120 s = act (fun p =>
    if p.receiverOn && p.sbc.following.isSome then (p.stopFollowing (.ignored p.clock)).countFormat else p) s := rfl
  rw [hexec, act_running _ hs, hr, hf]
  rfl

theorem quietInterval_eq (r : BitRate) : quietInterval r = 11 * (match r with | .k125 => 8 | .k250 => 4 | .k500 => 2) := by
  cases r <;> rfl

theorem Part.accepts_iff {p : Part} : p.accepts kind sender payload = true ↔
    kind = .wheel ∧ p.onDuty = true ∧ (p.block.leftNeighbour = some sender ∨ p.block.rightNeighbour = some sender) ∨
      kind = .time ∨ kind = .temp ∨
      kind = .command ∧ ∃ target rest, payload = target :: rest ∧
        (target.toNat = p.block.number ∨ target = 0 ∨ target.toNat = 0x80 + p.block.group) := by
  cases kind with
  | wheel => simp [Part.accepts]
  | command =>
    cases payload with
    | nil => simp [Part.accepts]
    | cons target rest =>
      have hzero : target.toNat = 0 ↔ target = 0 := by
        rw [← BitVec.toNat_inj]
        rfl
      simp [Part.accepts, Part.targetsUs, byteAt, hzero, or_assoc]
  | time => simp [Part.accepts]
  | temp => simp [Part.accepts]
  | vehicle => simp [Part.accepts]
  | status => simp [Part.accepts]
  | totals => simp [Part.accepts]

end

/-- Settles O44: the content checks by the fields that they read, and each event of the receiver. -/
theorem receivedFramesAreChecked : Obligations.ReceivedFramesAreChecked := by
  refine ⟨fun sender b => ⟨?_, parseContent_time_none_iff sender b, ?_, parseContent_command_none_iff sender b,
    fun _ _ _ => rfl⟩, fun s bytes hs hr => ⟨fun hsend hf => ⟨fun hline => ?_, fun t hline => ⟨fun hlt => ?_, ?_⟩, fun t hline => ?_⟩,
      fun hf => ?_, fun hf => ⟨fun hj => ?_, fun hj => ?_, fun hj => ?_, fun kind sender payload hj hn => ⟨fun ha => ?_,
        fun ha hp => ?_, fun ha hp hd => ?_⟩, fun kind sender payload => ?_⟩⟩⟩
  · rw [parseContent_wheel_none_iff, parseWheel_none_iff_fields, maskedSize_wheel, signedAt_eq, speedField, fieldAt_two, fieldAt_two,
      fieldAt_three]
    exact Iff.rfl
  · rw [parseContent_temp_none_iff, parseTemp_none_iff]
    rfl
  · have hnot : s.part.lineIgnored = false := by
      rw [Bool.eq_false_iff]
      intro h
      obtain ⟨t, ht, hlt⟩ := Part.lineIgnored_iff.1 h
      rw [quietInterval_eq] at hlt
      exact absurd (hline t ht) (Nat.not_le.2 hlt)
    rw [exec_startMarkReceived hs hr hsend hf, hnot]
    rfl
  · have hignored : s.part.lineIgnored = true := Part.lineIgnored_iff.2 ⟨t, hline, by rw [quietInterval_eq]; exact hlt⟩
    rw [exec_startMarkReceived hs hr hsend hf, hignored, Part.hearUse_eq s.part (line := .ignored s.part.clock) (by rw [hline]; rfl)]
    rfl
  · rw [exec_frameReceived_unfollowed hs hr hsend hf, Part.hearUse_eq s.part (line := .ignored s.part.clock) (by rw [hline]; rfl)]
  · rw [exec_frameReceived_unfollowed hs hr hsend hf, Part.hearUse_eq s.part (line := .quiet s.part.clock) (by rw [hline]; rfl)]
  · rw [exec_lengthByteOver120 hs hr hf]
    rfl
  all_goals obtain ⟨c, hc⟩ := Option.isSome_iff_exists.1 hf
  all_goals have hreceived := exec_frameReceived (bytes := bytes) hs hr hc
  · rcases hj with hj | hj
    · rw [hreceived, Part.receiveFrame, hj]
      rfl
    · rw [hreceived, Part.receiveFrame, hj]
      rfl
  · rw [hreceived, Part.receiveFrame, hj, exec_lengthByteOver120 hs hr hf]
  · rw [hreceived, Part.receiveFrame, hj]
    rfl
  · rw [hreceived, Part.receiveFrame_good hj, Part.takeFrame_turnedAway (p := s.part.heard) hn ha]
    rfl
  · rw [hreceived, Part.receiveFrame_good hj, Part.takeFrame_wrong (p := s.part.heard) hn ha hp]
    rfl
  · obtain ⟨f, hparse⟩ := Option.isSome_iff_exists.1 hp
    have hdeaf : s.part.heard.offerFrame f c = s.part.heard.modSbc fun b => { b with deafDiscards := satInc b.deafDiscards } := by
      rw [Part.offerFrame]
      exact if_pos hd
    rw [hreceived, Part.receiveFrame_good hj, Part.takeFrame_offered (p := s.part.heard) hn ha hparse, hdeaf]
    rfl
  · exact Part.accepts_iff

end Sys2Proof.Machine
end


section
/-! PROOFS. The record memory port and the dispatcher's work of a grant (R72, R73, R90 to R93). -/

namespace Sys2Proof.Machine

/-! ## The port (R90) -/

section
variable {q : Port} {now : Nat} {r x : Requester}

theorem Port.request_free_eq (h : q.holder = none) : q.request now r = { q with holder := some r, freshAt := some now } := by
  simp only [Port.request, h]

theorem Port.request_first_eq (h : q.holder = some x) (hf : q.freshAt = some now) (hr : r.rank < x.rank) :
    q.request now r = { q.waitFor x with holder := some r } := by
  have hcondition : (decide (q.freshAt = some now) && decide (r.rank < x.rank)) = true := by
    rw [decide_eq_true hf, decide_eq_true hr]
    rfl
  simp only [Port.request, h]
  exact if_pos hcondition

theorem Port.request_waits_eq (h : q.holder = some x) (hr : q.freshAt ≠ some now ∨ x.rank ≤ r.rank) :
    q.request now r = q.waitFor r := by
  have hcondition : ¬(decide (q.freshAt = some now) && decide (r.rank < x.rank)) = true := by
    rw [Bool.and_eq_true, decide_eq_true_eq, decide_eq_true_eq]
    rintro ⟨hf, hlt⟩
    rcases hr with hr | hr
    · exact hr hf
    · omega
  simp only [Port.request, h]
  exact if_neg hcondition

/-- The waiting set with a requester joined. -/
theorem Port.waitFor_eq (r : Requester) (q : Port) : q.waitFor r = { q with
    waitDispatcher := q.waitDispatcher || decide (r = .dispatcher)
    waitAxleFormer := q.waitAxleFormer || decide (r = .axleFormer)
    waitClassWalk := q.waitClassWalk || decide (r = .classWalk) } := by
  cases r <;> simp [Port.waitFor]

theorem Port.grantNext_eq (q : Port) : q.grantNext = { q with
    holder := if q.waitDispatcher then some .dispatcher else if q.waitAxleFormer then some .axleFormer
      else if q.waitClassWalk then some .classWalk else none
    waitDispatcher := false
    waitAxleFormer := q.waitDispatcher && q.waitAxleFormer
    waitClassWalk := (q.waitDispatcher || q.waitAxleFormer) && q.waitClassWalk
    freshAt := none } := by
  obtain ⟨holder, d, a, c, fresh⟩ := q
  cases d <;> cases a <;> cases c <;> rfl

/-- The holder's release with its next request returns the port to it (R91). -/
theorem Port.request_grantNext (h : q.holder = some .dispatcher) : (q.request now .dispatcher).grantNext =
    { q with holder := some .dispatcher, waitDispatcher := false, freshAt := none } := by
  rw [Port.request_waits_eq h (.inr (Nat.le_refl _))]
  rfl

end

/-! ## The frames at the head (R72) -/

section
variable {p : Part} {e : RxEntry} {rest : List RxEntry}

theorem Part.popFrame_cons (h : p.sbc.rx = e :: rest) : p.popFrame = p.withRx rest := by
  rw [Part.popFrame, Part.modSbc, h]
  rfl

theorem Part.dispatchFrames_time (h : p.sbc.rx = e :: rest) {k : Nat} {t : SiteTime} (he : e.frame = .time k t) (n : Nat) :
    p.dispatchFrames (n + 1) = ((p.withRx rest).takeTimeFrame k t e.capture).dispatchFrames n := by
  simp only [Part.dispatchFrames, h, he, Part.popFrame_cons h]

theorem Part.dispatchFrames_temp (h : p.sbc.rx = e :: rest) {k : Nat} {pr : Probe} {c : TempContent} (he : e.frame = .temp k pr c)
    (n : Nat) : p.dispatchFrames (n + 1) = ((p.withRx rest).takeTempFrame k pr c).dispatchFrames n := by
  simp only [Part.dispatchFrames, h, he, Part.popFrame_cons h]

theorem Part.dispatchFrames_command (h : p.sbc.rx = e :: rest) {code : Byte} {args : List Byte} (he : e.frame = .command code args)
    (n : Nat) : p.dispatchFrames (n + 1) = ((p.withRx rest).judge code args).dispatchFrames n := by
  simp only [Part.dispatchFrames, h, he, Part.popFrame_cons h]

theorem Part.dispatchFrames_wheel_silent (h : p.sbc.rx = e :: rest) {k : Nat} {w : Wheel} (he : e.frame = .wheel k w)
    (hs : p.csu.station = .silent) (n : Nat) : p.dispatchFrames (n + 1) = (p.withRx rest).dispatchFrames n := by
  simp only [Part.dispatchFrames, h, he, hs, if_true, Part.popFrame_cons h]

end

/-! ## The peer list (R92, R93) -/

section
variable (p : Part) (sender : Nat) (w : Wheel)

/-- The entries of the peer list that are not aged (R93). -/
def Part.youngPeers : List PeerWheel :=
  let limit : Int := (p.image.assembly.tmax + p.image.assembly.lp) * 1000
  p.vau.peers.filter fun x => !x.aged && decide (siteDiff p.now x.wheel.refTime ≤ limit)

/-- The peer list with the wheel in its place, one of the same sender and number gone (R92; log 46). -/
def Part.peerList : List PeerWheel :=
  insertBefore (fun x => decide (0 < siteDiff x.wheel.refTime w.refTime)) { sender := sender, wheel := w, aged := false }
    (p.youngPeers.filter fun x => !decide (x.sender = sender ∧ x.wheel.number = w.number))

/-- The wheel is on the near side of its sender's lane and no repeat (R92). -/
def Part.fitsPeer : Bool :=
  decide (p.neighbour (otherSide w.side) = some sender) && decide (p.vau.lastPeer.get (otherSide w.side) ≠ some w.number)

/-- The VAU once the wheel at the head of the buffer is judged (R92, R93). -/
def Part.judgedVau : Vau :=
  if p.fitsPeer sender w then { p.vau with
    peers := if (p.peerList sender w).length ≤ 32 then p.peerList sender w else (p.peerList sender w).drop 1
    peerOverflows := if (p.peerList sender w).length ≤ 32 then p.vau.peerOverflows else satInc p.vau.peerOverflows
    lastPeer := p.vau.lastPeer.set (otherSide w.side) (some w.number) }
  else { p.vau with peers := p.youngPeers }

theorem Part.removeAged_eq : p.removeAged = { p with vau := { p.vau with peers := p.youngPeers } } := by
  have hyoung : (p.vau.peers.filter fun e => !p.peerAged e) = p.youngPeers :=
    List.filter_congr fun e _ => by rw [Part.peerAged_eq, Bool.not_or, not_decide_lt]
  rw [Part.removeAged, Part.modVau, hyoung]

theorem samePeer_eq (x : PeerWheel) : samePeer x { sender := sender, wheel := w, aged := false } =
    decide (x.sender = sender ∧ x.wheel.number = w.number) := (Bool.decide_and _ _).symm

theorem takePeer_eq (v : Vau) (hv : v.peers = p.youngPeers) : takePeer { sender := sender, wheel := w, aged := false } v = { v with
    peers := if (p.peerList sender w).length ≤ 32 then p.peerList sender w else (p.peerList sender w).drop 1
    peerOverflows := if (p.peerList sender w).length ≤ 32 then v.peerOverflows else satInc v.peerOverflows } := by
  have hlist : insertBefore (peerAfter w.refTime) { sender := sender, wheel := w, aged := false }
      (v.peers.filter fun x => !samePeer x { sender := sender, wheel := w, aged := false }) = p.peerList sender w := by
    rw [hv]
    simp only [samePeer_eq]
    rfl
  unfold takePeer
  simp only [hlist]
  split <;> rfl

theorem Part.insertPeer_eq : p.removeAged.insertPeer sender w = { p with vau := p.judgedVau sender w } := by
  have hfits : p.removeAged.insertPeer sender w = if p.fitsPeer sender w then p.removeAged.modVau fun v =>
      { takePeer { sender := sender, wheel := w, aged := false } v with
        lastPeer := v.lastPeer.set (otherSide w.side) (some w.number) } else p.removeAged := rfl
  rw [hfits, Part.judgedVau]
  cases hf : p.fitsPeer sender w with
  | false => exact p.removeAged_eq
  | true =>
    rw [if_pos rfl, if_pos rfl, Part.removeAged_eq, Part.modVau, takePeer_eq p sender w _ rfl]

end

/-! ## The dispatcher's grant (R91 to R93) -/

section
variable {s : State} {e : RxEntry} {rest : List RxEntry} {sender : Nat} {w : Wheel}

/-- The part whose dispatcher has judged the wheel at the head and removed it from the buffer. -/
def Part.served (p : Part) (sender : Nat) (w : Wheel) (rest : List RxEntry) : Part :=
  ({ p with vau := p.judgedVau sender w } : Part).withRx rest

theorem Part.serveWheel_eq {p : Part} (hrx : p.sbc.rx = e :: rest) (he : e.frame = .wheel sender w) :
    p.serveWheel = (((p.served sender w rest).dispatchFrames rest.length).endDeaf).releaseDispatcher := by
  have haged : p.removeAged.sbc.rx = e :: rest := hrx
  simp only [Part.serveWheel, haged, he, Part.insertPeer_eq]
  rw [Part.popFrame_cons (p := { p with vau := p.judgedVau sender w }) hrx]
  rfl

theorem exec_dispatcherPortGrant (hs : s.running) (hh : s.part.vau.port.holder = some .dispatcher) :
    exec .dispatcherPortGrant s = .next { s with part := s.part.serveWheel } := by
  have hexec : exec .dispatcherPortGrant s =
      act (fun p => if p.vau.port.holder = some .dispatcher then p.serveWheel else p) s := rfl
  rw [hexec, act_running _ hs, if_pos hh]

theorem Part.endDeaf_empty {p : Part} (h : p.sbc.rx = []) : p.endDeaf = { p with sbc := { p.sbc with
    deaf := false, blind := if p.sbc.deaf then closeBlind p.now p.sbc.blind else p.sbc.blind } } := by
  rw [Part.endDeaf, h]
  cases hd : p.sbc.deaf
  · exact congrArg (fun d : Bool => ({ p with sbc := { p.sbc with deaf := d } } : Part)) hd
  · rfl

theorem Part.endDeaf_waits {p : Part} (h : p.sbc.rx = e :: rest) : p.endDeaf = p := by
  have hwaits : ¬(p.sbc.deaf && p.sbc.rx.isEmpty) = true := by simp [h]
  exact if_neg hwaits

theorem Part.judgedVau_port (p : Part) (sender : Nat) (w : Wheel) : (p.judgedVau sender w).port = p.vau.port := by
  unfold Part.judgedVau
  split <;> rfl

theorem Part.releaseDispatcher_wheel {p : Part} (hh : p.vau.port.holder = some .dispatcher) (hw : p.wheelAtHead = true) :
    p.releaseDispatcher = { p with vau := { p.vau with
      port := { p.vau.port with holder := some .dispatcher, waitDispatcher := false, freshAt := none } } } := by
  have hport := Port.request_grantNext (now := p.clock) hh
  rw [Part.releaseDispatcher, if_pos hw]
  exact congrArg (fun q : Port => ({ p with vau := { p.vau with port := q } } : Part)) hport

theorem Part.releaseDispatcher_other {p : Part} (hw : p.wheelAtHead = false) : p.releaseDispatcher = p.releasePort := by
  rw [Part.releaseDispatcher, hw]
  rfl

end

/-- Settles O48: the dispatcher's work as one record update, and the port by its three operations. -/
theorem dispatcherServesItsGrant : Obligations.DispatcherServesItsGrant := by
  refine ⟨fun s e rest sender w hs hh hrx he => ⟨?_, fun hrest => ?_, fun x more n v hrest hx hsilent => ?_⟩, fun s hs hh => ?_,
    fun q now r => ⟨Port.request_free_eq, fun x hx => ⟨fun hf hr => ?_, fun hr => ?_⟩, q.grantNext_eq⟩, fun p r => rfl,
    fun p n => ⟨fun h => Part.dispatchFrames_empty h n, fun e rest h => ⟨fun k t he => Part.dispatchFrames_time h he n,
      fun k pr c he => Part.dispatchFrames_temp h he n, fun code args he => Part.dispatchFrames_command h he n,
      fun k w he hs => Part.dispatchFrames_wheel h he hs n, fun k w he hs => Part.dispatchFrames_wheel_silent h he hs n⟩⟩⟩
  · rw [exec_dispatcherPortGrant hs hh, Part.serveWheel_eq hrx he]
    rfl
  · subst hrest
    have hempty : (s.part.served sender w []).sbc.rx = [] := rfl
    have hhead : (s.part.served sender w []).endDeaf.wheelAtHead = false :=
      Part.wheelAtHead_empty ((Part.endDeaf_rx _).trans hempty)
    rw [exec_dispatcherPortGrant hs hh, Part.serveWheel_eq hrx he, Part.dispatchFrames_empty hempty,
      Part.releaseDispatcher_other hhead, Part.endDeaf_empty hempty, Part.releasePort, Part.modVau]
    have hport := s.part.judgedVau_port sender w
    exact congrArg (fun q : Port => Host.Outcome.next { s with part := { s.part with
      vau := { s.part.judgedVau sender w with port := q.grantNext }
      sbc := { s.part.sbc with
        rx := [], deaf := false, blind := if s.part.sbc.deaf then closeBlind s.part.now s.part.sbc.blind else s.part.sbc.blind } } })
      hport
  · have hrest' : (s.part.served sender w rest).sbc.rx = x :: more := hrest
    have hhead : (s.part.served sender w rest).wheelAtHead = true := by simp only [Part.wheelAtHead, hrest', hx]
    have hholder : (s.part.served sender w rest).vau.port.holder = some .dispatcher :=
      (congrArg Port.holder (s.part.judgedVau_port sender w)).trans hh
    rw [exec_dispatcherPortGrant hs hh, Part.serveWheel_eq hrx he, Part.dispatchFrames_wheel hrest' hx hsilent,
      Part.endDeaf_waits hrest', Part.releaseDispatcher_wheel hholder hhead]
    exact congrArg (fun q : Port => Host.Outcome.next { s with part := { s.part.served sender w rest with
      vau := { s.part.judgedVau sender w with
        port := { q with holder := some .dispatcher, waitDispatcher := false, freshAt := none } } } })
      (s.part.judgedVau_port sender w)
  · have hexec : exec .dispatcherPortGrant s =
        act (fun p => if p.vau.port.holder = some .dispatcher then p.serveWheel else p) s := rfl
    rw [hexec, act_running _ hs, if_neg hh]
  · exact (Port.request_first_eq hx hf hr).trans (by rw [Port.waitFor_eq])
  · exact (Port.request_waits_eq hx hr).trans (Port.waitFor_eq r q)

end Sys2Proof.Machine
end


section
/-! PROOFS. Following TIME frames (R79 to R84, R86): the difference, the step with its log and its due points, the split counters. -/

namespace Sys2Proof.Machine

/-! ## Due points (R84) -/

/-- Some number of a span leaves a remainder exactly when the quotients of its ends differ. -/
theorem exists_due_iff (off lo hi : Int) (h : 0 ≤ off) (h' : off < 250000) :
    (∃ n, lo < n ∧ n ≤ hi ∧ n % 250000 = off) ↔ (lo - off).fdiv 250000 < (hi - off).fdiv 250000 := by
  rw [Int.fdiv_eq_ediv_of_nonneg _ (by decide), Int.fdiv_eq_ediv_of_nonneg _ (by decide)]
  constructor
  · rintro ⟨n, hlo, hhi, hn⟩
    omega
  · intro hlt
    exact ⟨off + 250000 * ((hi - off) / 250000), by omega, by omega, by omega⟩

theorem dueBetween_iff {number : Nat} (hn : number ≤ 14) (lo hi : Int) :
    dueBetween number lo hi = true ↔ ∃ n, lo < n ∧ n ≤ hi ∧ n % 250000 = (16000 * number : Nat) := by
  rw [exists_due_iff _ _ _ (by omega) (by omega)]
  exact decide_eq_true_iff

/-- A number of counts on from `t`, none of them the wrap. -/
theorem mod_of_small {t k : Nat} (h : t + k < 2 ^ 48) : (t + k) % 2 ^ 48 = t + k := Nat.mod_eq_of_lt h

/-- A number of counts on from `t`, one of them the wrap. -/
theorem mod_of_wrapped {t k : Nat} (h : 2 ^ 48 ≤ t + k) (h' : t + k < 2 * 2 ^ 48) : (t + k) % 2 ^ 48 = t + k - 2 ^ 48 := by
  rw [Nat.mod_eq_sub_mod h, Nat.mod_eq_of_lt (by omega)]

theorem stepPassesDue_iff {number d : Nat} {t : SiteTime} (hn : number ≤ 14) (hd : d < 2 ^ 48) :
    stepPassesDue number t d = true ↔ ∃ k, 1 ≤ k ∧ k ≤ d ∧ (t.toNat + k) % 2 ^ 48 % 250000 = 16000 * number := by
  have ht : t.toNat < 2 ^ 48 := t.isLt
  unfold stepPassesDue
  dsimp only
  generalize t.toNat = t at ht ⊢
  split
  · next h =>
    rw [dueBetween_iff hn]
    constructor
    · rintro ⟨n, hlo, hhi, hdue⟩
      obtain ⟨m, rfl⟩ := Int.eq_ofNat_of_zero_le (show 0 ≤ n by omega)
      refine ⟨m - t, by omega, by omega, ?_⟩
      rw [mod_of_small (by omega)]
      omega
    · rintro ⟨k, hk, hkd, hdue⟩
      rw [mod_of_small (by omega)] at hdue
      exact ⟨(t + k : Nat), by omega, by omega, by omega⟩
  · next h =>
    rw [Bool.or_eq_true, dueBetween_iff hn, dueBetween_iff hn]
    constructor
    · rintro (⟨n, hlo, hhi, hdue⟩ | ⟨n, hlo, hhi, hdue⟩)
      · obtain ⟨m, rfl⟩ := Int.eq_ofNat_of_zero_le (show 0 ≤ n by omega)
        refine ⟨m - t, by omega, by omega, ?_⟩
        rw [mod_of_small (by omega)]
        omega
      · obtain ⟨m, rfl⟩ := Int.eq_ofNat_of_zero_le (show 0 ≤ n by omega)
        refine ⟨m + 2 ^ 48 - t, by omega, by omega, ?_⟩
        rw [mod_of_wrapped (by omega) (by omega)]
        omega
    · rintro ⟨k, hk, hkd, hdue⟩
      by_cases hwrap : t + k < 2 ^ 48
      · rw [mod_of_small hwrap] at hdue
        exact .inl ⟨(t + k : Nat), by omega, by omega, by omega⟩
      · rw [mod_of_wrapped (by omega) (by omega)] at hdue
        exact .inr ⟨(t + k - 2 ^ 48 : Nat), by omega, by omega, by omega⟩

/-! ## The split counters (R83) -/

section
variable {p : Part} {i : Fin 14} {n : Fin 3}

theorem Part.setSplit_same (h : p.stu.split[i] = n) : p.setSplit i n = p := if_pos h

theorem Part.setSplit_new (h : p.stu.split[i] ≠ n) :
    p.setSplit i n = (p.modStu fun u => { u with split := u.split.set i n }).setMark .time := if_neg h

theorem Part.setSplit_stu (p : Part) (i : Fin 14) (n : Fin 3) : (p.setSplit i n).stu = { p.stu with split := p.stu.split.set i n } := by
  by_cases h : p.stu.split[i] = n
  · have hset : p.stu.split.set i n = p.stu.split := by
      rw [← h]
      exact Vector.set_getElem_self _
    rw [Part.setSplit_same h, hset]
  · rw [Part.setSplit_new h, Part.setMark_stu]
    rfl

theorem Part.setSplit_marks (h : p.stu.split[i] ≠ n) : (p.setSplit i n).csu.marks = { p.csu.marks with time := true } := by
  rw [Part.setSplit_new h, Part.setMark_marks]
  rfl

theorem Part.changedOnly_setSplit (p : Part) (i : Fin 14) (n : Fin 3) : p.changedOnly [.stu, .csu, .sbc, .vcl] (p.setSplit i n) := by
  by_cases h : p.stu.split[i] = n
  · rw [Part.setSplit_same h]
    exact p.changedOnly_refl _
  · rw [Part.setSplit_new h]
    exact ((p.changedOnly_modStu _).mono (by simp)).trans ((Part.changedOnly_setMark .time _).mono (by simp))

end

/-! ## A step (R79, R84, R86) -/

section
variable {p : Part} {d : Nat}

theorem Part.catchDue_stu (p : Part) : ∃ last, p.catchDue.stu = { p.stu with lastDue := last } := by
  by_cases h : p.atDuePoint = true
  · refine ⟨some p.stu.siteTime, ?_⟩
    rw [Part.catchDue_at h, Part.handFrame_stu]
  · exact ⟨p.stu.lastDue, by rw [Part.catchDue_off h]⟩

theorem Part.changedOnly_catchDue (p : Part) : p.changedOnly [.stu, .sbc, .vcl] p.catchDue := by
  by_cases h : p.atDuePoint = true
  · rw [Part.catchDue_at h]
    refine Part.changedOnly.trans (b := { p with stu := { p.stu with lastDue := some p.stu.siteTime } }) ?_ ?_
    · exact ⟨rfl, rfl, fun k hk => by cases k <;> simp_all [Part.sameAt]⟩
    · exact (Part.changedOnly_handFrame .time _).mono (by simp)
  · rw [Part.catchDue_off h]
    exact p.changedOnly_refl _

theorem Part.stepped_stu (d : Nat) (p : Part) : (p.stepped d).stu = { Stu.step d p.stu with
    lastDue := if isDuePoint p.block.number (later p.stu.siteTime d) then some (later p.stu.siteTime d) else none } := by
  obtain ⟨last, hlast⟩ := p.catchDue_stu
  have hstepped : (p.stepped d).stu = { Stu.step d p.catchDue.stu with
      lastDue := if isDuePoint p.block.number (later p.catchDue.stu.siteTime d) then some (later p.catchDue.stu.siteTime d)
        else none } := rfl
  rw [hstepped, hlast]
  rfl

theorem Part.takeStep_stu (d : Nat) (p : Part) : (p.takeStep d).stu = { Stu.step d p.stu with
    lastDue := if isDuePoint p.block.number (later p.stu.siteTime d) then some (later p.stu.siteTime d) else none } := by
  rw [Part.takeStep_eq, ← Part.stepped_stu]
  split
  · rw [Part.handTime_stu]
  · rfl

theorem Part.takeStep_vau (d : Nat) (p : Part) : (p.takeStep d).vau = { p.vau with
    vehicle := p.vau.vehicle.map fun v => { v with flags := { v.flags with timeStep := true } } } := by
  have hvau : (p.stepped d).vau = { p.catchDue.vau with
      vehicle := p.catchDue.vau.vehicle.map fun v => { v with flags := { v.flags with timeStep := true } } } := rfl
  rw [p.changedOnly_catchDue.vau (by simp)] at hvau
  rw [Part.takeStep_eq, ← hvau]
  split
  · rw [Part.handTime_vau]
  · rfl

theorem Part.changedOnly_stepped (d : Nat) (p : Part) : p.changedOnly [.stu, .vau, .sbc, .vcl] (p.stepped d) := by
  refine Part.changedOnly.trans (b := p.catchDue) (p.changedOnly_catchDue.mono (by simp)) ?_
  exact ⟨rfl, rfl, fun k hk => by cases k <;> simp_all [Part.sameAt, Part.stepped, Part.noticeStep]⟩

theorem Part.changedOnly_takeStep (d : Nat) (p : Part) : p.changedOnly [.stu, .vau, .sbc, .vcl] (p.takeStep d) := by
  rw [Part.takeStep_eq]
  split
  · exact (p.changedOnly_stepped d).trans ((Part.changedOnly_handFrame .time _).mono (by simp))
  · exact p.changedOnly_stepped d

/-- A TIME frame that is handed over stands in the list, new or as the one that it merges with. -/
theorem Part.exists_handTime (hd : p.onDuty = true) (h : p.sbc.list.length < 7 ∨ ∃ e ∈ p.sbc.list, e.content = .time) :
    ∃ e ∈ p.handTime.sbc.list, e.content = .time := by
  by_cases ht : ∃ e ∈ p.sbc.list, e.content = .time
  · obtain ⟨e, he, hc⟩ := ht
    have htakes : p.listTakes .time = true := Part.listTakes_iff.2 (.inl hd)
    have hmerges : merges p.sbc.list .time = true :=
      List.any_eq_true.2 ⟨e, he, decide_eq_true (TxContent.kind_eq_time.2 hc)⟩
    refine ⟨e, Part.mem_offerVehicle_of_mem ?_ (.inr (.inr ?_)), hc⟩
    · rw [Part.enterList_time_merges htakes hmerges]
      exact he
    · rw [TxEntry.code, hc]
      decide
  · have hl := h.resolve_right ht
    push Not at ht
    exact ⟨_, Part.mem_handTime hd hl ht, rfl⟩

theorem Part.exists_time_catchDue (hd : p.onDuty = true) (hl : p.sbc.list.length < 7) :
    p.catchDue.sbc.list.length < 7 ∨ ∃ e ∈ p.catchDue.sbc.list, e.content = .time := by
  by_cases h : p.atDuePoint = true
  · rw [Part.catchDue_at h]
    exact .inr (Part.exists_handTime (p := { p with stu := { p.stu with lastDue := some p.stu.siteTime } }) hd (.inl hl))
  · rw [Part.catchDue_off h]
    exact .inl hl

theorem Part.exists_time_takeStep (hr : p.inRunOrHold = true) (hp : stepPassesDue p.block.number p.now d = true)
    (hl : p.sbc.list.length < 7) : ∃ e ∈ (p.takeStep d).sbc.list, e.content = .time := by
  have hpasses : (p.inRunOrHold && stepPassesDue p.block.number p.now d) = true := by rw [hr, hp]; rfl
  have hduty : p.onDuty = true := by
    simp only [Part.inRunOrHold, Bool.or_eq_true, decide_eq_true_eq] at hr
    exact Part.onDuty_iff.2 (.inr hr)
  have hstill : (p.stepped d).onDuty = true := by
    have hcsu : (p.stepped d).csu = p.csu := (p.changedOnly_stepped d).2.2 .csu (by simp)
    simpa only [Part.onDuty, hcsu] using hduty
  rw [Part.takeStep_eq, if_pos hpasses]
  exact Part.exists_handTime hstill (Part.exists_time_catchDue hduty hl)

/-! ## The step log (R86) -/

theorem mergeNewest_append (t : SiteTime) (older : List StepSpan) (e : StepSpan) :
    mergeNewest t (older ++ [e]) = older ++ [{ e with last := t }] := by
  induction older with
  | nil => rfl
  | cons x older ih =>
    cases older with
    | nil => rfl
    | cons y older => rw [List.cons_append, List.cons_append, mergeNewest, ← List.cons_append, ih]; rfl

/-- The entries of the step log that are not past 8 s (R86). -/
def Part.freshSteps (p : Part) : List StepSpan := p.stu.log.filter fun e => decide (siteDiff p.now e.last ≤ 8000000)

theorem Part.takeStep_log (d : Nat) (p : Part) : (p.takeStep d).stu.log =
    if p.freshSteps.length < 8 then p.freshSteps ++ [{ first := later p.stu.siteTime d, last := later p.stu.siteTime d }]
    else mergeNewest (later p.stu.siteTime d) p.freshSteps := by
  have hfresh : (p.stu.log.filter fun e => !stepOld p.stu.siteTime e) = p.freshSteps :=
    List.filter_congr fun e _ => not_stepOld _ _
  rw [Part.takeStep_stu, ← hfresh]
  rfl

/-! ## The TIME frame (R80 to R82) -/

theorem Part.takeTimeFrame_eq {sender : Nat} {i : Fin 14} (hw : p.working = true) (hs : sender = i.val + 1) (t : SiteTime)
    (c : Capture) : p.takeTimeFrame sender t c =
      if p.csu.station = .join then p.followInJoin i (timeDifference t p.block.lineDelay c p.stu.stepTotal)
      else p.followInRun i (timeDifference t p.block.lineDelay c p.stu.stepTotal) := by
  have hworks : ¬(!p.working) = true := by simp [hw]
  have hrange : 1 ≤ sender ∧ sender ≤ 14 := by omega
  subst hs
  exact (if_neg hworks).trans (dif_pos hrange)

theorem Part.followInRun_behind {i : Fin 14} {d : Int} (h : d ≤ 0) : p.followInRun i d = p := if_pos h

theorem Part.followInRun_small {i : Fin 14} {d : Int} (h : 1 ≤ d) (h' : d ≤ 1000) :
    p.followInRun i d = (p.takeStep d.toNat).setSplit i 0 := by
  rw [Part.followInRun, if_neg (by omega), if_pos (show d ≤ smallStep from h')]

theorem Part.followInRun_large {i : Fin 14} {d : Int} (h : 1000 < d) : p.followInRun i d =
    if p.stu.split[i] = 2 then
      ((p.takeStep d.toNat).modStu fun u => { u with splitSteps := satInc u.splitSteps }).setSplit i 0
    else p.setSplit i (p.stu.split[i] + 1) := by
  rw [Part.followInRun, if_neg (by omega), if_neg (show ¬d ≤ smallStep from Int.not_le.2 h)]

theorem Part.followInJoin_behind {i : Fin 14} {d : Int} (h : d ≤ 0) : p.followInJoin i d = p := if_neg (by omega)

theorem Part.followInJoin_ahead {i : Fin 14} {d : Int} (h : 1 ≤ d) : p.followInJoin i d = (p.takeStep d.toNat).setSplit i 0 :=
  if_pos h

/-- The third large lead of a sender is followed, and counted as a split step (R82). -/
theorem Part.followInRun_third {i : Fin 14} {d : Int} (h : 1000 < d) (hi : p.stu.split[i] = 2) :
    (p.followInRun i d).stu.siteTime = p.stu.siteTime + BitVec.ofNat 48 d.toNat ∧
      (p.followInRun i d).stu.splitSteps = satInc p.stu.splitSteps ∧ (p.followInRun i d).stu.split[i] = 0 := by
  have hstu : (p.followInRun i d).stu = { (p.takeStep d.toNat).stu with
      splitSteps := satInc (p.takeStep d.toNat).stu.splitSteps
      split := (p.takeStep d.toNat).stu.split.set i 0 } := by
    rw [Part.followInRun_large h, if_pos hi, Part.setSplit_stu]
    rfl
  rw [hstu, Part.takeStep_stu]
  refine ⟨rfl, rfl, ?_⟩
  exact Vector.getElem_set_self _

end

/-- Settles O38: following by the size of the difference, the step field by field, the due points passed, the split counters. -/
theorem timeFramesAreFollowed : Obligations.TimeFramesAreFollowed := by
  refine ⟨fun p sender i t c hw hs => ?_, fun p d => ?_, fun number t d hn hd => stepPassesDue_iff hn hd, fun p i n =>
    ⟨p.setSplit_stu i n, Part.setSplit_same, Part.setSplit_marks, p.changedOnly_setSplit i n⟩⟩
  · have hq := Part.takeTimeFrame_eq hw hs t c
    refine ⟨fun hd => ?_, fun hd hj => ?_, fun hd hj hi => ?_, fun hd hj hi => ?_⟩
    · refine hq.trans ?_
      split
      · exact Part.followInJoin_behind hd
      · exact Part.followInRun_behind hd
    · refine hq.trans ?_
      split
      · exact Part.followInJoin_ahead hd
      · next hs => exact Part.followInRun_small hd (hj.resolve_left hs)
    · exact (hq.trans (if_neg hj)).trans ((Part.followInRun_large hd).trans (if_neg hi))
    · have hthird := Part.followInRun_third hd hi
      rw [hq, if_neg hj]
      exact hthird
  · have hstu := p.takeStep_stu d
    have hlog := p.takeStep_log d
    have hdue : isDuePoint p.block.number (later p.stu.siteTime d) = true ↔
        (later p.stu.siteTime d).toNat % 250000 = 16000 * p.block.number := decide_eq_true_iff
    refine ⟨congrArg Stu.siteTime hstu, congrArg Stu.stepTotal hstu, ?_, ?_, ?_, fun hk => ?_, fun older e hk hl => ?_, ?_,
      p.takeStep_vau d, Part.exists_time_takeStep, p.changedOnly_takeStep d⟩
    · rw [hstu]
      rfl
    · rw [hstu]
      rfl
    · rw [hstu]
      rfl
    · exact hlog.trans (if_pos hk)
    · have hlength : ¬p.freshSteps.length < 8 := by
        rw [show p.freshSteps = older ++ [e] from hk, List.length_append, hl]
        simp
      refine (hlog.trans (if_neg hlength)).trans ?_
      rw [show p.freshSteps = older ++ [e] from hk, mergeNewest_append]
      rfl
    · refine (congrArg Stu.lastDue hstu).trans ?_
      simp only [hdue]
      rfl

end Sys2Proof.Machine
end


section
/-! PROOFS. Axles, spacings and the open vehicle (R112 to R120, R126): the tests by the axle's place, the join, and the vehicle that an
axle opens. -/

namespace Sys2Proof.Machine

/-! ## Speeds, spacings and the close time (R113, R114, R119) -/

theorem meanSpeed_eq (l : List (Option Nat)) : meanSpeed l =
    if l.filterMap id = [] then none else some ((l.filterMap id).sum / (l.filterMap id).length) := by
  unfold meanSpeed
  cases l.filterMap id <;> rfl

theorem vehicleSpeed_eq (l : List Axle) : vehicleSpeed l =
    if l.filterMap Axle.speed = [] then none else some ((l.filterMap Axle.speed).sum / (l.filterMap Axle.speed).length) := by
  have hspeeds : (l.map Axle.speed).filterMap id = l.filterMap Axle.speed := by rw [List.filterMap_map]; rfl
  rw [vehicleSpeed, meanSpeed_eq, hspeeds]

section
variable {x y : Axle}

theorem spacingOf_both {u v : Nat} (hx : x.speed = some u) (hy : y.speed = some v) (l : List Axle) :
    spacingOf l x y = .known (spacingAt ((u + v) / 2) x.leadTime y.leadTime) := by
  simp only [spacingOf, hx, hy]

theorem spacingOf_one (h : x.speed = none ∨ y.speed = none) (l : List Axle) : spacingOf l x y =
    match vehicleSpeed l with
    | some v => .known (spacingAt v x.leadTime y.leadTime)
    | none => .pending := by
  unfold spacingOf
  rcases h with h | h <;> rw [h] <;> cases x.speed <;> rfl

theorem closeTimeOf_append (asm : AssemblyBlock) (l : List Axle) (y : Axle) : closeTimeOf asm (l ++ [y]) =
    match y.speed.or (vehicleSpeed (l ++ [y])) with
    | some v => later y.leadTime (min (asm.tmax * 1000) (asm.smax * 1000000 / v) + asm.lp * 1000)
    | none => later y.leadTime ((asm.tmax + asm.lp) * 1000) := by
  simp only [closeTimeOf, List.getLast?_concat]
  cases y.speed <;> cases vehicleSpeed (l ++ [y]) <;> rfl

end

/-! ## The place of an axle and the three tests (R115) -/

section
variable {a : Axle} {before after : List Axle}

theorem axlesBefore_append (hb : ∀ x ∈ before, siteDiff x.leadTime a.leadTime ≤ 0)
    (ha : ∀ y, after.head? = some y → 0 < siteDiff y.leadTime a.leadTime) : axlesBefore a (before ++ after) = before := by
  have hbefore : ∀ x ∈ before, decide (siteDiff x.leadTime a.leadTime ≤ 0) = true := fun x hx => decide_eq_true (hb x hx)
  rw [axlesBefore, List.takeWhile_append_of_pos hbefore]
  cases after with
  | nil => simp
  | cons y after =>
    have hy : ¬siteDiff y.leadTime a.leadTime ≤ 0 := Int.not_le.2 (ha y rfl)
    simp [hy]

theorem axlesAfter_append (hb : ∀ x ∈ before, siteDiff x.leadTime a.leadTime ≤ 0)
    (ha : ∀ y, after.head? = some y → 0 < siteDiff y.leadTime a.leadTime) : axlesAfter a (before ++ after) = after := by
  have hbefore : ∀ x ∈ before, decide (siteDiff x.leadTime a.leadTime ≤ 0) = true := fun x hx => decide_eq_true (hb x hx)
  rw [axlesAfter, List.dropWhile_append_of_pos hbefore]
  cases after with
  | nil => rfl
  | cons y after =>
    have hy : ¬siteDiff y.leadTime a.leadTime ≤ 0 := Int.not_le.2 (ha y rfl)
    simp [hy]

end

/-- The place of an axle in a list: the axles before it and those after it (R115). -/
structure PlacedIn (a : Axle) (l before after : List Axle) : Prop where
  before : axlesBefore a l = before
  after : axlesAfter a l = after

section
variable {asm : AssemblyBlock} {a : Axle} {l before after : List Axle}

theorem PlacedIn.timeTest_iff (h : PlacedIn a l before after) : timeTest asm a l = true ↔
    (after = [] → ∀ x, before.getLast? = some x → siteDiff a.leadTime x.leadTime ≤ (asm.tmax * 1000 : Nat)) ∧
      (before = [] → ∀ y, after.head? = some y → siteDiff y.leadTime a.leadTime ≤ (asm.tmax * 1000 : Nat)) := by
  have hlimit : ((asm.tmax * 1000 : Nat) : Int) = (asm.tmax : Int) * 1000 := by push_cast; rfl
  rw [hlimit]
  unfold timeTest
  rw [h.before, h.after]
  cases after with
  | nil =>
    rcases hx : before.getLast? with _ | x
    · simp
    · simp
  | cons y after =>
    rcases hx : before.getLast? with _ | x
    · have hnil : before = [] := List.getLast?_eq_none_iff.1 hx
      simp [hnil]
    · have hne : before ≠ [] := fun hn => by simp [hn] at hx
      simp [hne]

theorem spacingFits_iff {smax : Nat} {s : Spacing} : spacingFits smax s = true ↔ ∀ mm, s = .known mm → mm ≤ smax := by
  cases s <;> simp [spacingFits]

theorem PlacedIn.spacingTest_iff (h : PlacedIn a l before after) : spacingTest asm a l = true ↔
    (∀ x mm, before.getLast? = some x → spacingOf (before ++ a :: after) x a = .known mm → mm ≤ asm.smax) ∧
      (∀ y mm, after.head? = some y → spacingOf (before ++ a :: after) a y = .known mm → mm ≤ asm.smax) := by
  unfold spacingTest
  rw [h.before, h.after, Bool.and_eq_true]
  refine and_congr ?_ ?_
  · rcases before.getLast? with _ | x
    · simp
    · exact spacingFits_iff.trans ⟨fun h y mm hy => Option.some.inj hy ▸ h mm, fun h mm => h x mm rfl⟩
  · rcases after.head? with _ | y
    · simp
    · exact spacingFits_iff.trans ⟨fun h x mm hx => Option.some.inj hx ▸ h mm, fun h mm => h y mm rfl⟩

theorem kindTest_iff : kindTest a l = true ↔ (a.kind = .straddleLeft → ∀ x ∈ l, x.kind ≠ .straddleRight) ∧
    (a.kind = .straddleRight → ∀ x ∈ l, x.kind ≠ .straddleLeft) := by
  unfold kindTest
  cases a.kind <;> simp

theorem PlacedIn.insertAxle_eq (h : PlacedIn a l before after) : insertAxle a l =
    before ++ { a with spacing := match before.getLast? with | some x => spacingOf (before ++ a :: after) x a | none => .absent } ::
      match after with
      | [] => []
      | y :: rest => { y with spacing := spacingOf (before ++ a :: after) a y } :: rest := by
  unfold insertAxle
  rw [h.before, h.after]
  cases after <;> rfl

theorem joins_iff : joins asm a l = true ↔ timeTest asm a l = true ∧ spacingTest asm a l = true ∧ kindTest a l = true := by
  rw [joins, Bool.and_eq_true, Bool.and_eq_true, and_assoc]

end

/-! ## The open vehicle (R112, R116 to R120, R126) -/

section
variable {p : Part} {v : Vehicle}

theorem Part.reportGross_eq (h : p.vau.vehicle = some v) : p.reportGross = p.grossReport (vehicleTiming v.tag v.axles) v.runningGross := by
  simp only [Part.reportGross, h]

/-- The vehicle that an axle opens (R117). -/
def Part.newVehicle (p : Part) (continuation : Bool) (a : Axle) : Vehicle :=
  { axles := [a], closeTime := closeTimeOf p.image.assembly [a], closeMark := none, tag := p.vau.tagCounter
    flags := { noVehicleFlags with continuation := continuation, peerBlind := a.blind }, runningGross := a.load }

/-- The part whose open vehicle an axle has opened, before its reports. -/
def Part.opened (p : Part) (continuation : Bool) (a : Axle) : Part :=
  { p with vau := { p.vau with
    vehicle := some (p.newVehicle continuation a), tagCounter := p.vau.tagCounter + 1, runStart := some a.leadTime } }

theorem Part.openVehicle_eq (continuation : Bool) (a : Axle) (p : Part) : p.openVehicle continuation a =
    ((p.opened continuation a).frontReport (vehicleTiming p.vau.tagCounter [a])).grossReport (vehicleTiming p.vau.tagCounter [a])
      a.load := by
  obtain ⟨⟨f, -, hvau⟩, -⟩ := Part.OwnReportFrame.frontReport (vehicleTiming p.vau.tagCounter [a]) (p.opened continuation a)
    (p.newVehicle continuation a) rfl rfl
  have hopen : ((p.opened continuation a).frontReport (vehicleTiming p.vau.tagCounter [a])).vau.vehicle =
      some { p.newVehicle continuation a with flags := f } := by rw [hvau]
  have hunfold : p.openVehicle continuation a =
      ((p.opened continuation a).frontReport (vehicleTiming p.vau.tagCounter [a])).reportGross := rfl
  rw [hunfold, Part.reportGross_eq hopen]
  rfl

theorem Part.closeIfDue_none (h : p.vau.vehicle = none) : p.closeIfDue = p := by simp only [Part.closeIfDue, h]

theorem Part.closeReached_iff {now : SiteTime} : closeReached now v = true ↔ 0 ≤ siteDiff now v.closeTime := decide_eq_true_iff

theorem Part.closeIfDue_due (h : p.vau.vehicle = some v) (hd : v.closeMark.isSome = true ∨ 0 ≤ siteDiff p.now v.closeTime) :
    p.closeIfDue = p.closeVehicle .timer := by
  have hdue : (v.closeMark.isSome || closeReached p.now v) = true := by rwa [Bool.or_eq_true, Part.closeReached_iff]
  simp only [Part.closeIfDue, h, hdue, if_true]

theorem Part.closeIfDue_open (h : p.vau.vehicle = some v) (hm : v.closeMark = none) (hc : siteDiff p.now v.closeTime < 0) :
    p.closeIfDue = p := by
  have hdue : (v.closeMark.isSome || closeReached p.now v) = false := by
    rw [hm, Option.isSome_none, Bool.false_or, Bool.eq_false_iff, ne_eq, Part.closeReached_iff]
    exact Int.not_le.2 hc
  simp only [Part.closeIfDue, h, hdue, Bool.false_eq_true, if_false]

theorem Part.handAxle_none {a : Axle} (h : p.closeIfDue.vau.vehicle = none) : p.handAxle a = p.closeIfDue.openVehicle false a := by
  simp only [Part.handAxle, h]

theorem Part.handAxle_open {a : Axle} (h : p.vau.vehicle = some v) (hm : v.closeMark = none) (hc : siteDiff p.now v.closeTime < 0) :
    p.handAxle a = if joins p.image.assembly a v.axles then
        if v.axles.length < 12 then p.joinAxle a v else (p.closeVehicle .axleLimit).openVehicle true a
      else (p.closeVehicle .breakTest).openVehicle false a := by
  simp only [Part.handAxle, Part.closeIfDue_open h hm hc, h]

end

section
variable {p : Part} {a : Axle} {v : Vehicle}

/-- The vehicle with an axle joined, its axle list given (R116). -/
def Vehicle.joined (asm : AssemblyBlock) (a : Axle) (v : Vehicle) (axles : List Axle) : Vehicle :=
  { v with
    axles := axles, closeTime := closeTimeOf asm axles, runningGross := v.runningGross + a.load
    flags := { v.flags with
      laneChange := v.flags.laneChange || (axles.any (fun x => decide (x.kind = .inLane)) &&
        axles.any fun x => decide (x.kind = .straddleLeft ∨ x.kind = .straddleRight))
      peerBlind := v.flags.peerBlind || a.blind } }

theorem straddles_eq (k : AxleKind) : k.straddles = decide (k = .straddleLeft ∨ k = .straddleRight) := by
  cases k <;> rfl

theorem joinVehicle_eq (asm : AssemblyBlock) (a : Axle) (v : Vehicle) :
    joinVehicle asm a v = v.joined asm a (insertAxle a v.axles) := by
  simp only [joinVehicle, Vehicle.joined, straddles_eq]

/-- The part with a vehicle open, its run starting at the vehicle's first axle. -/
def Part.withOpen (p : Part) (w : Vehicle) : Part :=
  { p with vau := { p.vau with vehicle := some w, runStart := w.axles.head?.map Axle.leadTime } }

theorem Part.joinAxle_eq {axles : List Axle} (h : insertAxle a v.axles = axles) : p.joinAxle a v =
    (p.withOpen (v.joined p.image.assembly a axles)).grossReport (vehicleTiming v.tag axles) (v.runningGross + a.load) := by
  have hopen : (p.withOpen (v.joined p.image.assembly a axles)).vau.vehicle = some (v.joined p.image.assembly a axles) := rfl
  have hreport : p.joinAxle a v = (p.withOpen (joinVehicle p.image.assembly a v)).reportGross := rfl
  rw [hreport, joinVehicle_eq, h, Part.reportGross_eq hopen]
  rfl

theorem Part.handAxle_due (hv : p.vau.vehicle = some v) (hd : v.closeMark.isSome = true ∨ 0 ≤ siteDiff p.now v.closeTime) :
    p.handAxle a = (p.closeVehicle .timer).openVehicle false a := by
  have hclosed := Part.closeIfDue_due hv hd
  rw [Part.handAxle_none (by rw [hclosed]; exact Part.closeVehicle_vehicle _ _), hclosed]

end

/-- Settles O56: the place of the axle decides the tests, and the tests decide between the join and a new vehicle. -/
theorem axleJoinsOrOpensAVehicle : Obligations.AxleJoinsOrOpensAVehicle := by
  unfold Obligations.AxleJoinsOrOpensAVehicle
  intro timing
  refine ⟨fun p a continuation => Part.openVehicle_eq continuation a p, fun p a => ⟨fun hv => ?_, fun v before after hv hl hb ha => ?_⟩,
    fun asm l x y => ⟨fun hs => ?_, fun hs => ?_, fun u v hu hv => spacingOf_both hu hv l, fun h => ⟨fun v hv => ?_, fun hv => ?_⟩,
      fun v hv => ?_, fun hv => ?_⟩⟩
  · have hnone := Part.closeIfDue_none hv
    rw [Part.handAxle_none (by rw [hnone]; exact hv), hnone]
  · intro all inTime inSpace ofKind placed behind axles straddles joined
    have hplace : PlacedIn a v.axles before after := hl ▸ ⟨axlesBefore_append hb ha, axlesAfter_append hb ha⟩
    have hinsert : insertAxle a v.axles = axles := hplace.insertAxle_eq.trans (by cases after <;> rfl)
    have hjoins : joins p.image.assembly a v.axles = true ↔ inTime ∧ inSpace ∧ ofKind := by
      rw [joins_iff, hplace.timeTest_iff, hplace.spacingTest_iff, kindTest_iff]
    refine ⟨Part.handAxle_due hv, fun hm hc => ⟨fun ht hs hk hlen => ?_, fun ht hs hk hlen => ?_, fun hfail => ?_⟩⟩
    · rw [Part.handAxle_open hv hm hc, if_pos (hjoins.2 ⟨ht, hs, hk⟩), if_pos hlen, Part.joinAxle_eq hinsert]
      rfl
    · rw [Part.handAxle_open hv hm hc, if_pos (hjoins.2 ⟨ht, hs, hk⟩), if_neg (by omega)]
    · rw [Part.handAxle_open hv hm hc, if_neg (mt hjoins.1 hfail)]
  · rw [vehicleSpeed_eq, if_pos hs]
  · rw [vehicleSpeed_eq, if_neg hs]
  · rw [spacingOf_one h, hv]
    rfl
  · rw [spacingOf_one h, hv]
  · have hspeed : y.speed.or (vehicleSpeed (l ++ [y])) = some v := by
      obtain hy | ⟨hy, hall⟩ := hv
      · rw [hy, Option.some_or]
      · rw [hy, Option.none_or, hall]
    rw [closeTimeOf_append, hspeed]
    rfl
  · have hnone : y.speed = none := by
      rcases hy : y.speed with _ | u
      · rfl
      · rw [vehicleSpeed_eq] at hv
        simp [hy] at hv
    rw [closeTimeOf_append, hnone, hv]
    rfl

end Sys2Proof.Machine
end


section
/-! PROOFS. CONFIG_BLOCK_READ (R176 to R178): the block taken by its first fault, and the two ends of a load. -/

namespace Sys2Proof.Machine

/-! ## A STATUS request leaves the VCL in UNCONFIGURED (R59, R64) -/

section
variable {p : Part}

/-- What a STATUS frame displaces is a TOTALS frame, and no VEHICLE record is handed back (R64). -/
theorem Part.placeEntry_status_vcl (t : SiteTime) (p : Part) : (p.placeEntry (newEntry .status t)).vcl = p.vcl := by
  rcases Nat.lt_or_ge p.sbc.list.length 8 with hl | hl
  · rw [Part.placeEntry_room hl, Part.modSbc_vcl]
  rcases Nat.lt_or_ge (newEntry .status t).code (leastUrgent p.sbc.list) with hc | hc
  · obtain ⟨before, after, out, -, -, hcode, -, hq⟩ := Part.placeEntry_displaces hl hc
    have hout : out.content.kind ≠ .vehicle := fun hv => by
      have hfour : out.code = 4 := congrArg FrameKind.code hv
      have hsix : 6 < leastUrgent p.sbc.list := hc
      omega
    rw [hq, Part.leftUnsent_of_not_vehicle hout, Part.countDrop, Part.modSbc_vcl, Part.modSbc_vcl]
  · have hkind : (newEntry .status t).content.kind ≠ .wheel := FrameKind.noConfusion
    have hvehicle : (newEntry .status t).content.kind ≠ .vehicle := FrameKind.noConfusion
    rw [Part.placeEntry_refused hl hc, if_neg hkind, Part.leftUnsent_of_not_vehicle hvehicle, Part.countDrop, Part.modSbc_vcl]

theorem Part.enterList_status_vcl (t : SiteTime) (p : Part) : (p.enterList .status t).vcl = p.vcl := by
  rcases ht : p.listTakes TxContent.status.kind with _ | _
  · rw [Part.enterList_not_taken ht]
  rcases hm : merges p.sbc.list .status with _ | _
  · rw [Part.enterList_place ht hm, Part.placeEntry_status_vcl]
  · rw [Part.enterList_request_merges (.inl rfl) ht hm, Part.modSbc_vcl]

theorem Part.requestStatus_vcl (h : p.onDuty = false) : p.requestStatus.vcl = p.vcl := by
  have hstation : (p.enterList .status p.now).onDuty = false := by
    rw [← h]
    exact congrArg (fun c : Csu => c.station = .join || c.station = .run || c.station = .hold) (Part.enterList_csu ..)
  have hnone : ¬(p.enterList .status p.now).Invites := fun hi => Bool.noConfusion (hi.1.symm.trans hstation)
  rw [Part.requestStatus, Part.handFrame, Part.offerVehicle_uninvited hnone, Part.enterList_status_vcl]

theorem Part.setMark_vcl (h : p.onDuty = false) (m : ChangeMark) : (p.setMark m).vcl = p.vcl := by
  unfold Part.setMark Part.markNewlySet
  split
  · rfl
  split
  · rfl
  split
  · exact Part.requestStatus_vcl h
  · split
    · exact Part.requestStatus_vcl h
    · rfl

theorem Part.changedOnly_setMark_offDuty (h : p.onDuty = false) (m : ChangeMark) : p.changedOnly [.csu, .sbc] (p.setMark m) := by
  obtain ⟨hrst, hclock, hsame⟩ := p.changedOnly_setMark m
  refine ⟨hrst, hclock, fun k hk => ?_⟩
  by_cases hv : k = .vcl
  · exact hv ▸ Part.setMark_vcl h m
  · exact hsame k (by simp_all)

end

/-! ## The block taken (R177) -/

section
variable {s : State} {p : Part} {l : Load} {r : BlockRead}

theorem exec_configBlockRead (h : s.reads l) (bytes : List Byte) :
    exec (.configBlockRead bytes) s = .next { s with part := s.part.takeBlock l (readBlock bytes) } := by
  have hact : exec (.configBlockRead bytes) s = act (fun p =>
    match p.csu.load with
    | some l => if p.csu.station = .loading then p.takeBlock l (readBlock bytes) else p
    | none => p) s := rfl
  rw [hact, act_running _ h.running]
  simp only [h.load, h.station, if_true]

theorem Part.takeBlock_of_fault {code : FaultCode} {offset : Option Nat} (h : blockFault l r = some (code, offset)) :
    p.takeBlock l r = p.refuseImage l code offset := by
  unfold blockFault at h
  unfold Part.takeBlock
  split at h
  · next hread =>
    obtain ⟨rfl, rfl⟩ := Prod.mk.inj (Option.some.inj h)
    rw [if_pos hread]
  · next hread =>
    rw [if_neg hread]
    rcases hk : blockKindOf r.kindByte with _ | kind <;> rw [hk] at h
    · obtain ⟨rfl, rfl⟩ := Prod.mk.inj (Option.some.inj h)
      rfl
    · have hfault : knownBlockFault l kind r = some (code, offset) := h
      simp only [hfault]

theorem known_of_pass (h : blockFault l r = none) : ∃ kind, blockKindOf r.kindByte = some kind ∧ knownBlockFault l kind r = none := by
  unfold blockFault at h
  split at h
  · exact nomatch h
  · split at h
    · exact nomatch h
    · next kind hkind => exact ⟨kind, hkind, h⟩

theorem knownBlockFault_of_pass {kind : BlockKind} (hk : blockKindOf r.kindByte = some kind) (h : blockFault l r = none) :
    knownBlockFault l kind r = none := by
  obtain ⟨kind', hk', hpass⟩ := known_of_pass h
  exact Option.some.inj (hk'.symm.trans hk) ▸ hpass

theorem Part.takeBlock_of_pass {kind : BlockKind} (hk : blockKindOf r.kindByte = some kind) (h : blockFault l r = none) :
    p.takeBlock l r = if kind = .ending then p.acceptImage l else p.modCsu fun c => { c with load := some (holdAside l kind r) } := by
  have hread : r.kindByte ≠ 0xFF := fun hr => by rw [hr] at hk; exact nomatch hk
  simp only [Part.takeBlock, if_neg hread, hk, knownBlockFault_of_pass hk h]

end

/-! ## The image refused (R178) -/

section
variable {p : Part} {l : Load} {code : FaultCode} {offset : Option Nat}

/-- The part that stands in MUTE or UNCONFIGURED, before its mark. -/
def Part.refused (l : Load) (code : FaultCode) (offset : Option Nat) (p : Part) : Part :=
  let fault : LoadFault := { index := l.index, code := code, offset := offset }
  if l.index = 0 then
    p.modCsu fun c => { c with station := .mute, block := none, loadFault := some fault, load := none }
  else
    (p.modCsu fun c =>
      { c with station := .unconfigured, block := l.station, loadFault := some fault, load := none,
               periodicSince := some p.clock }).startBus

theorem Part.refuseImage_eq (l : Load) (code : FaultCode) (offset : Option Nat) (p : Part) :
    p.refuseImage l code offset = (p.refused l code offset).setMark .state := by
  unfold Part.refuseImage Part.refused
  split <;> rfl

theorem Part.refused_csu : (p.refused l code offset).csu = { p.csu with
    station := if l.index = 0 then .mute else .unconfigured, block := if l.index = 0 then none else l.station
    loadFault := some { index := l.index, code := code, offset := offset }, load := none
    periodicSince := if l.index = 0 then p.csu.periodicSince else some p.clock } := by
  unfold Part.refused
  split <;> rfl

theorem Part.refused_line : (p.refused l code offset).sbc.line = if l.index = 0 then p.sbc.line else .quiet p.clock := by
  unfold Part.refused
  split <;> rfl

theorem Part.refused_offDuty : (p.refused l code offset).onDuty = false := by
  rw [Part.onDuty, Part.refused_csu]
  by_cases hi : l.index = 0 <;> simp [hi]

theorem Part.changedOnly_refuseImage : p.changedOnly [.csu, .sbc] (p.refuseImage l code offset) := by
  rw [Part.refuseImage_eq]
  refine Part.changedOnly.trans (b := p.refused l code offset) ?_ (Part.changedOnly_setMark_offDuty Part.refused_offDuty _)
  unfold Part.refused
  split
  · exact (Part.changedOnly_modCsu _ p).mono (by simp)
  · exact ((Part.changedOnly_modCsu _ p).mono (by simp)).trans ((Part.changedOnly_modSbc _ _).mono (by simp))

theorem Part.attn_mute (hr : p.rstLow = false) (h : p.csu.station = .mute) : p.attn = true := by
  simp [Part.attn, hr, h]

end

/-- Settles O10: the refusal as one record update of the CSU, and the STATE mark set. -/
theorem faultyBlockRefusesTheImage : Obligations.FaultyBlockRefusesTheImage := by
  intro s l bytes code offset hs hfault
  have hframe := Part.changedOnly_refuseImage (p := s.part) (l := l) (code := code) (offset := offset)
  refine ⟨s.part.refuseImage l code offset, by rw [exec_configBlockRead hs, Part.takeBlock_of_fault hfault], ?_⟩
  have hstation : (s.part.refuseImage l code offset).csu.station = if l.index = 0 then .mute else .unconfigured := by
    rw [Part.refuseImage_eq, Part.setMark_station, Part.refused_csu]
  have hattn : l.index = 0 → (s.part.refuseImage l code offset).attn = true := fun hi =>
    Part.attn_mute (hframe.1.trans hs.running) (by rw [hstation, if_pos hi])
  rw [Part.refuseImage_eq] at hstation hattn hframe ⊢
  refine ⟨hstation, ?_, ?_, ?_, ?_, ?_, hattn, ?_, ?_, ?_, ?_, hframe⟩
  · rw [Part.setMark_block, Part.refused_csu]
  · rw [Part.setMark_image, Part.refused_csu]
  · rw [Part.setMark_loadFault, Part.refused_csu]
  · rw [Part.cfgSelected, Part.setMark_load, Part.refused_csu]
    rfl
  · rw [Part.setMark_marks, addMark]
  · rw [Part.setMark_pinActive, Part.refused_csu]
  · rw [Part.setMark_commandHold, Part.refused_csu]
  · rw [Part.setMark_lastResult, Part.refused_csu]
  · rw [Part.setMark_line, Part.refused_line]

/-! ## The image accepted (R178, R180) -/

section
variable {p : Part} {l : Load}

/-- The part with all blocks applied, before the temperature work begins. -/
def Part.applied (l : Load) (p : Part) : Part :=
  (p.modCsu fun c =>
    { c with station := .join, block := l.station, image := some (imageOf l), loadFault := none, load := none,
             periodicSince := some p.clock }).startBus.startSampling.openJoinWindow.restOutputs

theorem Part.acceptImage_eq (l : Load) (p : Part) : p.acceptImage l = (p.applied l).beginTemperature.setMark .state := rfl

theorem Part.applied_csu : (p.applied l).csu = { p.csu with
    station := .join, block := l.station, image := some (imageOf l), loadFault := none, load := none
    periodicSince := some p.clock } := rfl

theorem Part.changedOnly_beginTemperature (p : Part) : p.changedOnly [.ptu] p.beginTemperature :=
  ((Part.changedOnly_modPtu _ p).trans (Part.changedOnly_modPtu _ _)).trans (Part.changedOnly_modPtu _ _)

theorem Part.beginTemperature_tempTimer (pr : Probe) (p : Part) :
    (p.beginTemperature.ptu.probes.get pr).tempTimer = if (p.image.probes.probe.get pr).enable then some p.clock else none := by
  cases pr <;> rfl

theorem Part.changedOnly_acceptImage : p.changedOnly [.csu, .lcu, .ptu, .sbc, .stu, .tou, .vcl] (p.acceptImage l) := by
  have happlied : p.changedOnly [.csu, .lcu, .ptu, .sbc, .stu, .tou, .vcl] (p.applied l) :=
    ⟨rfl, rfl, fun k hk => by cases k <;> simp_all [Part.sameAt] <;> rfl⟩
  rw [Part.acceptImage_eq]
  exact (happlied.trans ((Part.changedOnly_beginTemperature _).mono (by simp))).trans ((Part.changedOnly_setMark _ _).mono (by simp))

theorem Part.sampleDue_of_first (hs : p.csu.station = .join) (hl : p.lcu.lastSample = none) : p.sampleDue = true := by
  simp only [Part.sampleDue, Part.working, hs, hl, Bool.and_self]

/-- The blocks that an image must hold are those read (R177, R178). -/
theorem imageOf_of_pass {r : BlockRead} (hk : blockKindOf r.kindByte = some .ending) (h : blockFault l r = none) :
    l.strips = some (imageOf l).strips ∧ l.assembly = some (imageOf l).assembly := by
  obtain ⟨-, -, -, hheld⟩ := pass_of_fault_none (knownBlockFault_of_pass hk h)
  obtain ⟨hstrips, hassembly⟩ := hheld rfl
  obtain ⟨strips, hs⟩ := Option.isSome_iff_exists.1 hstrips
  obtain ⟨assembly, ha⟩ := Option.isSome_iff_exists.1 hassembly
  simp [imageOf, hs, ha]

end

/-- Settles O9: the accepted image as one update, the temperature work and the STATE mark after it. -/
theorem endBlockAcceptsTheImage : Obligations.EndBlockAcceptsTheImage := by
  intro s l bytes hs hk hpass
  have htake : s.part.takeBlock l (readBlock bytes) = s.part.acceptImage l := by rw [Part.takeBlock_of_pass hk hpass, if_pos rfl]
  obtain ⟨hstrips, hassembly⟩ := imageOf_of_pass hk hpass
  refine ⟨s.part.acceptImage l, by rw [exec_configBlockRead hs, htake], ?_⟩
  have hframe := Part.changedOnly_acceptImage (p := s.part) (l := l)
  rw [Part.acceptImage_eq] at hframe ⊢
  have hcsu : (s.part.applied l).beginTemperature.csu = _ := (Part.beginTemperature_csu _).trans Part.applied_csu
  refine ⟨?_, ?_, ?_, ?_, ?_, ?_, ?_, ?_, ?_, ?_, fun pr => ?_, fun o => ?_, ⟨hstrips, hassembly, rfl, rfl, rfl, rfl⟩, ?_, ?_, ?_, hframe⟩
  · rw [Part.setMark_station, hcsu]
  · rw [Part.setMark_block, hcsu]
  · rw [Part.setMark_image, hcsu]
  · rw [Part.setMark_loadFault, hcsu]
  · rw [Part.cfgSelected, Part.setMark_load, hcsu]
    rfl
  · rw [Part.setMark_marks, addMark]
  · rw [Part.setMark_periodicSince, hcsu]
  · rw [Part.setMark_stu]
    rfl
  · rw [Part.setMark_ptu]
    rfl
  · rw [Part.setMark_ptu]
    rfl
  · rw [Part.setMark_ptu, Part.beginTemperature_tempTimer]
    rfl
  · rw [Part.setMark_tou]
    cases o <;> rfl
  · rw [Part.setMark_line]
    rfl
  · rw [Part.setMark_lcu]
    rfl
  · exact Part.sampleDue_of_first (by rw [Part.setMark_station, hcsu]) (by rw [Part.setMark_lcu]; rfl)

end Sys2Proof.Machine
end


section
/-! PROOFS. The bytes of a block and its conditions in their order (R176, R177). -/

namespace Sys2Proof.Machine

/-! ## The bytes of a block (R176) -/

section
variable {front mid back : List Byte}

/-- The bytes of the memory that lie between two given runs. -/
theorem memoryBytes_append {offset n : Nat} (ho : front.length = offset) (hn : mid.length = n) :
    memoryBytes (front ++ (mid ++ back)) offset n = mid := by
  subst ho hn
  refine List.ext_getElem (by simp [memoryBytes]) fun i hi hmid => ?_
  simp [memoryBytes, List.getElem?_append, hmid]

end

theorem readBlock_of_bytes (kind position s0 s1 : Byte) (payload : List Byte) (h : payload.length < 256) :
    readBlock ((kind :: position :: BitVec.ofNat 8 payload.length :: payload) ++ [s0, s1]) =
      { kindByte := kind.toNat, position := position.toNat, length := payload.length, payload := payload
        sum := ((kind :: position :: BitVec.ofNat 8 payload.length :: payload).map BitVec.toNat).sum % 65536
        stored := s0.toNat + 256 * s1.toNat } := by
  let head : List Byte := [kind, position, BitVec.ofNat 8 payload.length]
  have hlength : byteAt head 2 = payload.length := by
    have hbyte : byteAt head 2 = (BitVec.ofNat 8 payload.length).toNat := rfl
    rw [hbyte, BitVec.toNat_ofNat, Nat.mod_eq_of_lt h]
  have hhead : memoryBytes (head ++ (payload ++ [s0, s1])) 0 3 = head :=
    memoryBytes_append (front := []) (mid := head) (back := payload ++ [s0, s1]) rfl rfl
  have hpayload : memoryBytes (head ++ (payload ++ [s0, s1])) 3 payload.length = payload := memoryBytes_append rfl rfl
  have hstored : memoryBytes (head ++ (payload ++ [s0, s1])) (3 + payload.length) 2 = [s0, s1] := by
    have hmem := memoryBytes_append (front := head ++ payload) (mid := [s0, s1]) (back := []) (offset := 3 + payload.length) (n := 2)
      (List.length_append ..) rfl
    rwa [List.append_nil, List.append_assoc] at hmem
  have hread : readBlock (head ++ (payload ++ [s0, s1])) =
      { kindByte := byteAt head 0, position := byteAt head 1, length := payload.length, payload := payload
        sum := blockSum (head ++ payload), stored := leValue [s0, s1] } := by
    simp only [readBlock, hhead, hlength, hpayload, hstored]
  exact hread

/-! ## The kind of a block (section 12.4) -/

section
variable {l : Load} {r : BlockRead} {kind : BlockKind}

theorem blockKindOf_unknown {n : Nat} (h : n = 0 ∨ 8 < n) : blockKindOf n = none := by
  unfold blockKindOf
  split
  case h_9 => rfl
  all_goals omega

theorem blockKindOf_of_mem {n : Nat} (h : (n, kind) ∈ [(1, BlockKind.station), (2, .strips), (3, .assembly), (4, .probes), (5, .factors),
    (6, .classes), (7, .triggers), (8, .ending)]) : n ≠ 255 ∧ blockKindOf n = some kind := by
  simp only [List.mem_cons, Prod.mk.injEq, List.not_mem_nil, or_false] at h
  rcases h with ⟨rfl, rfl⟩ | ⟨rfl, rfl⟩ | ⟨rfl, rfl⟩ | ⟨rfl, rfl⟩ | ⟨rfl, rfl⟩ | ⟨rfl, rfl⟩ | ⟨rfl, rfl⟩ | ⟨rfl, rfl⟩ <;>
    exact ⟨by decide, rfl⟩

theorem blockFault_read (h : r.kindByte = 255) : blockFault l r = some (.read, none) := if_pos h

theorem blockFault_unknown (h : r.kindByte ≠ 255) (hk : blockKindOf r.kindByte = none) : blockFault l r = some (.range, none) := by
  rw [blockFault, if_neg h, hk]

theorem blockFault_known (h : r.kindByte ≠ 255) (hk : blockKindOf r.kindByte = some kind) :
    blockFault l r = knownBlockFault l kind r := by
  rw [blockFault, if_neg h, hk]

/-! ## The conditions (R177) -/

theorem sizeFault_iff : sizeFault l kind r = true ↔
    4096 < l.offset + r.length + 5 ∨ 240 < r.length ∨
      kind ≠ .classes ∧ (kind, r.length) ∉ [(BlockKind.station, 9), (.strips, 30), (.assembly, 26), (.probes, 13), (.factors, 74),
        (.triggers, 39), (.ending, 0)] ∨
      kind = .classes ∧ (classRules r.payload = none ∨ (classRules r.payload).getD [] = [] ∨
        32 < l.rules.length + ((classRules r.payload).getD []).length) := by
  rw [sizeFault, Bool.or_eq_true, Bool.or_eq_true, decide_eq_true_iff, decide_eq_true_iff, or_assoc]
  refine or_congr_right (or_congr_right ?_)
  cases kind with
  | classes => rcases classRules r.payload with _ | rules <;> simp [BlockKind.payloadLength]
  | _ => simp [BlockKind.payloadLength]

theorem keysIncrease_iff (l : List FactorPoint) : keysIncrease l = true ↔ l.Pairwise fun a b => a.key < b.key := by
  refine ⟨keysIncrease_pairwise, fun h => ?_⟩
  induction l with
  | nil => rfl
  | cons a l ih =>
    obtain ⟨hfirst, hrest⟩ := List.pairwise_cons.1 h
    cases l with
    | nil => rfl
    | cons b l => exact Bool.and_eq_true_iff.2 ⟨decide_eq_true (hfirst b List.mem_cons_self), ih hrest⟩

theorem ruleOrdered_iff (c : ClassRule) : ruleOrdered c = false ↔ c.axleMax < c.axleMin ∨
    (∃ gaps, c.gaps = some gaps ∧ ∃ g ∈ gaps, g.2 < g.1) ∨ ∃ g, c.grossRange = some g ∧ g.2 < g.1 := by
  rw [ruleOrdered, Bool.and_eq_false_iff, Bool.and_eq_false_iff, or_assoc]
  refine or_congr (by simp) (or_congr ?_ ?_)
  · cases c.gaps <;> simp
  · cases c.grossRange <;> simp

theorem orderFault_iff : orderFault l kind r.payload = true ↔
    l.index = 0 ∧ kind ≠ .station ∨
      kind = .factors ∧ ¬((temperaturePoints r.payload).Pairwise (fun a b => a.key < b.key) ∧
        (speedPoints r.payload).Pairwise fun a b => a.key < b.key) ∨
      kind = .classes ∧ ∃ x ∈ (classRules r.payload).getD [], x.rule.axleMax < x.rule.axleMin ∨
        (∃ gaps, x.rule.gaps = some gaps ∧ ∃ g ∈ gaps, g.2 < g.1) ∨ ∃ g, x.rule.grossRange = some g ∧ g.2 < g.1 := by
  have hfactors : (!(keysIncrease (temperaturePoints r.payload) && keysIncrease (speedPoints r.payload))) = true ↔
      ¬((temperaturePoints r.payload).Pairwise (fun a b => a.key < b.key) ∧
        (speedPoints r.payload).Pairwise fun a b => a.key < b.key) := by
    rw [Bool.not_eq_true', ← Bool.not_eq_true, Bool.and_eq_true, keysIncrease_iff, keysIncrease_iff]
  have hclasses : (((classRules r.payload).getD []).any fun x => !ruleOrdered x.rule) = true ↔
      ∃ x ∈ (classRules r.payload).getD [], x.rule.axleMax < x.rule.axleMin ∨
        (∃ gaps, x.rule.gaps = some gaps ∧ ∃ g ∈ gaps, g.2 < g.1) ∨ ∃ g, x.rule.grossRange = some g ∧ g.2 < g.1 := by
    simp only [List.any_eq_true, Bool.not_eq_true', ruleOrdered_iff]
  unfold orderFault
  rw [Bool.or_eq_true]
  refine or_congr (by simp) ?_
  cases kind with
  | factors => simpa using hfactors
  | classes => simpa using hclasses
  | _ => simp

theorem continuesRun_iff {position : Nat} : continuesRun kind position = true ↔ kind = .classes ∧ (position = 2 ∨ position = 3) := by
  simp [continuesRun]

theorem sequenceFault_iff {position : Nat} : sequenceFault l kind position = true ↔
    3 < position ∨ kind ≠ .classes ∧ position ≠ 0 ∨
      (kind = .classes ∧ (position = 2 ∨ position = 3)) ∧ l.classRun ≠ .running ∨
      ¬(kind = .classes ∧ (position = 2 ∨ position = 3)) ∧ l.classRun = .running := by
  rw [← continuesRun_iff]
  simp [sequenceFault, or_assoc]

theorem duplicateFault_iff {position : Nat} : duplicateFault l kind position = true ↔
    kind = .station ∧ l.station.isSome = true ∨ kind = .strips ∧ l.strips.isSome = true ∨
      kind = .assembly ∧ l.assembly.isSome = true ∨ kind = .probes ∧ l.probes.isSome = true ∨
      kind = .factors ∧ l.factors.isSome = true ∨ kind = .triggers ∧ l.triggers.isSome = true ∨
      kind = .classes ∧ ¬(kind = .classes ∧ (position = 2 ∨ position = 3)) ∧ l.classRun ≠ .none := by
  rw [← continuesRun_iff]
  cases kind <;> simp [duplicateFault]

end

/-! ## The first condition met (R177) -/

/-- The four conditions before RANGE, each a proposition of its own, and what MISSING says. -/
structure BlockConditions (l : Load) (kind : BlockKind) (r : BlockRead) (size order sequence duplicate missing : Prop) : Prop where
  size : sizeFault l kind r = true ↔ size
  order : orderFault l kind r.payload = true ↔ order
  sequence : sequenceFault l kind r.position = true ↔ sequence
  duplicate : duplicateFault l kind r.position = true ↔ duplicate
  missing : (kind = .ending && (l.strips.isNone || l.assembly.isNone)) = true ↔ missing

section
variable {l : Load} {r : BlockRead} {kind : BlockKind} {size order sequence duplicate missing : Prop}

theorem BlockConditions.in_order (h : BlockConditions l kind r size order sequence duplicate missing) :
    (size → knownBlockFault l kind r = some (.size, none)) ∧
    (¬size → r.stored ≠ r.sum → knownBlockFault l kind r = some (.sum, none)) ∧
    (¬size → r.stored = r.sum → order → knownBlockFault l kind r = some (.order, none)) ∧
    (¬size → r.stored = r.sum → ¬order → sequence → knownBlockFault l kind r = some (.sequence, none)) ∧
    (¬size → r.stored = r.sum → ¬order → ¬sequence → duplicate → knownBlockFault l kind r = some (.duplicate, none)) ∧
    (¬size → r.stored = r.sum → ¬order → ¬sequence → ¬duplicate →
      (∀ o, firstBad (blockChecks kind r.payload) = some o → knownBlockFault l kind r = some (.range, some o)) ∧
      (firstBad (blockChecks kind r.payload) = none → missing → knownBlockFault l kind r = some (.missing, none)) ∧
      (firstBad (blockChecks kind r.payload) = none → ¬missing → knownBlockFault l kind r = none)) := by
  rw [← h.size, ← h.order, ← h.sequence, ← h.duplicate, ← h.missing]
  unfold knownBlockFault
  refine ⟨fun hz => if_pos hz, fun hz hs => ?_, fun hz hs ho => ?_, fun hz hs ho hq => ?_, fun hz hs ho hq hd => ?_,
    fun hz hs ho hq hd => ⟨fun o hb => ?_, fun hb hm => ?_, fun hb hm => ?_⟩⟩
  · rw [if_neg hz, if_pos hs]
  · rw [if_neg hz, if_neg (not_not_intro hs), if_pos ho]
  · rw [if_neg hz, if_neg (not_not_intro hs), if_neg ho, if_pos hq]
  · rw [if_neg hz, if_neg (not_not_intro hs), if_neg ho, if_neg hq, if_pos hd]
  · rw [if_neg hz, if_neg (not_not_intro hs), if_neg ho, if_neg hq, if_neg hd, hb]
  · rw [if_neg hz, if_neg (not_not_intro hs), if_neg ho, if_neg hq, if_neg hd, hb]
    exact if_pos hm
  · rw [if_neg hz, if_neg (not_not_intro hs), if_neg ho, if_neg hq, if_neg hd, hb]
    exact if_neg hm

end

/-- Settles O7: each condition as the proposition the manual states, and the first one met. -/
theorem faultConditionsComeInOrder : Obligations.FaultConditionsComeInOrder := by
  refine ⟨readBlock_of_bytes, fun l r => ⟨blockFault_read, fun h hk => blockFault_unknown h (blockKindOf_unknown hk),
    fun kind hkind => ?_⟩⟩
  intro more size order sequence duplicate bad missing
  obtain ⟨hread, hknown⟩ := blockKindOf_of_mem hkind
  rw [blockFault_known hread hknown]
  exact BlockConditions.in_order ⟨sizeFault_iff, orderFault_iff, sequenceFault_iff, duplicateFault_iff, by simp [missing]⟩

end Sys2Proof.Machine
end


section
/-! PROOFS. The close of a vehicle (R120 to R125, R149, R150): the late weighing, the axles and the flags of the record, and the
hand-over. -/

namespace Sys2Proof.Machine

/-! ## The late weighing (R36, R121) -/

section
variable {p : Part} {u : Nat} {w : Wheel}

/-- What finishing a wheel keeps: its temperature with its source, and TIME_STEP. -/
theorem finishWheel_keeps (table : List FactorPoint) (u : Nat) (w : Wheel) :
    (finishWheel table u w).temperature = w.temperature ∧ (finishWheel table u w).source = w.source ∧
      (finishWheel table u w).flags.timeStep = w.flags.timeStep := by
  simp only [finishWheel]
  split
  · exact ⟨rfl, rfl, rfl⟩
  · split <;> exact ⟨rfl, rfl, rfl⟩

/-- A wheel with no coefficient stays without one when the marked strips are struck (R36). -/
theorem Part.strikeMarked_bare (hl : w.qLead = none) (ht : w.qTrail = none) : p.strikeMarked w = w := by
  cases w
  simp_all [Part.strikeMarked]

theorem Part.finishLocal_eq (hw : w.load = none) (hlo : 1389 ≤ u) (hhi : u ≤ 69444) :
    p.finishLocal u w = finishWheel p.image.factors.speed u (p.strikeMarked w) := by
  have hgoes := finishWheel_goes hw hlo hhi
  rw [Part.finishLocal, if_neg (Bool.eq_false_iff.1 hgoes)]

theorem Part.finishLocal_outside (hu : u < 1389 ∨ 69444 < u) : p.finishLocal u w = w := by
  have hout : (w.load.isSome || u < vMin || vMax < u) = true := by
    rw [Bool.or_eq_true, Bool.or_eq_true, decide_eq_true_iff, decide_eq_true_iff, or_assoc]
    exact .inr hu
  rw [Part.finishLocal, if_pos hout]

theorem Part.finishLocal_load (hw : w.load = none) :
    (p.finishLocal u w).load = (finishWheel p.image.factors.speed u (p.strikeMarked w)).load := by
  rcases Nat.lt_or_ge u 1389 with hlo | hlo
  · rw [Part.finishLocal_outside (.inl hlo), finishWheel_left (.inr (.inl hlo))]
    rfl
  · rcases Nat.lt_or_ge 69444 u with hhi | hhi
    · rw [Part.finishLocal_outside (.inr hhi), finishWheel_left (.inr (.inr hhi))]
      rfl
    · rw [Part.finishLocal_eq hw hlo hhi]

theorem Part.finishLocal_keeps (p : Part) (u : Nat) (w : Wheel) : (p.finishLocal u w).temperature = w.temperature ∧
    (p.finishLocal u w).source = w.source ∧ (p.finishLocal u w).flags.timeStep = w.flags.timeStep := by
  unfold Part.finishLocal
  split
  · exact ⟨rfl, rfl, rfl⟩
  · exact finishWheel_keeps _ u (p.strikeMarked w)

section
variable {x : AxleWheel}

theorem Part.lateWeigh_left (h : x.wheel.load.isSome = true ∨ x.wheel.qLead = none ∧ x.wheel.qTrail = none) : p.lateWeigh u x = x :=
  if_pos (by simpa using h)

/-- A wheel with a coefficient and no load is weighed late: a local one with the marks of its channels consulted (R121). -/
theorem Part.lateWeigh_weighed (hl : x.wheel.load = none) (hq : ¬(x.wheel.qLead = none ∧ x.wheel.qTrail = none)) :
    p.lateWeigh u x = { x with
      wheel := if x.isLocal then p.finishLocal u x.wheel else finishWheel p.image.factors.speed u x.wheel } :=
  if_neg (by simpa [hl] using hq)

theorem Part.lateWeigh_keeps (x : AxleWheel) : (p.lateWeigh u x).wheel.temperature = x.wheel.temperature ∧
    (p.lateWeigh u x).wheel.source = x.wheel.source ∧ (p.lateWeigh u x).wheel.flags.timeStep = x.wheel.flags.timeStep ∧
    (p.lateWeigh u x).isLocal = x.isLocal := by
  by_cases h : x.wheel.load.isSome = true ∨ x.wheel.qLead = none ∧ x.wheel.qTrail = none
  · rw [Part.lateWeigh_left h]
    exact ⟨rfl, rfl, rfl, rfl⟩
  · obtain ⟨hl, hq⟩ := not_or.1 h
    rw [Part.lateWeigh_weighed (by simpa using hl) hq]
    split
    · obtain ⟨ht, hs, hf⟩ := p.finishLocal_keeps u x.wheel
      exact ⟨ht, hs, hf, rfl⟩
    · obtain ⟨ht, hs, hf⟩ := finishWheel_keeps p.image.factors.speed u x.wheel
      exact ⟨ht, hs, hf, rfl⟩

/-- The load that a late weighing at a speed gives (R121). -/
def Part.lateLoad (p : Part) (u : Nat) (x : AxleWheel) : Option Nat :=
  if x.wheel.load.isSome then x.wheel.load
  else (finishWheel p.image.factors.speed u (if x.isLocal then p.strikeMarked x.wheel else x.wheel)).load

theorem Part.lateWeigh_load (x : AxleWheel) : (p.lateWeigh u x).wheel.load = p.lateLoad u x := by
  unfold Part.lateLoad
  split
  · next hl => rw [Part.lateWeigh_left (.inl hl)]
  · next hl =>
    have hnone : x.wheel.load = none := by simpa using hl
    by_cases hq : x.wheel.qLead = none ∧ x.wheel.qTrail = none
    · obtain ⟨hlead, htrail⟩ := hq
      rw [Part.lateWeigh_left (.inr ⟨hlead, htrail⟩), Part.strikeMarked_bare hlead htrail, ite_self, finishWheel_bare hlead htrail]
    · rw [Part.lateWeigh_weighed hnone hq]
      split
      · exact Part.finishLocal_load hnone
      · rfl

end

/-- An axle weighed late with the vehicle speed, when there is one (R121). -/
def Part.weighAxle (p : Part) : Option Nat → Axle → Axle
  | some u, a => { a with left := a.left.map (p.lateWeigh u), right := a.right.map (p.lateWeigh u) }
  | none, a => a

theorem Part.weighedAxles_eq (l : List Axle) : p.weighedAxles l = l.map (p.weighAxle (vehicleSpeed l)) := by
  unfold Part.weighedAxles
  cases vehicleSpeed l with
  | none => exact (List.map_id l).symm
  | some u => rfl

theorem Part.weighedAxles_map {β : Type} (g : Axle → β) (hg : ∀ s a, g (p.weighAxle s a) = g a) (l : List Axle) :
    (p.weighedAxles l).map g = l.map g := by
  rw [Part.weighedAxles_eq, List.map_map]
  exact List.map_congr_left fun a _ => hg _ a

theorem Part.weighAxle_keeps (s : Option Nat) (a : Axle) : (p.weighAxle s a).speed = a.speed ∧ (p.weighAxle s a).leadTime = a.leadTime ∧
    (p.weighAxle s a).trailTime = a.trailTime ∧ (p.weighAxle s a).kind = a.kind ∧ (p.weighAxle s a).spacing = a.spacing := by
  cases s <;> exact ⟨rfl, rfl, rfl, rfl, rfl⟩

theorem Part.weighedAxles_speed (l : List Axle) : (p.weighedAxles l).map Axle.speed = l.map Axle.speed :=
  Part.weighedAxles_map _ (fun s a => (Part.weighAxle_keeps s a).1) l

theorem Part.vehicleSpeed_weighed (l : List Axle) : vehicleSpeed (p.weighedAxles l) = vehicleSpeed l := by
  rw [vehicleSpeed, Part.weighedAxles_speed, vehicleSpeed]

theorem Part.vehicleTiming_weighed (tag : Count16) (l : List Axle) : vehicleTiming tag (p.weighedAxles l) = vehicleTiming tag l := by
  rw [vehicleTiming, Part.vehicleSpeed_weighed, vehicleTiming, Part.weighedAxles_eq]
  cases l with
  | nil => rfl
  | cons a l =>
    obtain ⟨hspeed, -, htrail, -⟩ := p.weighAxle_keeps (vehicleSpeed (a :: l)) a
    simp only [List.map_cons, List.head?_cons, Option.bind_some, hspeed, htrail]

end

/-! ## The spacings of the record (R122) -/

/-- A pending spacing settled at a speed, from the axle before (R122). -/
def settleAxle (v : Nat) (previous : Option Axle) (a : Axle) : Axle :=
  { a with spacing := match a.spacing, previous with
      | .pending, some b => .known (spacingAt v b.leadTime a.leadTime)
      | s, _ => s }

theorem settleSpacings_cons (v : Nat) (previous : Option Axle) (a : Axle) (l : List Axle) :
    settleSpacings v previous (a :: l) = settleAxle v previous a :: settleSpacings v (some a) l := by
  obtain ⟨kind, lead, trail, speed, left, right, spacing, blind⟩ := a
  cases spacing <;> cases previous <;> rfl

theorem settleSpacings_map {β : Type} (g : Axle → β) (hg : ∀ a s, g { a with spacing := s } = g a) (v : Nat) (l : List Axle) :
    ∀ previous, (settleSpacings v previous l).map g = l.map g := by
  induction l with
  | nil => exact fun _ => rfl
  | cons a l ih =>
    intro previous
    have hhead : g (settleAxle v previous a) = g a := hg a _
    rw [settleSpacings_cons, List.map_cons, List.map_cons, ih, hhead]

/-- The axle before the `i`th of a list. -/
def axleBefore (previous : Option Axle) (l : List Axle) : Nat → Option Axle
  | 0 => previous
  | i + 1 => l[i]?

theorem settleSpacings_get (v : Nat) (l : List Axle) : ∀ (previous : Option Axle) (i : Nat),
    (settleSpacings v previous l)[i]? = l[i]?.map (settleAxle v (axleBefore previous l i)) := by
  induction l with
  | nil => exact fun _ _ => rfl
  | cons a l ih =>
    intro previous i
    rw [settleSpacings_cons]
    cases i with
    | zero => rfl
    | succ i =>
      rw [List.getElem?_cons_succ, List.getElem?_cons_succ, ih]
      cases i <;> rfl

/-! ## The axles of the record (R125) -/

section
variable {p : Part} {l : List Axle}

/-- The axles of a vehicle at its close: weighed late, their spacings settled (R121, R122). -/
def Part.closingAxles (p : Part) (l : List Axle) : List Axle := settleSpacings ((vehicleSpeed l).getD vMin) none (p.weighedAxles l)

theorem Part.closingAxles_map {β : Type} (g : Axle → β) (hs : ∀ a s, g { a with spacing := s } = g a)
    (hw : ∀ s a, g (p.weighAxle s a) = g a) : (p.closingAxles l).map g = l.map g := by
  rw [Part.closingAxles, settleSpacings_map g hs, Part.weighedAxles_map g hw]

theorem Part.closingAxles_speed : (p.closingAxles l).map Axle.speed = l.map Axle.speed :=
  Part.closingAxles_map _ (fun _ _ => rfl) fun s a => (p.weighAxle_keeps s a).1

theorem Part.closingAxles_length : (p.closingAxles l).length = l.length := by
  rw [Part.closingAxles, settleSpacings_length, Part.weighedAxles_eq, List.length_map]

theorem Part.closingAxles_get (i : Nat) : (p.closingAxles l)[i]? =
    l[i]?.map fun a => settleAxle ((vehicleSpeed l).getD vMin) (axleBefore none (p.weighedAxles l) i) (p.weighAxle (vehicleSpeed l) a) := by
  rw [Part.closingAxles, settleSpacings_get, Part.weighedAxles_eq, List.getElem?_map, Option.map_map]
  rfl

theorem Part.closingAxles_head (a : Axle) : (p.closingAxles (a :: l)).head? =
    some (settleAxle ((vehicleSpeed (a :: l)).getD vMin) none (p.weighAxle (vehicleSpeed (a :: l)) a)) := by
  rw [List.head?_eq_getElem?, Part.closingAxles_get]
  rfl

/-- The load of a wheel in the record (R121). -/
def Part.recordLoad (p : Part) (speed : Option Nat) (x : AxleWheel) : Option Nat :=
  match speed with
  | some u => p.lateLoad u x
  | none => x.wheel.load

theorem Part.wheelLoad_weighed (s : Option Nat) (a : Axle) : wheelLoad (p.weighAxle s a).left = a.left.bind (p.recordLoad s) ∧
    wheelLoad (p.weighAxle s a).right = a.right.bind (p.recordLoad s) := by
  cases s with
  | none => exact ⟨rfl, rfl⟩
  | some u =>
    have hload (x : Option AxleWheel) : wheelLoad (x.map (p.lateWeigh u)) = x.bind (p.recordLoad (some u)) := by
      cases x with
      | none => rfl
      | some x => exact Part.lateWeigh_load x
    exact ⟨hload a.left, hload a.right⟩

theorem recordAxle_settled (v : Nat) (previous : Option Axle) (a : Axle) :
    (recordAxle (settleAxle v previous a)).left = wheelLoad a.left ∧ (recordAxle (settleAxle v previous a)).right = wheelLoad a.right ∧
      (recordAxle (settleAxle v previous a)).kind = a.kind ∧
      (∀ mm, a.spacing = .known mm → (recordAxle (settleAxle v previous a)).spacing = some mm) ∧
      (a.spacing = .absent → (recordAxle (settleAxle v previous a)).spacing = none) ∧
      (a.spacing = .pending → ∀ b, previous = some b →
        (recordAxle (settleAxle v previous a)).spacing = some (spacingAt v b.leadTime a.leadTime)) := by
  refine ⟨rfl, rfl, rfl, fun mm h => ?_, fun h => ?_, fun h b hb => ?_⟩
  · cases previous <;> simp [recordAxle, settleAxle, h]
  · cases previous <;> simp [recordAxle, settleAxle, h]
  · simp [recordAxle, settleAxle, h, hb]

/-- The wheel whose temperature the vehicle takes, weighed late, has the temperature and the source it had (R124). -/
theorem Part.temperatureWheel_weighed {first : Axle} {x : AxleWheel} (s : Option Nat)
    (h : first.left = some x ∧ x.isLocal = true ∨ (∀ y, first.left = some y → y.isLocal = false) ∧ first.right = some x) :
    ∃ y, temperatureWheel (p.weighAxle s first) = some y ∧ y.wheel.temperature = x.wheel.temperature ∧ y.wheel.source = x.wheel.source := by
  have hwheel : temperatureWheel first = some x := by
    unfold temperatureWheel
    obtain ⟨hl, hx⟩ | ⟨hl, hr⟩ := h
    · simp only [hl, hx, if_true]
    · rcases hleft : first.left with _ | y
      · exact hr
      · simp only [hl y hleft, Bool.false_eq_true, if_false]
        exact hr
  cases s with
  | none => exact ⟨x, hwheel, rfl, rfl⟩
  | some u =>
    obtain ⟨ht, hsource, -, -⟩ := p.lateWeigh_keeps (u := u) x
    refine ⟨p.lateWeigh u x, ?_, ht, hsource⟩
    have hmap : temperatureWheel (p.weighAxle (some u) first) = (temperatureWheel first).map (p.lateWeigh u) := by
      obtain ⟨kind, lead, trail, speed, left, right, spacing, blind⟩ := first
      rcases left with _ | y
      · rfl
      · obtain ⟨-, -, -, hlocal⟩ := p.lateWeigh_keeps (u := u) y
        simp only [temperatureWheel, Part.weighAxle, Option.map_some, hlocal]
        cases y.isLocal <;> rfl
    rw [hmap, hwheel]
    rfl

theorem Part.timeStep_weighed (s : Option Nat) (a : Axle) :
    ((p.weighAxle s a).wheels.any fun x => x.wheel.flags.timeStep) = a.wheels.any fun x => x.wheel.flags.timeStep := by
  cases s with
  | none => rfl
  | some u =>
    have hwheels : (p.weighAxle (some u) a).wheels = a.wheels.map (p.lateWeigh u) := by
      cases a with
      | mk kind lead trail speed left right spacing blind => cases left <;> cases right <;> rfl
    rw [hwheels, List.any_map]
    exact congrArg (fun f => a.wheels.any f) (funext fun x => (p.lateWeigh_keeps (u := u) x).2.2.1)

end

end Sys2Proof.Machine
end


section
/-! PROOFS. The record of a closed vehicle (R120 to R126, R149, R150), and the axle former's hold that closes one. -/

namespace Sys2Proof.Machine

/-! ## The record (R122 to R125) -/

section
variable {p : Part} {v : Vehicle}

/-- The first lead time of a vehicle's record (R123). -/
def Part.closingLead (p : Part) (v : Vehicle) : SiteTime := (((p.closingAxles v.axles).head?).map Axle.leadTime).getD 0

/-- The record that an open vehicle leaves, with the flags it has gathered (R125). -/
def Part.closingRecord (p : Part) (v : Vehicle) (gathered : VehicleFlags) (cause : CloseCause) (seq lost ceded : Count16) : VehicleRecord :=
  let axles := p.closingAxles v.axles
  { seq := seq, owner := p.block.number, firstLead := p.closingLead v, speed := vehicleSpeed v.axles,
    headway := headwayOf (p.closingLead v) p.vau.headwayRef, axles := axles.map recordAxle, gross := grossOf axles,
    temperature := ((axles.head?.bind temperatureWheel).map fun w => w.wheel.temperature).getD 0,
    source := ((axles.head?.bind temperatureWheel).map fun w => w.wheel.source).getD .reference,
    flags := p.closeFlags cause axles (p.closingLead v) gathered, tag := v.tag, state := .awaitingClass, lostCount := lost,
    cededCount := ceded, slotFlags := noVehicleFlags, firstTrail := axles.head?.bind Axle.trailTime,
    firstSpeed := axles.head?.bind Axle.speed, cls := none, ruleIndex := none, groupOver := 0 }

/-- The part whose vehicle has closed, before its record is handed over. -/
def Part.runEnded (p : Part) (v : Vehicle) : Part :=
  p.weighVehicle.modVau fun u => { u with vehicle := none, runStart := none, headwayRef := some (p.closingLead v) }

theorem Part.changedOnly_weighVehicle (hv : p.vau.vehicle = some v) : p.changedOnly [.tou, .vau, .vcl] p.weighVehicle := by
  rw [Part.weighVehicle_some hv]
  exact ((Part.changedOnly_modVau _ p).mono (by simp)).trans (reportStep_changedOnly.grossReport _ _ _)

/-- The flags of a close look at the configuration, the blind intervals and the site time besides the axles (R124). -/
theorem Part.closeFlags_congr {q : Part} (hcsu : q.csu = p.csu) (hsbc : q.sbc = p.sbc) (hstu : q.stu = p.stu) (cause : CloseCause)
    (l : List Axle) (t : SiteTime) (f : VehicleFlags) : q.closeFlags cause l t f = p.closeFlags cause l t f := by
  cases p
  cases q
  subst hcsu hsbc hstu
  rfl

/-- What the flags of a close look at besides the axles is unchanged by the weighing. -/
theorem Part.closeFlags_weighed (hv : p.vau.vehicle = some v) (cause : CloseCause) (l : List Axle) (t : SiteTime) (f : VehicleFlags) :
    p.weighVehicle.closeFlags cause l t f = p.closeFlags cause l t f := by
  obtain ⟨-, -, hsame⟩ := Part.changedOnly_weighVehicle hv
  have hcsu : p.weighVehicle.csu = p.csu := hsame .csu (by simp)
  have hsbc : p.weighVehicle.sbc = p.sbc := hsame .sbc (by simp)
  have hstu : p.weighVehicle.stu = p.stu := hsame .stu (by simp)
  exact Part.closeFlags_congr hcsu hsbc hstu cause l t f

/-- The close of an open vehicle: its weighing, the end of the run, and the hand-over of its record. -/
theorem Part.closeVehicle_record (hv : p.vau.vehicle = some v) (cause : CloseCause) : ∃ f, trigApart v.flags f ∧
    p.closeVehicle cause = (p.runEnded v).handOver (p.closingRecord v f (v.closeMark.getD cause)) := by
  obtain ⟨f, hf, hvau, -⟩ := Part.weighVehicle_frame hv
  refine ⟨f, hf, ?_⟩
  have hopen : p.weighVehicle.vau.vehicle = some { p.weighed v with flags := f } := by rw [hvau]
  have hspeed : vehicleSpeed (p.weighed v).axles = vehicleSpeed v.axles := Part.vehicleSpeed_weighed v.axles
  have href : p.weighVehicle.vau.headwayRef = p.vau.headwayRef := by rw [hvau]
  have hblock : p.weighVehicle.block = p.block :=
    congrArg (fun c : Csu => c.block.getD absentBlock) ((Part.changedOnly_weighVehicle hv).2.2 .csu (by simp))
  simp only [Part.closeVehicle, hopen, hspeed, href, hblock, Part.closeFlags_weighed hv]
  rfl

/-! ## The fields of the record -/

theorem filterMap_speed (l : List Axle) : l.filterMap Axle.speed = (l.map Axle.speed).filterMap id := by
  rw [List.filterMap_map]
  rfl

theorem Part.closingAxles_filterMap (l : List Axle) : (p.closingAxles l).filterMap Axle.speed = l.filterMap Axle.speed := by
  rw [filterMap_speed, Part.closingAxles_speed, ← filterMap_speed]

theorem Part.vehicleSpeed_closing (l : List Axle) : vehicleSpeed (p.closingAxles l) = vehicleSpeed l := by
  rw [vehicleSpeed, Part.closingAxles_speed, vehicleSpeed]

theorem accelOf_iff (l : List Axle) : accelOf l = true ↔ ∃ ref more, l.filterMap Axle.speed = ref :: more ∧
    ∃ u ∈ more, ref < ((u : Int) - ref).natAbs * 10 := by
  unfold accelOf
  cases l.filterMap Axle.speed with
  | nil => simp
  | cons ref more => simp

theorem Part.timeStep_closing (l : List Axle) :
    ((p.closingAxles l).any fun a => a.wheels.any fun w => w.wheel.flags.timeStep) =
      l.any fun a => (a.left.toList ++ a.right.toList).any fun w => w.wheel.flags.timeStep := by
  have hmap : (p.closingAxles l).map (fun a => a.wheels.any fun w => w.wheel.flags.timeStep) =
      l.map fun a => a.wheels.any fun w => w.wheel.flags.timeStep :=
    Part.closingAxles_map _ (fun _ _ => rfl) Part.timeStep_weighed
  have hany (l : List Axle) (g : Axle → Bool) : l.any g = (l.map g).any id := by rw [List.any_map]; rfl
  rw [hany, hmap, ← hany]
  rfl

/-- A blind interval that PEER_BLIND counts at the close: not too old, and overlapping the span (R124). -/
theorem Part.blindOver_eq (first : SiteTime) : p.blindOver first p.now = p.sbc.blind.any fun b =>
    (match b.close with | some c => decide (siteDiff p.now c ≤ 10000000) | none => true) &&
      decide (siteDiff b.start p.now ≤ 0 ∧ 0 ≤ siteDiff (b.close.getD p.now) first) := by
  refine congrArg (fun f => p.sbc.blind.any f) (funext fun b => ?_)
  have hold : (!blindOld p.now b) = match b.close with | some c => decide (siteDiff p.now c ≤ 10000000) | none => true := by
    unfold blindOld
    cases b.close with
    | none => rfl
    | some c => exact not_decide_lt _ _
  rw [hold, Bool.decide_and, Bool.and_assoc]

section
variable {first : Axle} {rest : List Axle} {f : VehicleFlags} {cause : CloseCause} {seq lost ceded : Count16}

theorem Part.closingLead_eq (hv : v.axles = first :: rest) : p.closingLead v = first.leadTime := by
  rw [Part.closingLead, hv, Part.closingAxles_head]
  exact (p.weighAxle_keeps _ first).2.1

/-- An axle of the record: its loads, its kind and its spacing (R121, R122, R125). -/
theorem Part.closingRecord_axle {i : Nat} {a : Axle} (ha : v.axles[i]? = some a) :
    ∃ x, (p.closingRecord v f cause seq lost ceded).axles[i]? = some x ∧
      x.left = a.left.bind (p.recordLoad (vehicleSpeed v.axles)) ∧ x.right = a.right.bind (p.recordLoad (vehicleSpeed v.axles)) ∧
      x.kind = a.kind ∧ (∀ mm, a.spacing = .known mm → x.spacing = some mm) ∧ (a.spacing = .absent → x.spacing = none) ∧
      (a.spacing = .pending → ∀ k b, i = k + 1 → v.axles[k]? = some b →
        x.spacing = some ((vehicleSpeed v.axles).getD 1389 * (siteDiff a.leadTime b.leadTime).toNat / 1000000)) := by
  obtain ⟨-, hlead, -, hkind, hspacing⟩ := p.weighAxle_keeps (vehicleSpeed v.axles) a
  obtain ⟨hleft, hright⟩ := p.wheelLoad_weighed (vehicleSpeed v.axles) a
  obtain ⟨hxl, hxr, hxk, hknown, habsent, hpending⟩ := recordAxle_settled ((vehicleSpeed v.axles).getD vMin)
    (axleBefore none (p.weighedAxles v.axles) i) (p.weighAxle (vehicleSpeed v.axles) a)
  rw [hspacing] at hknown habsent hpending
  refine ⟨_, ?_, hxl.trans hleft, hxr.trans hright, hxk.trans hkind, hknown, habsent, fun hpend k b hi hb => ?_⟩
  · have haxles : (p.closingRecord v f cause seq lost ceded).axles = (p.closingAxles v.axles).map recordAxle := rfl
    rw [haxles, List.getElem?_map, Part.closingAxles_get, ha]
    rfl
  · have hbefore : axleBefore none (p.weighedAxles v.axles) i = some (p.weighAxle (vehicleSpeed v.axles) b) := by
      rw [hi, axleBefore, Part.weighedAxles_eq, List.getElem?_map, hb]
      rfl
    rw [hpending hpend _ hbefore, hlead, (p.weighAxle_keeps _ b).2.1]
    rfl

theorem Part.closingRecord_temperature (hv : v.axles = first :: rest) {w : AxleWheel}
    (h : first.left = some w ∧ w.isLocal = true ∨ (∀ x, first.left = some x → x.isLocal = false) ∧ first.right = some w) :
    (p.closingRecord v f cause seq lost ceded).temperature = w.wheel.temperature ∧
      (p.closingRecord v f cause seq lost ceded).source = w.wheel.source := by
  obtain ⟨y, hy, htemp, hsource⟩ := Part.temperatureWheel_weighed (p := p) (vehicleSpeed v.axles) h
  have hwheel : (p.closingAxles v.axles).head?.bind temperatureWheel = some y := by
    rw [hv] at hy ⊢
    rw [Part.closingAxles_head]
    exact hy
  obtain ⟨ht, hs⟩ : (p.closingRecord v f cause seq lost ceded).temperature =
        (((p.closingAxles v.axles).head?.bind temperatureWheel).map fun w => w.wheel.temperature).getD 0 ∧
      (p.closingRecord v f cause seq lost ceded).source =
        (((p.closingAxles v.axles).head?.bind temperatureWheel).map fun w => w.wheel.source).getD .reference := ⟨rfl, rfl⟩
  rw [ht, hs, hwheel]
  exact ⟨htemp, hsource⟩

theorem Part.closingRecord_first (hv : v.axles = first :: rest) :
    (p.closingRecord v f cause seq lost ceded).firstTrail = first.trailTime ∧
      (p.closingRecord v f cause seq lost ceded).firstSpeed = first.speed := by
  obtain ⟨ht, hs⟩ : (p.closingRecord v f cause seq lost ceded).firstTrail = (p.closingAxles v.axles).head?.bind Axle.trailTime ∧
      (p.closingRecord v f cause seq lost ceded).firstSpeed = (p.closingAxles v.axles).head?.bind Axle.speed := ⟨rfl, rfl⟩
  obtain ⟨hspeed, -, htrail, -⟩ := p.weighAxle_keeps (vehicleSpeed (first :: rest)) first
  rw [ht, hs, hv, Part.closingAxles_head]
  exact ⟨htrail, hspeed⟩

theorem trigApart.fields {f g : VehicleFlags} (h : trigApart f g) : g.peerBlind = f.peerBlind ∧ g.timeStep = f.timeStep ∧
    g.laneChange = f.laneChange ∧ g.continuation = f.continuation := by
  unfold trigApart at h
  rw [h]
  exact ⟨rfl, rfl, rfl, rfl⟩

/-- The flags of the record (R124), from those gathered. -/
theorem Part.closingRecord_flags (hv : v.axles = first :: rest) (hf : trigApart v.flags f) (r : VehicleRecord)
    (hr : r = p.closingRecord v f cause seq lost ceded) :
    r.flags.noSpeed = (vehicleSpeed v.axles).isNone ∧
    r.flags.partialLoad = r.axles.any (fun a => a.left.isNone || a.right.isNone) ∧
    (r.flags.accel = true ↔ ∃ ref more, v.axles.filterMap Axle.speed = ref :: more ∧
      ∃ u ∈ more, ref < ((u : Int) - ref).natAbs * 10) ∧
    r.flags.peerBlind = (v.flags.peerBlind || ((p.block.leftNeighbour.isSome || p.block.rightNeighbour.isSome) &&
      p.sbc.blind.any fun b => (match b.close with | some c => decide (siteDiff p.now c ≤ 10000000) | none => true) &&
        decide (siteDiff b.start p.now ≤ 0 ∧ 0 ≤ siteDiff (b.close.getD p.now)
          (first.leadTime - BitVec.ofNat 48 (p.image.assembly.lp * 1000))))) ∧
    r.flags.timeStep = (v.flags.timeStep || v.axles.any fun a =>
      (a.left.toList ++ a.right.toList).any fun w => w.wheel.flags.timeStep) ∧
    r.flags.laneChange = v.flags.laneChange ∧ r.flags.continuation = v.flags.continuation ∧
    r.flags.axleLimit = decide (cause = .axleLimit) ∧ r.flags.holdCut = decide (cause = .hold) := by
  subst hr
  have hflags : (p.closingRecord v f cause seq lost ceded).flags =
      p.closeFlags cause (p.closingAxles v.axles) (p.closingLead v) f := rfl
  have haxles : (p.closingRecord v f cause seq lost ceded).axles = (p.closingAxles v.axles).map recordAxle := rfl
  obtain ⟨hblind, hstep, hlane, hcont⟩ := hf.fields
  rw [hflags, haxles, Part.closingLead_eq hv]
  simp only [Part.closeFlags, hblind, hstep, Part.vehicleSpeed_closing, Part.blindOver_eq, Part.timeStep_closing]
  refine ⟨trivial, ?_, ?_, rfl, trivial, hlane, hcont, trivial, trivial⟩
  · rw [List.any_map]
    rfl
  · rw [accelOf_iff, Part.closingAxles_filterMap]

end

/-! ## The hand-over (R149, R150) -/

theorem Part.handOver_seqCounter (make : Count16 → Count16 → Count16 → VehicleRecord) (q : Part) :
    (q.handOver make).vcl.seqCounter = q.vcl.seqCounter + 1 := by
  simp only [Part.handOver]
  split
  · obtain ⟨walk, hwalk⟩ := Part.askWalk_vcl (((q.modVcl fun v => { v with seqCounter := v.seqCounter + 1 }).modTotals fun t =>
      { t with vehiclesCompleted := satInc t.vehiclesCompleted }).modVcl fun v => { v with
        records := v.records ++ [make q.vcl.seqCounter v.lostCarry v.cededCarry], lostCarry := 0, cededCarry := 0 })
    rw [hwalk]
    rfl
  · rfl

theorem Part.changedOnly_closeVehicle (cause : CloseCause) (p : Part) : p.changedOnly [.vau, .vcl, .tou] (p.closeVehicle cause) :=
  ⟨by simp, by simp, fun k hk => by cases k <;> simp_all [Part.sameAt]⟩

theorem Part.runEnded_vau (hv : p.vau.vehicle = some v) :
    (p.runEnded v).vau = { p.vau with vehicle := none, runStart := none, headwayRef := some (p.closingLead v) } := by
  obtain ⟨f, -, hvau, -⟩ := Part.weighVehicle_frame hv
  rw [Part.runEnded, Part.modVau, hvau]

theorem Part.runEnded_vcl (hv : p.vau.vehicle = some v) : (p.runEnded v).vcl = p.vcl := by
  obtain ⟨f, -, -, hvcl⟩ := Part.weighVehicle_frame hv
  exact hvcl

end

/-! ## The late weighing, wheel by wheel (R121) -/

section
variable {p : Part} {v : Vehicle}

/-- The late weighing of a wheel at an optional speed within the window (R121). -/
def Part.lateWheel (p : Part) (speed : Option Nat) (w : AxleWheel) : AxleWheel :=
  match speed with
  | some u => if w.wheel.load.isSome || (w.wheel.qLead.isNone && w.wheel.qTrail.isNone) then w else { w with
      wheel := finishWheel p.image.factors.speed u (if w.isLocal then { w.wheel with
        qLead := if (p.lcu.channels.get (leadingChannel w.wheel.side)).mark = none then w.wheel.qLead else none
        qTrail := if (p.lcu.channels.get (trailingChannel w.wheel.side)).mark = none then w.wheel.qTrail else none }
        else w.wheel) }
  | none => w

theorem Part.strikeMarked_eq (w : Wheel) : p.strikeMarked w = { w with
    qLead := if (p.lcu.channels.get (leadingChannel w.side)).mark = none then w.qLead else none
    qTrail := if (p.lcu.channels.get (trailingChannel w.side)).mark = none then w.qTrail else none } := by
  unfold Part.strikeMarked
  cases (p.lcu.channels.get (leadingChannel w.side)).mark <;> cases (p.lcu.channels.get (trailingChannel w.side)).mark <;> rfl

theorem Part.lateWeigh_eq {u : Nat} (hlo : 1389 ≤ u) (hhi : u ≤ 69444) (x : AxleWheel) : p.lateWeigh u x = p.lateWheel (some u) x := by
  unfold Part.lateWeigh Part.lateWheel
  by_cases h : (x.wheel.load.isSome || (x.wheel.qLead.isNone && x.wheel.qTrail.isNone)) = true
  · simp only [if_pos h]
  · have hnone : x.wheel.load = none := by
      simpa using (not_or.1 (mt Bool.or_eq_true_iff.2 h)).1
    simp only [if_neg h, Part.finishLocal_eq hnone hlo hhi, Part.strikeMarked_eq]
    cases x.isLocal <;> rfl

theorem Part.weighAxle_late {speed : Option Nat} (h : ∀ u, speed = some u → 1389 ≤ u ∧ u ≤ 69444) (a : Axle) :
    p.weighAxle speed a = { a with left := a.left.map (p.lateWheel speed), right := a.right.map (p.lateWheel speed) } := by
  cases speed with
  | none =>
    have hid : p.lateWheel none = id := rfl
    rw [hid, Option.map_id]
    rfl
  | some u =>
    obtain ⟨hlo, hhi⟩ := h u rfl
    have hlate : p.lateWheel (some u) = p.lateWeigh u := funext fun x => (Part.lateWeigh_eq hlo hhi x).symm
    rw [hlate]
    rfl

end

/-! ## The axle former's hold with nothing to place (R95, R120) -/

/-- The part with the aged peer wheels gone and the intake taken. -/
def Part.formerReady (p : Part) : Part := p.modVau fun u => { u with peers := p.youngPeers, intake := [] }

theorem Part.formerWork_idle {p : Part} (hi : p.vau.intake = []) (hw : p.vau.waiting = []) :
    p.formerWork = p.formerReady.closeIfDue := by
  have hplace : p.removeAged.placeIntake = p.formerReady := by
    rw [Part.removeAged_eq, Part.placeIntake]
    simp only [hi, List.foldl_nil]
    rfl
  have hnone : p.formerReady.vau.waiting = [] := hw
  simp only [Part.formerWork, hplace, hnone, List.length_nil, Part.decideAll]

theorem exec_axleFormerHold {s : State} (hs : s.running) (h : s.part.vau.port.holder = some .axleFormer) :
    exec .axleFormerHold s = .next { s with part := s.part.formerWork.releasePort } := by
  have hact := act_running (s := s) (fun p => if p.vau.port.holder = some .axleFormer then p.formerWork.releasePort else p) hs
  simp only [if_pos h] at hact
  exact hact

theorem Part.closeIfDue_cause {p : Part} {v : Vehicle} {cause : CloseCause} (hv : p.vau.vehicle = some v)
    (h : v.closeMark = some cause ∨ v.closeMark = none ∧ 0 ≤ siteDiff p.now v.closeTime ∧ cause = .timer) :
    p.closeIfDue = p.closeVehicle .timer ∧ v.closeMark.getD .timer = cause := by
  obtain hm | ⟨hm, hc, rfl⟩ := h
  · exact ⟨Part.closeIfDue_due hv (.inl (by rw [hm]; rfl)), by rw [hm]; rfl⟩
  · exact ⟨Part.closeIfDue_due hv (.inr hc), by rw [hm]; rfl⟩

/-- Settles O57: the close as weighing, end of the run and hand-over of one record, whose fields are those above. -/
theorem closedVehicleIsHandedOver : Obligations.ClosedVehicleIsHandedOver := by
  unfold Obligations.ClosedVehicleIsHandedOver
  intro closes
  have hcloses (p : Part) (v : Vehicle) (cause : CloseCause) (first : Axle) (rest : List Axle) (hv : p.vau.vehicle = some v)
      (ha : v.axles = first :: rest) : closes p v first (v.closeMark.getD cause) (p.closeVehicle cause) := by
    obtain ⟨f, hf, hclose⟩ := Part.closeVehicle_record hv cause
    obtain ⟨port, hvau⟩ := Part.handOver_vau (p.closingRecord v f (v.closeMark.getD cause)) (p.runEnded v)
    have hvcl := Part.runEnded_vcl hv
    rw [Part.runEnded_vau hv, Part.closingLead_eq ha] at hvau
    have hframe := Part.changedOnly_closeVehicle cause p
    rw [hclose] at hframe ⊢
    refine ⟨by rw [hvau], by rw [hvau], by rw [hvau], by rw [hvau], by rw [Part.handOver_seqCounter, hvcl], fun hroom => ?_,
      fun hfull => ?_, hframe⟩
    · obtain ⟨walk, hroomy⟩ := Part.handOver_room (p := p.runEnded v) (make := p.closingRecord v f (v.closeMark.getD cause))
        (by rwa [hvcl])
      rw [hvcl] at hroomy
      rw [hroomy]
      obtain ⟨hspeed, hpartial, haccel, hblind, hstep, hlane, hcont, hlimit, hcut⟩ := Part.closingRecord_flags ha hf
        (p.closingRecord v f (v.closeMark.getD cause) p.vcl.seqCounter p.vcl.lostCarry p.vcl.cededCarry) rfl
      obtain ⟨htrail, hfirst⟩ := Part.closingRecord_first (p := p) (f := f) (cause := v.closeMark.getD cause)
        (seq := p.vcl.seqCounter) (lost := p.vcl.lostCarry) (ceded := p.vcl.cededCarry) ha
      refine ⟨rfl, rfl, rfl, _, rfl, rfl, rfl, Part.closingLead_eq ha, rfl, ?_, ?_, fun i a hi => Part.closingRecord_axle hi, ?_,
        rfl, rfl, rfl, rfl, rfl, hspeed, hpartial, haccel, fun w hw => Part.closingRecord_temperature ha hw, hblind, hstep, hlane,
        hcont, htrail, hfirst, hlimit, hcut⟩
      · exact congrArg (fun t => headwayOf t p.vau.headwayRef) (Part.closingLead_eq ha)
      · exact (List.length_map _).trans Part.closingAxles_length
      · exact congrArg List.sum (List.map_map (f := recordAxle)
          (g := fun a : RecordAxle => a.left.getD 0 + a.right.getD 0) (l := p.closingAxles v.axles)).symm
    · rw [Part.handOver_full (by rwa [hvcl]), hvcl]
      exact ⟨rfl, rfl, rfl⟩
  refine ⟨fun s v cause first rest hs hport hi hw hv ha hcause => ?_, hcloses, fun p v hv hwindow => ?_⟩
  · have hready : s.part.formerReady.vau.vehicle = some v := hv
    obtain ⟨hdue, hmark⟩ := Part.closeIfDue_cause hready hcause
    refine ⟨(s.part.formerReady.closeVehicle .timer).releasePort, ?_, ?_⟩
    · rw [exec_axleFormerHold hs hport, Part.formerWork_idle hi hw, hdue]
    · obtain ⟨h1, h2, h3, h4, h5, h6, h7, h8⟩ := hmark ▸ hcloses s.part.formerReady v .timer first rest hready ha
      refine ⟨h1, h2, h3, h4, h5, h6, h7, ?_⟩
      exact (((Part.changedOnly_modVau _ _).mono (by simp)).trans h8).trans ((Part.changedOnly_modVau _ _).mono (by simp))
  · intro late axles gross
    have haxles : p.weighedAxles v.axles = axles := by
      rw [Part.weighedAxles_eq]
      exact List.map_congr_left fun a _ => Part.weighAxle_late hwindow a
    rw [Part.weighVehicle_some hv, Part.vehicleTiming_weighed, Part.weighed, haxles]
    rfl

end Sys2Proof.Machine
end


section
/-! PROOFS. How a pending wheel is decided (R96, R99 to R103, R105 to R107, R113): its best candidate, the copies of the wheels that
form the axle, and the axle. -/

namespace Sys2Proof.Machine

/-! ## The best candidate (R99, R100) -/

section
variable {dc : Nat} {d k : Wheel} {l : List Wheel}

theorem bestCandidate_skip (h : candidateOffset dc d k = none) : bestCandidate dc d (k :: l) = bestCandidate dc d l := by
  simp only [bestCandidate, h]

theorem bestCandidate_only {o : Nat} (h : candidateOffset dc d k = some o) (hl : bestCandidate dc d l = none) :
    bestCandidate dc d (k :: l) = some (o, k) := by
  simp only [bestCandidate, h, hl]

theorem bestCandidate_both {o : Nat} {r : Nat × Wheel} (h : candidateOffset dc d k = some o) (hl : bestCandidate dc d l = some r) :
    bestCandidate dc d (k :: l) =
      if r.1 < o ∨ r.1 = o ∧ siteDiff r.2.refTime k.refTime < 0 then some r else some (o, k) := by
  simp only [bestCandidate, h, hl, Bool.or_eq_true, Bool.and_eq_true, decide_eq_true_iff]

theorem bestCandidate_singleton (dc : Nat) (d k : Wheel) : bestCandidate dc d [k] = (candidateOffset dc d k).map fun o => (o, k) := by
  rcases h : candidateOffset dc d k with _ | o
  · exact bestCandidate_skip h
  · exact bestCandidate_only h rfl

theorem bestCandidate_none_iff (dc : Nat) (d : Wheel) (l : List Wheel) :
    bestCandidate dc d l = none ↔ ∀ k ∈ l, candidateOffset dc d k = none := by
  induction l with
  | nil => simp [bestCandidate]
  | cons k l ih =>
    rw [List.forall_mem_cons, ← ih]
    rcases hk : candidateOffset dc d k with _ | o
    · rw [bestCandidate_skip hk]
      exact ⟨fun h => ⟨rfl, h⟩, fun h => h.2⟩
    · rcases hl : bestCandidate dc d l with _ | r
      · rw [bestCandidate_only hk hl]
        simp
      · rw [bestCandidate_both hk hl]
        split <;> simp

/-- The best candidate is one of the wheels, and no candidate's offset is smaller. -/
theorem bestCandidate_spec (dc : Nat) (d : Wheel) (l : List Wheel) : ∀ o k, bestCandidate dc d l = some (o, k) →
    k ∈ l ∧ candidateOffset dc d k = some o ∧ ∀ x ∈ l, ∀ n, candidateOffset dc d x = some n → o ≤ n := by
  induction l with
  | nil => exact fun o k h => nomatch h
  | cons y l ih =>
    intro o k h
    rcases hy : candidateOffset dc d y with _ | m
    · rw [bestCandidate_skip hy] at h
      obtain ⟨hmem, hk, hleast⟩ := ih o k h
      refine ⟨List.mem_cons_of_mem _ hmem, hk, fun x hx n hn => ?_⟩
      rcases List.mem_cons.1 hx with rfl | hx
      · exact nomatch hy.symm.trans hn
      · exact hleast x hx n hn
    · rcases hl : bestCandidate dc d l with _ | ⟨m', k'⟩
      · rw [bestCandidate_only hy hl] at h
        obtain ⟨rfl, rfl⟩ := Prod.mk.inj (Option.some.inj h)
        refine ⟨List.mem_cons_self, hy, fun x hx n hn => ?_⟩
        rcases List.mem_cons.1 hx with rfl | hx
        · exact (Option.some.inj (hy.symm.trans hn)).le
        · exact nomatch ((bestCandidate_none_iff dc d l).1 hl x hx).symm.trans hn
      · obtain ⟨hmem, hk', hleast⟩ := ih m' k' hl
        rw [bestCandidate_both hy hl] at h
        split at h
        · next hless =>
          obtain ⟨rfl, rfl⟩ := Prod.mk.inj (Option.some.inj h)
          refine ⟨List.mem_cons_of_mem _ hmem, hk', fun x hx n hn => ?_⟩
          rcases List.mem_cons.1 hx with rfl | hx
          · have hmn : m = n := Option.some.inj (hy.symm.trans hn)
            have hle : m' ≤ m := hless.elim Nat.le_of_lt fun he => Nat.le_of_eq he.1
            exact hmn ▸ hle
          · exact hleast x hx n hn
        · next hless =>
          obtain ⟨rfl, rfl⟩ := Prod.mk.inj (Option.some.inj h)
          refine ⟨List.mem_cons_self, hy, fun x hx n hn => ?_⟩
          rcases List.mem_cons.1 hx with rfl | hx
          · exact (Option.some.inj (hy.symm.trans hn)).le
          · exact (Nat.le_of_not_lt (not_or.1 hless).1).trans (hleast x hx n hn)

/-- Of two candidates with one offset the earlier is the best, whatever their order. -/
theorem bestCandidate_tie {a b : Wheel} {o : Nat} (ha : candidateOffset dc d a = some o) (hb : candidateOffset dc d b = some o)
    (hlt : siteDiff b.refTime a.refTime < 0) (hmin : siteDiff b.refTime a.refTime ≠ -(2 ^ 47)) :
    bestCandidate dc d [a, b] = some (o, b) ∧ bestCandidate dc d [b, a] = some (o, b) := by
  have hone (x : Wheel) (hx : candidateOffset dc d x = some o) : bestCandidate dc d [x] = some (o, x) := bestCandidate_only hx rfl
  have hback : siteDiff a.refTime b.refTime = -siteDiff b.refTime a.refTime := siteDiff_swap hmin
  constructor
  · rw [bestCandidate_both ha (hone b hb), if_pos (.inr ⟨rfl, hlt⟩)]
  · rw [bestCandidate_both hb (hone a ha), if_neg]
    rintro (h | ⟨-, h⟩)
    · exact absurd h (Nat.lt_irrefl _)
    · have hback' : siteDiff a.refTime b.refTime < 0 := h
      omega

end

/-! ## The copies of the wheels (R103, R106) -/

section
variable {p : Part} {w k : Wheel} {v : Nat}

theorem Part.localCopy_speed (h : w.speed = some v) (partner : Option Wheel) :
    p.localCopy w partner = { wheel := w, borrowed := none, isLocal := true } := by
  simp only [Part.localCopy, h]

theorem Part.localCopy_alone (w : Wheel) : p.localCopy w none = { wheel := w, borrowed := none, isLocal := true } := by
  unfold Part.localCopy
  cases w.speed <;> rfl

theorem Part.localCopy_borrows (h : w.speed = none) (hk : k.speed = some v) :
    p.localCopy w (some k) = { wheel := p.finishLocal v w, borrowed := some v, isLocal := true } := by
  simp only [Part.localCopy, h, Option.bind_some, hk, finishWith]

theorem Part.peerCopy_speed (h : w.speed = some v) (k : Wheel) : p.peerCopy w k =
    { wheel := finishWheel p.image.factors.speed v (stripPeer w), borrowed := none, isLocal := false } := by
  simp only [Part.peerCopy, h]

theorem Part.peerCopy_borrows (h : w.speed = none) (hk : k.speed = some v) : p.peerCopy w k =
    { wheel := finishWheel p.image.factors.speed v (stripPeer w), borrowed := some v, isLocal := false } := by
  simp only [Part.peerCopy, h, hk, finishWith]

end

/-! ## The axle (R113) -/

section
variable {kind : AxleKind} {l r : Option AxleWheel} {blind : Bool}

/-- A site time is the first of those that a wheel list gives (R113). -/
def firstTime (wheels : List AxleWheel) (t : SiteTime) (f : Wheel → Option SiteTime) : Prop :=
  (∃ w ∈ wheels, f w.wheel = some t) ∧ ∀ w ∈ wheels, ∀ u, f w.wheel = some u → siteDiff t u ≤ 0

theorem siteDiff_self (t : SiteTime) : siteDiff t t = 0 := siteDiff_eq_zero_iff.2 rfl

/-- Of two site times the one that `earliest` takes is not after the other. -/
theorem siteDiff_nonpos_of_not_neg {t u : SiteTime} (h : ¬siteDiff u t < 0) : siteDiff t u ≤ 0 := by
  rw [siteDiff_swap (by omega)]
  omega

theorem earliest_two (x y : Option SiteTime) : earliest [x, y] = none ∧ x = none ∧ y = none ∨
    ∃ t, earliest [x, y] = some t ∧ (x = some t ∨ y = some t) ∧ (∀ u, x = some u ∨ y = some u → siteDiff t u ≤ 0) := by
  rcases x with _ | t
  · rcases y with _ | u
    · exact .inl ⟨rfl, rfl, rfl⟩
    · exact .inr ⟨u, rfl, .inr rfl, by simp [siteDiff_self]⟩
  · rcases y with _ | u
    · exact .inr ⟨t, rfl, .inl rfl, by simp [siteDiff_self]⟩
    · by_cases h : siteDiff u t < 0
      · exact .inr ⟨u, if_pos h, .inr rfl, fun v hv => hv.elim (fun e => Option.some.inj e ▸ h.le)
          fun e => Option.some.inj e ▸ (siteDiff_self u).le⟩
      · exact .inr ⟨t, if_neg h, .inl rfl, fun v hv => hv.elim (fun e => Option.some.inj e ▸ (siteDiff_self t).le)
          fun e => Option.some.inj e ▸ siteDiff_nonpos_of_not_neg h⟩

theorem earliest_wheels (l r : Option AxleWheel) (f : Wheel → Option SiteTime) :
    earliest ((l.toList ++ r.toList).map fun w => f w.wheel) =
      earliest [l.bind fun w => f w.wheel, r.bind fun w => f w.wheel] := by
  cases l with
  | none => cases r <;> rfl
  | some x =>
    cases r with
    | some y => rfl
    | none => cases h : f x.wheel <;> simp [earliest, h]

theorem mem_wheels {w : AxleWheel} : w ∈ l.toList ++ r.toList ↔ l = some w ∨ r = some w := by
  rw [List.mem_append, Option.mem_toList, Option.mem_toList]

/-- The earliest of the times the wheels give, or none when they give none (R113). -/
theorem earliest_spec (l r : Option AxleWheel) (f : Wheel → Option SiteTime) :
    earliest ((l.toList ++ r.toList).map fun w => f w.wheel) = none ∧ (∀ w ∈ l.toList ++ r.toList, f w.wheel = none) ∨
      ∃ t, earliest ((l.toList ++ r.toList).map fun w => f w.wheel) = some t ∧ firstTime (l.toList ++ r.toList) t f := by
  have hgives (u : SiteTime) : ((l.bind fun w => f w.wheel) = some u ∨ (r.bind fun w => f w.wheel) = some u) ↔
      ∃ w ∈ l.toList ++ r.toList, f w.wheel = some u := by
    simp only [mem_wheels, Option.bind_eq_some_iff]
    grind
  rw [earliest_wheels]
  obtain ⟨hnone, hl, hr⟩ | ⟨t, ht, hmem, hfirst⟩ := earliest_two (l.bind fun w => f w.wheel) (r.bind fun w => f w.wheel)
  · refine .inl ⟨hnone, fun w hw => ?_⟩
    rcases mem_wheels.1 hw with rfl | rfl
    · exact hl
    · exact hr
  · exact .inr ⟨t, ht, (hgives t).1 hmem, fun w hw u hu => hfirst u ((hgives u).2 ⟨w, hw, hu⟩)⟩

theorem earliest_first {f : Wheel → Option SiteTime} (h : ∃ w ∈ l.toList ++ r.toList, (f w.wheel).isSome = true) :
    ∃ t, earliest ((l.toList ++ r.toList).map fun w => f w.wheel) = some t ∧ firstTime (l.toList ++ r.toList) t f := by
  obtain ⟨w, hw, hsome⟩ := h
  refine (earliest_spec l r f).resolve_left fun hnone => ?_
  rw [hnone.2 w hw] at hsome
  exact nomatch hsome

theorem earliest_absent {f : Wheel → Option SiteTime} (h : ∀ w ∈ l.toList ++ r.toList, f w.wheel = none) :
    earliest ((l.toList ++ r.toList).map fun w => f w.wheel) = none := by
  obtain ⟨hnone, -⟩ | ⟨t, -, ⟨w, hw, ht⟩, -⟩ := earliest_spec l r f
  · exact hnone
  · exact nomatch (h w hw).symm.trans ht

theorem makeAxle_leadTime : (makeAxle kind l r blind).leadTime =
    match earliest ((l.toList ++ r.toList).map fun w => w.wheel.leadStart) with
    | some t => t
    | none => (earliest ((l.toList ++ r.toList).map fun w => w.wheel.trailStart)).getD 0 := rfl

theorem makeAxle_trailTime : (makeAxle kind l r blind).trailTime =
    earliest ((l.toList ++ r.toList).map fun w => w.wheel.trailStart) := rfl

theorem makeAxle_leadTime_lead (h : ∃ w ∈ l.toList ++ r.toList, w.wheel.leadStart.isSome = true) :
    firstTime (l.toList ++ r.toList) (makeAxle kind l r blind).leadTime Wheel.leadStart := by
  obtain ⟨t, ht, hfirst⟩ := earliest_first h
  rw [makeAxle_leadTime, ht]
  exact hfirst

theorem makeAxle_leadTime_trail (hl : ∀ w ∈ l.toList ++ r.toList, w.wheel.leadStart = none)
    (h : ∃ w ∈ l.toList ++ r.toList, w.wheel.trailStart.isSome = true) :
    firstTime (l.toList ++ r.toList) (makeAxle kind l r blind).leadTime Wheel.trailStart := by
  obtain ⟨t, ht, hfirst⟩ := earliest_first h
  rw [makeAxle_leadTime, earliest_absent hl, ht]
  exact hfirst

theorem makeAxle_load : (makeAxle kind l r blind).load = ((l.toList ++ r.toList).map fun w => w.wheel.load.getD 0).sum := by
  have hload : (makeAxle kind l r blind).load = (wheelLoad l).getD 0 + (wheelLoad r).getD 0 := rfl
  rw [hload]
  cases l <;> cases r <;> simp [wheelLoad]

theorem makeAxle_speed : (makeAxle kind l r blind).speed =
    if ((l.toList ++ r.toList).filterMap fun w => w.wheel.speed.or w.borrowed) = [] then none
    else some (((l.toList ++ r.toList).filterMap fun w => w.wheel.speed.or w.borrowed).sum /
      ((l.toList ++ r.toList).filterMap fun w => w.wheel.speed.or w.borrowed).length) := by
  have hspeed : AxleWheel.speed = fun w => w.wheel.speed.or w.borrowed := funext fun w => by
    unfold AxleWheel.speed
    cases w.wheel.speed <;> rfl
  have hmean : (makeAxle kind l r blind).speed = meanSpeed ((l.toList ++ r.toList).map AxleWheel.speed) := rfl
  rw [hmean, meanSpeed_eq, List.filterMap_map, Function.id_comp, hspeed]

end

/-! ## The decision (R96, R99 to R101) -/

section
variable {p : Part} {d k q : Wheel}

theorem Part.takePending_eq (n : Count16) (p : Part) : p.takePending n = { p with
    vau := { p.vau with waiting := dropFirst (fun w => decide (w.wheel.number = n)) p.vau.waiting }
    pse := { p.pse with store := p.pse.store.map fun r => if r.wheel.number = n then { r with isOpen := false } else r } } := rfl

theorem Part.neighbour_eq (side : Side) (p : Part) : p.neighbour side =
    match side with | .left => p.block.leftNeighbour | .right => p.block.rightNeighbour := by
  cases side <;> rfl

theorem ne_side_iff {a b : Side} : a = otherSide b ↔ a ≠ b := by
  cases a <;> cases b <;> decide

theorem Part.inLanePartner_eq (d : Wheel) (p : Part) : p.inLanePartner d = (bestCandidate p.image.assembly.dc d
    ((p.vau.waiting.map PendingWheel.wheel).filter fun k => decide (k.side ≠ d.side))).map Prod.snd := by
  have hside : (fun k : Wheel => decide (k.side = otherSide d.side)) = fun k => decide (k.side ≠ d.side) :=
    funext fun k => decide_eq_decide.2 ne_side_iff
  rw [Part.inLanePartner, hside]

/-- The peer wheels that are candidates for a wheel with a neighbour on its side (R93, R100). -/
def Part.peerCandidates (p : Part) (d : Wheel) (n : Nat) : List Wheel :=
  (p.vau.peers.filter fun e => decide (e.sender = n ∧ e.wheel.side ≠ d.side ∧ e.aged = false ∧
    siteDiff p.now e.wheel.refTime ≤ ((p.image.assembly.tmax + p.image.assembly.lp) * 1000 : Nat))).map PeerWheel.wheel

theorem Part.straddlePartner_none (h : p.neighbour d.side = none) : p.straddlePartner d = none := by
  simp only [Part.straddlePartner, h]

theorem Part.straddlePartner_some {n : Nat} (h : p.neighbour d.side = some n) :
    p.straddlePartner d = (bestCandidate p.image.assembly.dc d (p.peerCandidates d n)).map Prod.snd := by
  have hfilter : (fun e : PeerWheel => e.sender = n && e.wheel.side = otherSide d.side && !p.peerAged e) = fun e =>
      decide (e.sender = n ∧ e.wheel.side ≠ d.side ∧ e.aged = false ∧
        siteDiff p.now e.wheel.refTime ≤ ((p.image.assembly.tmax + p.image.assembly.lp) * 1000 : Nat)) := funext fun e => by
    rw [Bool.eq_iff_iff]
    simp [Part.peerAged, Part.peerAge, ne_side_iff, and_assoc]
  simp only [Part.straddlePartner, h, hfilter]
  rfl

theorem Part.decideWheel_lane (h : (p.takePending d.number).inLanePartner d = some k) :
    p.decideWheel d = ((p.takePending d.number).takePending k.number).formInLane d k := by
  simp only [Part.decideWheel, h]

theorem Part.decideWheel_straddle {n : Nat} (h : (p.takePending d.number).inLanePartner d = none)
    (hs : (p.takePending d.number).straddlePartner d = some q) (hn : (p.takePending d.number).neighbour d.side = some n) :
    p.decideWheel d = (p.takePending d.number).formStraddle d q n := by
  simp only [Part.decideWheel, h, hs, hn]

theorem Part.decideWheel_single (h : (p.takePending d.number).inLanePartner d = none)
    (hs : (p.takePending d.number).straddlePartner d = none) : p.decideWheel d = (p.takePending d.number).formSingle d := by
  simp only [Part.decideWheel, h, hs]

theorem Part.formInLane_left (hd : d.side = .left) : p.formInLane d k =
    p.handAxle (makeAxle .inLane (some (p.localCopy d (some k))) (some (p.localCopy k (some d))) false) := by
  simp only [Part.formInLane, hd]

theorem Part.formInLane_right (hd : d.side = .right) : p.formInLane d k =
    p.handAxle (makeAxle .inLane (some (p.localCopy k (some d))) (some (p.localCopy d (some k))) false) := by
  simp only [Part.formInLane, hd]

theorem Part.formSingle_left (hd : d.side = .left) : p.formSingle d =
    p.handAxle (makeAxle .singleWheel (some { wheel := d, borrowed := none, isLocal := true }) none (p.blindTest d)) := by
  simp only [Part.formSingle, hd, Part.localCopy_alone]

theorem Part.formSingle_right (hd : d.side = .right) : p.formSingle d =
    p.handAxle (makeAxle .singleWheel none (some { wheel := d, borrowed := none, isLocal := true }) (p.blindTest d)) := by
  simp only [Part.formSingle, hd, Part.localCopy_alone]

/-- The part whose peer list no longer holds the partner of a straddle axle (R93). -/
def Part.freed (p : Part) (q : Wheel) (n : Nat) : Part := { p with
  vau := { p.vau with peers := dropFirst (fun e => decide (e.sender = n ∧ e.wheel = q)) p.vau.peers } }

theorem Part.formStraddle_eq (d q : Wheel) (n : Nat) (p : Part) : p.formStraddle d q n =
    if (p.freed q n).owns d q n then
      match d.side with
      | .right => (p.freed q n).handAxle (makeAxle .straddleRight (some ((p.freed q n).localCopy d (some q)))
          (some ((p.freed q n).peerCopy q d)) ((p.freed q n).blindTest d))
      | .left => (p.freed q n).handAxle (makeAxle .straddleLeft (some ((p.freed q n).peerCopy q d))
          (some ((p.freed q n).localCopy d (some q))) ((p.freed q n).blindTest d))
    else (p.freed q n).cedeAxle := by
  have hfreed : (p.modVau fun v => { v with peers := dropFirst (fun e => e.sender = n && e.wheel = q) v.peers }) = p.freed q n := by
    simp only [Part.modVau, Part.freed, Bool.decide_and]
  cases hd : d.side <;> simp only [Part.formStraddle, hfreed, hd]

theorem Part.blindTest_eq (d : Wheel) (p : Part) : p.blindTest d = ((p.neighbour d.side).isSome && p.sbc.blind.any fun b =>
    (match b.close with | some c => decide (siteDiff p.now c ≤ 10000000) | none => true) &&
      decide (siteDiff b.start p.now ≤ 0 ∧
        0 ≤ siteDiff (b.close.getD p.now) (d.refTime - BitVec.ofNat 48 (p.image.assembly.lp * 1000)))) :=
  congrArg (fun x => (p.neighbour d.side).isSome && x) (Part.blindOver_eq _)

end

/-- Settles O55: the best candidate, the decision by its partner, the copies of the wheels and the axle they form. -/
theorem decidedWheelFormsItsAxle : Obligations.DecidedWheelFormsItsAxle := by
  refine ⟨fun dc d l => ⟨bestCandidate_none_iff dc d l, bestCandidate_spec dc d l, fun a b o => bestCandidate_tie⟩, fun p d => ?_,
    fun p w k v => ?_, fun kind l r blind => ?_⟩
  · intro asm without taken near lane beyond freed blind alone
    have htaken : p.takePending d.number = taken := Part.takePending_eq d.number p
    have hnear : taken.neighbour d.side = near := Part.neighbour_eq d.side p
    have hlane : taken.inLanePartner d = lane.map Prod.snd := Part.inLanePartner_eq d taken
    have hblind : taken.blindTest d = blind := by
      rw [Part.blindTest_eq, hnear]
      rfl
    have hsingle (hl : lane = none) (hb : ∀ n, near = some n → beyond n = none) : p.decideWheel d = taken.formSingle d := by
      rw [← htaken] at hlane hnear
      rw [Part.decideWheel_single (by rw [hlane, hl]; rfl), htaken]
      rcases hn : near with _ | n
      · exact Part.straddlePartner_none (hnear.trans hn)
      · have hnone : bestCandidate asm.dc d ((p.takePending d.number).peerCandidates d n) = none := hb n hn
        rw [Part.straddlePartner_some (hnear.trans hn)]
        exact congrArg (Option.map Prod.snd) hnone
    refine ⟨fun o k hk => ?_, fun n o q hl hn hq => ?_, fun hl hb => ⟨fun hd => ?_, fun hd => ?_⟩⟩
    · have hpartner : (p.takePending d.number).inLanePartner d = some k := by rw [htaken, hlane, hk]; rfl
      exact ⟨fun hd => (Part.decideWheel_lane hpartner).trans (Part.formInLane_left hd),
        fun hd => (Part.decideWheel_lane hpartner).trans (Part.formInLane_right hd)⟩
    · have hnone : (p.takePending d.number).inLanePartner d = none := by rw [htaken, hlane, hl]; rfl
      have hside : (p.takePending d.number).neighbour d.side = some n := by rw [htaken, hnear, hn]
      have hpartner : (p.takePending d.number).straddlePartner d = some q := by
        rw [Part.straddlePartner_some hside]
        exact congrArg (Option.map Prod.snd) hq
      have hform := (Part.decideWheel_straddle hnone hpartner hside).trans (Part.formStraddle_eq d q n _)
      rw [htaken] at hform
      refine ⟨fun ho => hform.trans (if_neg (Bool.eq_false_iff.1 ho)), fun ho hd => ?_, fun ho hd => ?_⟩
      · refine (hform.trans (if_pos ho)).trans ?_
        simp only [hd]
        rw [← hblind]
        rfl
      · refine (hform.trans (if_pos ho)).trans ?_
        simp only [hd]
        rw [← hblind]
        rfl
    · rw [hsingle hl hb, Part.formSingle_left hd, hblind]
    · rw [hsingle hl hb, Part.formSingle_right hd, hblind]
  · refine ⟨fun hw => ⟨Part.localCopy_speed hw _, Part.peerCopy_speed hw k⟩, fun hw hk hlo hhi hload => ?_,
      fun hw hk => Part.peerCopy_borrows hw hk⟩
    rw [Part.localCopy_borrows hw hk, Part.finishLocal_eq hload hlo hhi, Part.strikeMarked_eq]
  · refine ⟨rfl, rfl, rfl, rfl, rfl, makeAxle_load, fun hs => makeAxle_speed.trans (if_pos hs),
      fun hs => makeAxle_speed.trans (if_neg hs), makeAxle_leadTime_lead, makeAxle_leadTime_trail, earliest_first, earliest_absent⟩

end Sys2Proof.Machine
end


section
/-! PROOFS. The axle former's hold (R95 to R97): what its decisions leave, that nothing due stays, and the two plainest holds. -/

namespace Sys2Proof.Machine

/-! ## What the work on vehicles leaves of the axle former's lists -/

/-- From `a` to `b` the intake, the pending wheels and the peer wheels stay. -/
structure Part.KeepsWheels (a b : Part) : Prop where
  intake : b.vau.intake = a.vau.intake
  waiting : b.vau.waiting = a.vau.waiting
  peers : b.vau.peers = a.vau.peers

namespace Part.KeepsWheels

variable {a b c : Part}

theorem refl (p : Part) : p.KeepsWheels p := ⟨rfl, rfl, rfl⟩

theorem trans (h : a.KeepsWheels b) (k : b.KeepsWheels c) : a.KeepsWheels c :=
  ⟨k.intake.trans h.intake, k.waiting.trans h.waiting, k.peers.trans h.peers⟩

theorem of_report (h : a.ReportFrame b) : a.KeepsWheels b := by
  constructor <;> rw [h.vau]

theorem closeVehicle (cause : CloseCause) (p : Part) : p.KeepsWheels (p.closeVehicle cause) := by
  rcases hv : p.vau.vehicle with _ | v
  · rw [Part.closeVehicle_none hv]
    exact refl p
  · obtain ⟨f, -, hclose⟩ := Part.closeVehicle_record hv cause
    obtain ⟨port, hport⟩ := Part.handOver_vau (p.closingRecord v f (v.closeMark.getD cause)) (p.runEnded v)
    rw [Part.runEnded_vau hv] at hport
    rw [hclose]
    constructor <;> rw [hport]

theorem closeIfDue (p : Part) : p.KeepsWheels p.closeIfDue := by
  unfold Part.closeIfDue
  split
  · exact refl p
  · split
    · exact closeVehicle _ p
    · exact refl p

theorem openVehicle (continuation : Bool) (a : Axle) (p : Part) : p.KeepsWheels (p.openVehicle continuation a) := by
  have hopened : p.KeepsWheels (p.opened continuation a) := ⟨rfl, rfl, rfl⟩
  rw [Part.openVehicle_eq]
  exact (hopened.trans (of_report (Part.ReportFrame.frontReport _ _))).trans (of_report (Part.ReportFrame.grossReport _ _ _))

theorem joinAxle (a : Axle) (v : Vehicle) (p : Part) : p.KeepsWheels (p.joinAxle a v) := by
  have hopen : p.KeepsWheels (p.withOpen (v.joined p.image.assembly a (insertAxle a v.axles))) := ⟨rfl, rfl, rfl⟩
  rw [Part.joinAxle_eq rfl]
  exact hopen.trans (of_report (Part.ReportFrame.grossReport _ _ _))

theorem handAxle (a : Axle) (p : Part) : p.KeepsWheels (p.handAxle a) := by
  simp only [Part.handAxle]
  refine (closeIfDue p).trans ?_
  split
  · exact openVehicle _ a _
  · split
    · split
      · exact joinAxle a _ _
      · exact (closeVehicle _ _).trans (openVehicle _ a _)
    · exact (closeVehicle _ _).trans (openVehicle _ a _)

theorem cedeAxle (p : Part) : p.KeepsWheels p.cedeAxle := by
  have hcounted : p.KeepsWheels ((p.modTotals fun t => { t with ceded := satInc t.ceded }).modVcl fun v =>
      { v with cededCarry := satInc v.cededCarry }) := ⟨rfl, rfl, rfl⟩
  simp only [Part.cedeAxle]
  refine hcounted.trans ?_
  split
  · exact closeVehicle _ _
  · exact refl _

end Part.KeepsWheels

/-! ## What a decision leaves -/

/-- The frame of the axle former's work: no peer wheel is added, the intake stays, and four blocks may change. -/
structure Part.FormerFrame (a b : Part) : Prop where
  peers : b.vau.peers.Sublist a.vau.peers
  intake : b.vau.intake = a.vau.intake
  blocks : a.changedOnly [.pse, .vau, .vcl, .tou] b

namespace Part.FormerFrame

variable {a b c : Part}

theorem refl (p : Part) : p.FormerFrame p := ⟨.refl _, rfl, p.changedOnly_refl _⟩

theorem trans (h : a.FormerFrame b) (k : b.FormerFrame c) : a.FormerFrame c :=
  ⟨k.peers.trans h.peers, k.intake.trans h.intake, h.blocks.trans k.blocks⟩

theorem of_keeps (h : a.KeepsWheels b) (hb : a.changedOnly [.pse, .vau, .vcl, .tou] b) : a.FormerFrame b :=
  ⟨by rw [h.peers], h.intake, hb⟩

end Part.FormerFrame

/-- The frame of a decision: it adds no pending wheel either. -/
structure Part.Decides (a b : Part) : Prop extends a.FormerFrame b where
  waiting : b.vau.waiting.Sublist a.vau.waiting

namespace Part.Decides

variable {a b c : Part}

theorem refl (p : Part) : p.Decides p := ⟨.refl p, .refl _⟩

theorem trans (h : a.Decides b) (k : b.Decides c) : a.Decides c :=
  ⟨h.toFormerFrame.trans k.toFormerFrame, k.waiting.trans h.waiting⟩

theorem of_keeps (h : a.KeepsWheels b) (hb : a.changedOnly [.pse, .vau, .vcl, .tou] b) : a.Decides b :=
  ⟨.of_keeps h hb, by rw [h.waiting]⟩

theorem takePending (n : Count16) (p : Part) : p.Decides (p.takePending n) :=
  ⟨⟨.refl _, rfl, ((p.changedOnly_modVau _).mono (by simp)).trans ((Part.changedOnly_closeRecord _ _).mono (by simp))⟩,
    dropFirst_sublist _ _⟩

theorem freed (q : Wheel) (n : Nat) (p : Part) : p.Decides (p.freed q n) :=
  ⟨⟨dropFirst_sublist _ _, rfl, (Part.changedOnly_modVau (fun v => { v with
    peers := dropFirst (fun e => decide (e.sender = n ∧ e.wheel = q)) v.peers }) p).mono (by simp)⟩, .refl _⟩

theorem handAxle (a : Axle) (p : Part) : p.Decides (p.handAxle a) :=
  of_keeps (.handAxle a p) ⟨by simp, by simp, fun k hk => by cases k <;> simp_all [Part.sameAt]⟩

theorem cedeAxle (p : Part) : p.Decides p.cedeAxle :=
  of_keeps (.cedeAxle p) ⟨by simp, by simp, fun k hk => by cases k <;> simp_all [Part.sameAt]⟩

theorem formInLane (d k : Wheel) (p : Part) : p.Decides (p.formInLane d k) := by
  simp only [Part.formInLane]
  split <;> exact handAxle _ p

theorem formSingle (d : Wheel) (p : Part) : p.Decides (p.formSingle d) := by
  simp only [Part.formSingle]
  split <;> exact handAxle _ p

theorem formStraddle (d q : Wheel) (n : Nat) (p : Part) : p.Decides (p.formStraddle d q n) := by
  rw [Part.formStraddle_eq]
  refine (freed q n p).trans ?_
  split
  · split <;> exact handAxle _ _
  · exact cedeAxle _

theorem decideWheel (d : Wheel) (p : Part) : p.Decides (p.decideWheel d) := by
  simp only [Part.decideWheel]
  refine (takePending d.number p).trans ?_
  split
  · exact (takePending _ _).trans (formInLane _ _ _)
  · split
    · exact formStraddle _ _ _ _
    · exact formSingle _ _

theorem decideAll (f : PendingWheel → Bool) (n : Nat) : ∀ p : Part, p.Decides (p.decideAll f n) := by
  induction n with
  | zero => exact refl
  | succ n ih =>
    intro p
    unfold Part.decideAll
    split
    · exact refl p
    · exact (decideWheel _ p).trans (ih _)

end Part.Decides

section
variable {p : Part} {f : PendingWheel → Bool}

theorem Part.decideAll_none {n : Nat} (h : p.vau.waiting.find? f = none) : p.decideAll f n = p := by
  cases n with
  | zero => rfl
  | succ n => simp only [Part.decideAll, h]

theorem Part.decideAll_some {n : Nat} {w : PendingWheel} (h : p.vau.waiting.find? f = some w) :
    p.decideAll f (n + 1) = (p.decideWheel w.wheel).decideAll f n := by
  simp only [Part.decideAll, h]

/-- A decision for each pending wheel decides all that the test names. -/
theorem Part.decideAll_done (f : PendingWheel → Bool) (n : Nat) : ∀ p : Part, p.vau.waiting.length ≤ n →
    ∀ w ∈ (p.decideAll f n).vau.waiting, f w = false := by
  induction n with
  | zero =>
    intro p hn w hw
    have hnil : p.vau.waiting = [] := List.eq_nil_of_length_eq_zero (Nat.le_zero.1 hn)
    exact nomatch hnil ▸ (show w ∈ p.vau.waiting from hw)
  | succ n ih =>
    intro p hn
    rcases hfind : p.vau.waiting.find? f with _ | x
    · rw [Part.decideAll_none hfind]
      exact fun w hw => Bool.eq_false_iff.2 (List.find?_eq_none.1 hfind w hw)
    · rw [Part.decideAll_some hfind]
      refine ih _ ?_
      have hmem : x ∈ p.vau.waiting := List.mem_of_find?_eq_some hfind
      have hany : (p.vau.waiting.any fun w => w.wheel.number = x.wheel.number) = true :=
        List.any_eq_true.2 ⟨x, hmem, decide_eq_true rfl⟩
      have hshort := p.decideWheel_waiting x.wheel
      have hdrop := dropFirst_length hany
      omega

end

/-! ## The intake placed (R95, R96) -/

section
variable {p : Part} {w : IntakeWheel}

/-- A wheel of the intake as it joins the pending wheels (R95). -/
def Part.pendingOf (p : Part) (w : IntakeWheel) : PendingWheel :=
  { wheel := w.wheel, decisionTime := w.completion + BitVec.ofNat 48 (p.image.assembly.lp * 1000), forced := w.forced }

/-- The part with a wheel added to the pending wheels. -/
def Part.withPending (p : Part) (e : PendingWheel) : Part :=
  { p with vau := { p.vau with waiting := p.vau.waiting ++ [e] } }

theorem Part.placeWheel_room (h : p.vau.waiting.length < 8) : p.placeWheel w = p.withPending (p.pendingOf w) := by
  simp only [Part.placeWheel, if_pos h]
  rfl

/-- The part that counts a decision forced by a full list (R96, R97). -/
def Part.countForced (p : Part) : Part := { p with vau := { p.vau with forcedDecisions := satInc p.vau.forcedDecisions } }

theorem Part.placeWheel_full {oldest : PendingWheel} {rest : List PendingWheel} (h : p.vau.waiting = oldest :: rest)
    (hl : p.vau.waiting.length = 8) : p.placeWheel w = (p.countForced.decideWheel oldest.wheel).withPending (p.pendingOf w) := by
  have hfull : ¬(oldest :: rest).length < 8 := by rw [← h]; omega
  simp only [Part.placeWheel, h, if_neg hfull]
  rfl

theorem Part.FormerFrame.placeWheel (w : IntakeWheel) (p : Part) : p.FormerFrame (p.placeWheel w) := by
  have hadd (q : Part) (e : PendingWheel) : q.FormerFrame (q.modVau fun v => { v with waiting := v.waiting ++ [e] }) :=
    ⟨.refl _, rfl, (Part.changedOnly_modVau _ _).mono (by simp)⟩
  have hcount : p.FormerFrame (p.modVau fun v => { v with forcedDecisions := satInc v.forcedDecisions }) :=
    ⟨.refl _, rfl, (Part.changedOnly_modVau _ _).mono (by simp)⟩
  simp only [Part.placeWheel]
  refine .trans ?_ (hadd _ _)
  split
  · exact .refl p
  · split
    · exact .refl p
    · exact hcount.trans (Part.Decides.decideWheel _ _).toFormerFrame

theorem Part.FormerFrame.foldl_placeWheel (l : List IntakeWheel) : ∀ p : Part, p.FormerFrame (l.foldl Part.placeWheel p) := by
  induction l with
  | nil => exact Part.FormerFrame.refl
  | cons w l ih => exact fun p => (Part.FormerFrame.placeWheel w p).trans (ih _)

theorem Part.placeIntake_eq (p : Part) : p.removeAged.placeIntake = p.vau.intake.foldl Part.placeWheel p.formerReady := by
  rw [Part.removeAged_eq, Part.placeIntake]
  rfl

end

/-! ## The work of a hold (R95) -/

section
variable {p : Part}

/-- The part whose intake is placed (R95). -/
def Part.placed (p : Part) : Part := p.vau.intake.foldl Part.placeWheel p.formerReady

/-- The part whose marked wheels are decided too (R97). -/
def Part.forcedDecided (p : Part) : Part := p.placed.decideAll PendingWheel.forced p.placed.vau.waiting.length

/-- The part whose wheels past their decision time are decided too (R95). -/
def Part.allDecided (p : Part) : Part := p.forcedDecided.decideAll (decisionReached p.now) p.forcedDecided.vau.waiting.length

theorem Part.formerWork_eq (p : Part) : p.formerWork = p.allDecided.closeIfDue := by
  simp only [Part.formerWork, Part.placeIntake_eq]
  rfl

theorem Part.FormerFrame.allDecided (p : Part) : p.formerReady.FormerFrame p.allDecided :=
  ((Part.FormerFrame.foldl_placeWheel _ _).trans (Part.Decides.decideAll _ _ _).toFormerFrame).trans
    (Part.Decides.decideAll _ _ _).toFormerFrame

theorem Part.allDecided_waiting (p : Part) : ∀ w ∈ p.allDecided.vau.waiting, w.forced = false ∧ siteDiff p.now w.decisionTime < 0 := by
  intro w hw
  have hforced := Part.decideAll_done PendingWheel.forced _ p.placed (Nat.le_refl _) w
    ((Part.Decides.decideAll _ _ p.forcedDecided).waiting.subset hw)
  have hdue := Part.decideAll_done (decisionReached p.now) _ p.forcedDecided (Nat.le_refl _) w hw
  exact ⟨hforced, Int.not_le.1 (of_decide_eq_false hdue)⟩

theorem Part.changedOnly_closeIfDue (p : Part) : p.changedOnly [.pse, .vau, .vcl, .tou] p.closeIfDue := by
  unfold Part.closeIfDue
  split
  · exact p.changedOnly_refl _
  · split
    · exact (Part.changedOnly_closeVehicle _ p).mono (by simp)
    · exact p.changedOnly_refl _

theorem Part.FormerFrame.closeIfDue (p : Part) : p.FormerFrame p.closeIfDue :=
  .of_keeps (.closeIfDue p) p.changedOnly_closeIfDue

/-- After the close that is due, the vehicle that is still open is not due (R120). -/
theorem Part.closeIfDue_vehicle (p : Part) : ∀ v, p.closeIfDue.vau.vehicle = some v → v.closeMark = none ∧ siteDiff p.now v.closeTime < 0 := by
  intro v hv
  rcases hopen : p.vau.vehicle with _ | x
  · rw [Part.closeIfDue_none hopen, hopen] at hv
    exact nomatch hv
  · by_cases hdue : x.closeMark.isSome = true ∨ 0 ≤ siteDiff p.now x.closeTime
    · rw [Part.closeIfDue_due hopen hdue, Part.closeVehicle_vehicle] at hv
      exact nomatch hv
    · obtain ⟨hmark, hclose⟩ := not_or.1 hdue
      have hnone : x.closeMark = none := Option.not_isSome_iff_eq_none.1 hmark
      rw [Part.closeIfDue_open hopen hnone (Int.not_le.1 hclose), hopen] at hv
      exact Option.some.inj hv ▸ ⟨hnone, Int.not_le.1 hclose⟩

/-- The frame of a whole hold: the peer wheels that stay are those not aged. -/
theorem Part.FormerFrame.formerWork (p : Part) : p.formerReady.FormerFrame p.formerWork := by
  rw [Part.formerWork_eq]
  exact (Part.FormerFrame.allDecided p).trans (Part.FormerFrame.closeIfDue _)

theorem Part.formerWork_blocks (p : Part) : p.changedOnly [.pse, .vau, .vcl, .tou] p.formerWork.releasePort :=
  (((p.changedOnly_modVau _).mono (by simp)).trans (Part.FormerFrame.formerWork p).blocks).trans
    ((Part.changedOnly_modVau _ _).mono (by simp))

theorem Part.mem_youngPeers {e : PeerWheel} (h : e ∈ p.youngPeers) :
    e.aged = false ∧ siteDiff p.now e.wheel.refTime ≤ (p.image.assembly.tmax + p.image.assembly.lp) * 1000 := by
  obtain ⟨-, hyoung⟩ := List.mem_filter.1 h
  simpa using hyoung

end

end Sys2Proof.Machine
end


section
/-! PROOFS. The axle former at its plainest (R95 to R97, R101, R102, R117): one wheel alone, and two wheels of the lane. -/

namespace Sys2Proof.Machine

/-! ## An axle that opens a vehicle (R117) -/

/-- From `p` the part `q` has opened a vehicle of one axle, with no wheel left pending. -/
structure Part.JustOpened (p : Part) (a : Axle) (q : Part) : Prop where
  waiting : q.vau.waiting = []
  tag : q.vau.tagCounter = p.vau.tagCounter + 1
  run : q.vau.runStart = some a.leadTime
  vehicle : ∃ v, q.vau.vehicle = some v ∧ v.axles = [a] ∧ v.tag = p.vau.tagCounter ∧ v.closeMark = none ∧
    v.runningGross = a.load ∧ v.closeTime = closeTimeOf p.image.assembly [a]

section
variable {p r : Part} {a : Axle}

theorem Part.openVehicle_vau (continuation : Bool) (a : Axle) (p : Part) : ∃ f, (p.openVehicle continuation a).vau = { p.vau with
    vehicle := some { p.newVehicle continuation a with flags := f }
    tagCounter := p.vau.tagCounter + 1, runStart := some a.leadTime } := by
  obtain ⟨⟨f, -, hfront⟩, -⟩ := Part.OwnReportFrame.frontReport (vehicleTiming p.vau.tagCounter [a]) (p.opened continuation a)
    (p.newVehicle continuation a) rfl rfl
  obtain ⟨⟨g, -, hgross⟩, -⟩ := Part.OwnReportFrame.grossReport (vehicleTiming p.vau.tagCounter [a]) a.load
    ((p.opened continuation a).frontReport (vehicleTiming p.vau.tagCounter [a])) { p.newVehicle continuation a with flags := f }
    (by rw [hfront]) rfl
  refine ⟨g, ?_⟩
  rw [Part.openVehicle_eq, hgross, hfront]
  rfl

theorem Part.openVehicle_waits (hw : r.vau.waiting = []) (hc : siteDiff r.now (closeTimeOf r.image.assembly [a]) < 0) :
    r.JustOpened a (r.openVehicle false a).closeIfDue.releasePort := by
  obtain ⟨f, hvau⟩ := r.openVehicle_vau false a
  have hopen : (r.openVehicle false a).vau.vehicle = some { r.newVehicle false a with flags := f } := by rw [hvau]
  have hnow : (r.openVehicle false a).now = r.now := congrArg Stu.siteTime (Part.openVehicle_stu false a r)
  have hclose : siteDiff (r.openVehicle false a).now (closeTimeOf r.image.assembly [a]) < 0 := by rw [hnow]; exact hc
  rw [Part.closeIfDue_open hopen rfl hclose]
  have hport : (r.openVehicle false a).releasePort.vau =
      { (r.openVehicle false a).vau with port := (r.openVehicle false a).vau.port.grantNext } := rfl
  constructor
  · rw [hport, hvau]
    exact hw
  · rw [hport, hvau]
  · rw [hport, hvau]
  · rw [hport, hvau]
    exact ⟨_, rfl, rfl, rfl, rfl, rfl, rfl⟩

theorem Part.handAxle_empty (h : r.vau.vehicle = none) : r.handAxle a = r.openVehicle false a := by
  rw [Part.handAxle_none (by rw [Part.closeIfDue_none h]; exact h), Part.closeIfDue_none h]

end

/-! ## One wheel alone (R101) -/

section
variable {p : Part} {w k : Wheel} {t u : SiteTime}

/-- The axle of a wheel alone (R101). -/
def Part.singleAxle (p : Part) (w : Wheel) : Axle :=
  makeAxle .singleWheel (if w.side = .left then some { wheel := w, borrowed := none, isLocal := true } else none)
    (if w.side = .right then some { wheel := w, borrowed := none, isLocal := true } else none) (p.blindTest w)

theorem Part.formSingle_eq (w : Wheel) (p : Part) : p.formSingle w = p.handAxle (p.singleAxle w) := by
  rcases hs : w.side with _ | _
  · rw [Part.formSingle_left hs, Part.singleAxle, hs]
    rfl
  · rw [Part.formSingle_right hs, Part.singleAxle, hs]
    rfl

theorem Part.singleAxle_load (w : Wheel) (p : Part) : (p.singleAxle w).load = w.load.getD 0 := by
  rw [Part.singleAxle, makeAxle_load]
  cases w.side <;> simp

theorem Part.singleAxle_leadTime (w : Wheel) (p : Part) : (p.singleAxle w).leadTime = w.refTime := by
  have hone : (p.singleAxle w).leadTime = match earliest [w.leadStart] with
      | some t => t
      | none => (earliest [w.trailStart]).getD 0 := by
    rw [Part.singleAxle, makeAxle_leadTime]
    cases w.side <;> rfl
  rw [hone, Wheel.refTime]
  cases w.leadStart with
  | some t => rfl
  | none => cases w.trailStart <;> rfl

theorem Part.straddlePartner_no_peers (h : p.vau.peers = []) : p.straddlePartner w = none := by
  rcases hn : p.neighbour w.side with _ | n
  · exact Part.straddlePartner_none hn
  · rw [Part.straddlePartner_some hn, Part.peerCandidates, h]
    rfl

theorem decisionReached_iff {now : SiteTime} {e : PendingWheel} : decisionReached now e = true ↔ 0 ≤ siteDiff now e.decisionTime :=
  decide_eq_true_iff

/-- The part whose only pending wheel has left the list (R96). -/
def Part.lastTaken (p : Part) (n : Count16) : Part := { p.formerReady with
  vau := { p.formerReady.vau with waiting := [] }
  pse := { p.pse with store := p.pse.store.map fun r => if r.wheel.number = n then { r with isOpen := false } else r } }

theorem Part.formerWork_single (hi : p.vau.intake = [{ wheel := w, completion := t, forced := false }]) (hw : p.vau.waiting = [])
    (hp : p.vau.peers = []) (hdue : 0 ≤ siteDiff p.now (t + BitVec.ofNat 48 (p.image.assembly.lp * 1000))) :
    p.formerWork = ((p.lastTaken w.number).formSingle w).closeIfDue := by
  let e : PendingWheel := { wheel := w, decisionTime := t + BitVec.ofNat 48 (p.image.assembly.lp * 1000), forced := false }
  have hroom : p.formerReady.vau.waiting.length < 8 := by
    have hnone : p.formerReady.vau.waiting = [] := hw
    rw [hnone]
    exact Nat.zero_lt_succ 7
  have hplaced : p.placed = p.formerReady.withPending e := by
    rw [Part.placed, hi]
    exact Part.placeWheel_room hroom
  have hpending : (p.formerReady.withPending e).vau.waiting = [e] := congrArg (fun l => l ++ [e]) hw
  have hforced : p.forcedDecided = p.formerReady.withPending e := by
    rw [Part.forcedDecided, hplaced]
    exact Part.decideAll_none (by rw [hpending]; rfl)
  have htaken : (p.formerReady.withPending e).takePending w.number = p.lastTaken w.number := by
    rw [Part.takePending_eq, hpending, dropFirst, if_pos (decide_eq_true rfl)]
    rfl
  have hlane : (p.lastTaken w.number).inLanePartner w = none := rfl
  have hpeers : (p.lastTaken w.number).vau.peers = [] := by
    have hyoung : (p.lastTaken w.number).vau.peers = p.youngPeers := rfl
    rw [hyoung, Part.youngPeers, hp]
    rfl
  have hfind : (p.formerReady.withPending e).vau.waiting.find? (decisionReached p.now) = some e := by
    rw [hpending]
    exact List.find?_cons_of_pos (decisionReached_iff.2 hdue)
  have hdecide : (p.formerReady.withPending e).decideWheel w = (p.lastTaken w.number).formSingle w := by
    rw [Part.decideWheel_single (by rw [htaken]; exact hlane) (by rw [htaken]; exact Part.straddlePartner_no_peers hpeers), htaken]
  have hall : p.allDecided = (p.lastTaken w.number).formSingle w := by
    rw [Part.allDecided, hforced, hpending, ← hdecide]
    exact Part.decideAll_some hfind
  rw [Part.formerWork_eq, hall]

/-! ## Two wheels of the lane (R99, R102) -/

/-- The part whose two pending wheels have left the list (R96). -/
def Part.bothTaken (p : Part) (m n : Count16) : Part := { p.formerReady with
  vau := { p.formerReady.vau with waiting := [] }
  pse := { p.pse with store := (p.pse.store.map fun r => if r.wheel.number = m then { r with isOpen := false } else r).map fun r =>
    if r.wheel.number = n then { r with isOpen := false } else r } }

theorem Part.formerWork_inLane (hi : p.vau.intake =
      [{ wheel := w, completion := t, forced := false }, { wheel := k, completion := u, forced := false }])
    (hw : p.vau.waiting = []) (hdue : 0 ≤ siteDiff p.now (t + BitVec.ofNat 48 (p.image.assembly.lp * 1000)))
    (hside : k.side ≠ w.side) (hcand : (candidateOffset p.image.assembly.dc w k).isSome = true) :
    p.formerWork = ((p.bothTaken w.number k.number).formInLane w k).closeIfDue := by
  let d : PendingWheel := { wheel := w, decisionTime := t + BitVec.ofNat 48 (p.image.assembly.lp * 1000), forced := false }
  let e : PendingWheel := { wheel := k, decisionTime := u + BitVec.ofNat 48 (p.image.assembly.lp * 1000), forced := false }
  let q : Part := (p.formerReady.withPending d).withPending e
  have hnone : p.formerReady.vau.waiting = [] := hw
  have hone : (p.formerReady.withPending d).vau.waiting = [d] := congrArg (fun l => l ++ [d]) hw
  have hpending : q.vau.waiting = [d, e] := congrArg (fun l => l ++ [e]) hone
  have hplaced : p.placed = q := by
    rw [Part.placed, hi, List.foldl_cons, Part.placeWheel_room (by rw [hnone]; exact Nat.zero_lt_succ 7)]
    exact Part.placeWheel_room (p := p.formerReady.withPending d) (by rw [hone]; exact Nat.one_lt_succ_succ 6)
  have hforced : p.forcedDecided = q := by
    rw [Part.forcedDecided, hplaced]
    exact Part.decideAll_none (by rw [hpending]; rfl)
  have hfirst : (q.takePending w.number).vau.waiting = [e] := by
    have hdrop : (q.takePending w.number).vau.waiting = dropFirst (fun x => decide (x.wheel.number = w.number)) q.vau.waiting := rfl
    rw [hdrop, hpending, dropFirst, if_pos (decide_eq_true rfl)]
  have hboth : (q.takePending w.number).takePending k.number = p.bothTaken w.number k.number := by
    rw [Part.takePending_eq, hfirst, dropFirst, if_pos (decide_eq_true rfl)]
    rfl
  have hlane : (q.takePending w.number).inLanePartner w = some k := by
    obtain ⟨o, ho⟩ := Option.isSome_iff_exists.1 hcand
    have himage : (q.takePending w.number).image = p.image := rfl
    have hfilter : [k].filter (fun k => decide (k.side ≠ w.side)) = [k] := List.filter_cons_of_pos (decide_eq_true hside)
    have hlist : ([e].map PendingWheel.wheel) = [k] := rfl
    rw [Part.inLanePartner_eq, hfirst, himage, hlist, hfilter, bestCandidate_singleton, ho]
    rfl
  have hfind : q.vau.waiting.find? (decisionReached p.now) = some d := by
    rw [hpending]
    exact List.find?_cons_of_pos (decisionReached_iff.2 hdue)
  have hdecide : q.decideWheel w = (p.bothTaken w.number k.number).formInLane w k := by rw [Part.decideWheel_lane hlane, hboth]
  have hempty : ((p.bothTaken w.number k.number).formInLane w k).vau.waiting.find? (decisionReached p.now) = none := by
    rw [Part.formInLane_waiting]
    rfl
  have hall : p.allDecided = (p.bothTaken w.number k.number).formInLane w k := by
    rw [Part.allDecided, hforced, hpending]
    refine (Part.decideAll_some hfind).trans ?_
    rw [hdecide, Part.decideAll_none hempty]
  rw [Part.formerWork_eq, hall]

end

/-! ## The two commands of the clock (R95, R119) -/

section
variable {s : State}

theorem Part.requestPort_former (p : Part) : p.requestPort .axleFormer = { p with vau := { p.vau with
    port := if p.vau.port.standing .axleFormer then p.vau.port else p.vau.port.request p.clock .axleFormer } } := by
  unfold Part.requestPort
  split <;> rfl

theorem exec_decisionTimeReached (hs : s.running) (h : ∃ w ∈ s.part.vau.waiting, 0 ≤ siteDiff s.part.now w.decisionTime) :
    exec .decisionTimeReached s = .next { s with part := s.part.requestPort .axleFormer } := by
  obtain ⟨w, hw, hdue⟩ := h
  have hany : s.part.vau.waiting.any (decisionReached s.part.now) = true := List.any_eq_true.2 ⟨w, hw, decisionReached_iff.2 hdue⟩
  have hact := act_running (s := s)
    (fun p => if p.vau.waiting.any (decisionReached p.now) then p.requestPort .axleFormer else p) hs
  simp only [if_pos hany] at hact
  exact hact

theorem exec_closeTimeReached (hs : s.running) {v : Vehicle} (hv : s.part.vau.vehicle = some v)
    (hc : 0 ≤ siteDiff s.part.now v.closeTime) : exec .closeTimeReached s = .next { s with
      part := (s.part.modVau fun u => { u with
        vehicle := some { v with closeMark := some (v.closeMark.getD .timer) } }).requestPort .axleFormer } := by
  have hact := act_running (s := s) Part.markTimer hs
  simp only [Part.markTimer, hv, if_pos (Part.closeReached_iff.2 hc)] at hact
  exact hact

end

/-- Settles O54: the two requests, the hold as placing, deciding and closing, and its two plainest cases. -/
theorem axleFormerDoesItsWork : Obligations.AxleFormerDoesItsWork := by
  refine ⟨fun s hs => ?_, fun p => ?_, fun p w => ⟨fun h => Part.placeWheel_room h, fun oldest rest h hl => Part.placeWheel_full h hl⟩⟩
  · intro now asm asked
    refine ⟨fun h => ?_, fun v hv hc => ?_, fun hport => exec_axleFormerHold hs hport, fun hport =>
      ⟨_, exec_axleFormerHold hs hport, ?_⟩⟩
    · rw [exec_decisionTimeReached hs h, Part.requestPort_former]
    · rw [exec_closeTimeReached hs hv hc, Part.requestPort_former]
      rfl
    · have hframe := Part.FormerFrame.formerWork s.part
      refine ⟨hframe.intake, fun w hw => ?_, fun v hv => ?_, fun e he => Part.mem_youngPeers (hframe.peers.subset he),
        s.part.formerWork_blocks, ?_, ?_⟩
      · have hsame : s.part.formerWork.vau.waiting = s.part.allDecided.vau.waiting := by
          rw [Part.formerWork_eq, Part.closeIfDue_waiting]
        exact s.part.allDecided_waiting w (hsame ▸ hw)
      · have hnow : s.part.allDecided.now = s.part.now :=
          congrArg Stu.siteTime ((Part.FormerFrame.allDecided s.part).blocks.2.2 .stu (by simp))
        have hopen : s.part.allDecided.closeIfDue.vau.vehicle = some v := s.part.formerWork_eq ▸ hv
        obtain ⟨hmark, hclose⟩ := Part.closeIfDue_vehicle s.part.allDecided v hopen
        rw [hnow] at hclose
        exact ⟨hmark, hclose⟩
      · intro w t hi hw hp hv hdue single a hc
        have hopened : (s.part.lastTaken w.number).formSingle w = (s.part.lastTaken w.number).openVehicle false a :=
          ((s.part.lastTaken w.number).formSingle_eq w).trans (Part.handAxle_empty hv)
        have hlead : a.leadTime = w.refTime := s.part.singleAxle_leadTime w
        have hload : a.load = w.load.getD 0 := s.part.singleAxle_load w
        rw [Part.formerWork_single hi hw hp hdue, hopened]
        obtain ⟨hnone, htag, hrun, v, hvehicle, haxles, hvtag, hmark, hgross, hclose⟩ :=
          Part.openVehicle_waits (r := s.part.lastTaken w.number) (a := a) rfl hc
        exact ⟨hnone, htag, hlead ▸ hrun, v, hvehicle, haxles, hvtag, hmark, hload ▸ hgross, hclose⟩
      · intro w k t u hi hw hv hdue hl hr _ hcand a hc
        have hopened : (s.part.bothTaken w.number k.number).formInLane w k =
            (s.part.bothTaken w.number k.number).openVehicle false a :=
          (Part.formInLane_left hl).trans (Part.handAxle_empty hv)
        have hside : k.side ≠ w.side := by rw [hl, hr]; exact Side.noConfusion
        rw [Part.formerWork_inLane hi hw hdue hside hcand, hopened]
        obtain ⟨hnone, htag, hrun, v, hvehicle, haxles, hvtag, hmark, hgross, -⟩ :=
          Part.openVehicle_waits (r := s.part.bothTaken w.number k.number) (a := a) rfl hc
        exact ⟨hnone, htag, hrun, v, hvehicle, haxles, hvtag, hmark, hgross⟩
  · intro asm aged placed forced due
    have haged : (fun e => !aged e) = fun e : PeerWheel => !e.aged && decide (siteDiff p.now e.wheel.refTime ≤
        ((asm.tmax + asm.lp) * 1000 : Nat)) := funext fun e => by
      rw [Bool.not_or, not_decide_lt]
    have hplaced : placed = p.placed := by
      have hready : ({ p with vau := { p.vau with peers := p.vau.peers.filter (fun e => !aged e), intake := [] } } : Part) =
          p.formerReady := by
        rw [haged]
        rfl
      exact congrArg (p.vau.intake.foldl Part.placeWheel) hready
    have hforced : forced = p.forcedDecided := by
      rw [Part.forcedDecided, ← hplaced]
    refine ⟨?_, fun v hv hdue => Part.closeIfDue_due hv hdue, fun hopen => ?_, fun f n =>
      ⟨Part.decideAll_none, fun w => Part.decideAll_some⟩⟩
    · rw [Part.formerWork_eq, Part.allDecided, ← hforced]
      rfl
    · rcases hv : p.vau.vehicle with _ | v
      · exact Part.closeIfDue_none hv
      · obtain ⟨hmark, hclose⟩ := hopen v hv
        exact Part.closeIfDue_open hv hmark hclose

end Sys2Proof.Machine
end


section
/-! PROOFS. Where the fields of the payloads lie (R66, R154, R160, R192, R194, sections 12.1 and 12.2): a payload as a list of sized
values with a tail behind it. -/

namespace Sys2Proof.Machine

/-! ## A payload as a list of sized values (R194) -/

/-- The bytes of values of given sizes, one behind the other, each low byte first. -/
def layoutBytes (l : List (Nat × Nat)) : List Byte := l.flatMap fun x => leBytes x.1 x.2

/-- Where the `i`th value of a layout begins. -/
def layoutOffset (l : List (Nat × Nat)) (i : Nat) : Nat := ((l.take i).map Prod.fst).sum

section
variable {l : List (Nat × Nat)} {a b : List Byte} {n o : Nat}

theorem layoutBytes_cons (x : Nat × Nat) (l : List (Nat × Nat)) : layoutBytes (x :: l) = leBytes x.1 x.2 ++ layoutBytes l :=
  List.flatMap_cons

theorem layoutBytes_length (l : List (Nat × Nat)) : (layoutBytes l).length = (l.map Prod.fst).sum := by
  induction l with
  | nil => rfl
  | cons x l ih => rw [layoutBytes_cons, List.length_append, leBytes_length, ih, List.map_cons, List.sum_cons]

theorem fieldAt_append (a b : List Byte) (o n : Nat) : fieldAt (a ++ b) (a.length + o) n = fieldAt b o n := by
  rw [fieldAt, ← List.drop_drop, List.drop_left, fieldAt]

theorem fieldAt_leBytes {v : Nat} (hv : v < 256 ^ n) (b : List Byte) : fieldAt (leBytes n v ++ b) 0 n = v := by
  rw [fieldAt, List.drop_zero, List.take_left' (leBytes_length n v), leValue_leBytes hv]

/-- A field of a layout, read back. -/
theorem fieldAt_layout {v : Nat} (tail : List Byte) : ∀ {l : List (Nat × Nat)} {i : Nat}, l[i]? = some (n, v) → v < 256 ^ n →
    fieldAt (layoutBytes l ++ tail) (layoutOffset l i) n = v
  | [], _, h, _ => nomatch h
  | x :: l, 0, h, hv => by
    obtain rfl : x = (n, v) := Option.some.inj h
    rw [layoutBytes_cons, List.append_assoc]
    exact fieldAt_leBytes hv _
  | x :: l, i + 1, h, hv => by
    have hoffset : layoutOffset (x :: l) (i + 1) = (leBytes x.1 x.2).length + layoutOffset l i := by
      rw [leBytes_length]
      exact List.sum_cons
    rw [layoutBytes_cons, List.append_assoc, hoffset, fieldAt_append]
    exact fieldAt_layout tail (by simpa using h) hv

/-- A field as the fold over its bytes. -/
theorem foldr_bytes (b : List Byte) : b.foldr (fun x k => x.toNat + 256 * k) 0 = leValue b := by
  induction b with
  | nil => rfl
  | cons x b ih => rw [List.foldr_cons, ih, leValue]

theorem leBytes_eq_map (n v : Nat) : leBytes n v = (List.range n).map fun i => BitVec.ofNat 8 (v / 256 ^ i) := by
  induction n generalizing v with
  | zero => rfl
  | succ n ih =>
    have hstep (i : Nat) : v / 256 / 256 ^ i = v / 256 ^ (i + 1) := by rw [Nat.div_div_eq_div_mul, ← Nat.pow_succ']
    rw [leBytes, ih, List.range_succ_eq_map, List.map_cons, List.map_map, Nat.pow_zero, Nat.div_one]
    simp only [hstep]
    rfl

theorem cons_eq_leBytes (m : Nat) (b : List Byte) : BitVec.ofNat 8 m :: b = leBytes 1 m ++ b := rfl

/-- A mask names the members of a list of bits, the first in its lowest bit. -/
def namesBits (mask : Nat) (l : List Bool) : Prop :=
  mask < 2 ^ l.length ∧ ∀ i x, l[i]? = some x → mask / 2 ^ i % 2 = if x then 1 else 0

theorem namesBits_maskOf (l : List Bool) : namesBits (maskOf l) l := by
  refine ⟨maskOf_lt l, fun i x hx => ?_⟩
  have hbit : (maskOf l).testBit i = x := by rw [testBit_maskOf, List.getD_eq_getElem?_getD, hx, Option.getD_some]
  rw [Nat.testBit_eq_decide_div_mod_eq] at hbit
  cases x with
  | true => exact of_decide_eq_true hbit
  | false =>
    have hnot := of_decide_eq_false hbit
    simp only [Bool.false_eq_true, if_false]
    omega

/-- The field of a signed value, read as two's complement (R194). -/
theorem signed_ofInt {t : Int} (h : -32768 ≤ t) (h' : t ≤ 32767) :
    (if (BitVec.ofInt 16 t).toNat < 32768 then ((BitVec.ofInt 16 t).toNat : Int) else (BitVec.ofInt 16 t).toNat - 65536) = t := by
  have hround : (BitVec.ofInt 16 t).toInt = t := by
    rw [BitVec.toInt_ofInt]
    exact Int.bmod_eq_of_le (by omega) (by omega)
  rw [BitVec.toInt_eq_toNat_cond] at hround
  have hlt := (BitVec.ofInt 16 t).isLt
  split <;> split at hround <;> omega

end

/-! ## The VEHICLE payload (R154) -/

section
variable {r : VehicleRecord}

/-- The presence bits of a VEHICLE payload. -/
def vehiclePresent (r : VehicleRecord) : List Bool := [r.speed.isSome, r.headway.isSome, r.ruleIndex.isSome]

/-- The fields of a VEHICLE payload that every record has, and its presence mask. -/
def vehicleLayout (r : VehicleRecord) : List (Nat × Nat) :=
  [(2, r.seq.toNat), (1, r.owner), (6, r.firstLead.toNat), (1, r.axles.length), (4, r.gross), (1, (r.cls.getD 0).val),
    (2, r.groupOver.toNat), (2, (BitVec.ofInt 16 r.temperature).toNat), (1, sourceCode r.source), (2, r.lostCount.toNat),
    (2, r.cededCount.toNat), (2, (joinFlags r.flags r.slotFlags).mask), (1, maskOf (vehiclePresent r))]

/-- What stands behind the presence mask of a VEHICLE payload. -/
def vehicleTail (r : VehicleRecord) : List Byte :=
  (optionalBytes 3 r.speed).getD [] ++ (optionalBytes 2 r.headway).getD [] ++ (optionalBytes 1 r.ruleIndex).getD [] ++
    axleDescriptors r.axles ++ (r.axles.map axleLoads).flatten

theorem vehiclePayload_eq (r : VehicleRecord) : vehiclePayload r = layoutBytes (vehicleLayout r) ++ vehicleTail r := by
  have hpresent : [optionalBytes 3 r.speed, optionalBytes 2 r.headway, optionalBytes 1 r.ruleIndex].map Option.isSome =
      vehiclePresent r := by simp [optionalBytes, vehiclePresent]
  rw [vehiclePayload, optionalFields, hpresent, cons_eq_leBytes]
  simp only [vehicleLayout, layoutBytes, vehicleTail, signedBytes, List.flatMap_cons, List.flatMap_nil, List.append_assoc,
    List.append_nil, List.map_cons, List.map_nil, List.flatten_cons, List.flatten_nil]

/-- The half byte of the `i`th axle, 0 behind the last. -/
def descriptorAt (l : List RecordAxle) (i : Nat) : Nat := match l[i]? with
  | some a => axleDescriptor a
  | none => 0

theorem axleDescriptors_eq : ∀ l : List RecordAxle, axleDescriptors l = (List.range ((l.length + 1) / 2)).map fun i =>
    BitVec.ofNat 8 (descriptorAt l (2 * i) + 16 * descriptorAt l (2 * i + 1))
  | [] => rfl
  | [a] => by simp [axleDescriptors, descriptorAt]
  | a :: b :: rest => by
    have hlength : ((a :: b :: rest).length + 1) / 2 = (rest.length + 1) / 2 + 1 := by
      rw [List.length_cons, List.length_cons]
      omega
    have hshift (i : Nat) : descriptorAt (a :: b :: rest) (2 * (i + 1)) = descriptorAt rest (2 * i) ∧
        descriptorAt (a :: b :: rest) (2 * (i + 1) + 1) = descriptorAt rest (2 * i + 1) := ⟨rfl, rfl⟩
    rw [axleDescriptors, axleDescriptors_eq rest, hlength, List.range_succ_eq_map, List.map_cons, List.map_map]
    refine congrArg (List.cons _) (List.map_congr_left fun i _ => ?_)
    obtain ⟨hlow, hhigh⟩ := hshift i
    rw [Function.comp_apply, hlow, hhigh]

theorem axleDescriptors_length (l : List RecordAxle) : (axleDescriptors l).length = (l.length + 1) / 2 := by
  rw [axleDescriptors_eq, List.length_map, List.length_range]

theorem axleLoads_length (a : RecordAxle) : (axleLoads a).length =
    (if a.left.isSome then 2 else 0) + (if a.right.isSome then 2 else 0) + if a.spacing.isSome then 3 else 0 := by
  rw [axleLoads, List.length_append, List.length_append, optionalBytes_length, optionalBytes_length, optionalBytes_length]

theorem axleLoads_length_le (a : RecordAxle) : (axleLoads a).length ≤ if a.spacing.isSome then 7 else 4 := by
  rw [axleLoads_length]
  split <;> split <;> split <;> omega

theorem axlesLoads_length_le (l : List RecordAxle) : (l.map axleLoads).flatten.length ≤ 7 * l.length := by
  induction l with
  | nil => exact Nat.le_refl _
  | cons a l ih =>
    have ha : (axleLoads a).length ≤ 7 := (axleLoads_length_le a).trans (by split <;> omega)
    rw [List.map_cons, List.flatten_cons, List.length_append, List.length_cons]
    omega

theorem vehiclePayload_length (h : 1 ≤ r.axles.length) (h' : r.axles.length ≤ 12) (hs : ∀ a, r.axles.head? = some a → a.spacing = none) :
    28 ≤ (layoutBytes (vehicleLayout r) ++ vehicleTail r).length ∧ (layoutBytes (vehicleLayout r) ++ vehicleTail r).length ≤ 120 := by
  have hlayout : (layoutBytes (vehicleLayout r)).length = 27 := layoutBytes_length _
  have hloads : (r.axles.map axleLoads).flatten.length ≤ 7 * r.axles.length - 3 := by
    cases hl : r.axles with
    | nil => exact absurd h (by rw [hl]; exact Nat.not_succ_le_zero 0)
    | cons a l =>
      have ha : (axleLoads a).length ≤ 4 := by
        have hfirst := axleLoads_length_le a
        rwa [hs a (by rw [hl]; rfl)] at hfirst
      have hrest := axlesLoads_length_le l
      rw [List.map_cons, List.flatten_cons, List.length_append, List.length_cons]
      omega
  have hoptional (n : Nat) (x : Option Nat) : ((optionalBytes n x).getD []).length ≤ n := by
    rw [optionalBytes_length]
    split <;> omega
  have hspeed := hoptional 3 r.speed
  have hheadway := hoptional 2 r.headway
  have hrule := hoptional 1 r.ruleIndex
  simp only [vehicleTail, List.length_append, hlayout, axleDescriptors_length]
  omega

end

/-! ## The STATUS payload (R192) -/

section
variable {p : Part}

/-- The presence bits of a STATUS payload. -/
def Part.statusPresent (p : Part) : List Bool :=
  [p.csu.loadFault.isSome, (p.csu.loadFault.bind LoadFault.offset).isSome, p.csu.lastResult.isSome]

/-- The fields of a STATUS payload that every station has, and its presence mask. -/
def Part.statusLayout (p : Part) : List (Nat × Nat) :=
  [(1, stationCode p.csu.station), (1, maskOf [p.csu.pinActive, p.csu.commandHold]), (1, channelMarksByte p.lcu.channels),
    (1, probeByte p.ptu.probes.p0), (1, probeByte p.ptu.probes.p1), (4, splitField p.stu.split), (2, p.stu.splitSteps.toNat),
    (2, p.sbc.drops.toNat), (2, p.sbc.mismatches.toNat), (2, p.sbc.formatErrors.toNat), (2, p.sbc.deafDiscards.toNat),
    (2, p.vau.peerOverflows.toNat), (2, p.vau.droppedWheels.toNat), (2, p.vau.forcedDecisions.toNat),
    (2, p.ptu.probes.p0.jumps.toNat), (2, p.ptu.probes.p1.jumps.toNat), (1, markMask p.csu.marks), (1, maskOf p.statusPresent)]

/-- What stands behind the presence mask of a STATUS payload. -/
def Part.statusTail (p : Part) : List Byte :=
  (match p.csu.loadFault with | some x => leBytes 1 x.index ++ leBytes 1 (faultCode x.code) | none => []) ++
    (optionalBytes 1 (p.csu.loadFault.bind LoadFault.offset)).getD [] ++
    (match p.csu.lastResult with | some x => [x.code, BitVec.ofNat 8 (resultCode x.result), x.count] | none => [])

theorem Part.statusPayload_eq (p : Part) : p.statusPayload = layoutBytes p.statusLayout ++ p.statusTail := by
  have hfault : (p.csu.loadFault.map fun f => leBytes 1 f.index ++ leBytes 1 (faultCode f.code)).getD [] =
      match p.csu.loadFault with | some x => leBytes 1 x.index ++ leBytes 1 (faultCode x.code) | none => [] := by
    cases p.csu.loadFault <;> rfl
  have hresult : (p.csu.lastResult.map fun r => [r.code, BitVec.ofNat 8 (resultCode r.result), r.count]).getD [] =
      match p.csu.lastResult with | some x => [x.code, BitVec.ofNat 8 (resultCode x.result), x.count] | none => [] := by
    cases p.csu.lastResult <;> rfl
  have hpresent : [p.csu.loadFault.map fun f => leBytes 1 f.index ++ leBytes 1 (faultCode f.code),
      (p.csu.loadFault.bind LoadFault.offset).map (leBytes 1),
      p.csu.lastResult.map fun r => [r.code, BitVec.ofNat 8 (resultCode r.result), r.count]].map Option.isSome = p.statusPresent := by
    simp only [List.map_cons, List.map_nil, Option.isSome_map, Part.statusPresent]
  rw [Part.statusPayload, optionalFields, hpresent, cons_eq_leBytes]
  simp only [Part.statusLayout, layoutBytes, Part.statusTail, Part.errorCounters, optionalBytes, List.flatMap_cons, List.flatMap_nil,
    List.append_assoc, List.append_nil, List.map_cons, List.map_nil, List.flatten_cons, List.flatten_nil, hfault,
    hresult]

theorem channelMarkCode_le (m : Option ChannelMark) : channelMarkCode m ≤ 3 := by
  rcases m with _ | m
  · exact Nat.zero_le _
  · cases m <;> decide

theorem probeMarkCode_le (m : Option ProbeMark) : probeMarkCode m ≤ 3 := by
  rcases m with _ | m
  · exact Nat.zero_le _
  · cases m <;> decide

theorem channelMarksByte_lt (c : PerChannel ChannelRecord) : channelMarksByte c < 256 := by
  have h1 := channelMarkCode_le c.ll.mark
  have h2 := channelMarkCode_le c.lr.mark
  have h3 := channelMarkCode_le c.tl.mark
  have h4 := channelMarkCode_le c.tr.mark
  rw [channelMarksByte]
  omega

theorem probeByte_lt (s : ProbeState) : probeByte s < 256 := by
  have hquality : qualityCode s.quality ≤ 5 := by cases s.quality <;> decide
  have hmark := probeMarkCode_le s.mark
  rw [probeByte]
  omega

theorem stationCode_lt (s : StationState) : stationCode s < 256 := by cases s <;> decide

/-- The digits of a number written in the base 4, the lowest first. -/
theorem digits_four (l : List (Fin 3)) : l.foldr (fun x acc => x.val + 4 * acc) 0 < 4 ^ l.length ∧
    ∀ i x, l[i]? = some x → l.foldr (fun x acc => x.val + 4 * acc) 0 / 4 ^ i % 4 = x.val := by
  induction l with
  | nil => exact ⟨Nat.one_pos, fun i x h => nomatch h⟩
  | cons y l ih =>
    obtain ⟨hlt, hdigit⟩ := ih
    have hy := y.isLt
    rw [List.foldr_cons]
    refine ⟨?_, fun i x hx => ?_⟩
    · rw [List.length_cons, Nat.pow_succ]
      omega
    · cases i with
      | zero =>
        obtain rfl : y = x := Option.some.inj hx
        rw [Nat.pow_zero, Nat.div_one]
        omega
      | succ i =>
        have hdrop : (y.val + 4 * l.foldr (fun x acc => x.val + 4 * acc) 0) / 4 = l.foldr (fun x acc => x.val + 4 * acc) 0 := by omega
        rw [Nat.pow_succ', ← Nat.div_div_eq_div_mul, hdrop]
        exact hdigit i x (by simpa using hx)

theorem splitField_digits (split : Vector (Fin 3) 14) : splitField split < 4 ^ 14 ∧
    ∀ i : Fin 14, splitField split / 4 ^ i.val % 4 = split[i].val := by
  obtain ⟨hlt, hdigit⟩ := digits_four split.toList
  rw [Vector.length_toList] at hlt
  exact ⟨hlt, fun i => hdigit i.val split[i] (by simp)⟩

end

end Sys2Proof.Machine
end


section
/-! PROOFS. The remaining payloads (R66, R160, R192, R194, sections 12.1, 12.2 and 12.4), and all fields at their offsets. -/

namespace Sys2Proof.Machine

/-! ## Masks and tails of a layout -/

section
variable {l : List (Nat × Nat)} {i n : Nat} {bits : List Bool}

theorem namesBits_layout (tail : List Byte) (h : l[i]? = some (n, maskOf bits)) (hn : bits.length ≤ 8 * n) :
    namesBits (fieldAt (layoutBytes l ++ tail) (layoutOffset l i) n) bits := by
  have hpow : 2 ^ bits.length ≤ 256 ^ n := by
    rw [show 256 = 2 ^ 8 from rfl, ← Nat.pow_mul]
    exact Nat.pow_le_pow_right (Nat.zero_lt_succ 1) hn
  rw [fieldAt_layout tail h ((maskOf_lt bits).trans_le hpow)]
  exact namesBits_maskOf bits

theorem drop_layout (tail : List Byte) (h : (l.map Prod.fst).sum = n) : (layoutBytes l ++ tail).drop n = tail :=
  List.drop_left' ((layoutBytes_length l).trans h)

/-- The bytes of an optional value, none when it is absent. -/
def optBytes (n : Nat) (v : Option Nat) : List Byte := (v.map (leBytes n)).getD []

theorem optBytes_time (t : Option SiteTime) : (optionalTime t).getD [] = optBytes 6 (t.map BitVec.toNat) := by
  cases t <;> rfl

end

/-! ## The TOTALS payload (R160) -/

section
variable {t : Totals}

/-- The class counters of a TOTALS payload. -/
def classLayout (t : Totals) : List (Nat × Nat) := t.perClass.toList.map fun c => (2, c.toNat)

/-- The fields of a TOTALS payload behind the class counters. -/
def totalsLayout (t : Totals) : List (Nat × Nat) :=
  [(4, t.vehiclesCompleted.toNat), (4, t.grossSum.toNat), (2, t.lost.toNat), (2, t.ceded.toNat), (2, t.staleWheelDrops.toNat),
    (2, t.crcErrors.toNat), (2, t.overruns.toNat), (4, t.markedHits.toNat), (4, t.holdHits.toNat)]

theorem totalsPayload_eq (t : Totals) : totalsPayload t = layoutBytes (classLayout t) ++ (layoutBytes (totalsLayout t) ++ []) := by
  have hclass : (t.perClass.toList.map fun c => leBytes 2 c.toNat).flatten = layoutBytes (classLayout t) := by
    rw [layoutBytes, classLayout, List.flatMap_map, List.flatMap_def]
  rw [totalsPayload, hclass]
  simp only [totalsLayout, layoutBytes, List.flatMap_cons, List.flatMap_nil, List.append_assoc, List.append_nil]

theorem classLayout_sizes (t : Totals) : (classLayout t).map Prod.fst = List.replicate 32 2 := by
  have hconst : (fun c : Count16 => ((2, c.toNat) : Nat × Nat).1) = fun _ => 2 := rfl
  rw [classLayout, List.map_map, Function.comp_def, hconst, List.map_const', Vector.length_toList]

theorem classLayout_length (t : Totals) : (layoutBytes (classLayout t)).length = 64 := by
  rw [layoutBytes_length, classLayout_sizes]
  rfl

theorem classLayout_offset (i : Fin 32) : layoutOffset (classLayout t) i.val = 2 * i.val := by
  have hi := i.isLt
  rw [layoutOffset, List.map_take, classLayout_sizes, List.take_replicate, List.sum_replicate_nat, Nat.min_eq_left hi.le, Nat.mul_comm]

theorem fieldAt_class (i : Fin 32) : fieldAt (totalsPayload t) (2 * i.val) 2 = t.perClass[i].toNat := by
  have hget : (classLayout t)[i.val]? = some (2, t.perClass[i].toNat) := by simp [classLayout]
  rw [totalsPayload_eq, ← classLayout_offset (t := t)]
  exact fieldAt_layout _ hget t.perClass[i].isLt

theorem fieldAt_totals {i n v : Nat} (h : (totalsLayout t)[i]? = some (n, v)) (hv : v < 256 ^ n) :
    fieldAt (totalsPayload t) (64 + layoutOffset (totalsLayout t) i) n = v := by
  rw [totalsPayload_eq, ← classLayout_length t, fieldAt_append]
  exact fieldAt_layout _ h hv

theorem totalsPayload_length (t : Totals) : (totalsPayload t).length = 90 := by
  rw [totalsPayload_eq, List.length_append, classLayout_length, List.append_nil, layoutBytes_length]
  rfl

end

/-! ## The WHEEL and TEMP payloads -/

section
variable {w : Wheel} {probe : Probe} {c : TempContent}

/-- The fields of a WHEEL payload that every wheel has, and its presence mask. -/
def wheelLayout (w : Wheel) : List (Nat × Nat) :=
  [(2, w.number.toNat), (1, sideCode w.side), (2, w.flags.mask), (2, (BitVec.ofInt 16 w.temperature).toNat), (1, sourceCode w.source),
    (1, maskOf (wheelPresent w))]

theorem wheelPayload_layout (w : Wheel) : wheelPayload w = layoutBytes (wheelLayout w) ++ wheelTail w := by
  rw [wheelPayload_eq, cons_eq_leBytes]
  simp only [wheelLayout, layoutBytes, signedBytes, List.flatMap_cons, List.flatMap_nil, List.append_assoc, List.append_nil]

theorem wheelTail_eq (w : Wheel) : wheelTail w = optBytes 6 (w.leadStart.map BitVec.toNat) ++ optBytes 6 (w.trailStart.map BitVec.toNat) ++
    optBytes 3 w.speed ++ optBytes 4 w.qLead ++ optBytes 4 w.qTrail ++ optBytes 6 (w.runStart.map BitVec.toNat) ++ optBytes 2 w.load := by
  rw [wheelTail, optBytes_time, optBytes_time, optBytes_time]
  simp only [List.append_assoc, List.append_nil]
  rfl

/-- The fields of a TEMP payload before its value, and its presence mask. -/
def tempLayout (probe : Probe) (c : TempContent) : List (Nat × Nat) :=
  [(1, probeCode probe), (1, qualityCode c.quality), (1, c.group), (1, if c.value.isSome then 1 else 0)]

theorem tempPayload_layout (probe : Probe) (c : TempContent) :
    tempPayload probe c = layoutBytes (tempLayout probe c) ++ (c.value.map signedBytes).getD [] := tempPayload_eq probe c

theorem tempPayload_value {v : Int} (hv : c.value = some v) : tempPayload probe c =
    layoutBytes [(1, probeCode probe), (1, qualityCode c.quality), (1, c.group), (1, 1), (2, (BitVec.ofInt 16 v).toNat)] ++ [] := by
  rw [tempPayload_eq, hv]
  rfl

end

/-! ## The fields of the payloads, read back -/

section
variable {r : VehicleRecord} {p : Part}

theorem vehicle_fields (ho : r.owner ≤ 14) (ha : r.axles.length ≤ 12) (hg : r.gross < 2 ^ 32) :
    let b := layoutBytes (vehicleLayout r) ++ vehicleTail r
    fieldAt b 0 2 = r.seq.toNat ∧ fieldAt b 2 1 = r.owner ∧ fieldAt b 3 6 = r.firstLead.toNat ∧ fieldAt b 9 1 = r.axles.length ∧
      fieldAt b 10 4 = r.gross ∧ fieldAt b 14 1 = (r.cls.getD 0).val ∧ fieldAt b 15 2 = r.groupOver.toNat ∧
      fieldAt b 17 2 = (BitVec.ofInt 16 r.temperature).toNat ∧ fieldAt b 19 1 = sourceCode r.source ∧
      fieldAt b 20 2 = r.lostCount.toNat ∧ fieldAt b 22 2 = r.cededCount.toNat :=
  ⟨fieldAt_layout (i := 0) _ rfl r.seq.isLt, fieldAt_layout (i := 1) _ rfl (by omega), fieldAt_layout (i := 2) _ rfl r.firstLead.isLt,
    fieldAt_layout (i := 3) _ rfl (by omega), fieldAt_layout (i := 4) _ rfl hg, fieldAt_layout (i := 5) _ rfl (by omega),
    fieldAt_layout (i := 6) _ rfl (by omega), fieldAt_layout (i := 7) _ rfl (BitVec.ofInt 16 r.temperature).isLt,
    fieldAt_layout (i := 8) _ rfl (sourceCode_lt _), fieldAt_layout (i := 9) _ rfl r.lostCount.isLt,
    fieldAt_layout (i := 10) _ rfl r.cededCount.isLt⟩

/-- The sizes of the fields of a STATUS payload up to its presence mask. -/
def statusSizes : List Nat := [1, 1, 1, 1, 1, 4, 2, 2, 2, 2, 2, 2, 2, 2, 2, 2, 1, 1]

theorem Part.statusLayout_offset (p : Part) (i : Nat) : layoutOffset p.statusLayout i = (statusSizes.take i).sum := by
  have hsizes : p.statusLayout.map Prod.fst = statusSizes := rfl
  rw [layoutOffset, List.map_take, hsizes]

theorem Part.fieldAt_status {i n o v : Nat} (h : p.statusLayout[i]? = some (n, v)) (hv : v < 256 ^ n) (ho : (statusSizes.take i).sum = o) :
    fieldAt (layoutBytes p.statusLayout ++ p.statusTail) o n = v := by
  rw [← ho, ← p.statusLayout_offset]
  exact fieldAt_layout _ h hv

theorem Part.namesBits_status {i n o : Nat} {bits : List Bool} (h : p.statusLayout[i]? = some (n, maskOf bits)) (hn : bits.length ≤ 8 * n)
    (ho : (statusSizes.take i).sum = o) : namesBits (fieldAt (layoutBytes p.statusLayout ++ p.statusTail) o n) bits := by
  rw [← ho, ← p.statusLayout_offset]
  exact namesBits_layout _ h hn

theorem status_fields (p : Part) :
    let b := layoutBytes p.statusLayout ++ p.statusTail
    fieldAt b 0 1 = stationCode p.csu.station ∧ fieldAt b 2 1 = channelMarksByte p.lcu.channels ∧
      fieldAt b 3 1 = probeByte p.ptu.probes.p0 ∧ fieldAt b 4 1 = probeByte p.ptu.probes.p1 ∧
      fieldAt b 5 4 = splitField p.stu.split ∧ fieldAt b 9 2 = p.stu.splitSteps.toNat := by
  have hsplit : splitField p.stu.split < 256 ^ 4 := (splitField_digits _).1.trans (by decide)
  exact ⟨Part.fieldAt_status (i := 0) rfl (stationCode_lt _) (by decide),
    Part.fieldAt_status (i := 2) rfl (channelMarksByte_lt _) (by decide),
    Part.fieldAt_status (i := 3) rfl (probeByte_lt _) (by decide), Part.fieldAt_status (i := 4) rfl (probeByte_lt _) (by decide),
    Part.fieldAt_status (i := 5) rfl hsplit (by decide), Part.fieldAt_status (i := 6) rfl p.stu.splitSteps.isLt (by decide)⟩

theorem Part.errorCounters_layout (p : Part) (k : Nat) (x : Count16) (h : p.errorCounters[k]? = some x) :
    p.statusLayout[7 + k]? = some (2, x.toNat) := by
  match k with
  | 0 | 1 | 2 | 3 | 4 | 5 | 6 | 7 | 8 => exact congrArg (fun y => y.map fun x : Count16 => (2, x.toNat)) h
  | k + 9 => exact nomatch h

theorem status_counters (p : Part) :
    let b := layoutBytes p.statusLayout ++ p.statusTail
    (List.range 9).map (fun k => fieldAt b (11 + 2 * k) 2) = p.errorCounters.map BitVec.toNat := by
  intro b
  have hlength : p.errorCounters.length = 9 := rfl
  refine List.ext_getElem (by rw [List.length_map, List.length_map, hlength, List.length_range]) fun k hk hk' => ?_
  have hlt : k < 9 := by rwa [List.length_map, hlength] at hk'
  have hoffset : (statusSizes.take (7 + k)).sum = 11 + 2 * k := by
    interval_cases k <;> decide
  rw [List.getElem_map, List.getElem_range, List.getElem_map]
  exact Part.fieldAt_status (p.errorCounters_layout k _ (List.getElem?_eq_getElem (hlength ▸ hlt))) (BitVec.isLt _) hoffset

theorem status_masks (p : Part) :
    let b := layoutBytes p.statusLayout ++ p.statusTail
    namesBits (fieldAt b 1 1) [p.csu.pinActive, p.csu.commandHold] ∧
      namesBits (fieldAt b 29 1) [p.csu.marks.state, p.csu.marks.channels, p.csu.marks.probes, p.csu.marks.time, p.csu.marks.bus] ∧
      namesBits (fieldAt b 30 1) p.statusPresent :=
  ⟨Part.namesBits_status (i := 1) rfl (Nat.le_of_ble_eq_true rfl) (by decide),
    Part.namesBits_status (i := 16) rfl (Nat.le_of_ble_eq_true rfl) (by decide),
    Part.namesBits_status (i := 17) rfl (Nat.le_of_ble_eq_true rfl) (by decide)⟩

theorem Part.statusPayload_drop (p : Part) : (layoutBytes p.statusLayout ++ p.statusTail).drop 31 = p.statusTail := by
  have hsizes : p.statusLayout.map Prod.fst = statusSizes := rfl
  exact drop_layout _ (by rw [hsizes]; decide)

theorem Part.payloadOf_vehicle {before after : List VehicleRecord} (hl : p.vcl.records = before ++ r :: after)
    (hb : ∀ x ∈ before, x.seq ≠ r.seq) : p.payloadOf (.vehicle r.seq) = layoutBytes (vehicleLayout r) ++ vehicleTail r := by
  have hfind : p.vcl.records.find? (fun x => x.seq = r.seq) = some r := by
    rw [hl]
    exact find?_append_cons (fun x hx => decide_eq_false (hb x hx)) (decide_eq_true rfl)
  rw [← vehiclePayload_eq]
  simp only [Part.payloadOf, hfind]

end

/-- Settles O51: every payload as its layout and its tail, and each field read back from its place in the layout. -/
theorem payloadFieldsLieAtTheirOffsets : Obligations.PayloadFieldsLieAtTheirOffsets := by
  unfold Obligations.PayloadFieldsLieAtTheirOffsets
  intro bytes opt field names signed
  have hbytes : bytes = leBytes := funext fun n => funext fun v => (leBytes_eq_map n v).symm
  have hopt : opt = optBytes := funext fun n => funext fun v => congrArg (fun f => (v.map (f n)).getD []) hbytes
  have hfield : field = fieldAt := funext fun b => funext fun o => funext fun n => foldr_bytes _
  clear_value opt field
  subst hopt hfield
  refine ⟨fun p before after r hl hb ho ha hg ht ht' => ?_, fun p => ?_, fun p => ?_, fun p w ht ht' => ?_, fun p probe c hgroup hvalue => ?_,
    fun p => ⟨?_, leBytes_length _ _⟩, ?_⟩
  · intro b f g half
    have hpayload : b = layoutBytes (vehicleLayout r) ++ vehicleTail r := Part.payloadOf_vehicle hl hb
    clear_value b
    subst hpayload
    obtain ⟨hseq, howner, hlead, haxles, hgross, hcls, hover, htemp, hsource, hlost, hceded⟩ := vehicle_fields ho ha hg
    have hsigned := (congrArg signed htemp).trans (signed_ofInt (by omega) (by omega))
    have hhalf : descriptorAt r.axles = half := funext fun i => by
      simp only [descriptorAt, half]
      cases r.axles[i]? <;> rfl
    refine ⟨⟨hseq, howner, hlead, haxles, hgross, hcls, hover, hsigned, hsource, hlost, hceded⟩,
      namesBits_layout (i := 11) _ rfl (Nat.le_of_ble_eq_true rfl), namesBits_layout (i := 12) _ rfl (Nat.le_of_ble_eq_true rfl), ?_,
      fun h hs => vehiclePayload_length h ha hs⟩
    refine (drop_layout (n := 27) _ rfl).trans ?_
    rw [vehicleTail, axleDescriptors_eq, hhalf, ← List.flatMap_def]
    rfl
  · intro b c marks probe
    have hb : b = layoutBytes p.statusLayout ++ p.statusTail := p.statusPayload_eq
    clear_value b
    subst hb
    obtain ⟨hlt, hdigits⟩ := splitField_digits p.stu.split
    obtain ⟨hstation, hchannels, hp0, hp1, hsplit, hsteps⟩ := status_fields p
    obtain ⟨hpins, hmarks, hpresent⟩ := status_masks p
    refine ⟨⟨hstation, hpins, hchannels, hp0, hp1, hsplit ▸ hlt, fun i => hsplit ▸ hdigits i, hsteps⟩,
      ⟨status_counters p, hmarks⟩, ?_⟩
    intro offset
    have hoffset : offset = p.csu.loadFault.bind LoadFault.offset := by
      simp only [offset, c]
      cases p.csu.loadFault <;> rfl
    refine ⟨hoffset ▸ hpresent, p.statusPayload_drop.trans ?_⟩
    rw [hoffset, hbytes, Part.statusTail]
    rfl
  · exact ⟨totalsPayload_length _, fieldAt_class, fieldAt_totals (i := 0) rfl p.vcl.totals.vehiclesCompleted.isLt,
      fieldAt_totals (i := 1) rfl p.vcl.totals.grossSum.isLt, fieldAt_totals (i := 2) rfl p.vcl.totals.lost.isLt,
      fieldAt_totals (i := 3) rfl p.vcl.totals.ceded.isLt, fieldAt_totals (i := 4) rfl p.vcl.totals.staleWheelDrops.isLt,
      fieldAt_totals (i := 5) rfl p.vcl.totals.crcErrors.isLt, fieldAt_totals (i := 6) rfl p.vcl.totals.overruns.isLt,
      fieldAt_totals (i := 7) rfl p.vcl.totals.markedHits.isLt, fieldAt_totals (i := 8) rfl p.vcl.totals.holdHits.isLt⟩
  · intro b f time
    have hb : b = layoutBytes (wheelLayout w) ++ wheelTail w := wheelPayload_layout w
    clear_value b
    subst hb
    have htemp : signed (fieldAt (layoutBytes (wheelLayout w) ++ wheelTail w) 5 2) = w.temperature :=
      (congrArg signed (fieldAt_layout (i := 3) (l := wheelLayout w) (wheelTail w) rfl (BitVec.ofInt 16 w.temperature).isLt)).trans
        (signed_ofInt (by omega) (by omega))
    refine ⟨fieldAt_layout (i := 0) _ rfl w.number.isLt, fieldAt_layout (i := 1) _ rfl (sideCode_lt _), htemp,
      fieldAt_layout (i := 4) _ rfl (sourceCode_lt _), namesBits_layout (i := 2) _ rfl (Nat.le_of_ble_eq_true rfl),
      namesBits_layout (i := 5) _ rfl (Nat.le_of_ble_eq_true rfl), ?_⟩
    exact (drop_layout (n := 9) _ rfl).trans (wheelTail_eq w)
  · intro b
    have hb : b = layoutBytes (tempLayout probe c) ++ (c.value.map signedBytes).getD [] := tempPayload_layout probe c
    have hpresent : (if c.value.isSome then 1 else 0) < 256 ^ 1 := by split <;> decide
    refine ⟨?_, ?_, ?_, fun hv => ⟨?_, ?_⟩, fun v hv => ?_⟩
    · rw [hb]
      exact fieldAt_layout (i := 0) _ rfl (probeCode_lt _)
    · rw [hb]
      exact fieldAt_layout (i := 1) _ rfl (qualityCode_lt _)
    · rw [hb]
      exact fieldAt_layout (i := 2) _ rfl (by omega)
    · have hzero : (if c.value.isSome then 1 else 0) = 0 := by rw [hv]; rfl
      rw [hb, ← hzero]
      exact fieldAt_layout (i := 3) _ rfl hpresent
    · rw [hb, hv, List.length_append, layoutBytes_length]
      rfl
    · have hb' : b = _ := tempPayload_value (probe := probe) hv
      obtain ⟨hlo, hhi⟩ := hvalue v hv
      refine ⟨?_, ?_, ?_⟩
      · rw [hb']
        exact fieldAt_layout (i := 3) _ rfl (by decide)
      · rw [hb']
        exact (congrArg signed (fieldAt_layout (i := 4) _ rfl (BitVec.ofInt 16 v).isLt)).trans (signed_ofInt hlo hhi)
      · rw [hb']
        rfl
  · have htime : p.payloadOf .time = leBytes 6 p.stu.siteTime.toNat ++ [] := (List.append_nil _).symm
    rw [htime]
    exact fieldAt_leBytes p.stu.siteTime.isLt _
  · exact ⟨rfl, rfl, rfl, rfl, rfl, rfl, rfl, rfl, rfl, rfl, rfl⟩

end Sys2Proof.Machine
end


section
/-! PROOFS. The values of a block's payload (R176, R197, section 12.5), and the rules of a CLASS payload one behind the other. -/

namespace Sys2Proof.Machine

/-! ## Bytes at an offset (R194) -/

section
variable {a b : List Byte} {o n : Nat}

theorem fieldAt_four (b : List Byte) (o : Nat) : fieldAt b o 4 =
    byteAt b o + 256 * byteAt b (o + 1) + 65536 * (byteAt b (o + 2) + 256 * byteAt b (o + 3)) := by
  rw [fieldAt_succ, fieldAt_three, Nat.add_assoc o 1 1, Nat.add_assoc o 1 2]
  omega

theorem byteAt_append_left (h : o < a.length) : byteAt (a ++ b) o = byteAt a o := by
  rw [byteAt, byteAt, List.getD_append _ _ _ _ h]

theorem byteAt_append_right (a b : List Byte) (o : Nat) : byteAt (a ++ b) (a.length + o) = byteAt b o := by
  rw [byteAt, byteAt, List.getD_append_right _ _ _ _ (Nat.le_add_right _ _), Nat.add_sub_cancel_left]

theorem byteAt_take (b : List Byte) (n o : Nat) : byteAt (b.take n) o = if o < n then byteAt b o else 0 := by
  unfold byteAt
  rw [List.getD_eq_getElem?_getD, List.getElem?_take, List.getD_eq_getElem?_getD]
  split <;> rfl

theorem fieldAt_append_left (h : o + n ≤ a.length) : fieldAt (a ++ b) o n = fieldAt a o n := by
  rw [fieldAt, fieldAt, List.drop_append_of_le_length (by omega), List.take_append_of_le_length (by rw [List.length_drop]; omega)]

end

/-! ## The values held aside (section 12.5) -/

section
variable {l : Load} {r : BlockRead} {kind : BlockKind} {b : List Byte}

theorem stripsValues_eq (b : List Byte) : stripsValues b =
    { spacing := byteAt b 0 + 256 * byteAt b 1, thOn := byteAt b 2 + 256 * byteAt b 3, thOff := byteAt b 4 + 256 * byteAt b 5
      ntail := byteAt b 6, lmax := byteAt b 7 + 256 * byteAt b 8, stuckLimit := byteAt b 9 + 256 * byteAt b 10
      bwin := byteAt b 11 + 256 * byteAt b 12, deadCount := byteAt b 13
      cal :=
        { ll := byteAt b 14 + 256 * byteAt b 15 + 65536 * (byteAt b 16 + 256 * byteAt b 17)
          lr := byteAt b 18 + 256 * byteAt b 19 + 65536 * (byteAt b 20 + 256 * byteAt b 21)
          tl := byteAt b 22 + 256 * byteAt b 23 + 65536 * (byteAt b 24 + 256 * byteAt b 25)
          tr := byteAt b 26 + 256 * byteAt b 27 + 65536 * (byteAt b 28 + 256 * byteAt b 29) } } := by
  simp only [stripsValues, fieldAt_two, fieldAt_four]

theorem limitValue_eq (b : List Byte) (bit o : Nat) : limitValue b bit o = if (byteAt b 9).testBit bit then
    some (byteAt b o + 256 * byteAt b (o + 1) + 65536 * (byteAt b (o + 2) + 256 * byteAt b (o + 3))) else none := by
  rw [limitValue, fieldAt_four]

theorem assemblyValues_eq (b : List Byte) : assemblyValues b =
    { dc := byteAt b 0 + 256 * byteAt b 1, lp := byteAt b 2, smax := byteAt b 3 + 256 * byteAt b 4
      tmax := byteAt b 5 + 256 * byteAt b 6, gmax := byteAt b 7 + 256 * byteAt b 8, singleLimit := limitValue b 0 10
      tandemLimit := limitValue b 1 14, tridemLimit := limitValue b 2 18, quadLimit := limitValue b 3 22 } := by
  simp only [assemblyValues, fieldAt_two]

theorem signedAt_bytes (b : List Byte) (o : Nat) : signedAt b o = if byteAt b o + 256 * byteAt b (o + 1) < 32768 then
    ((byteAt b o + 256 * byteAt b (o + 1) : Nat) : Int) else (byteAt b o + 256 * byteAt b (o + 1) : Nat) - 65536 := by
  rw [signedAt_eq, fieldAt_two]

theorem probeValues_eq (b : List Byte) (o : Nat) : probeValues b o =
    { enable := decide (byteAt b o = 1), gain := byteAt b (o + 1) + 256 * byteAt b (o + 2), offset := signedAt b (o + 3) } := by
  rw [probeValues, fieldAt_two]

theorem triggerValues_eq (b : List Byte) (o : Nat) : triggerValues b o =
    { enable := (byteAt b o).testBit 0, polarityLow := (byteAt b o).testBit 1, source := triggerSourceOf (byteAt b o / 4 % 4)
      threshold := byteAt b (o + 1) + 256 * byteAt b (o + 2) + 65536 * (byteAt b (o + 3) + 256 * byteAt b (o + 4))
      classSet := BitVec.ofNat 32
        (byteAt b (o + 5) + 256 * byteAt b (o + 6) + 65536 * (byteAt b (o + 7) + 256 * byteAt b (o + 8)))
      distance := byteAt b (o + 9) + 256 * byteAt b (o + 10), width := byteAt b (o + 11) + 256 * byteAt b (o + 12) } := by
  simp only [triggerValues, fieldAt_two, fieldAt_four]

theorem tableSize_of_le {n : Nat} (h : n ≤ 8) : tableSize n = n := if_pos h

theorem temperaturePoints_eq (h : byteAt b 0 ≤ 8) : temperaturePoints b = (List.range (byteAt b 0)).map fun i =>
    { key := signedAt b (2 + 4 * i), factor := byteAt b (4 + 4 * i) + 256 * byteAt b (4 + 4 * i + 1) } := by
  simp only [temperaturePoints, tableSize_of_le h, fieldAt_two]

theorem speedPoints_eq (h : byteAt b 1 ≤ 8) : speedPoints b = (List.range (byteAt b 1)).map fun i =>
    { key := ((byteAt b (34 + 5 * i) + 256 * byteAt b (34 + 5 * i + 1) + 65536 * byteAt b (34 + 5 * i + 2) : Nat) : Int)
      factor := byteAt b (37 + 5 * i) + 256 * byteAt b (37 + 5 * i + 1) } := by
  simp only [speedPoints, tableSize_of_le h, fieldAt_two, fieldAt_three]

/-- What is held aside after a block, kind by kind (R176). -/
theorem holdAside_fields (l : Load) (kind : BlockKind) (r : BlockRead) :
    (holdAside l kind r).station = (if kind = .station then some (stationValues r.payload) else l.station) ∧
      (holdAside l kind r).strips = (if kind = .strips then some (stripsValues r.payload) else l.strips) ∧
      (holdAside l kind r).assembly = (if kind = .assembly then some (assemblyValues r.payload) else l.assembly) ∧
      (holdAside l kind r).probes = (if kind = .probes then some (probesValues r.payload) else l.probes) ∧
      (holdAside l kind r).factors = (if kind = .factors then some (factorsValues r.payload) else l.factors) ∧
      (holdAside l kind r).triggers = (if kind = .triggers then some (triggersValues r.payload) else l.triggers) ∧
      (kind ≠ .classes → (holdAside l kind r).rules = l.rules) := by
  cases kind with
  | classes => exact ⟨rfl, rfl, rfl, rfl, rfl, rfl, fun h => absurd rfl h⟩
  | _ => exact ⟨rfl, rfl, rfl, rfl, rfl, rfl, fun _ => rfl⟩

theorem holdAside_next (l : Load) (kind : BlockKind) (r : BlockRead) :
    (holdAside l kind r).offset = l.offset + r.length + 5 ∧ (holdAside l kind r).index = l.index + 1 := by
  cases kind <;> exact ⟨rfl, rfl⟩

theorem holdAside_rules (l : Load) (r : BlockRead) :
    (holdAside l .classes r).rules = l.rules ++ ((classRules r.payload).getD []).map ParsedRule.rule := rfl

theorem classRules_of_pass (h : knownBlockFault l .classes r = none) : ∃ rules, classRules r.payload = some rules := by
  obtain ⟨hsize, -⟩ := pass_of_fault_none h
  rcases hrules : classRules r.payload with _ | rules
  · exact absurd (sizeFault_iff.2 (.inr (.inr (.inr ⟨rfl, .inl hrules⟩)))) (Bool.eq_false_iff.1 hsize)
  · exact ⟨rules, rfl⟩

end

/-! ## The rules of a CLASS payload, one behind the other (R197) -/

section
variable {b : List Byte} {n o : Nat}

/-- Checks moved to a later offset. -/
def shiftChecks (o : Nat) (l : List FieldCheck) : List FieldCheck := l.map fun c => (o + c.1, c.2)

/-- A parsed rule moved to a later offset. -/
def shiftRule (o : Nat) (x : ParsedRule) : ParsedRule := { x with checks := shiftChecks o x.checks }

theorem shiftChecks_append (o : Nat) (l m : List FieldCheck) : shiftChecks o (l ++ m) = shiftChecks o l ++ shiftChecks o m :=
  List.map_append

theorem shiftChecks_cons (o : Nat) (c : FieldCheck) (l : List FieldCheck) :
    shiftChecks o (c :: l) = (o + c.1, c.2) :: shiftChecks o l := rfl

theorem ruleChecks_shift (b : List Byte) (q : RulePlan) (o : Nat) : ruleChecks b q o = shiftChecks o (ruleChecks b q 0) := by
  have hpattern : ((patternSizes b q).zipIdx.map fun x => (o + q.patternAt + 1 + x.2, within 1 12 x.1)) =
      shiftChecks o ((patternSizes b q).zipIdx.map fun x => (0 + q.patternAt + 1 + x.2, within 1 12 x.1)) := by
    rw [shiftChecks, List.map_map]
    exact List.map_congr_left fun x _ => Prod.ext (by simp only [Function.comp_apply]; omega) rfl
  simp only [ruleChecks, shiftChecks_append]
  refine congrArg₂ _ (congrArg₂ _ (congrArg₂ _ ?_ ?_) ?_) ?_
  · simp [shiftChecks]
  · split
    · rw [hpattern, shiftChecks_cons, Nat.zero_add]
    · rfl
  · split
    · simp [shiftChecks]
    · rfl
  · split
    · simp [shiftChecks]
    · rfl

theorem rulePlan_size_pos (b : List Byte) : 4 ≤ (rulePlan b).size := by
  simp only [rulePlan]
  omega

theorem shiftRule_shiftRule (m n : Nat) (x : ParsedRule) : shiftRule m (shiftRule n x) = shiftRule (m + n) x := by
  simp only [shiftRule, shiftChecks, List.map_map]
  congr 1
  exact List.map_congr_left fun c _ => Prod.ext (Nat.add_assoc m n c.1).symm rfl

/-- Where the rules begin, and how many may come, does not matter beyond the offsets of their checks. -/
theorem parseRules_eq : ∀ (k : Nat) (b : List Byte), b.length ≤ k → ∀ n o, b.length ≤ n →
    parseRules n o b = (classRules b).map (List.map (shiftRule o)) := by
  intro k
  induction k with
  | zero =>
    intro b hb n o _
    obtain rfl := List.eq_nil_of_length_eq_zero (Nat.le_zero.1 hb)
    cases n <;> rfl
  | succ k ih =>
    intro b hb n o hn
    cases b with
    | nil => cases n <;> rfl
    | cons x bs =>
      rw [List.length_cons] at hb hn
      obtain ⟨n, rfl⟩ : ∃ m, n = m + 1 := ⟨n - 1, by omega⟩
      have hsize := rulePlan_size_pos (x :: bs)
      have hdrop : ((x :: bs).drop (rulePlan (x :: bs)).size).length ≤ bs.length := by
        rw [List.length_drop, List.length_cons]
        omega
      simp only [classRules, parseRules, List.length_cons]
      split
      · rfl
      · rw [ih _ (by omega) n _ (by omega), ih _ (by omega) bs.length _ (by omega)]
        rcases classRules ((x :: bs).drop (rulePlan (x :: bs)).size) with _ | rules
        · rfl
        · simp only [Option.map_some, List.map_cons, List.map_map]
          refine congrArg some (congrArg₂ List.cons ?_ ?_)
          · rw [shiftRule, ← ruleChecks_shift]
          · refine List.map_congr_left fun y _ => ?_
            rw [Function.comp_apply, shiftRule_shiftRule, Nat.zero_add]

theorem classRules_cons (hb : b ≠ []) : classRules b = if b.length < (rulePlan b).size then none else
    (classRules (b.drop (rulePlan b).size)).map fun l =>
      { rule := ruleValues b (rulePlan b), checks := ruleChecks b (rulePlan b) 0 } :: l.map (shiftRule (rulePlan b).size) := by
  cases b with
  | nil => exact absurd rfl hb
  | cons x bs =>
    have hsize := rulePlan_size_pos (x :: bs)
    have hdrop : ((x :: bs).drop (rulePlan (x :: bs)).size).length ≤ bs.length := by
      rw [List.length_drop, List.length_cons]
      omega
    simp only [classRules, parseRules, List.length_cons]
    rw [parseRules_eq bs.length _ hdrop _ _ hdrop, Option.map_map, Nat.zero_add]
    rfl

/-- A rule cut short leaves no rules: what is missing reads 0, and the plan still goes past the end (R197). -/
theorem rulePlan_take (b : List Byte) (n : Nat) (h : n < (rulePlan b).size) : n < (rulePlan (b.take n)).size := by
  rcases Nat.lt_or_ge n 4 with h4 | h4
  · exact h4.trans_le (rulePlan_size_pos _)
  have hoptions : byteAt (b.take n) 3 = byteAt b 3 := by rw [byteAt_take, if_pos (by omega)]
  simp only [rulePlan, hoptions, byteAt_take] at h ⊢
  generalize (byteAt b 3).testBit 3 = range at h ⊢
  generalize (byteAt b 3).testBit 4 = limit at h ⊢
  rcases hp : (byteAt b 3).testBit 1 with _ | _ <;> rcases hg : (byteAt b 3).testBit 2 with _ | _ <;>
    simp only [hp, hg, Bool.false_eq_true, if_false, if_true] at h ⊢
  · exact h
  · by_cases hn : 4 + 0 < n
    · rw [if_pos hn]
      exact h
    · omega
  · by_cases hn : 4 < n
    · rw [if_pos hn]
      exact h
    · omega
  · by_cases hn : 4 < n
    · simp only [if_pos hn]
      by_cases hm : 4 + (1 + byteAt b 4) < n
      · rw [if_pos hm]
        exact h
      · omega
    · omega

end

end Sys2Proof.Machine
end


section
/-! PROOFS. The bytes of one class rule (R136, R197): its parts, the plan that reads them, and its values. -/

namespace Sys2Proof.Machine

/-- The parts of a class rule's bytes (R197). -/
structure RuleParts where
  code : Byte
  lo : Byte
  hi : Byte
  options : Byte
  pattern : List Byte
  gaps : List (Byte × Byte)
  range : List Byte
  limit : List Byte

namespace RuleParts

/-- The lengths that the parts have (R197). -/
structure Fits (x : RuleParts) : Prop where
  pattern : x.pattern.length < 256
  gaps : x.gaps.length < 256
  range : x.range.length = 8
  limit : x.limit.length = 4

variable (x : RuleParts)

/-- An option bit: the pattern is 1, the gaps 2, the range 3, the limit 4. -/
def has (bit : Nat) : Bool := x.options.toNat.testBit bit

/-- The four bytes that each rule has. -/
def head : List Byte := [x.code, x.lo, x.hi, x.options]

/-- The pattern, behind its count. -/
def patternSeg : List Byte := if x.has 1 then BitVec.ofNat 8 x.pattern.length :: x.pattern else []

/-- The gap bounds as bytes. -/
def gapBytes : List Byte := (x.gaps.map fun g => [g.1, g.2]).flatten

/-- The gap bounds, behind their count. -/
def gapSeg : List Byte := if x.has 2 then BitVec.ofNat 8 x.gaps.length :: x.gapBytes else []

/-- The gross range. -/
def rangeSeg : List Byte := if x.has 3 then x.range else []

/-- The gross limit. -/
def limitSeg : List Byte := if x.has 4 then x.limit else []

/-- The rule's bytes. -/
def bytes : List Byte := x.head ++ x.patternSeg ++ x.gapSeg ++ x.rangeSeg ++ x.limitSeg

/-- The plan of the rule. -/
def plan : RulePlan :=
  { options := x.options.toNat, patternAt := 4, patternCount := if x.has 1 then x.pattern.length else 0
    gapsAt := 4 + x.patternSeg.length, gapCount := if x.has 2 then x.gaps.length else 0
    rangeAt := 4 + x.patternSeg.length + x.gapSeg.length
    limitAt := 4 + x.patternSeg.length + x.gapSeg.length + x.rangeSeg.length, size := x.bytes.length }

/-- A 4-byte value, low byte first. -/
def wide (b : List Byte) (o : Nat) : Nat := byteAt b o + 256 * byteAt b (o + 1) + 65536 * byteAt b (o + 2) + 16777216 * byteAt b (o + 3)

/-- The rule's values. -/
def rule : ClassRule :=
  { code := Fin.ofNat 32 x.code.toNat, axleMin := x.lo.toNat, axleMax := x.hi.toNat, singleWheelOnly := x.has 0
    pattern := if x.has 1 then some (x.pattern.map BitVec.toNat) else none
    gaps := if x.has 2 then some (x.gaps.map fun g => (g.1.toNat, g.2.toNat)) else none
    grossRange := if x.has 3 then some (wide x.range 0, wide x.range 4) else none
    grossLimit := if x.has 4 then some (wide x.limit 0) else none }

variable {x}

theorem patternSeg_length : x.patternSeg.length = if x.has 1 then 1 + x.pattern.length else 0 := by
  unfold patternSeg
  split
  · rw [List.length_cons, Nat.add_comm]
  · rfl

theorem gapBytes_length (l : List (Byte × Byte)) : (l.map fun g => [g.1, g.2]).flatten.length = 2 * l.length := by
  induction l with
  | nil => rfl
  | cons g l ih =>
    rw [List.map_cons, List.flatten_cons, List.length_append, ih]
    simp only [List.length_cons, List.length_nil]
    omega

theorem gapSeg_length : x.gapSeg.length = if x.has 2 then 1 + 2 * x.gaps.length else 0 := by
  unfold gapSeg gapBytes
  split
  · rw [List.length_cons, gapBytes_length, Nat.add_comm]
  · rfl

theorem rangeSeg_length (h : x.Fits) : x.rangeSeg.length = if x.has 3 then 8 else 0 := by
  unfold rangeSeg
  split
  · exact h.range
  · rfl

theorem limitSeg_length (h : x.Fits) : x.limitSeg.length = if x.has 4 then 4 else 0 := by
  unfold limitSeg
  split
  · exact h.limit
  · rfl

theorem bytes_length : x.bytes.length = 4 + x.patternSeg.length + x.gapSeg.length + x.rangeSeg.length + x.limitSeg.length := by
  simp only [bytes, List.length_append]
  rfl

/-- The parts of the rule as they lie before what follows it. -/
theorem bytes_append (rest : List Byte) : x.bytes ++ rest =
    x.head ++ (x.patternSeg ++ (x.gapSeg ++ (x.rangeSeg ++ (x.limitSeg ++ rest)))) := by
  simp only [bytes, List.append_assoc]

/-! ## Reading a part -/

section
variable (rest : List Byte) (o n : Nat)

theorem byteAt_pattern (h : x.has 1 = true) (ho : o < 1 + x.pattern.length) :
    byteAt (x.bytes ++ rest) (4 + o) = byteAt (BitVec.ofNat 8 x.pattern.length :: x.pattern) o := by
  have hseg : x.patternSeg = BitVec.ofNat 8 x.pattern.length :: x.pattern := if_pos h
  have hhead : x.head.length = 4 := rfl
  rw [bytes_append, ← hhead, byteAt_append_right, hseg, byteAt_append_left (by rw [List.length_cons]; omega)]

theorem byteAt_gaps (h : x.has 2 = true) (ho : o < 1 + 2 * x.gaps.length) :
    byteAt (x.bytes ++ rest) (4 + x.patternSeg.length + o) = byteAt (BitVec.ofNat 8 x.gaps.length :: x.gapBytes) o := by
  have hseg : x.gapSeg = BitVec.ofNat 8 x.gaps.length :: x.gapBytes := if_pos h
  have hhead : x.head.length = 4 := rfl
  have hlength : x.gapBytes.length = 2 * x.gaps.length := gapBytes_length _
  rw [bytes_append, ← hhead, Nat.add_assoc, byteAt_append_right, byteAt_append_right, hseg,
    byteAt_append_left (by rw [List.length_cons, hlength]; omega)]

theorem fieldAt_range (h : x.has 3 = true) (hf : x.Fits) (ho : o + n ≤ 8) :
    fieldAt (x.bytes ++ rest) (4 + x.patternSeg.length + x.gapSeg.length + o) n = fieldAt x.range o n := by
  have hseg : x.rangeSeg = x.range := if_pos h
  have hhead : x.head.length = 4 := rfl
  rw [bytes_append, ← hhead, Nat.add_assoc, Nat.add_assoc, fieldAt_append, fieldAt_append, fieldAt_append, hseg,
    fieldAt_append_left (by rw [hf.range]; exact ho)]

theorem fieldAt_limit (h : x.has 4 = true) (hf : x.Fits) :
    fieldAt (x.bytes ++ rest) (4 + x.patternSeg.length + x.gapSeg.length + x.rangeSeg.length) 4 = fieldAt x.limit 0 4 := by
  have hseg : x.limitSeg = x.limit := if_pos h
  have hhead : x.head.length = 4 := rfl
  have hoffset : 4 + x.patternSeg.length + x.gapSeg.length + x.rangeSeg.length =
      x.head.length + (x.patternSeg.length + (x.gapSeg.length + (x.rangeSeg.length + 0))) := by omega
  rw [bytes_append, hoffset, fieldAt_append, fieldAt_append, fieldAt_append, fieldAt_append, hseg,
    fieldAt_append_left (by rw [hf.limit])]

end

theorem byteAt_count {n : Nat} (h : n < 256) (b : List Byte) : byteAt (BitVec.ofNat 8 n :: b) 0 = n := toNat_ofNat_byte h

theorem patternCount_eq (h : x.Fits) (rest : List Byte) :
    (if x.has 1 then byteAt (x.bytes ++ rest) 4 else 0) = if x.has 1 then x.pattern.length else 0 := by
  split
  · next h1 => rw [← Nat.add_zero 4, byteAt_pattern rest 0 h1 (by omega), byteAt_count h.pattern]
  · rfl

theorem gapCount_eq (h : x.Fits) (rest : List Byte) :
    (if x.has 2 then byteAt (x.bytes ++ rest) (4 + x.patternSeg.length) else 0) = if x.has 2 then x.gaps.length else 0 := by
  split
  · next h2 => rw [← Nat.add_zero (4 + x.patternSeg.length), byteAt_gaps rest 0 h2 (by omega), byteAt_count h.gaps]
  · rfl

/-- A plan from its options, its counts and the place of its gaps. -/
theorem rulePlan_of {b : List Byte} {options patternCount gapsAt gapCount : Nat} (ho : byteAt b 3 = options)
    (hp : (if options.testBit 1 then byteAt b 4 else 0) = patternCount)
    (ha : 4 + (if options.testBit 1 then 1 + patternCount else 0) = gapsAt)
    (hg : (if options.testBit 2 then byteAt b gapsAt else 0) = gapCount) : rulePlan b =
      { options := options, patternAt := 4, patternCount := patternCount, gapsAt := gapsAt, gapCount := gapCount
        rangeAt := gapsAt + (if options.testBit 2 then 1 + 2 * gapCount else 0)
        limitAt := gapsAt + (if options.testBit 2 then 1 + 2 * gapCount else 0) + (if options.testBit 3 then 8 else 0)
        size := gapsAt + (if options.testBit 2 then 1 + 2 * gapCount else 0) + (if options.testBit 3 then 8 else 0) +
          (if options.testBit 4 then 4 else 0) } := by
  subst ho hp ha hg
  rfl

/-- The plan reads the parts where they lie, whatever follows the rule (R197). -/
theorem rulePlan_bytes (h : x.Fits) (rest : List Byte) : rulePlan (x.bytes ++ rest) = x.plan := by
  have hoptions : byteAt (x.bytes ++ rest) 3 = x.options.toNat := by
    rw [bytes_append]
    rfl
  have hpattern : 4 + (if x.has 1 then 1 + (if x.has 1 then x.pattern.length else 0) else 0) = 4 + x.patternSeg.length := by
    rw [patternSeg_length]
    split <;> rfl
  have hgaps : (if x.has 2 then 1 + 2 * (if x.has 2 then x.gaps.length else 0) else 0) = x.gapSeg.length := by
    rw [gapSeg_length]
    split <;> rfl
  rw [rulePlan_of hoptions (patternCount_eq h rest) hpattern (gapCount_eq h rest), plan, bytes_length, rangeSeg_length h,
    limitSeg_length h, ← hgaps]
  rfl

theorem patternSizes_bytes (h : x.has 1 = true) (rest : List Byte) : patternSizes (x.bytes ++ rest) x.plan = x.pattern.map BitVec.toNat := by
  have hcount : x.plan.patternCount = x.pattern.length := if_pos h
  refine List.ext_getElem (by simp [patternSizes, hcount]) fun i hi hi' => ?_
  have hlt : i < x.pattern.length := by simpa using hi'
  have hbyte : byteAt (x.bytes ++ rest) (4 + 1 + i) = byteAt (BitVec.ofNat 8 x.pattern.length :: x.pattern) (1 + i) := by
    rw [Nat.add_assoc]
    exact byteAt_pattern rest (1 + i) h (by omega)
  have hsize : (patternSizes (x.bytes ++ rest) x.plan)[i] = byteAt (x.bytes ++ rest) (4 + 1 + i) := by
    simp only [patternSizes, List.getElem_map, List.getElem_range]
    rfl
  rw [hsize, hbyte, Nat.add_comm, List.getElem_map]
  simp [byteAt, hlt]

/-- The bytes of the gap bounds lie in pairs. -/
theorem byteAt_gapBytes : ∀ (l : List (Byte × Byte)) (i : Nat) (h : i < l.length),
    byteAt (l.map fun g => [g.1, g.2]).flatten (2 * i) = l[i].1.toNat ∧
      byteAt (l.map fun g => [g.1, g.2]).flatten (2 * i + 1) = l[i].2.toNat
  | g :: l, 0, _ => ⟨rfl, rfl⟩
  | g :: l, i + 1, h => by
    obtain ⟨hlow, hhigh⟩ := byteAt_gapBytes l i (Nat.lt_of_succ_lt_succ h)
    exact ⟨hlow, hhigh⟩

theorem gapPairs_bytes (h : x.has 2 = true) (rest : List Byte) :
    gapPairs (x.bytes ++ rest) x.plan = x.gaps.map fun g => (g.1.toNat, g.2.toNat) := by
  have hcount : x.plan.gapCount = x.gaps.length := if_pos h
  refine List.ext_getElem (by simp [gapPairs, hcount]) fun i hi hi' => ?_
  have hlt : i < x.gaps.length := by simpa using hi'
  obtain ⟨hlow, hhigh⟩ := byteAt_gapBytes x.gaps i hlt
  have hpair : (gapPairs (x.bytes ++ rest) x.plan)[i] = (byteAt (x.bytes ++ rest) (4 + x.patternSeg.length + 1 + 2 * i),
      byteAt (x.bytes ++ rest) (4 + x.patternSeg.length + 2 + 2 * i)) := by
    simp only [gapPairs, List.getElem_map, List.getElem_range]
    rfl
  have hfirst : byteAt (x.bytes ++ rest) (4 + x.patternSeg.length + 1 + 2 * i) = x.gaps[i].1.toNat := by
    rw [Nat.add_assoc, byteAt_gaps rest (1 + 2 * i) h (by omega), Nat.add_comm 1]
    exact hlow
  have hsecond : byteAt (x.bytes ++ rest) (4 + x.patternSeg.length + 2 + 2 * i) = x.gaps[i].2.toNat := by
    have hindex : 2 + 2 * i = 2 * i + 1 + 1 := by omega
    rw [Nat.add_assoc, byteAt_gaps rest (2 + 2 * i) h (by omega), hindex]
    exact hhigh
  rw [hpair, hfirst, hsecond, List.getElem_map]

theorem fieldAt_four_wide (b : List Byte) (o : Nat) : fieldAt b o 4 = wide b o := by
  rw [fieldAt_four, wide]
  omega

theorem ruleValues_bytes (h : x.Fits) (rest : List Byte) : ruleValues (x.bytes ++ rest) x.plan = x.rule := by
  have hhead : byteAt (x.bytes ++ rest) 0 = x.code.toNat ∧ byteAt (x.bytes ++ rest) 1 = x.lo.toNat ∧
      byteAt (x.bytes ++ rest) 2 = x.hi.toNat := by
    rw [bytes_append]
    exact ⟨rfl, rfl, rfl⟩
  obtain ⟨hcode, hlo, hhi⟩ := hhead
  have hpattern : (if x.has 1 then some (patternSizes (x.bytes ++ rest) x.plan) else none) =
      if x.has 1 then some (x.pattern.map BitVec.toNat) else none := by
    split
    · next h1 => rw [patternSizes_bytes h1]
    · rfl
  have hgaps : (if x.has 2 then some (gapPairs (x.bytes ++ rest) x.plan) else none) =
      if x.has 2 then some (x.gaps.map fun g => (g.1.toNat, g.2.toNat)) else none := by
    split
    · next h2 => rw [gapPairs_bytes h2]
    · rfl
  have hrange : (if x.has 3 then some (fieldAt (x.bytes ++ rest) x.plan.rangeAt 4, fieldAt (x.bytes ++ rest) (x.plan.rangeAt + 4) 4)
      else none) = if x.has 3 then some (wide x.range 0, wide x.range 4) else none := by
    split
    · next h3 =>
      have hlow := fieldAt_range rest 0 4 h3 h (by omega)
      have hhigh := fieldAt_range rest 4 4 h3 h (by omega)
      rw [fieldAt_four_wide x.range] at hlow hhigh
      exact congrArg some (Prod.ext hlow hhigh)
    · rfl
  have hlimit : (if x.has 4 then some (fieldAt (x.bytes ++ rest) x.plan.limitAt 4) else none) =
      if x.has 4 then some (wide x.limit 0) else none := by
    split
    · next h4 => exact congrArg some ((fieldAt_limit rest h4 h).trans (fieldAt_four_wide _ _))
    · rfl
  rw [rule, ← hpattern, ← hgaps, ← hrange, ← hlimit, ← hcode, ← hlo, ← hhi]
  rfl

/-! ## A rule at the head of a payload (R197) -/

theorem bytes_ne_nil (rest : List Byte) : x.bytes ++ rest ≠ [] := by
  rw [bytes_append]
  exact List.cons_ne_nil _ _

theorem classRules_bytes (h : x.Fits) (rest : List Byte) : classRules (x.bytes ++ rest) = (classRules rest).map fun l =>
    { rule := x.rule, checks := ruleChecks (x.bytes ++ rest) x.plan 0 } :: l.map (shiftRule x.bytes.length) := by
  have hsize : x.plan.size = x.bytes.length := rfl
  rw [classRules_cons (bytes_ne_nil rest), rulePlan_bytes h, hsize, if_neg (by rw [List.length_append]; omega), List.drop_left,
    ruleValues_bytes h]

theorem classRules_take (h : x.Fits) {n : Nat} (hn : 0 < n) (hl : n < x.bytes.length) : classRules (x.bytes.take n) = none := by
  have hplan : (rulePlan x.bytes).size = x.bytes.length := by
    have hwhole := rulePlan_bytes h []
    rw [List.append_nil] at hwhole
    rw [hwhole]
    rfl
  have hlength : (x.bytes.take n).length = n := by rw [List.length_take]; omega
  have hne : x.bytes.take n ≠ [] := fun hnil => by rw [hnil] at hlength; exact absurd hlength hn.ne
  rw [classRules_cons hne, if_pos]
  rw [hlength]
  exact rulePlan_take x.bytes n (by rw [hplan]; exact hl)

end RuleParts

/-- Settles O8: the block taken, its values field by field, and the rules of a CLASS block one behind the other. -/
theorem passedBlockIsHeldAside : Obligations.PassedBlockIsHeldAside := by
  refine ⟨fun s l bytes kind hs hk hend hpass => ?_, fun l r kind => ?_, fun code lo hi options pattern gaps range limit rest => ?_⟩
  · intro held
    obtain ⟨hoffset, hindex⟩ := holdAside_next l kind (readBlock bytes)
    refine ⟨?_, hoffset.trans (by omega), hindex, fun hc => ?_⟩
    · rw [exec_configBlockRead hs, Part.takeBlock_of_pass hk hpass, if_neg hend]
      rfl
    · subst hc
      obtain ⟨rules, hrules⟩ := classRules_of_pass (knownBlockFault_of_pass hk hpass)
      refine ⟨rules, hrules, (holdAside_rules l (readBlock bytes)).trans ?_⟩
      rw [hrules, Option.getD_some]
  · intro held u u2 u3 u4 s2 probe limit output
    obtain ⟨hstation, hstrips, hassembly, hprobes, hfactors, htriggers, hrules⟩ := holdAside_fields l kind r
    refine ⟨hstation, hstrips.trans ?_, hassembly.trans ?_, hprobes.trans ?_, fun h0 h1 => hfactors.trans ?_, fun hf => ?_,
      htriggers.trans ?_, hrules⟩
    · rw [stripsValues_eq]
      rfl
    · rw [assemblyValues_eq, limitValue_eq, limitValue_eq, limitValue_eq, limitValue_eq]
      rfl
    · rw [probesValues, probeValues_eq, probeValues_eq, signedAt_bytes, signedAt_bytes, signedAt_bytes]
      rfl
    · rw [factorsValues, temperaturePoints_eq h0, speedPoints_eq h1]
      simp only [signedAt_bytes]
      rfl
    · rw [hfactors, if_neg hf]
    · rw [triggersValues, triggerValues_eq, triggerValues_eq, triggerValues_eq]
      rfl
  · intro has pairs u4 bytes rule hpattern hgaps hrange hlimit
    let x : RuleParts := ⟨code, lo, hi, options, pattern, gaps, range, limit⟩
    have hfits : x.Fits := ⟨hpattern, hgaps, hrange, hlimit⟩
    refine ⟨?_, fun n hn hl => RuleParts.classRules_take (x := x) hfits hn hl⟩
    have hhead : classRules (bytes ++ rest) = _ := RuleParts.classRules_bytes (x := x) hfits rest
    rw [hhead, Option.map_map]
    refine congrArg (fun f => (classRules rest).map f) (funext fun l => congrArg (List.cons rule) ?_)
    rw [List.map_map]
    rfl

end Sys2Proof.Machine
end


section
/-! PROOFS. The range checks of a block (R136, R177, R194, R197): each field at its own offset with its own condition. -/

namespace Sys2Proof.Machine

/-! ## Checks against conditions -/

/-- A check stands for a field: it lies at the field's offset, and holds when the field's condition does. -/
def Checks (c : FieldCheck) (f : Nat × Prop) : Prop := c.1 = f.1 ∧ (c.2 = true ↔ f.2)

section
variable {cs ds : List FieldCheck} {fs gs : List (Nat × Prop)}

theorem checks_append (h : List.Forall₂ Checks cs fs) (h' : List.Forall₂ Checks ds gs) : List.Forall₂ Checks (cs ++ ds) (fs ++ gs) := by
  induction h with
  | nil => exact h'
  | cons hc _ ih => exact .cons hc ih

theorem checks_flatMap {α : Type} (l : List α) {f : α → List FieldCheck} {g : α → List (Nat × Prop)}
    (h : ∀ a, List.Forall₂ Checks (f a) (g a)) : List.Forall₂ Checks (l.flatMap f) (l.flatMap g) := by
  induction l with
  | nil => exact .nil
  | cons a l ih => exact checks_append (h a) ih

theorem checks_map {α : Type} (l : List α) {f : α → FieldCheck} {g : α → Nat × Prop} (h : ∀ a, Checks (f a) (g a)) :
    List.Forall₂ Checks (l.map f) (l.map g) := by
  induction l with
  | nil => exact .nil
  | cons a l ih => exact .cons (h a) ih

end

theorem within_iff {lo hi x : Nat} : within lo hi x = true ↔ lo ≤ x ∧ x ≤ hi := by simp [within]

theorem withinInt_iff {lo hi x : Int} : withinInt lo hi x = true ↔ lo ≤ x ∧ x ≤ hi := by simp [withinInt]

theorem testBit_iff {x n : Nat} : x.testBit n = true ↔ x / 2 ^ n % 2 = 1 := by
  rw [Nat.testBit_eq_decide_div_mod_eq, decide_eq_true_iff]

theorem not_or_iff {a b : Bool} : (!a || b) = true ↔ (a = true → b = true) := by cases a <;> simp

/-! ## The first field out of range (R177) -/

section
variable {fields : List FieldCheck} {o : Nat}

theorem firstBad_cons_bad (rest : List FieldCheck) : firstBad ((o, false) :: rest) = some o := rfl

theorem firstBad_cons_good (rest : List FieldCheck) : firstBad ((o, true) :: rest) = firstBad rest := rfl

theorem firstBad_some_iff (fields : List FieldCheck) (o : Nat) : firstBad fields = some o ↔
    ∃ before after, fields = before ++ (o, false) :: after ∧ ∀ f ∈ before, f.2 = true := by
  constructor
  · intro h
    obtain ⟨⟨m, good⟩, hfind, rfl⟩ := Option.map_eq_some_iff.1 h
    obtain ⟨hbad, before, after, hsplit, hbefore⟩ := List.find?_eq_some_iff_append.1 hfind
    obtain rfl : good = false := by simpa using hbad
    exact ⟨before, after, hsplit, fun f hf => by simpa using hbefore f hf⟩
  · rintro ⟨before, after, rfl, hbefore⟩
    rw [firstBad, find?_append_cons (fun f hf => by rw [hbefore f hf]; rfl) rfl]
    rfl

end

/-! ## The fields of the blocks (section 12.5) -/

section
variable {b : List Byte}

/-- A 16-bit field. -/
def two (b : List Byte) (o : Nat) : Nat := byteAt b o + 256 * byteAt b (o + 1)

/-- A 24-bit field. -/
def three (b : List Byte) (o : Nat) : Nat := two b o + 65536 * byteAt b (o + 2)

/-- A 32-bit field. -/
def four (b : List Byte) (o : Nat) : Nat := two b o + 65536 * two b (o + 2)

/-- A signed 16-bit field. -/
def signedTwo (b : List Byte) (o : Nat) : Int := if two b o < 32768 then two b o else two b o - 65536

theorem fieldAt_two_eq (b : List Byte) (o : Nat) : fieldAt b o 2 = two b o := fieldAt_two b o

theorem fieldAt_three_eq (b : List Byte) (o : Nat) : fieldAt b o 3 = three b o := fieldAt_three b o

theorem fieldAt_four_eq (b : List Byte) (o : Nat) : fieldAt b o 4 = four b o := fieldAt_four b o

theorem signedAt_two (b : List Byte) (o : Nat) : signedAt b o = signedTwo b o := signedAt_bytes b o

theorem checks_within {o lo hi x y : Nat} (h : x = y) : Checks (o, within lo hi x) (o, lo ≤ y ∧ y ≤ hi) := ⟨rfl, h ▸ within_iff⟩

theorem checks_decide {o : Nat} {p q : Prop} [Decidable p] (h : p ↔ q) : Checks (o, decide p) (o, q) := ⟨rfl, decide_eq_true_iff.trans h⟩

theorem stationChecks_fields (b : List Byte) : List.Forall₂ Checks (stationChecks b)
    [(0, 1 ≤ byteAt b 0 ∧ byteAt b 0 ≤ 14), (1, byteAt b 1 ≤ 3),
      (2, byteAt b 1 / 2 ^ 0 % 2 = 1 → 1 ≤ byteAt b 2 ∧ byteAt b 2 ≤ 14 ∧ byteAt b 2 ≠ byteAt b 0),
      (3, byteAt b 1 / 2 ^ 1 % 2 = 1 → 1 ≤ byteAt b 3 ∧ byteAt b 3 ≤ 14 ∧ byteAt b 3 ≠ byteAt b 0 ∧
        (byteAt b 1 / 2 ^ 0 % 2 = 1 → byteAt b 3 ≠ byteAt b 2)),
      (4, 1 ≤ byteAt b 4 ∧ byteAt b 4 ≤ 3), (5, byteAt b 5 ≤ 2), (6, byteAt b 6 ≤ 50), (7, byteAt b 7 ≤ 1), (8, byteAt b 8 ≤ 31)] := by
  have hleft : Checks (2, !(byteAt b 1).testBit 0 || (within 1 14 (byteAt b 2) && decide (byteAt b 2 ≠ byteAt b 0)))
      (2, byteAt b 1 / 2 ^ 0 % 2 = 1 → 1 ≤ byteAt b 2 ∧ byteAt b 2 ≤ 14 ∧ byteAt b 2 ≠ byteAt b 0) := by
    refine ⟨rfl, ?_⟩
    rw [not_or_iff, testBit_iff, Bool.and_eq_true, within_iff, decide_eq_true_iff, and_assoc]
  have hright : Checks (3, !(byteAt b 1).testBit 1 || (within 1 14 (byteAt b 3) && decide (byteAt b 3 ≠ byteAt b 0) &&
        !((byteAt b 1).testBit 0 && decide (byteAt b 3 = byteAt b 2))))
      (3, byteAt b 1 / 2 ^ 1 % 2 = 1 → 1 ≤ byteAt b 3 ∧ byteAt b 3 ≤ 14 ∧ byteAt b 3 ≠ byteAt b 0 ∧
        (byteAt b 1 / 2 ^ 0 % 2 = 1 → byteAt b 3 ≠ byteAt b 2)) := by
    refine ⟨rfl, ?_⟩
    rw [not_or_iff, testBit_iff, Bool.and_eq_true, Bool.and_eq_true, within_iff, decide_eq_true_iff, Bool.not_and, not_or_iff,
      testBit_iff, Bool.not_eq_true', decide_eq_false_iff_not, and_assoc, and_assoc]
  exact .cons (checks_within rfl) <| .cons (checks_decide Nat.lt_succ_iff) <| .cons hleft <| .cons hright <|
    .cons (checks_within rfl) <| .cons (checks_decide Nat.lt_succ_iff) <| .cons (checks_decide Iff.rfl) <|
    .cons (checks_decide Nat.lt_succ_iff) <| .cons (checks_decide Nat.lt_succ_iff) .nil

theorem stripsChecks_fields (b : List Byte) : List.Forall₂ Checks (stripsChecks b)
    [(0, 1000 ≤ two b 0 ∧ two b 0 ≤ 6000), (2, 16 ≤ two b 2 ∧ two b 2 ≤ 32767), (4, 8 ≤ two b 4 ∧ two b 4 < two b 2),
      (6, 1 ≤ byteAt b 6 ∧ byteAt b 6 ≤ 64), (7, 80 ≤ two b 7 ∧ two b 7 ≤ 16000), (9, 10 ≤ two b 9 ∧ two b 9 ≤ 600),
      (11, 100 ≤ two b 11 ∧ two b 11 ≤ 16000), (13, 2 ≤ byteAt b 13 ∧ byteAt b 13 ≤ 15)] := by
  have hoff : Checks (4, decide (8 ≤ fieldAt b 4 2) && decide (fieldAt b 4 2 < fieldAt b 2 2)) (4, 8 ≤ two b 4 ∧ two b 4 < two b 2) := by
    refine ⟨rfl, ?_⟩
    rw [Bool.and_eq_true, decide_eq_true_iff, decide_eq_true_iff, fieldAt_two_eq, fieldAt_two_eq]
  exact .cons (checks_within (fieldAt_two_eq b 0)) <| .cons (checks_within (fieldAt_two_eq b 2)) <| .cons hoff <|
    .cons (checks_within rfl) <| .cons (checks_within (fieldAt_two_eq b 7)) <| .cons (checks_within (fieldAt_two_eq b 9)) <|
    .cons (checks_within (fieldAt_two_eq b 11)) <| .cons (checks_within rfl) .nil

theorem limitCheck_field (b : List Byte) (bit o : Nat) : Checks (limitCheck b bit o)
    (o, byteAt b 9 / 2 ^ bit % 2 = 1 → 1000 ≤ four b o ∧ four b o ≤ 1000000) := by
  refine ⟨rfl, ?_⟩
  rw [limitCheck, not_or_iff, testBit_iff, within_iff, fieldAt_four_eq]

theorem assemblyChecks_fields (b : List Byte) : List.Forall₂ Checks (assemblyChecks b)
    [(0, 50 ≤ two b 0 ∧ two b 0 ≤ 1500), (2, 5 ≤ byteAt b 2 ∧ byteAt b 2 ≤ 200), (3, 2000 ≤ two b 3 ∧ two b 3 ≤ 20000),
      (5, 200 ≤ two b 5 ∧ two b 5 ≤ 5000), (7, 500 ≤ two b 7 ∧ two b 7 ≤ 3000), (9, byteAt b 9 ≤ 15),
      (10, byteAt b 9 / 2 ^ 0 % 2 = 1 → 1000 ≤ four b 10 ∧ four b 10 ≤ 1000000),
      (14, byteAt b 9 / 2 ^ 1 % 2 = 1 → 1000 ≤ four b 14 ∧ four b 14 ≤ 1000000),
      (18, byteAt b 9 / 2 ^ 2 % 2 = 1 → 1000 ≤ four b 18 ∧ four b 18 ≤ 1000000),
      (22, byteAt b 9 / 2 ^ 3 % 2 = 1 → 1000 ≤ four b 22 ∧ four b 22 ≤ 1000000)] :=
  .cons (checks_within (fieldAt_two_eq b 0)) <| .cons (checks_within rfl) <| .cons (checks_within (fieldAt_two_eq b 3)) <|
    .cons (checks_within (fieldAt_two_eq b 5)) <| .cons (checks_within (fieldAt_two_eq b 7)) <|
    .cons (checks_decide Nat.lt_succ_iff) <| .cons (limitCheck_field b 0 10) <| .cons (limitCheck_field b 1 14) <|
    .cons (limitCheck_field b 2 18) <| .cons (limitCheck_field b 3 22) .nil

theorem checks_signed {lo hi : Int} (b : List Byte) (o : Nat) :
    Checks (o, withinInt lo hi (signedAt b o)) (o, lo ≤ signedTwo b o ∧ signedTwo b o ≤ hi) := by
  refine ⟨rfl, ?_⟩
  rw [withinInt_iff, signedAt_two]

theorem probeChecks_fields (b : List Byte) (o : Nat) : List.Forall₂ Checks (probeChecks b o)
    [(o, byteAt b o ≤ 1), (o + 1, 1 ≤ two b (o + 1)), (o + 3, -2000 ≤ signedTwo b (o + 3) ∧ signedTwo b (o + 3) ≤ 2000)] :=
  .cons (checks_decide Nat.lt_succ_iff) <| .cons (checks_decide (by rw [fieldAt_two_eq])) <| .cons (checks_signed b (o + 3)) .nil

theorem triggerChecks_fields (b : List Byte) (o : Nat) : List.Forall₂ Checks (triggerChecks b o)
    [(o, byteAt b o ≤ 15 ∧ byteAt b o / 4 ≠ 3), (o + 1, 1 ≤ four b (o + 1) ∧ four b (o + 1) ≤ 1000000), (o + 9, two b (o + 9) ≤ 60000),
      (o + 11, 1 ≤ two b (o + 11) ∧ two b (o + 11) ≤ 1000)] := by
  have hoptions : Checks (o, decide (byteAt b o < 16) && decide (byteAt b o / 4 ≠ 3)) (o, byteAt b o ≤ 15 ∧ byteAt b o / 4 ≠ 3) := by
    refine ⟨rfl, ?_⟩
    rw [Bool.and_eq_true, decide_eq_true_iff, decide_eq_true_iff]
    exact and_congr_left fun _ => Nat.lt_succ_iff
  exact .cons hoptions <| .cons (checks_within (fieldAt_four_eq b (o + 1))) <| .cons (checks_decide (by rw [fieldAt_two_eq])) <|
    .cons (checks_within (fieldAt_two_eq b (o + 11))) .nil

/-! ## The points of a factor table (R197) -/

theorem zipIdx_map_range {α : Type} (n : Nat) (f : Nat → α) : ((List.range n).map f).zipIdx = (List.range n).map fun i => (f i, i) :=
  List.ext_getElem (by simp) fun i _ _ => by simp

theorem pointChecks_fields {first size keySize : Nat} {lo hi : Int} (n : Nat) (key : Nat → Int) (factor : Nat → Nat) :
    List.Forall₂ Checks (pointChecks first size keySize lo hi ((List.range n).map fun i => { key := key i, factor := factor i }))
      ((List.range n).flatMap fun i => [(first + size * i, lo ≤ key i ∧ key i ≤ hi),
        (first + size * i + keySize, 16384 ≤ factor i ∧ factor i ≤ 65535)]) := by
  rw [pointChecks, zipIdx_map_range, List.map_map, ← List.flatMap_def]
  exact checks_flatMap _ fun i => .cons ⟨rfl, withinInt_iff⟩ <| .cons ⟨rfl, within_iff⟩ .nil

theorem temperatureChecks_fields (h : byteAt b 0 ≤ 8) : List.Forall₂ Checks (pointChecks 2 4 2 (-400) 800 (temperaturePoints b))
    ((List.range (byteAt b 0)).flatMap fun i => [(2 + 4 * i, -400 ≤ signedTwo b (2 + 4 * i) ∧ signedTwo b (2 + 4 * i) ≤ 800),
      (4 + 4 * i, 16384 ≤ two b (4 + 4 * i) ∧ two b (4 + 4 * i) ≤ 65535)]) := by
  have hoffset (i : Nat) : 4 + 4 * i = 2 + 4 * i + 2 := by omega
  simp only [temperaturePoints_eq h, signedAt_two, hoffset]
  exact pointChecks_fields _ (fun i => signedTwo b (2 + 4 * i)) fun i => two b (2 + 4 * i + 2)

theorem speedChecks_fields (h : byteAt b 1 ≤ 8) : List.Forall₂ Checks (pointChecks 34 5 3 vMin vMax (speedPoints b))
    ((List.range (byteAt b 1)).flatMap fun i => [(34 + 5 * i, 1389 ≤ three b (34 + 5 * i) ∧ three b (34 + 5 * i) ≤ 69444),
      (37 + 5 * i, 16384 ≤ two b (37 + 5 * i) ∧ two b (37 + 5 * i) ≤ 65535)]) := by
  have hoffset (i : Nat) : 37 + 5 * i = 34 + 5 * i + 3 := by omega
  have hkey (i : Nat) : (1389 ≤ three b (34 + 5 * i) ∧ three b (34 + 5 * i) ≤ 69444) ↔
      ((vMin : Int) ≤ (three b (34 + 5 * i) : Int) ∧ (three b (34 + 5 * i) : Int) ≤ (vMax : Int)) := by
    rw [Int.ofNat_le, Int.ofNat_le]
    rfl
  simp only [speedPoints_eq h, hoffset, hkey]
  exact pointChecks_fields _ (fun i => (three b (34 + 5 * i) : Int)) fun i => two b (34 + 5 * i + 3)

end

end Sys2Proof.Machine
end


section
/-! PROOFS. The checks of a CLASS payload, rule behind rule (R136, R197), and all range checks together. -/

namespace Sys2Proof.Machine

namespace RuleParts

variable {x : RuleParts}

/-- The checks of a rule, from its first byte (R177). -/
def checks (x : RuleParts) : List FieldCheck :=
  ([(0, within 1 31 x.code.toNat), (1, within 1 12 x.lo.toNat), (2, within 1 12 x.hi.toNat), (3, decide (x.options.toNat < 32))] :
    List FieldCheck) ++
    (if x.has 1 then (4, within 1 6 x.pattern.length) ::
      (x.pattern.map BitVec.toNat).zipIdx.map fun y => (5 + y.2, within 1 12 y.1) else []) ++
    (if x.has 2 then [(x.plan.gapsAt, within 1 11 x.gaps.length)] else []) ++
    (if x.has 4 then [(x.plan.limitAt, decide (1 ≤ fieldAt x.limit 0 4))] else [])

/-- The checks of a rule do not depend on what follows it. -/
theorem ruleChecks_bytes (h : x.Fits) (rest : List Byte) : ruleChecks (x.bytes ++ rest) x.plan 0 = x.checks := by
  have hhead : byteAt (x.bytes ++ rest) 0 = x.code.toNat ∧ byteAt (x.bytes ++ rest) 1 = x.lo.toNat ∧
      byteAt (x.bytes ++ rest) 2 = x.hi.toNat := by
    rw [bytes_append]
    exact ⟨rfl, rfl, rfl⟩
  obtain ⟨hcode, hlo, hhi⟩ := hhead
  have hpattern : (if x.has 1 then (0 + x.plan.patternAt, within 1 6 x.plan.patternCount) ::
        (patternSizes (x.bytes ++ rest) x.plan).zipIdx.map fun y => (0 + x.plan.patternAt + 1 + y.2, within 1 12 y.1) else []) =
      if x.has 1 then (4, within 1 6 x.pattern.length) ::
        (x.pattern.map BitVec.toNat).zipIdx.map fun y => (5 + y.2, within 1 12 y.1) else [] := by
    split
    · next h1 =>
      have hcount : x.plan.patternCount = x.pattern.length := if_pos h1
      rw [patternSizes_bytes h1, hcount]
      rfl
    · rfl
  have hgaps : (if x.has 2 then [(0 + x.plan.gapsAt, within 1 11 x.plan.gapCount)] else []) =
      if x.has 2 then [(x.plan.gapsAt, within 1 11 x.gaps.length)] else [] := by
    split
    · next h2 =>
      have hcount : x.plan.gapCount = x.gaps.length := if_pos h2
      rw [hcount, Nat.zero_add]
    · rfl
  have hlimit : (if x.has 4 then [(0 + x.plan.limitAt, decide (1 ≤ fieldAt (x.bytes ++ rest) x.plan.limitAt 4))] else []) =
      if x.has 4 then [(x.plan.limitAt, decide (1 ≤ fieldAt x.limit 0 4))] else [] := by
    split
    · next h4 =>
      have hfield : fieldAt (x.bytes ++ rest) x.plan.limitAt 4 = fieldAt x.limit 0 4 := fieldAt_limit rest h4 h
      rw [hfield, Nat.zero_add]
    · rfl
  rw [checks, ← hpattern, ← hgaps, ← hlimit, ← hcode, ← hlo, ← hhi]
  rfl

/-- The checks of the payload's rules are those of the first, and those of the others moved behind it. -/
theorem blockChecks_bytes_append (h : x.Fits) {rest : List Byte} (hr : (classRules rest).isSome = true) :
    blockChecks .classes (x.bytes ++ rest) = x.checks ++ shiftChecks x.bytes.length (blockChecks .classes rest) := by
  obtain ⟨rules, hrules⟩ := Option.isSome_iff_exists.1 hr
  have hall (l : List ParsedRule) : ((l.map (shiftRule x.bytes.length)).map ParsedRule.checks).flatten =
      shiftChecks x.bytes.length (l.map ParsedRule.checks).flatten := by
    rw [shiftChecks, List.map_flatten, List.map_map, List.map_map]
    rfl
  simp only [blockChecks, classRules_bytes h, hrules, Option.map_some, Option.getD_some, List.map_cons, List.flatten_cons,
    ruleChecks_bytes h, hall]

theorem blockChecks_bytes (h : x.Fits) : blockChecks .classes x.bytes = x.checks := by
  have hwhole := blockChecks_bytes_append (rest := []) h rfl
  rw [List.append_nil] at hwhole
  rw [hwhole]
  exact List.append_nil _

theorem leValue_pos_iff (l : List Byte) : 1 ≤ leValue l ↔ ∃ n ∈ l, n ≠ 0 := by
  induction l with
  | nil => simp [leValue]
  | cons n l ih =>
    have hzero : n ≠ 0 ↔ n.toNat ≠ 0 := by
      rw [ne_eq, ← BitVec.toNat_inj]
      rfl
    rw [leValue, List.exists_mem_cons_iff, ← ih, hzero]
    omega

theorem limit_pos_iff (h : x.Fits) : 1 ≤ fieldAt x.limit 0 4 ↔ ∃ n ∈ x.limit, n ≠ 0 := by
  have hwhole : fieldAt x.limit 0 4 = leValue x.limit := by
    rw [fieldAt, List.drop_zero, List.take_of_length_le h.limit.le]
  rw [hwhole, leValue_pos_iff]

theorem gapsAt_eq : x.plan.gapsAt = if x.has 1 then 5 + x.pattern.length else 4 := by
  have hplan : x.plan.gapsAt = 4 + x.patternSeg.length := rfl
  rw [hplan, patternSeg_length]
  split
  · omega
  · rfl

theorem limitAt_eq (h : x.Fits) (h4 : x.has 4 = true) : x.plan.limitAt = x.bytes.length - 4 := by
  have hplan : x.plan.limitAt = 4 + x.patternSeg.length + x.gapSeg.length + x.rangeSeg.length := rfl
  rw [hplan, bytes_length, limitSeg_length h, if_pos h4]
  omega

/-- The fields of a rule with their conditions (R136, R197). -/
def fields (x : RuleParts) : List (Nat × Prop) :=
  [(0, 1 ≤ x.code.toNat ∧ x.code.toNat ≤ 31), (1, 1 ≤ x.lo.toNat ∧ x.lo.toNat ≤ 12), (2, 1 ≤ x.hi.toNat ∧ x.hi.toNat ≤ 12),
    (3, x.options.toNat ≤ 31)] ++
    (if x.has 1 then (4, 1 ≤ x.pattern.length ∧ x.pattern.length ≤ 6) ::
      x.pattern.zipIdx.map (fun y => (5 + y.2, 1 ≤ y.1.toNat ∧ y.1.toNat ≤ 12)) else []) ++
    (if x.has 2 then [(if x.has 1 then 5 + x.pattern.length else 4, 1 ≤ x.gaps.length ∧ x.gaps.length ≤ 11)] else []) ++
    (if x.has 4 then [(x.bytes.length - 4, ∃ n ∈ x.limit, n ≠ 0)] else [])

theorem checks_fields (h : x.Fits) : List.Forall₂ Checks x.checks x.fields := by
  unfold checks fields
  refine checks_append (checks_append (checks_append ?_ ?_) ?_) ?_
  · exact .cons (checks_within rfl) <| .cons (checks_within rfl) <| .cons (checks_within rfl) <| .cons (checks_decide Nat.lt_succ_iff) .nil
  · split
    · refine .cons (checks_within rfl) ?_
      rw [List.zipIdx_map, List.map_map]
      exact checks_map _ fun y => ⟨rfl, within_iff⟩
    · exact .nil
  · split
    · exact .cons ⟨gapsAt_eq, within_iff⟩ .nil
    · exact .nil
  · split
    · next h4 => exact .cons ⟨limitAt_eq h h4, decide_eq_true_iff.trans (limit_pos_iff h)⟩ .nil
    · exact .nil

end RuleParts

/-! ## The counts of a factor table (R197) -/

section
variable {b : List Byte}

theorem factorsChecks_fields (h0 : byteAt b 0 ≤ 8) (h1 : byteAt b 1 ≤ 8) : List.Forall₂ Checks (factorsChecks b)
    ([(0, True), (1, True)] ++
      (List.range (byteAt b 0)).flatMap (fun i => [(2 + 4 * i, -400 ≤ signedTwo b (2 + 4 * i) ∧ signedTwo b (2 + 4 * i) ≤ 800),
        (4 + 4 * i, 16384 ≤ two b (4 + 4 * i) ∧ two b (4 + 4 * i) ≤ 65535)]) ++
      (List.range (byteAt b 1)).flatMap fun i => [(34 + 5 * i, 1389 ≤ three b (34 + 5 * i) ∧ three b (34 + 5 * i) ≤ 69444),
        (37 + 5 * i, 16384 ≤ two b (37 + 5 * i) ∧ two b (37 + 5 * i) ≤ 65535)]) :=
  checks_append (checks_append (.cons (checks_decide (iff_true_intro h0)) <| .cons (checks_decide (iff_true_intro h1)) .nil)
    (temperatureChecks_fields h0)) (speedChecks_fields h1)

theorem firstBad_factors_temperature (h : 8 < byteAt b 0) : firstBad (blockChecks .factors b) = some 0 := by
  have hbad : decide (byteAt b 0 ≤ 8) = false := decide_eq_false (Nat.not_le.2 h)
  simp only [blockChecks, factorsChecks, hbad]
  exact firstBad_cons_bad _

theorem firstBad_factors_speed (h0 : byteAt b 0 ≤ 8) (h : 8 < byteAt b 1) : firstBad (blockChecks .factors b) = some 1 := by
  have hgood : decide (byteAt b 0 ≤ 8) = true := decide_eq_true h0
  have hbad : decide (byteAt b 1 ≤ 8) = false := decide_eq_false (Nat.not_le.2 h)
  simp only [blockChecks, factorsChecks, hgood, hbad]
  exact (firstBad_cons_good _).trans (firstBad_cons_bad _)

end

/-- Settles O11: the first bad field, the fields of every block kind, and those of a class rule. -/
theorem blockRanges : Obligations.BlockRanges := by
  refine ⟨firstBad_some_iff, fun fields => firstBad_none, fun b => ?_, fun code lo hi options pattern gaps range limit rest => ?_⟩
  · intro u u2 u3 u4 s2 bit tests limit probe output factor
    have hprobe (o : Nat) : List.Forall₂ Checks (probeChecks b o) (probe o) := probeChecks_fields b o
    have houtput (o : Nat) : List.Forall₂ Checks (triggerChecks b o) (output o) := triggerChecks_fields b o
    have hprobes : List.Forall₂ Checks (probesChecks b) (probe 0 ++ probe 5 ++ [(10, 1 ≤ u 10 ∧ u 10 ≤ 60),
        (11, -400 ≤ s2 11 ∧ s2 11 ≤ 800)]) :=
      checks_append (checks_append (hprobe 0) (hprobe 5)) (.cons (checks_within rfl) <| .cons (checks_signed b 11) .nil)
    have htriggers : List.Forall₂ Checks (triggersChecks b) (output 0 ++ output 13 ++ output 26) :=
      checks_append (checks_append (houtput 0) (houtput 13)) (houtput 26)
    exact ⟨stationChecks_fields b, stripsChecks_fields b, assemblyChecks_fields b, hprobes, factorsChecks_fields,
      firstBad_factors_temperature, firstBad_factors_speed, htriggers, rfl⟩
  · intro has pairs bytes gapsAt fields hpattern hgaps hrange hlimit
    let x : RuleParts := ⟨code, lo, hi, options, pattern, gaps, range, limit⟩
    have hfits : x.Fits := ⟨hpattern, hgaps, hrange, hlimit⟩
    have hbytes : bytes = x.bytes := rfl
    have hfields : fields = x.fields := rfl
    rw [hbytes, hfields, RuleParts.blockChecks_bytes hfits]
    exact ⟨RuleParts.checks_fields hfits, fun hr => RuleParts.blockChecks_bytes_append hfits hr⟩

end Sys2Proof.Machine
end
